-- ==== Sys2Proof/Word.lean ====
section
/-! DEFINITION. The words of the manual: bytes, speech blocks, tables, clock values and the enumerated values
written in capitals (00_scope.md, Conventions). -/

namespace Sys2Proof

/-- One byte on a port. -/
abbrev Byte := BitVec 8

/-- A speech block: 32 samples of 16 bits, 64 bytes on a port, the first byte the most significant
(12_formats.md, Speech block). The part copies blocks and never computes with a sample. -/
abbrev SpeechBlock := BitVec 512

/-- 32 samples of 0 (12_formats.md, Speech block). -/
def silence : SpeechBlock := 0#512

/-- A set of records keyed by a number (00_scope.md, Conventions), in rising key order, no key twice. -/
abbrev Table (α : Type) := List (Nat × α)

/-- The value at which every counter saturates (00_scope.md, Conventions). -/
def counterMax : Nat := 4294967295

/-- A date and a time of day to the second (R163). -/
structure Clock where
  year : Nat
  month : Nat
  day : Nat
  hour : Nat
  minute : Nat
  second : Nat
  deriving DecidableEq, Repr

/-- A language label of three characters (R1). -/
structure Label where
  first : Char
  second : Char
  third : Char
  deriving DecidableEq, Repr

/-- The operating modes (R177). -/
inductive Mode where
  | setup | rehearsal | session
  deriving DecidableEq, Repr

/-- Fallback policy of a channel (R1). -/
inductive Fallback where
  | floor | silence
  deriving DecidableEq, Repr

/-- The part-wide stamp mode (R2, R8). -/
inductive StampMode where
  | last | first
  deriving DecidableEq, Repr

/-- State of an air block (R15). -/
inductive AirState where
  | interpreted | fallback | muted | underrun
  deriving DecidableEq, Repr

/-- Presence of a loop slot (R58). -/
inductive Presence where
  | unconfigured | absent | present
  deriving DecidableEq, Repr

/-- Loop status (R62). -/
inductive LoopStatus where
  | running | broken
  deriving DecidableEq, Repr

/-- Interlock mode of a booth (R24). -/
inductive Interlock where
  | refuse | takeover
  deriving DecidableEq, Repr

/-- Call mode of a booth (R24, R47). -/
inductive CallMode where
  | edge | hold
  deriving DecidableEq, Repr

/-- Selected output of a booth (R24). -/
inductive Output where
  | a | b
  deriving DecidableEq, Repr

/-- Relay source of a booth, also as a request or key names it (R24, R42, R43). -/
inductive RelaySource where
  | floor
  | booth (b : Nat)
  deriving DecidableEq, Repr

/-- Target of an outstanding offer (R24). -/
inductive OfferTarget where
  | any
  | slot (n : Nat)
  deriving DecidableEq, Repr

/-- Floor state of a booth with what R27 says is present in it: the live console in LIVE and OFFERED, the offer target and
offer expiry second in OFFERED only. -/
inductive FloorState where
  | silent
  | live (console : Nat)
  | offered (console : Nat) (target : OfferTarget) (expiry : Nat)
  deriving DecidableEq, Repr

/-- Refusal lamp codes, in the order of their values 01h to 0Bh (12_formats.md, Loop frame). -/
inductive LampCode where
  | notLiveMode | engaged | channelOff | interlock | noOffer | notForYou | notLive | badTarget | noChannel
  | relayCycle | relayDepth
  deriving DecidableEq, Repr

/-- The target a HANDOVER key carries (R32). -/
inductive HandoverTarget where
  | any
  | seat (n : Nat)
  deriving DecidableEq, Repr

/-- The eight key events (03_the_booth_loop.md, The loop frame). -/
inductive KeyEvent where
  | micOn
  | take
  | handover (target : HandoverTarget)
  | micOff
  | outputA
  | outputB
  | relay (source : RelaySource)
  | call
  deriving DecidableEq, Repr

/-- End reasons of a duty entry (R153). -/
inductive EndReason where
  | micOff | handover | takeover | output | absent | forced | channelOff | mode | cut | power | restart
  deriving DecidableEq, Repr

/-- Status of a duty entry (R149). -/
inductive DutyStatus where
  | opened | complete
  deriving DecidableEq, Repr

/-- Range status of a receiver (R66). -/
inductive RangeStatus where
  | unheard | inRange | outOfRange
  deriving DecidableEq, Repr

/-- State of a receiver (R88). -/
inductive ReceiverState where
  | available | held | issued | overdue | returnPending | lost | withdrawn
  deriving DecidableEq, Repr

/-- Kind of an air note (R80). -/
inductive NoteKind where
  | grant | deny | revoke
  deriving DecidableEq, Repr

/-- Kind of a statement and of the closure it records (R140). -/
inductive StatementKind where
  | returned | lost | recovered
  deriving DecidableEq, Repr

/-- State of an open batch (R112). -/
inductive BatchState where
  | opened | failed
  deriving DecidableEq, Repr

/-- State of an account (R128). -/
inductive AccountState where
  | opened | suspended
  deriving DecidableEq, Repr

/-- The two alarms (R169). -/
inductive AlarmName where
  | returnBy | sessionClose
  deriving DecidableEq, Repr

/-- Role of a station (R190). -/
inductive Role where
  | control | monitor | desk | rack
  deriving DecidableEq, Repr

/-- The seventeen notice flags (R195). -/
inductive NoticeFlag where
  | loopBroken | consoleAbsent | liveLost | channelFallback | turnDue | call | returnBy | sessionClose
  | statementsHigh | statementsFull | dutyFull | lostHeard | unknownReceiver | balanceSaturated | mainsReturn
  | retentionLost | backupLow
  deriving DecidableEq, Repr

/-- The counter groups (R197). -/
inductive CounterGroup where
  | loop | consoles | channels | channelMinutes | air | hire | batches | accounts | duty | clock | mode | service
  deriving DecidableEq, Repr

/-- The refusal codes (R192). -/
inductive RefusalCode where
  | malformed | role | mode | locked | range | notFound | duplicate | tableFull | onLoan | held | pending | lost
  | withdrawn | notOnLoan | battery | accountState | limit | queueFull | changed | balance | batchBusy | batchFull
  | batchFailed | checkFailed | engaged | relayCycle | relayDepth
  deriving DecidableEq, Repr

/-- The occasion the start record names (R185 to R188). -/
inductive StartKind where
  | coldStart | powerReturn | restart
  deriving DecidableEq, Repr

/-- The items of the commissioning check (R181). -/
inductive CheckItem where
  | consoleBooth | boothChannel | sharedA | bEqualsA | relayGraph | clockInvalid | tariffUndefined
  deriving DecidableEq, Repr

/-- One block's taking of a tick or of an alarm effect (R162, R164, R171, R172). Takings of one tick by different blocks
have no order between them, so the order is data. -/
inductive Taking where
  /-- the loop controller's departure (R50) -/
  | departure
  /-- the channel switch's floor block and source resolution (R14, R15) -/
  | resolution
  /-- the air controller's notes (R82) -/
  | notes
  /-- booth control's display ends (R28) -/
  | displayEnds
  /-- the time base's own clock (R163) with its part of a minute tick (R164) -/
  | clock
  /-- booth control's offer expiry (R31) -/
  | offers
  /-- the hire controller's range and batch timeouts (R73, R121) -/
  | ranges
  /-- the channel switch's minutes (R18) -/
  | channelMinutes
  /-- booth control's turn timers and live-minutes totals (R40, R155) -/
  | turns
  /-- the hire controller's loan minutes (R108) -/
  | loans
  /-- the accounting unit's duty minutes (R154) -/
  | duties
  /-- the hire controller's taking of the RETURN_BY effect (R171) -/
  | returnByEffect
  /-- mode and supply control's taking of the SESSION_CLOSE effect (R172) -/
  | sessionCloseEffect
  deriving DecidableEq, Repr

end Sys2Proof
end

