-- ==== Sys2Proof/Syntax.lean ====
section
/-! DEFINITION. The commands of the part: one constructor of Instr for each row of spec/opcode_table.json, with the
operands the row's rules name; what arrives at the loop port, the air port and the service port is the run of bytes as it comes. A field that a rule lets hold a value outside its set (a mode, a role, a flag name) is an
Option: none stands for any such value. -/

namespace Sys2Proof

/-- What every service message carries beside its body: the source station and the tag (R189, R192). -/
structure Header where
  station : Nat
  tag : Nat
  deriving DecidableEq, Repr

/-- A record named by its number or by its table slot (READ RECEIVER, R109; READ ACCOUNT, R133). -/
inductive RecordKey where
  | number (n : Nat)
  | slot (n : Nat)
  deriving DecidableEq, Repr

/-- What LOAD of a station entry carries: a role, with a mask for CONTROL and MONITOR, NONE, or a value that is no role
(R190). -/
inductive StationEntry where
  | control (mask : List (Option NoticeFlag))
  | monitor (mask : List (Option NoticeFlag))
  | desk
  | rack
  | none
  | other
  deriving DecidableEq, Repr

/-- What mains return brings with it: whether the backup cell held its supply through the whole loss, whether the check value
over the retention domain agrees (R183), the low indication at the start (R188), and the block periods the cell has counted
since the loss or since its last second (R162). -/
structure MainsReturn where
  cellHeld : Bool
  domainAgrees : Bool
  backupLow : Bool
  cellTicks : Nat
  deriving DecidableEq, Repr

/-- The commands, one for each row of spec/opcode_table.json. -/
inductive Instr where
  | blockTick (order : List Taking)
  | displayEnd (slot : Nat)
  | secondTick (order : List Taking)
  | offerExpiry (booth : Nat)
  | outOfRange (serial : Nat)
  | batchTimeout (station : Nat)
  | minuteTick (order : List Taking)
  | turnDue (booth : Nat)
  | alarmMatch (alarm : AlarmName)
  | returnByEffect
  | sessionCloseEffect
  | loopReturn (frame : List Byte)
  | consoleAbsent (slot : Nat)
  | loopBroken
  | floorBlockArrival (block : SpeechBlock)
  | receiverReport (report : List Byte)
  | docked (hdr : Header) (serial rackSlot battery : Nat)
  | undocked (hdr : Header) (serial rackSlot : Nat)
  | cell (hdr : Header) (serial battery : Nat)
  | messageDropped (bytes : List Byte)
  | outboundSend
  | loadConsole (hdr : Header) (slot : Nat) (configured : Bool) (booth seat : Option Nat)
  | readConsole (hdr : Header) (slot : Nat)
  | loadBooth (hdr : Header) (booth : Nat) (aChannel bChannel : Option Nat) (interlock : Option Interlock) (turnLimit : Nat)
      (callMode : Option CallMode)
  | readBooth (hdr : Header) (booth : Nat)
  | loadChannel (hdr : Header) (channel : Nat) (label : Label) (restricted : Bool) (policy : Option Fallback)
  | readChannel (hdr : Header) (channel : Nat)
  | clearStamp (hdr : Header) (channel : Nat)
  | enableChannel (hdr : Header) (channel : Nat)
  | disableChannel (hdr : Header) (channel : Nat) (force : Bool)
  | forceSilent (hdr : Header) (booth : Nat)
  | setRelay (hdr : Header) (booth : Nat) (source : RelaySource)
  | fetchCalls (hdr : Header)
  | readLoop (hdr : Header)
  | readAir (hdr : Header)
  | enrol (hdr : Header) (serial : Nat)
  | withdraw (hdr : Header) (serial : Nat)
  | reinstate (hdr : Header) (serial : Nat)
  | deleteReceiver (hdr : Header) (serial : Nat)
  | issue (hdr : Header) (serial account : Nat)
  | returnReceiver (hdr : Header) (serial : Nat)
  | declareLost (hdr : Header) (serial : Nat)
  | find (hdr : Header) (serial : Nat)
  | readReceiver (hdr : Header) (key : RecordKey)
  | readHire (hdr : Header)
  | batchItem (hdr : Header) (account : Nat) (serial : Option Nat) (more abort : Bool)
  | readBatch (hdr : Header) (station : Nat)
  | loadTariff (hdr : Header) (cls blockLength blockRate loanCap overdueRate lostCharge : Nat)
  | readTariff (hdr : Header) (cls : Nat)
  | accountLoad (hdr : Header) (account cls loanLimit : Nat) (access : List Nat)
  | suspend (hdr : Header) (account : Nat)
  | resume (hdr : Header) (account : Nat)
  | close (hdr : Header) (account : Nat)
  | clearBalance (hdr : Header) (account expected : Nat)
  | readAccount (hdr : Header) (key : RecordKey)
  | readStatements (hdr : Header)
  | releaseStatements (hdr : Header) (count : Nat) (head : Option (Option StatementKind × Nat))
  | readAccounting (hdr : Header)
  | readDuty (hdr : Header)
  | releaseDuty (hdr : Header) (count : Nat)
  | cutDuty (hdr : Header)
  | clearDutyTotals (hdr : Header)
  | setClock (hdr : Header) (value : Clock)
  | loadAlarm (hdr : Header) (alarm : Option AlarmName) (day : Nat) (dayOn : Bool) (hour : Nat) (hourOn : Bool)
      (minute : Nat) (minuteOn : Bool)
  | clearAlarm (hdr : Header) (alarm : Option AlarmName)
  | readClock (hdr : Header)
  | setMode (hdr : Header) (mode : Option Mode)
  | loadParameters (hdr : Header) (absenceLimit offerTimeout silenceLimit issueThreshold : Nat)
      (stampMode : Option StampMode) (highWater : Nat)
  | readParameters (hdr : Header)
  | restart (hdr : Header)
  | readSupply (hdr : Header)
  | loadStation (hdr : Header) (station : Nat) (entry : StationEntry)
  | setNoticeMask (hdr : Header) (station : Nat) (mask : List (Option NoticeFlag))
  | readStation (hdr : Header) (station : Nat)
  | readNotices (hdr : Header)
  | clearNotices (hdr : Header) (flags : List (Option NoticeFlag))
  | readCounters (hdr : Header) (group : Option CounterGroup)
  | clearCounters (hdr : Header) (group : Option CounterGroup)
  | mainsLoss
  | backupSecond
  | mainsReturn (event : MainsReturn)
  | backupLowIndication (low : Bool)
  deriving DecidableEq, Repr

end Sys2Proof
end

