-- ==== Sys2Proof/Decode.lean ====
section
/-! DEFINITION. spec/opcode_table.json gives no row any bits: the commands of this block are events and messages on its
ports, not words. So no word spells a command. The runs of bytes that DO cross the ports (12_formats.md) are read in
Sys2Proof/Machine/Formats.lean and Sys2Proof/Machine/Messages.lean. -/

namespace Sys2Proof

/-- The command that a word spells by the table's bits: none, since no row has bits. -/
def decodeTableWord (_nbits _w : Nat) : Option Instr := none

end Sys2Proof
end

