-- ==== Sys2Proof/Config.lean ====
section
/-! DEFINITION. What is fixed in the part: the capacities and limits of 00_scope.md ("Fixed capacities") and of the rules
cited. The spec leaves no value of a result open, so there is no free value here. -/

namespace Sys2Proof.Config

/-- Language channels besides channel 0 (R1). -/
abbrev channels : Nat := 48
/-- Booths (R24). -/
abbrev booths : Nat := 24
/-- Loop slots and console table entries (R22). -/
abbrev slots : Nat := 72
/-- Entries of the outstanding-frame list, and departures without a good return that break the loop (R51, R62). -/
abbrev outstanding : Nat := 8
/-- Blocks of a channel's block queue and of the floor queue (R11, R13). -/
abbrev blockQueue : Nat := 4
/-- Where a missed-run stops (R56). -/
abbrev missedRunMax : Nat := 250
/-- Block ticks for which a refusal lamp code is shown (R28). -/
abbrev displayTicks : Nat := 500
/-- Booths a relay chain may pass through (R41). -/
abbrev relayDepth : Nat := 3
/-- Receiver table slots (R87). -/
abbrev receivers : Nat := 2048
/-- The largest serial (R87). -/
abbrev serialMax : Nat := 16777215
/-- Where the last heard second stops (R66). -/
abbrev lastHeardMax : Nat := 65535
/-- The last heard second from which a repeated counter is no duplicate (R70). -/
abbrev duplicateWindow : Nat := 2
/-- Air notes queued, and sent at one block tick (R80, R82). -/
abbrev notes : Nat := 64
abbrev notesPerTick : Nat := 4
/-- Account table slots and the largest account number (R128). -/
abbrev accounts : Nat := 256
abbrev accountMax : Nat := 65535
/-- The largest loan limit (R128). -/
abbrev loanLimitMax : Nat := 2048
/-- The largest money amount (R126, R128). -/
abbrev moneyMax : Nat := 16777215
/-- The largest rate of a tariff class (R126). -/
abbrev rateMax : Nat := 65535
/-- The statement queue (R141). -/
abbrev statements : Nat := 512
/-- The duty queue (R150). -/
abbrev dutyEntries : Nat := 256
/-- Entries of a READ STATEMENTS or READ DUTY reply (R144, R156). -/
abbrev entriesPerReply : Nat := 8
/-- Open batches, serials of one batch, where the item count stops, and idle seconds (R112, R121). -/
abbrev batches : Nat := 4
abbrev batchItems : Nat := 32
abbrev itemCountMax : Nat := 65535
abbrev batchIdle : Nat := 20
/-- Station table entries and the largest station number (R190). -/
abbrev stations : Nat := 32
abbrev stationMax : Nat := 254
/-- The outbound queue (R193). -/
abbrev outbound : Nat := 32
/-- Block ticks in a second (R162). -/
abbrev ticksPerSecond : Nat := 500
/-- The largest lists a request body may carry (12_formats.md, Bodies). -/
abbrev accessSetMax : Nat := 48
abbrev maskMax : Nat := 17
/-- The largest body of a service message (12_formats.md, Service message). -/
abbrev bodyMax : Nat := 2048

end Sys2Proof.Config
end

