-- ==== Sys2Proof/Machine/State.lean ====
section
/-! DEFINITION. The state of the part, block by block (00_scope.md, Block overview), as plain data, and the state right
after its first start. -/

namespace Sys2Proof.Machine

/-! ### Loop controller (03_the_booth_loop.md) -/

/-- What the loop controller keeps for one slot (R56, R58, R64). -/
structure SlotState where
  presence : Presence := .unconfigured
  missedRun : Nat := 0
  missed : Nat := 0
  errors : Nat := 0
  deriving DecidableEq, Repr

/-- The lamps of a downstream part (R45), in the order of their bits (12_formats.md). -/
structure Lamps where
  micLive : Bool := false
  boothLive : Bool := false
  offerToYou : Bool := false
  offerPending : Bool := false
  turnDue : Bool := false
  relayFallback : Bool := false
  outputB : Bool := false
  callPending : Bool := false
  setup : Bool := false
  deriving DecidableEq, Repr

/-- The downstream part of one slot (R44 to R46). -/
structure Downstream where
  feed : SpeechBlock := silence
  lamps : Lamps := {}
  turn : Option Nat := none
  lamp : Option LampCode := none
  deriving DecidableEq, Repr

/-- A loop frame as it departs (R50): every upstream part is empty then. -/
structure LoopFrame where
  sequence : Nat
  slots : List Downstream
  deriving DecidableEq, Repr

/-- The six frame counters (R64). -/
structure LoopCounters where
  departed : Nat := 0
  returned : Nat := 0
  lost : Nat := 0
  bad : Nat := 0
  unmatched : Nat := 0
  stray : Nat := 0
  deriving DecidableEq, Repr

/-- The loop controller's state (R65), and the loop port's output. -/
structure Loop where
  outstanding : List Nat := []
  nextSequence : Nat := 0
  status : LoopStatus := .running
  sinceGood : Nat := 0
  slots : Table SlotState := []
  counters : LoopCounters := {}
  port : Option LoopFrame := none
  deriving DecidableEq, Repr

/-! ### Booth control (02_booths_handover_and_relay.md) -/

/-- A console table entry (R22). The display end is the number of block ticks still to come up to and including the display end
tick. -/
structure Console where
  configured : Bool := false
  booth : Option Nat := none
  seat : Option Nat := none
  cough : Bool := false
  call : Bool := false
  lamp : Option LampCode := none
  displayEnd : Option Nat := none
  liveMinutes : Nat := 0
  deriving DecidableEq, Repr

/-- A booth record (R24). Live console, offer target and offer expiry second stand in the floor state. -/
structure Booth where
  aChannel : Option Nat := none
  bChannel : Option Nat := none
  interlock : Interlock := .refuse
  turnLimit : Nat := 30
  callMode : CallMode := .edge
  relay : RelaySource := .floor
  output : Output := .a
  floor : FloorState := .silent
  turn : Option Nat := none
  callLatch : Bool := false
  latest : Option SpeechBlock := none
  liveMinutes : Nat := 0
  unlogged : Bool := false
  deriving DecidableEq, Repr

/-- Booth control's state (R49). -/
structure BoothControl where
  consoles : Table Console := []
  booths : Table Booth := []
  floorBlock : SpeechBlock := silence
  deriving DecidableEq, Repr

/-! ### Channel switch (01_language_channels.md) -/

/-- A channel record (R1) with the default configuration of R2. -/
structure Channel where
  enabled : Bool := false
  label : Label := ⟨'-', '-', '-'⟩
  restricted : Bool := false
  policy : Fallback := .floor
  owner : Option Nat := none
  queue : List SpeechBlock := []
  listeners : Nat := 0
  stamp : Option Clock := none
  listenerMinutes : Nat := 0
  fallbackMinutes : Nat := 0
  underruns : Nat := 0
  dropped : Nat := 0
  deriving DecidableEq, Repr

/-- Channel 0, the floor channel (R1). Its fallback policy, for which R1 names no value, reads FLOOR: DESIGN CHOICE (log 14),
unsafe. -/
def floorChannel : Channel := { enabled := true, label := ⟨'F', 'L', 'R'⟩ }

/-- The channel switch's state (R13, R20). -/
structure ChannelSwitch where
  channels : Table Channel := [(0, floorChannel)]
  floorQueue : List SpeechBlock := []
  floorUnderruns : Nat := 0
  floorDropped : Nat := 0
  deriving DecidableEq, Repr

/-! ### Air controller (04_receivers_on_the_air.md) -/

/-- An air note (R80). -/
structure AirNote where
  serial : Nat
  kind : NoteKind
  channel : Nat
  deriving DecidableEq, Repr

/-- An air block (R16). -/
structure AirBlock where
  channel : Nat
  state : AirState
  restricted : Bool
  label : Label
  speech : SpeechBlock
  deriving DecidableEq, Repr

/-- The air block set of one block tick (R16, R82). -/
structure AirSet where
  blocks : List AirBlock := []
  notes : List AirNote := []
  deriving DecidableEq, Repr

/-- The last-unknown-serial record (R69). -/
structure LastUnknown where
  serial : Nat
  radiator : Nat
  clock : Clock
  deriving DecidableEq, Repr

/-- The air counters (R84); perRadiator is keyed by the radiator, 0 where not listed. -/
structure AirCounters where
  reports : Nat := 0
  perRadiator : Table Nat := []
  bad : Nat := 0
  unknown : Nat := 0
  duplicates : Nat := 0
  accepted : Nat := 0
  selects : Nat := 0
  rangeLosses : Nat := 0
  grants : Nat := 0
  denials : Nat := 0
  revocations : Nat := 0
  notesSent : Nat := 0
  notesDropped : Nat := 0
  deriving DecidableEq, Repr

/-- The air controller's state (R85), and the air port's output. -/
structure Air where
  notes : List AirNote := []
  lastUnknown : Option LastUnknown := none
  counters : AirCounters := {}
  port : AirSet := {}
  deriving DecidableEq, Repr

/-! ### Hire controller (05_receiver_hire.md, 06_issue_batches.md) -/

/-- The loan part of a receiver record (R87). -/
structure Loan where
  number : Nat
  account : Nat
  cls : Nat
  issueClock : Clock
  issueMinute : Nat
  chargeable : Nat := 0
  overdue : Nat := 0
  listening : Nat := 0
  deriving DecidableEq, Repr

/-- The pending part of a receiver record (R87). -/
structure PendingPart where
  kind : StatementKind
  returnClock : Clock
  amount : Nat
  deriving DecidableEq, Repr

/-- A receiver record (R66, R87). -/
structure Receiver where
  serial : Nat
  state : ReceiverState := .available
  rack : Option (Nat × Nat) := none
  range : RangeStatus := .unheard
  lastHeard : Option Nat := none
  lastHeardClock : Option Clock := none
  lastRadiator : Option Nat := none
  lastLink : Option Nat := none
  lastCounter : Option Nat := none
  battery : Option Nat := none
  channel : Option Nat := none
  loan : Option Loan := none
  pend : Option PendingPart := none
  batch : Option Nat := none
  deriving DecidableEq, Repr

/-- An open batch (R112), kept under its station's number. -/
structure Batch where
  account : Nat
  items : List Nat := []
  itemCount : Nat := 0
  lastItem : Nat := 0
  state : BatchState := .opened
  failure : Option (RefusalCode × Nat) := none
  deriving DecidableEq, Repr

/-- The hire counters (R110). -/
structure HireCounters where
  enrolments : Nat := 0
  deletions : Nat := 0
  issues : Nat := 0
  issueRefusals : Nat := 0
  deskReturns : Nat := 0
  dockedReturns : Nat := 0
  losses : Nat := 0
  recoveries : Nat := 0
  pendingReturns : Nat := 0
  overdueReceivers : Nat := 0
  rackMessages : Nat := 0
  rackMalformed : Nat := 0
  rackUnknown : Nat := 0
  rackCollisions : Nat := 0
  unaccountedRemovals : Nat := 0
  deriving DecidableEq, Repr

/-- The batch counters (R124). -/
structure BatchCounters where
  opened : Nat := 0
  busyRefusals : Nat := 0
  itemsHeld : Nat := 0
  itemsAborted : Nat := 0
  failures : Nat := 0
  issued : Nat := 0
  failed : Nat := 0
  timedOut : Nat := 0
  abandoned : Nat := 0
  deriving DecidableEq, Repr

/-- The hire controller's state (R111, R122). The receiver table is keyed by slot, the pending-return list names receivers by
their slots, the batch table is keyed by station. -/
structure Hire where
  receivers : Table Receiver := []
  pendingList : List Nat := []
  batches : Table Batch := []
  counters : HireCounters := {}
  batchCounters : BatchCounters := {}
  deriving DecidableEq, Repr

/-! ### Accounting unit (07_accounts_tariffs_and_statements.md, 08_interpreter_duty_records.md) -/

/-- A tariff class (R126), undefined. -/
structure Tariff where
  defined : Bool := false
  blockLength : Nat := 60
  blockRate : Nat := 0
  loanCap : Nat := 0
  overdueRate : Nat := 0
  lostCharge : Nat := 0
  deriving DecidableEq, Repr

/-- An account record (R128). The access set is kept in rising order. -/
structure Account where
  number : Nat
  cls : Nat
  state : AccountState := .opened
  loanLimit : Nat
  access : List Nat
  openLoans : Nat := 0
  balance : Nat := 0
  saturated : Bool := false
  listening : Nat := 0
  posted : Nat := 0
  deriving DecidableEq, Repr

/-- A statement (R140). -/
structure Statement where
  kind : StatementKind
  loan : Nat
  serial : Nat
  account : Nat
  cls : Nat
  issueClock : Clock
  closeClock : Clock
  chargeable : Nat
  overdue : Nat
  listening : Nat
  amount : Nat
  deriving DecidableEq, Repr

/-- A duty entry (R149). -/
structure DutyEntry where
  slot : Nat
  booth : Nat
  channel : Nat
  start : Clock
  startMinute : Nat
  stop : Option Clock := none
  live : Nat := 0
  session : Nat := 0
  reason : Option EndReason := none
  continued : Bool := false
  status : DutyStatus := .opened
  deriving DecidableEq, Repr

/-- The accounting counters (R147). -/
structure AccountingCounters where
  posted : Nat := 0
  credits : Nat := 0
  pendingClosures : Nat := 0
  pendingPostings : Nat := 0
  lostRefused : Nat := 0
  released : Nat := 0
  orphans : Nat := 0
  saturations : Nat := 0
  created : Nat := 0
  closed : Nat := 0
  cleared : Nat := 0
  deriving DecidableEq, Repr

/-- The duty counters (R160). -/
structure DutyCounters where
  opened : Nat := 0
  continuations : Nat := 0
  completed : Nat := 0
  released : Nat := 0
  overflows : Nat := 0
  cuts : Nat := 0
  deriving DecidableEq, Repr

/-- The accounting unit's state (R148, R161). The account table is keyed by slot, the tariff table by class. -/
structure Accounting where
  tariffs : Table Tariff := []
  accounts : Table Account := []
  nextLoan : Nat := 1
  statements : List Statement := []
  duty : List DutyEntry := []
  counters : AccountingCounters := {}
  dutyCounters : DutyCounters := {}
  deriving DecidableEq, Repr

/-! ### Time base (09_hall_clock_ticks_and_alarms.md) -/

/-- The clock after a cold start (R166). -/
def clockEpoch : Clock := ⟨2000, 1, 1, 0, 0, 0⟩

/-- The clock-set record (R167); no previous value stands for the indication INVALID. -/
structure ClockSet where
  previous : Option Clock
  new : Clock
  minute : Nat
  deriving DecidableEq, Repr

/-- An alarm record (R169). -/
structure Alarm where
  day : Nat := 1
  dayOn : Bool := false
  hour : Nat := 0
  hourOn : Bool := false
  minute : Nat := 0
  minuteOn : Bool := false
  matched : Bool := false
  lastMatch : Option Clock := none
  pendingEffect : Bool := false
  deriving DecidableEq, Repr

/-- The time base counters (R176). -/
structure ClockCounters where
  sets : Nat := 0
  returnByMatches : Nat := 0
  sessionCloseMatches : Nat := 0
  backupMatches : Nat := 0
  pendingApplied : Nat := 0
  pendingDiscarded : Nat := 0
  deriving DecidableEq, Repr

/-- The time base's state (R176). -/
structure TimeBase where
  phase : Nat := 0
  clock : Clock := clockEpoch
  valid : Bool := false
  clockSet : Option ClockSet := none
  sessionMinute : Nat := 0
  returnBy : Alarm := {}
  sessionClose : Alarm := {}
  counters : ClockCounters := {}
  deriving DecidableEq, Repr

/-! ### Service controller (11_the_service_port.md) -/

/-- One field of a message body (12_formats.md, Bodies): a number of 4 bytes, a value written in capitals, yes or no, a
presence indication, which of two kinds follows, a count, a clock value, a label. -/
inductive Field where
  | num (n : Nat)
  | name (text : String)
  | flag (b : Bool)
  | present (b : Bool)
  | kind (second : Bool)
  | count (n : Nat)
  | clock (c : Clock)
  | label (l : Label)
  deriving DecidableEq, Repr

/-- The kind of a message the part sends (R192, R195). -/
inductive MessageKind where
  | reply | notice
  deriving DecidableEq, Repr

/-- A message of the outbound queue (R193); its source is the part, station 0. -/
structure Message where
  dest : Nat
  kind : MessageKind
  tag : Nat
  body : List Field
  deriving DecidableEq, Repr

/-- A station table entry (R190); the mask of a DESK or RACK is empty and never looked at. -/
structure Station where
  role : Role
  mask : List NoticeFlag := []
  deriving DecidableEq, Repr

/-- The service counters (R197). -/
structure ServiceCounters where
  received : Nat := 0
  badFrames : Nat := 0
  notForPart : Nat := 0
  unknownSource : Nat := 0
  wrongKind : Nat := 0
  requests : Nat := 0
  rackPassed : Nat := 0
  roleRefusals : Nat := 0
  malformed : Nat := 0
  repliesDropped : Nat := 0
  noticesQueued : Nat := 0
  noticesDropped : Nat := 0
  deriving DecidableEq, Repr

/-- The service controller's state (R198), and the service port's output. The flags are those that are set, in the order of
R195. toLose counts the next messages that are lost because they had arrived when a RESTART was taken (R198, log 42). -/
structure Service where
  stations : Table Station := [(1, ⟨.control, []⟩)]
  outbound : List Message := []
  flags : List NoticeFlag := []
  counters : ServiceCounters := {}
  toLose : Nat := 0
  port : Option Message := none
  deriving DecidableEq, Repr

/-! ### Mode and supply control (10_operating_modes_and_mains_loss.md) -/

/-- The part parameter entry (R180). -/
structure Parameters where
  absenceLimit : Nat := 16
  offerTimeout : Nat := 10
  silenceLimit : Nat := 30
  issueThreshold : Nat := 4
  stampMode : StampMode := .last
  highWater : Nat := 448
  deriving DecidableEq, Repr

/-- The start record (R185 to R188). -/
structure StartRecord where
  kind : StartKind
  clock : Clock
  deriving DecidableEq, Repr

/-- The counters of the group MODE (R188). -/
structure ModeCounters where
  modeChanges : Nat := 0
  checkFailures : Nat := 0
  backupLows : Nat := 0
  deriving DecidableEq, Repr

/-- The state of mode and supply control (R188). -/
structure Supply where
  mode : Mode := .setup
  mainsLost : Bool := false
  backupLow : Bool := false
  lossStamp : Option Clock := none
  startRecord : StartRecord := ⟨.coldStart, clockEpoch⟩
  params : Parameters := {}
  counters : ModeCounters := {}
  deriving DecidableEq, Repr

/-! ### The part -/

/-- The state of the part: its nine blocks, and the commands waiting, first in first out. -/
structure State where
  loop : Loop := {}
  booth : BoothControl := {}
  switch : ChannelSwitch := {}
  air : Air := {}
  hire : Hire := {}
  acct : Accounting := {}
  time : TimeBase := {}
  serv : Service := {}
  supply : Supply := {}
  pending : List Instr := []
  deriving DecidableEq, Repr

/-- Why the part stops: never. The spec gives every command an outcome in every state (INVENTORY.md, Faults). -/
inductive Fault where
  deriving DecidableEq, Repr

/-- Why a command has no meaning in the model. -/
inductive Refusal where
  /-- Raised by an arm of exec for a command whose meaning is not written yet; no arm raises it now. Safe: the model stops
  where the hardware goes on. -/
  | notModelled (mnemonic : String)
  deriving DecidableEq, Repr

/-- The state right after the first start (R186): every field at its cold-start value, RETENTION_LOST set and its notice
queued to station 1, which has an empty mask (R190, R195, R198). The monitor gives no low indication: DESIGN CHOICE (log 1),
unsafe. -/
def State.reset : State :=
  { serv :=
      { flags := [.retentionLost]
        outbound := [⟨1, .notice, 0, [.name "RETENTION_LOST", .clock clockEpoch]⟩]
        counters := { noticesQueued := 1 } } }

end Sys2Proof.Machine
end

