-- ==== Sys2Proof/Machine/Ops.lean ====
section
/-! DEFINITION. The shared operations: tables, counters, access to the blocks and their records, and the queues of the part.
Every read or write of a record goes through the operations of this file. -/

namespace Sys2Proof

/-! ### Tables (00_scope.md, Conventions) -/

/-- The record under a key. -/
def Table.look {α : Type} : Table α → Nat → Option α
  | [], _ => none
  | (j, v) :: rest, k => if j = k then some v else Table.look rest k

/-- The table with a record written under a key. -/
def Table.put {α : Type} (k : Nat) (v : α) : Table α → Table α
  | [] => [(k, v)]
  | (j, w) :: rest => if k < j then (k, v) :: (j, w) :: rest else if k = j then (k, v) :: rest else (j, w) :: Table.put k v rest

/-- The table without the record of a key. -/
def Table.drop {α : Type} (k : Nat) (t : Table α) : Table α := t.filter (fun e => e.1 ≠ k)

/-- The record under a key of a table in which every key has one: a key not listed has the default record. -/
def Table.get {α : Type} (d : α) (t : Table α) (k : Nat) : α := (Table.look t k).getD d

/-- The table with a record written, one equal to the default not being listed. -/
def Table.set {α : Type} [DecidableEq α] (d : α) (k : Nat) (v : α) (t : Table α) : Table α :=
  if v = d then Table.drop k t else Table.put k v t

/-- The lowest number from a first one on that no record has (R89, R129). -/
def Table.firstFree {α : Type} (t : Table α) (first : Nat) : Nat :=
  match t with
  | [] => first
  | (j, _) :: rest => if j = first then Table.firstFree rest (first + 1) else first

/-- Keys strictly rising: the canonical form of a table. -/
def Table.rising {α : Type} : Table α → Bool
  | [] => true
  | (j, _) :: rest => rest.all (fun e => decide (j < e.1)) && Table.rising rest

namespace Machine

/-! ### Counters (00_scope.md, Conventions) -/

/-- A counter raised by an amount, saturating. -/
def satAdd (n k : Nat) : Nat := min (n + k) counterMax

/-- A counter incremented. -/
def bump (n : Nat) : Nat := satAdd n 1

/-- The whole numbers from 1 to a last one, in ascending order. -/
def upTo (last : Nat) : List Nat := List.range' 1 last

/-! ### Blocks -/

namespace State

def modLoop (f : Loop → Loop) (s : State) : State := { s with loop := f s.loop }
def modBoothControl (f : BoothControl → BoothControl) (s : State) : State := { s with booth := f s.booth }
def modSwitch (f : ChannelSwitch → ChannelSwitch) (s : State) : State := { s with switch := f s.switch }
def modAir (f : Air → Air) (s : State) : State := { s with air := f s.air }
def modHire (f : Hire → Hire) (s : State) : State := { s with hire := f s.hire }
def modAcct (f : Accounting → Accounting) (s : State) : State := { s with acct := f s.acct }
def modTime (f : TimeBase → TimeBase) (s : State) : State := { s with time := f s.time }
def modServ (f : Service → Service) (s : State) : State := { s with serv := f s.serv }
def modSupply (f : Supply → Supply) (s : State) : State := { s with supply := f s.supply }

/-! ### Records -/

def slotState (s : State) (n : Nat) : SlotState := Table.get {} s.loop.slots n
def modSlot (n : Nat) (f : SlotState → SlotState) (s : State) : State :=
  s.modLoop fun l => { l with slots := Table.set {} n (f (s.slotState n)) l.slots }

def console (s : State) (n : Nat) : Console := Table.get {} s.booth.consoles n
def modConsole (n : Nat) (f : Console → Console) (s : State) : State :=
  s.modBoothControl fun b => { b with consoles := Table.set {} n (f (s.console n)) b.consoles }

def boothRec (s : State) (n : Nat) : Booth := Table.get {} s.booth.booths n
def modBooth (n : Nat) (f : Booth → Booth) (s : State) : State :=
  s.modBoothControl fun b => { b with booths := Table.set {} n (f (s.boothRec n)) b.booths }

def chan (s : State) (n : Nat) : Channel := Table.get {} s.switch.channels n
def modChan (n : Nat) (f : Channel → Channel) (s : State) : State :=
  s.modSwitch fun c => { c with channels := Table.set {} n (f (s.chan n)) c.channels }

def tariff (s : State) (cls : Nat) : Tariff := Table.get {} s.acct.tariffs cls

/-- The receiver record with a serial, and its slot (R87). -/
def receiverBySerial (s : State) (serial : Nat) : Option (Nat × Receiver) :=
  s.hire.receivers.find? (fun e => e.2.serial = serial)

/-- The account record with a number, and its slot (R128). -/
def accountByNumber (s : State) (number : Nat) : Option (Nat × Account) :=
  s.acct.accounts.find? (fun e => e.2.number = number)

/-- Writes an account record in its slot. -/
def writeAccount (slot : Nat) (a : Account) (s : State) : State :=
  s.modAcct fun u => { u with accounts := Table.put slot a u.accounts }

/-- The hall clock, as every clock value is written from it (R163). -/
def now (s : State) : Clock := s.time.clock

def mode (s : State) : Mode := s.supply.mode

def params (s : State) : Parameters := s.supply.params

end State

/-! ### Listener counts (R17, R75) -/

/-- On loan: ISSUED or OVERDUE (R88). -/
def Receiver.onLoan (r : Receiver) : Bool := r.state = .issued || r.state = .overdue

/-- The channel a receiver counts on as a listener, if it counts (R75). -/
def Receiver.listening (r : Receiver) : Option Nat :=
  if r.onLoan && decide (r.range = .inRange) then r.channel else none

/-- The listener adjustment that goes with a change of one receiver (R17, R75): an increment, a decrement, a move, or none. -/
def adjustListeners (before after : Option Nat) (s : State) : State :=
  match before, after with
  | none, none => s
  | none, some c => s.modChan c fun x => { x with listeners := x.listeners + 1 }
  | some c, none => s.modChan c fun x => { x with listeners := x.listeners - 1 }
  | some c, some d =>
    if c = d then s
    else (s.modChan c fun x => { x with listeners := x.listeners - 1 }).modChan d fun x => { x with listeners := x.listeners + 1 }

/-- Writes a receiver record in its slot and sends the channel switch the adjustment that goes with the change (R75). -/
def writeReceiver (slot : Nat) (r : Receiver) (s : State) : State :=
  adjustListeners ((Table.look s.hire.receivers slot).bind Receiver.listening) r.listening
    (s.modHire fun h => { h with receivers := Table.put slot r h.receivers })

/-! ### Queues -/

/-- Appends a block to a queue of 4, the oldest block being removed first when it is full; tells whether one was (R12, R13). -/
def pushBlock (queue : List SpeechBlock) (block : SpeechBlock) : List SpeechBlock × Bool :=
  if Config.blockQueue ≤ queue.length then (queue.drop 1 ++ [block], true) else (queue ++ [block], false)

/-- Queues an air note, or drops and counts it when the queue holds 64 (R81). -/
def queueNote (note : AirNote) (s : State) : State :=
  s.modAir fun a =>
    if a.notes.length < Config.notes then { a with notes := a.notes ++ [note] }
    else { a with counters := { a.counters with notesDropped := bump a.counters.notesDropped } }

/-- Queues a reply, or drops and counts it when the outbound queue holds 32 messages (R193). -/
def queueReply (dest tag : Nat) (body : List Field) (s : State) : State :=
  s.modServ fun v =>
    if v.outbound.length < Config.outbound then { v with outbound := v.outbound ++ [⟨dest, .reply, tag, body⟩] }
    else { v with counters := { v.counters with repliesDropped := bump v.counters.repliesDropped } }

/-- Queues a NOTICE and counts it, or drops and counts it when the outbound queue holds 32 messages (R193, R195). -/
def queueNotice (dest : Nat) (body : List Field) (s : State) : State :=
  s.modServ fun v =>
    if v.outbound.length < Config.outbound then
      { v with
        outbound := v.outbound ++ [⟨dest, .notice, 0, body⟩]
        counters := { v.counters with noticesQueued := bump v.counters.noticesQueued } }
    else { v with counters := { v.counters with noticesDropped := bump v.counters.noticesDropped } }

/-! ### What every command meets first -/

/-- An event that the part takes only while mains is present: while mains is lost it is lost and changes nothing (R184). -/
def whileMains (event : State → State) (s : State) : State := if s.supply.mainsLost then s else event s

end Machine
end Sys2Proof
end

