-- ==== Sys2Proof/Machine/Bytes.lean ====
section
/-! DEFINITION. Runs of bytes and what the part reads from those that arrive: numbers, check value, loop frame, receiver report
(12_formats.md). -/

namespace Sys2Proof

/-! ### What a frame and a report carry -/

/-- The upstream part of one slot as the frame brings it back (03_the_booth_loop.md, The loop frame; 12_formats.md).
The key event bytes are raw: R200 and R61 rule them. -/
structure Upstream where
  seen : Bool := false
  copied : Bool := false
  cough : Bool := false
  call : Bool := false
  keyCount : Nat := 0
  key1 : Nat × Nat := (0, 0)
  key2 : Nat × Nat := (0, 0)
  speech : SpeechBlock := silence
  deriving DecidableEq, Repr

/-- A frame that has arrived at the loop port: its sequence number, whether it is whole and its check value agrees (R199), and its
upstream parts. -/
structure LoopReturn where
  sequence : Nat
  checkGood : Bool
  slots : Table Upstream
  deriving DecidableEq, Repr

/-- A receiver report that has arrived at the air port (R67): sound says that it is 9 bytes long and its check value agrees (R199);
kind is the two-bit number of the layout, 1 HEARTBEAT and 2 SELECT. -/
structure AirReport where
  sound : Bool
  radiator : Nat
  serial : Nat
  counter : Nat
  kind : Nat
  channel : Nat
  battery : Nat
  link : Nat
  deriving DecidableEq, Repr

namespace Machine

/-! ### Numbers -/

/-- A number in n bytes, most significant first. -/
def natBytes (n k : Nat) : List Byte := (List.range n).map fun i => BitVec.ofNat 8 (k / 256 ^ (n - 1 - i))

/-- The number that bytes spell, most significant first. -/
def bytesNat (l : List Byte) : Nat := l.foldl (fun k b => 256 * k + b.toNat) 0

/-- The number at an offset, of n bytes. -/
def numberAt (l : List Byte) (offset n : Nat) : Nat := bytesNat ((l.drop offset).take n)

/-- A yes or no, a set or clear, a lit or unlit as a bit. -/
def bitOf (b : Bool) : Nat := if b then 1 else 0

/-- Bit k of a number. -/
def bitAt (n k : Nat) : Bool := decide (n / 2 ^ k % 2 = 1)

/-! ### Check values (R199) -/

/-- One bit of the check register: polynomial 1021h (R199). -/
def crcBit (reg : BitVec 16) : BitVec 16 := if reg.msb then (reg <<< 1) ^^^ 0x1021#16 else reg <<< 1

/-- One byte, most significant bit first (R199). -/
def crcByte (reg : BitVec 16) (b : Byte) : BitVec 16 := Nat.repeat crcBit 8 (reg ^^^ (b.zeroExtend 16 <<< 8))

/-- The check value over bytes, the register starting at FFFFh (R199). -/
def crc16 (l : List Byte) : BitVec 16 := l.foldl crcByte 0xFFFF#16

/-- Bytes with their check value behind them (R199). -/
def withCheck (l : List Byte) : List Byte := l ++ natBytes 2 (crc16 l).toNat

/-- The last two bytes are the check value of those before them (R199). -/
def checkAgrees (l : List Byte) : Bool :=
  decide (numberAt l (l.length - 2) 2 = (crc16 (l.take (l.length - 2))).toNat)

/-! ### Speech blocks -/

def speechBytes (b : SpeechBlock) : List Byte := natBytes 64 b.toNat

def speechOfBytes (l : List Byte) : SpeechBlock := BitVec.ofNat 512 (bytesNat l)

/-! ### Loop frame -/

/-- The length of a loop frame. -/
def frameLength : Nat := 9867

/-- The upstream part of a slot, from its marks byte on. -/
def upstreamOfBytes (l : List Byte) : Upstream :=
  let marks := numberAt l 0 1
  { seen := bitAt marks 0
    copied := bitAt marks 1
    cough := bitAt marks 2
    call := bitAt marks 3
    keyCount := marks / 16 % 4
    key1 := (numberAt l 1 1, numberAt l 2 1)
    key2 := (numberAt l 3 1, numberAt l 4 1)
    speech := speechOfBytes ((l.drop 5).take 64) }

/-- A returning frame read from its bytes; one of another length is taken as one whose check value is wrong: DEDUCED (log 24),
unsafe. -/
def returnOfBytes (l : List Byte) : LoopReturn :=
  { sequence := numberAt l 0 1
    checkGood := decide (l.length = frameLength) && checkAgrees l
    slots := (upTo Config.slots).map fun n => (n, upstreamOfBytes (l.drop (1 + 137 * (n - 1) + 68))) }

/-! ### Receiver report -/

/-- A receiver report read from its bytes (R68). -/
def reportOfBytes (l : List Byte) : AirReport :=
  { sound := decide (l.length = 9) && checkAgrees l
    radiator := numberAt l 0 1
    serial := numberAt l 1 3
    counter := numberAt l 4 1 % 16
    kind := numberAt l 4 1 / 16 % 4
    channel := numberAt l 5 1
    battery := numberAt l 6 1 % 16
    link := numberAt l 6 1 / 16 }

end Machine
end Sys2Proof
end

