-- ==== Sys2Proof/Machine/Flags.lean ====
section
/-! DEFINITION. The seventeen notice flags: setting one and the notices that go with it (R195). -/

namespace Sys2Proof

/-- The flags in the order R195 names them. -/
def NoticeFlag.all : List NoticeFlag :=
  [.loopBroken, .consoleAbsent, .liveLost, .channelFallback, .turnDue, .call, .returnBy, .sessionClose, .statementsHigh,
   .statementsFull, .dutyFull, .lostHeard, .unknownReceiver, .balanceSaturated, .mainsReturn, .retentionLost, .backupLow]

/-- A flag's name as a message carries it (12_formats.md, Bodies). -/
def NoticeFlag.text : NoticeFlag → String
  | .loopBroken => "LOOP_BROKEN"
  | .consoleAbsent => "CONSOLE_ABSENT"
  | .liveLost => "LIVE_LOST"
  | .channelFallback => "CHANNEL_FALLBACK"
  | .turnDue => "TURN_DUE"
  | .call => "CALL"
  | .returnBy => "RETURN_BY"
  | .sessionClose => "SESSION_CLOSE"
  | .statementsHigh => "STATEMENTS_HIGH"
  | .statementsFull => "STATEMENTS_FULL"
  | .dutyFull => "DUTY_FULL"
  | .lostHeard => "LOST_HEARD"
  | .unknownReceiver => "UNKNOWN_RECEIVER"
  | .balanceSaturated => "BALANCE_SATURATED"
  | .mainsReturn => "MAINS_RETURN"
  | .retentionLost => "RETENTION_LOST"
  | .backupLow => "BACKUP_LOW"

namespace Machine

/-- A set of flags in the order of R195. -/
def flagSet (has : NoticeFlag → Bool) : List NoticeFlag := NoticeFlag.all.filter has

/-- The station is sent the notices of a flag: CONTROL or MONITOR, and its mask does not hold the flag (R195). -/
def Station.wants (f : NoticeFlag) (st : Station) : Bool :=
  (st.role = .control || st.role = .monitor) && !st.mask.contains f

/-- The stations that are sent a flag's notices, in ascending station order (R195). -/
def noticeStations (f : NoticeFlag) (s : State) : List Nat := (s.serv.stations.filter (fun e => e.2.wants f)).map (·.1)

/-- An owner sets a notice flag: one that is clear becomes set and its NOTICE is queued to each station that wants it; one that
is set stays set and nothing is sent (R195). -/
def setFlag (f : NoticeFlag) (s : State) : State :=
  if s.serv.flags.contains f then s
  else
    (noticeStations f s).foldl (fun t station => queueNotice station [.name f.text, .clock t.now] t)
      (s.modServ fun v => { v with flags := flagSet (fun g => decide (g = f) || v.flags.contains g) })

/-- The flag is set. -/
def State.flagged (s : State) (f : NoticeFlag) : Bool := s.serv.flags.contains f

end Machine
end Sys2Proof
end

