-- ==== Sys2Proof/Machine/Operands.lean ====
section
/-! DEFINITION. Operands of requests and fields of replies: the ranges the rules give, and how a value is sent in a body
(12_formats.md, Bodies). -/

namespace Sys2Proof.Machine

/-! ### Ranges -/

/-- A number from a first one to a last one. -/
def within (first n last : Nat) : Bool := decide (first ≤ n) && decide (n ≤ last)

/-- Channels 1 to 48. -/
def isChannel (n : Nat) : Bool := within 1 n Config.channels
/-- Booths 1 to 24. -/
def isBooth (n : Nat) : Bool := within 1 n Config.booths
/-- Slots 1 to 72. -/
def isSlot (n : Nat) : Bool := within 1 n Config.slots
/-- Serials 0 to 16,777,215. -/
def isSerial (n : Nat) : Bool := decide (n ≤ Config.serialMax)
/-- Account numbers 1 to 65,535. -/
def isAccount (n : Nat) : Bool := within 1 n Config.accountMax
/-- Station numbers 1 to 254. -/
def isStation (n : Nat) : Bool := within 1 n Config.stationMax
/-- Tariff classes 0 to 7. -/
def isClass (n : Nat) : Bool := decide (n ≤ 7)

/-- A label character: a capital letter, a digit or a hyphen (R1). -/
def isLabelChar (c : Char) : Bool :=
  within 65 c.toNat 90 || within 48 c.toNat 57 || decide (c.toNat = 45)

def isLabel (l : Label) : Bool := isLabelChar l.first && isLabelChar l.second && isLabelChar l.third

/-- FLOOR or a booth from 1 to 24 (R43). -/
def isSource : RelaySource → Bool
  | .floor => true
  | .booth b => isBooth b

/-- No value stands twice in a list. -/
def distinct {α : Type} [DecidableEq α] (l : List α) : Bool := decide l.Nodup

/-- The flags a request names when every one is one of the seventeen (R190, R196). -/
def namedFlags (l : List (Option NoticeFlag)) : Option (List NoticeFlag) := l.mapM id

/-! ### Names of values (12_formats.md, Bodies: a value in capitals is sent as its name) -/

def modeText : Mode → String
  | .setup => "SETUP" | .rehearsal => "REHEARSAL" | .session => "SESSION"

def fallbackText : Fallback → String
  | .floor => "FLOOR" | .silence => "SILENCE"

def stampModeText : StampMode → String
  | .last => "LAST" | .first => "FIRST"

def presenceText : Presence → String
  | .unconfigured => "UNCONFIGURED" | .absent => "ABSENT" | .present => "PRESENT"

def loopStatusText : LoopStatus → String
  | .running => "RUNNING" | .broken => "BROKEN"

def interlockText : Interlock → String
  | .refuse => "REFUSE" | .takeover => "TAKEOVER"

def callModeText : CallMode → String
  | .edge => "EDGE" | .hold => "HOLD"

def outputText : Output → String
  | .a => "A" | .b => "B"

def floorText : FloorState → String
  | .silent => "SILENT" | .live _ => "LIVE" | .offered _ _ _ => "OFFERED"

def lampText : LampCode → String
  | .notLiveMode => "NOT_LIVE_MODE" | .engaged => "ENGAGED" | .channelOff => "CHANNEL_OFF" | .interlock => "INTERLOCK"
  | .noOffer => "NO_OFFER" | .notForYou => "NOT_FOR_YOU" | .notLive => "NOT_LIVE" | .badTarget => "BAD_TARGET"
  | .noChannel => "NO_CHANNEL" | .relayCycle => "RELAY_CYCLE" | .relayDepth => "RELAY_DEPTH"

def endReasonText : EndReason → String
  | .micOff => "MIC_OFF" | .handover => "HANDOVER" | .takeover => "TAKEOVER" | .output => "OUTPUT" | .absent => "ABSENT"
  | .forced => "FORCED" | .channelOff => "CHANNEL_OFF" | .mode => "MODE" | .cut => "CUT" | .power => "POWER"
  | .restart => "RESTART"

def dutyStatusText : DutyStatus → String
  | .opened => "OPEN" | .complete => "COMPLETE"

def rangeText : RangeStatus → String
  | .unheard => "UNHEARD" | .inRange => "IN_RANGE" | .outOfRange => "OUT_OF_RANGE"

def receiverStateText : ReceiverState → String
  | .available => "AVAILABLE" | .held => "HELD" | .issued => "ISSUED" | .overdue => "OVERDUE"
  | .returnPending => "RETURN_PENDING" | .lost => "LOST" | .withdrawn => "WITHDRAWN"

def statementKindText : StatementKind → String
  | .returned => "RETURNED" | .lost => "LOST" | .recovered => "RECOVERED"

def batchStateText : BatchState → String
  | .opened => "OPEN" | .failed => "FAILED"

def accountStateText : AccountState → String
  | .opened => "OPEN" | .suspended => "SUSPENDED"

def roleText : Role → String
  | .control => "CONTROL" | .monitor => "MONITOR" | .desk => "DESK" | .rack => "RACK"

def refusalText : RefusalCode → String
  | .malformed => "MALFORMED" | .role => "ROLE" | .mode => "MODE" | .locked => "LOCKED" | .range => "RANGE"
  | .notFound => "NOT_FOUND" | .duplicate => "DUPLICATE" | .tableFull => "TABLE_FULL" | .onLoan => "ON_LOAN"
  | .held => "HELD" | .pending => "PENDING" | .lost => "LOST" | .withdrawn => "WITHDRAWN" | .notOnLoan => "NOT_ON_LOAN"
  | .battery => "BATTERY" | .accountState => "ACCOUNT_STATE" | .limit => "LIMIT" | .queueFull => "QUEUE_FULL"
  | .changed => "CHANGED" | .balance => "BALANCE" | .batchBusy => "BATCH_BUSY" | .batchFull => "BATCH_FULL"
  | .batchFailed => "BATCH_FAILED" | .checkFailed => "CHECK_FAILED" | .engaged => "ENGAGED"
  | .relayCycle => "RELAY_CYCLE" | .relayDepth => "RELAY_DEPTH"

def startText : StartKind → String
  | .coldStart => "COLD_START" | .powerReturn => "POWER_RETURN" | .restart => "RESTART"

def checkText : CheckItem → String
  | .consoleBooth => "CONSOLE_BOOTH" | .boothChannel => "BOOTH_CHANNEL" | .sharedA => "SHARED_A" | .bEqualsA => "B_EQUALS_A"
  | .relayGraph => "RELAY_GRAPH" | .clockInvalid => "CLOCK_INVALID" | .tariffUndefined => "TARIFF_UNDEFINED"

/-! ### Fields of a body -/

/-- A field that may be absent: a presence indication, then the fields (12_formats.md, Bodies). -/
def optFields {α : Type} (o : Option α) (fields : α → List Field) : List Field :=
  match o with
  | none => [.present false]
  | some v => .present true :: fields v

def optNum (o : Option Nat) : List Field := optFields o fun n => [.num n]

def optClock (o : Option Clock) : List Field := optFields o fun c => [.clock c]

/-- A list: its count, then its entries (12_formats.md, Bodies). -/
def listFields {α : Type} (l : List α) (fields : α → List Field) : List Field := .count l.length :: l.flatMap fields

def sourceFields : RelaySource → List Field
  | .floor => [.kind false, .name "FLOOR"]
  | .booth b => [.kind true, .num b]

def targetFields : OfferTarget → List Field
  | .any => [.kind false, .name "ANY"]
  | .slot n => [.kind true, .num n]

/-! ### Answers of an owner (R192) -/

/-- What the owner of a request answers: ACCEPTED with a result, or REFUSED with a code and the figures that code carries. -/
inductive Answer where
  | accepted (result : List Field)
  | refused (code : RefusalCode) (figures : List Field)
  deriving DecidableEq, Repr

/-- The body of the reply (12_formats.md, Bodies). -/
def Answer.body : Answer → List Field
  | .accepted result => .name "ACCEPTED" :: result
  | .refused code figures => .name "REFUSED" :: .name (refusalText code) :: figures

/-- A refusal with a code alone, the state being left as it is. -/
def refuse (code : RefusalCode) (s : State) : State × Answer := (s, .refused code [])

/-- An acceptance with a result and no change of state. -/
def accept (result : List Field) (s : State) : State × Answer := (s, .accepted result)

end Sys2Proof.Machine
end

