-- ==== Sys2Proof/Machine/Port.lean ====
section
/-! DEFINITION. The service controller takes a message: source, role, body, owner, reply (R189 to R192), for requests and for
rack messages. The checks on the bytes of a message come before (Messages.lean). -/

namespace Sys2Proof.Machine

/-- Changes the service counters. -/
def countServ (f : ServiceCounters → ServiceCounters) (s : State) : State :=
  s.modServ fun v => { v with counters := f v.counters }

def messageReceived : State → State := countServ fun c => { c with received := bump c.received }

def sourceUnknown : State → State := countServ fun c => { c with unknownSource := bump c.unknownSource }

/-- A refusal the service controller makes itself, with its counter (R191). -/
def refuseRole (h : Header) (s : State) : State :=
  queueReply h.station h.tag (Answer.refused .role []).body
    (countServ (fun c => { c with roleRefusals := bump c.roleRefusals }) s)

def refuseMalformed (h : Header) (s : State) : State :=
  queueReply h.station h.tag (Answer.refused .malformed []).body
    (countServ (fun c => { c with malformed := bump c.malformed }) s)

/-! ### Messages that are lost (R184, R198) -/

/-- What a message leaves that is lost: one that comes while mains is lost (R184), and one that had arrived and was not taken when a
RESTART was taken (R198). None when the message is taken. -/
def messageLost (s : State) : Option State :=
  if s.supply.mainsLost then some s
  else if s.serv.toLose = 0 then none
  else some (s.modServ fun v => { v with toLose := v.toLose - 1 })

/-- A message at the service port is taken, or lost. -/
def takeMessage (take : State → State) (s : State) : State := (messageLost s).getD (take s)

/-- A command that is a service message: a request, a rack message, or any run of bytes at the service port. -/
def isMessage : Instr → Bool
  | .blockTick _ | .displayEnd _ | .secondTick _ | .offerExpiry _ | .outOfRange _ | .batchTimeout _ | .minuteTick _ | .turnDue _
  | .alarmMatch _ | .returnByEffect | .sessionCloseEffect | .loopReturn _ | .consoleAbsent _ | .loopBroken
  | .floorBlockArrival _ | .receiverReport _ | .outboundSend | .mainsLoss | .backupSecond | .mainsReturn _
  | .backupLowIndication _ => false
  | _ => true

/-- The service messages that have arrived and wait to be taken: those of the queue, up to a mains loss, behind which a message comes
when mains has gone. That the queue is what has arrived is a DESIGN CHOICE (log 42), safe. -/
def messagesWaiting : List Instr → Nat
  | [] => 0
  | .mainsLoss :: _ => 0
  | c :: rest => (if isMessage c then 1 else 0) + messagesWaiting rest

/-! ### The requests each role may send (R191) -/

/-- Requests of CONTROL stations alone. -/
def controlOnly (r : Role) : Bool := r = .control
/-- READ requests, READ NOTICES, READ COUNTERS, CLEAR NOTICES, FETCH CALLS. -/
def controlMonitor (r : Role) : Bool := r = .control || r = .monitor
/-- ISSUE, BATCH ITEM, RETURN, DECLARE LOST, FIND. -/
def controlDesk (r : Role) : Bool := r = .control || r = .desk

/-- A request in the hands of its owner: counted, ruled, answered with one reply (R191, R192). -/
def handToOwner (h : Header) (owner : State → State × Answer) (s : State) : State :=
  let ruled := owner (countServ (fun c => { c with requests := bump c.requests }) s)
  queueReply h.station h.tag ruled.2.body ruled.1

/-- The service controller takes a request: counts it, drops one of an unknown source, refuses one outside the source's role
with ROLE and one whose body does not carry the request's fields with MALFORMED, and lets any other through to what is done with
it (R189, R191). -/
def whenAdmitted (h : Header) (may : Role → Bool) (bodyFits : Bool) (act : State → State) (s : State) : State :=
  match Table.look s.serv.stations h.station with
  | none => sourceUnknown (messageReceived s)
  | some station =>
    if !may station.role then refuseRole h (messageReceived s)
    else if !bodyFits then refuseMalformed h (messageReceived s)
    else act (messageReceived s)

/-- A request that is let through goes to its owner and is answered (R191, R192). -/
def takeRequest (h : Header) (may : Role → Bool) (bodyFits : Bool) (owner : State → State × Answer) : State → State :=
  whenAdmitted h may bodyFits (handToOwner h owner)

/-- A request arrives at the service port. -/
def serve (h : Header) (may : Role → Bool) (bodyFits : Bool) (owner : State → State × Answer) : State → State :=
  takeMessage (takeRequest h may bodyFits owner)

/-- A message of kind RACK arrives at the service port: from a RACK station it is handed to the hire controller and gets no
reply, from any other role it is refused with ROLE (R191). That this refusal is answered with a reply is DEDUCED (log 12),
unsafe. -/
def serveRack (h : Header) (owner : State → State) : State → State :=
  takeMessage fun s =>
    match Table.look s.serv.stations h.station with
    | none => sourceUnknown (messageReceived s)
    | some station =>
      if station.role = .rack then
        owner (countServ (fun c => { c with rackPassed := bump c.rackPassed }) (messageReceived s))
      else refuseRole h (messageReceived s)

end Sys2Proof.Machine
end

