-- ==== Sys2Proof/Machine/Switch.lean ====
section
/-! DEFINITION. The channel switch's own operations: claims and releases, block queues, source resolution, channel minutes
(01_language_channels.md). -/

namespace Sys2Proof.Machine

/-! ### Ownership (R5 to R8) -/

/-- A claim is ruled at the channel record: none when it is granted, else the lamp code of the refusal (R5). -/
def claimRefusal (x : Channel) : Option LampCode :=
  if !x.enabled then some .channelOff else if x.owner.isSome then some .engaged else none

/-- A granted claim: the owner booth becomes the claiming booth and nothing else changes (R5). -/
def takeOwnership (c b : Nat) (s : State) : State := s.modChan c fun x => { x with owner := some b }

/-- The fallback stamp takes the hall clock value: always in stamp mode LAST, only when absent in stamp mode FIRST (R8). -/
def stampAt (stampMode : StampMode) (clock : Clock) (stamp : Option Clock) : Option Clock :=
  match stampMode, stamp with
  | .first, some old => some old
  | _, _ => some clock

/-- The channel has gone into fallback: the stamp is written, and CHANNEL_FALLBACK is set if it has listeners (R7 step 3). -/
def enterFallback (c : Nat) (s : State) : State :=
  let t := s.modChan c fun x => { x with stamp := stampAt s.params.stampMode s.now x.stamp }
  if 0 < (s.chan c).listeners then setFlag .channelFallback t else t

/-- A release by booth b (R7): owner absent, queue flushed without a count, and fallback outside SETUP when the channel is enabled.
One that does not name the owner changes nothing. -/
def release (c b : Nat) (s : State) : State :=
  if (s.chan c).owner = some b then
    let t := s.modChan c fun x => { x with owner := none, queue := [] }
    if t.mode ≠ .setup && (t.chan c).enabled then enterFallback c t else t
  else s

/-! ### Block queues (R11 to R13) -/

/-- Appends a block to a channel's queue; a full queue first loses its oldest block, which is counted (R12). -/
def appendBlock (c : Nat) (block : SpeechBlock) (s : State) : State :=
  s.modChan c fun x =>
    let pushed := pushBlock x.queue block
    { x with queue := pushed.1, dropped := if pushed.2 then bump x.dropped else x.dropped }

/-- A floor block arrives at the floor port (R13). -/
def floorArrival (block : SpeechBlock) (s : State) : State :=
  s.modSwitch fun w =>
    let pushed := pushBlock w.floorQueue block
    { w with floorQueue := pushed.1, floorDropped := if pushed.2 then bump w.floorDropped else w.floorDropped }

/-! ### Source resolution (R14 to R16) -/

/-- The floor block of a tick: the head of the floor queue, or silence (R14). -/
def floorBlockOf (s : State) : SpeechBlock := s.switch.floorQueue.headD silence

/-- The floor block is taken, an empty queue being counted, and handed to booth control (R14). -/
def takeFloorBlock (s : State) : State :=
  (s.modBoothControl fun b => { b with floorBlock := floorBlockOf s }).modSwitch fun w =>
    { w with
      floorQueue := w.floorQueue.drop 1
      floorUnderruns := if w.floorQueue = [] then bump w.floorUnderruns else w.floorUnderruns }

/-- The state and the speech a channel from 1 to 48 is resolved to, none for a disabled channel (R15). -/
def resolve (x : Channel) (floor : SpeechBlock) : Option (AirState × SpeechBlock) :=
  if !x.enabled then none
  else
    match x.owner, x.queue, x.policy with
    | some _, block :: _, _ => some (.interpreted, block)
    | some _, [], _ => some (.underrun, silence)
    | none, _, .floor => some (.fallback, floor)
    | none, _, .silence => some (.muted, silence)

/-- The air block of a channel (R16). -/
def airBlock (c : Nat) (x : Channel) (r : AirState × SpeechBlock) : AirBlock := ⟨c, r.1, x.restricted, x.label, r.2⟩

/-- Channel 0's air block: the floor block as FALLBACK, or silence as UNDERRUN when the floor queue was empty (R15). -/
def floorAirBlock (s : State) : AirBlock :=
  airBlock 0 (s.chan 0) (if s.switch.floorQueue = [] then (.underrun, silence) else (.fallback, floorBlockOf s))

/-- The air blocks of one tick, channel 0 first, in ascending channel number (R15, R16). -/
def airBlocks (s : State) : List AirBlock :=
  floorAirBlock s ::
    (upTo Config.channels).filterMap (fun c => (resolve (s.chan c) (floorBlockOf s)).map (airBlock c (s.chan c)))

/-- What resolution does to a channel record: an owned channel loses the head of its queue or counts an underrun (R15). -/
def resolved (x : Channel) : Channel :=
  if x.enabled && x.owner.isSome then
    match x.queue with
    | _ :: rest => { x with queue := rest }
    | [] => { x with underruns := bump x.underruns }
  else x

/-- The channel switch takes a block tick: the floor block in every mode, and outside SETUP every channel is resolved and the air
blocks go out on the air port (R14, R15). -/
def takeResolution (s : State) : State :=
  let t := takeFloorBlock s
  if s.mode = .setup then t
  else
    ((upTo Config.channels).foldl (fun u c => u.modChan c resolved) t).modAir fun a =>
      { a with port := { a.port with blocks := airBlocks s } }

/-! ### Channel minutes (R18) -/

/-- One channel's minutes at a minute tick outside SETUP (R18). -/
def channelMinute (c : Nat) (x : Channel) : Channel :=
  { x with
    listenerMinutes := satAdd x.listenerMinutes x.listeners
    fallbackMinutes :=
      if c ≠ 0 && x.enabled && x.owner.isNone && decide (0 < x.listeners) then bump x.fallbackMinutes
      else x.fallbackMinutes }

/-- The channel switch takes a minute tick (R18). -/
def takeChannelMinutes (s : State) : State :=
  if s.mode = .setup then s
  else (0 :: upTo Config.channels).foldl (fun t c => t.modChan c (channelMinute c)) s

end Sys2Proof.Machine
end

