-- ==== Sys2Proof/Machine/Duty.lean ====
section
/-! DEFINITION. The duty queue of the accounting unit: opens, closes, minutes, and the duty requests
(08_interpreter_duty_records.md). -/

namespace Sys2Proof.Machine

/-- Changes the duty counters. -/
def countDuty (f : DutyCounters → DutyCounters) (s : State) : State :=
  s.modAcct fun u => { u with dutyCounters := f u.dutyCounters }

/-- A console's booth is on the air: LIVE or OFFERED (R27). -/
def FloorState.console : FloorState → Option Nat
  | .silent => none
  | .live c => some c
  | .offered c _ _ => some c

def Booth.onAir (b : Booth) : Bool := (FloorState.console b.floor).isSome

/-- The selected output channel of a booth (R24). -/
def Booth.selected (b : Booth) : Option Nat :=
  match b.output with
  | .a => b.aChannel
  | .b => b.bChannel

/-! ### Opening and completing (R151 to R153) -/

/-- A new OPEN entry (R149). -/
def newEntry (slot b channel : Nat) (continued : Bool) (s : State) : DutyEntry :=
  { slot := slot, booth := b, channel := channel, start := s.now, startMinute := s.time.sessionMinute, continued := continued }

def appendEntry (e : DutyEntry) (s : State) : State := s.modAcct fun u => { u with duty := u.duty ++ [e] }

/-- A spell that finds no room: duty-unlogged and DUTY_FULL are set and an overflow is counted (R152, R158). -/
def spellUnlogged (b : Nat) (s : State) : State :=
  setFlag .dutyFull
    (countDuty (fun c => { c with overflows := bump c.overflows }) (s.modBooth b fun x => { x with unlogged := true }))

/-- The accounting unit takes an open (R151, R152). -/
def dutyOpen (slot b channel : Nat) (s : State) : State :=
  if s.acct.duty.length < Config.dutyEntries then
    countDuty (fun c => { c with opened := bump c.opened }) (appendEntry (newEntry slot b channel false s) s)
  else spellUnlogged b s

/-- An OPEN entry. -/
def DutyEntry.isOpen (e : DutyEntry) : Bool := e.status = .opened

/-- An entry completed (R153). -/
def DutyEntry.completed (reason : EndReason) (stop : Clock) (e : DutyEntry) : DutyEntry :=
  { e with stop := some stop, reason := some reason, status := .complete }

/-- Completes in place every OPEN entry that satisfies p, and counts them (R153, R158, R159). -/
def completeEntries (p : DutyEntry → Bool) (reason : EndReason) (stop : Clock) (s : State) : State :=
  s.modAcct fun u =>
    { u with
      duty := u.duty.map fun e => if e.isOpen && p e then e.completed reason stop else e
      dutyCounters :=
        { u.dutyCounters with
          completed := satAdd u.dutyCounters.completed (u.duty.countP fun e => e.isOpen && p e) } }

/-- The accounting unit takes a close: the console's OPEN entry, if there is one, is completed (R153). -/
def dutyClose (slot : Nat) (reason : EndReason) (s : State) : State :=
  completeEntries (fun e => decide (e.slot = slot)) reason s.now s

/-! ### Minutes (R154) -/

/-- An entry at a minute tick (R154). -/
def DutyEntry.minute (inSession : Bool) (e : DutyEntry) : DutyEntry :=
  if e.isOpen then { e with live := bump e.live, session := if inSession then bump e.session else e.session } else e

/-- The accounting unit takes a minute tick (R154). -/
def takeDuties (s : State) : State :=
  s.modAcct fun u => { u with duty := u.duty.map (DutyEntry.minute (decide (s.mode = .session))) }

/-! ### Reading, releasing, cutting (R155 to R158) -/

/-- The COMPLETE entries at the head (R156). -/
def completeRun (duty : List DutyEntry) : List DutyEntry := duty.takeWhile fun e => !e.isOpen

/-- A duty entry in a reply (12_formats.md, Bodies). -/
def dutyFields (e : DutyEntry) : List Field :=
  [.num e.slot, .num e.booth, .num e.channel, .clock e.start, .num e.startMinute] ++ optClock e.stop ++
    [.num e.live, .num e.session] ++ optFields e.reason (fun r => [.name (endReasonText r)]) ++
    [.flag e.continued, .name (dutyStatusText e.status)]

/-- The indication HEAD_OPEN, when the head entry is OPEN (R156). -/
def headOpenFields (duty : List DutyEntry) : List Field :=
  optFields (duty.head?.filter DutyEntry.isOpen)
    fun e => [.name "HEAD_OPEN", .num e.slot, .num e.booth, .clock e.start]

/-- READ DUTY at its owner (R156). -/
def readDuty (s : State) : State × Answer :=
  let duty := s.acct.duty
  accept
    ([.num duty.length, .num (duty.countP DutyEntry.isOpen), .num (completeRun duty).length] ++
      listFields ((completeRun duty).take Config.entriesPerReply) dutyFields ++ headOpenFields duty) s

/-- RELEASE DUTY at its owner (R157). A count above 256 is refused without a figure: DEDUCED (log 37), unsafe. -/
def releaseDuty (count : Nat) (s : State) : State × Answer :=
  let run := (completeRun s.acct.duty).length
  if Config.dutyEntries < count then refuse .range s
  else if run < count then (s, .refused .range [.num run])
  else
    accept []
      (countDuty (fun c => { c with released := satAdd c.released count })
        (s.modAcct fun u => { u with duty := u.duty.drop count }))

/-- The continuation of one booth in CUT DUTY, with the number appended and the booths without room so far (R158). -/
def continueBooth (acc : State × Nat × List Nat) (b : Nat) : State × Nat × List Nat :=
  let s := acc.1
  match FloorState.console (s.boothRec b).floor, (s.boothRec b).selected with
  | some slot, some channel =>
    if s.acct.duty.length < Config.dutyEntries then
      (countDuty (fun c => { c with continuations := bump c.continuations })
        (appendEntry (newEntry slot b channel true s) s), acc.2.1 + 1, acc.2.2)
    else (spellUnlogged b s, acc.2.1, acc.2.2 ++ [b])
  | _, _ => acc

/-- CUT DUTY at its owner (R158). -/
def cutDuty (s : State) : State × Answer :=
  let s1 := countDuty (fun c => { c with cuts := bump c.cuts }) s
  let s2 := completeEntries (fun _ => true) .cut s.now s1
  let continued := (upTo Config.booths).foldl continueBooth (s2, 0, [])
  accept
    ([.num (s.acct.duty.countP DutyEntry.isOpen), .num continued.2.1] ++ listFields continued.2.2 (fun b => [.num b]))
    continued.1

/-- CLEAR DUTY TOTALS at its owner (R155). -/
def clearDutyTotals (s : State) : State × Answer :=
  let s1 := (upTo Config.booths).foldl (fun t b => t.modBooth b fun x => { x with liveMinutes := 0, unlogged := false }) s
  accept [] ((upTo Config.slots).foldl (fun t n => t.modConsole n fun x => { x with liveMinutes := 0 }) s1)

/-! ### The commands -/

/-- READ_DUTY (R156). -/
def execReadDuty (hdr : Header) (s : State) : Host.Outcome State Fault Refusal :=
  .next (serve hdr controlMonitor true readDuty s)

/-- RELEASE_DUTY (R157). -/
def execReleaseDuty (hdr : Header) (count : Nat) (s : State) : Host.Outcome State Fault Refusal :=
  .next (serve hdr controlOnly true (releaseDuty count) s)

/-- CUT_DUTY (R158). -/
def execCutDuty (hdr : Header) (s : State) : Host.Outcome State Fault Refusal :=
  .next (serve hdr controlOnly true cutDuty s)

/-- CLEAR_DUTY_TOTALS (R155). -/
def execClearDutyTotals (hdr : Header) (s : State) : Host.Outcome State Fault Refusal :=
  .next (serve hdr controlOnly true clearDutyTotals s)

end Sys2Proof.Machine
end

