-- ==== Sys2Proof/Machine/BoothFloor.lean ====
section
/-! DEFINITION. Booth control's own operations: floor states, keys and lamp codes, forced silences, turn timer, relay graph,
feeds and lamps, calls (02_booths_handover_and_relay.md). -/

namespace Sys2Proof.Machine

/-! ### Lamp codes (R28) -/

/-- The refusal lamp code goes on display, up to the 500th block tick after the last one booth control took (R28). -/
def showLamp (slot : Nat) (code : LampCode) (s : State) : State :=
  s.modConsole slot fun c => { c with lamp := some code, displayEnd := some Config.displayTicks }

/-- The refusal lamp code and its display end become absent (R28). -/
def clearLamp (slot : Nat) (s : State) : State :=
  s.modConsole slot fun c => { c with lamp := none, displayEnd := none }

/-- Booth control takes a block tick for one console: one tick less to come, and past the display end the code goes out (R28). -/
def displayTick (slot : Nat) (s : State) : State :=
  match (s.console slot).displayEnd with
  | none => s
  | some 0 => clearLamp slot s
  | some (n + 1) => s.modConsole slot fun c => { c with displayEnd := some n }

/-- Booth control takes a block tick for the display ends (R28, R162). -/
def takeDisplayEnds (s : State) : State := (upTo Config.slots).foldl (fun t n => displayTick n t) s

/-! ### Going live and falling silent -/

/-- The turn timer loads with the turn limit; 0 means no timer (R39). -/
def loadTurn (limit : Nat) : Option Nat := if limit = 0 then none else some limit

/-- Hands an open for the booth's live console on the channel the booth owns (R28, R151). -/
def openSpell (slot b : Nat) (s : State) : State :=
  match (s.boothRec b).selected with
  | some channel => dutyOpen slot b channel s
  | none => s

/-- A SILENT booth whose claim was granted becomes LIVE (R29). -/
def goLive (slot b : Nat) (s : State) : State :=
  openSpell slot b (s.modBooth b fun x => { x with floor := .live slot, turn := loadTurn x.turnLimit })

/-- The live console changes from old to slot with the channel staying owned: close, then open, and the turn timer reloads (R29,
R30). -/
def changeLive (slot old b : Nat) (reason : EndReason) (s : State) : State :=
  openSpell slot b
    (dutyClose old reason (s.modBooth b fun x => { x with floor := .live slot, turn := loadTurn x.turnLimit }))

/-- Releases the channel a booth owns, its selected output channel (R27, R34, R36). -/
def releaseSelected (b : Nat) (s : State) : State :=
  match (s.boothRec b).selected with
  | some channel => release channel b s
  | none => s

/-- A booth record that has gone SILENT: live console, offer, turn remaining and latest output block absent (R34, R36). -/
def Booth.silenced (x : Booth) : Booth := { x with floor := .silent, turn := none, latest := none }

/-- A booth goes from LIVE or OFFERED to SILENT with an end reason; a SILENT booth is left as it is (R34, R36). -/
def goSilent (b : Nat) (reason : EndReason) (s : State) : State :=
  match FloorState.console (s.boothRec b).floor with
  | none => s
  | some slot => (dutyClose slot reason (releaseSelected b s)).modBooth b Booth.silenced

/-- An offer is dropped: the booth is LIVE with the same live console (R31, R33). -/
def dropOffer (b : Nat) (s : State) : State :=
  match (s.boothRec b).floor with
  | .offered slot _ _ => s.modBooth b fun x => { x with floor := .live slot }
  | _ => s

/-- Booth control acts on a console that has gone ABSENT (R22, R33, R37, R56). LIVE_LOST is set before the booth falls silent, so its
notice is queued before that of CHANNEL_FALLBACK: DEDUCED (log 31), unsafe. -/
def consoleGone (slot : Nat) (s : State) : State :=
  let t := s.modConsole slot fun c => { c with cough := false, call := false }
  match (s.console slot).booth with
  | none => t
  | some b =>
    match (s.boothRec b).floor with
    | .silent => t
    | .live c => if c = slot then goSilent b .absent (setFlag .liveLost t) else t
    | .offered c target _ =>
      if c = slot then goSilent b .absent (setFlag .liveLost t)
      else if target = .slot slot then dropOffer b t
      else t

/-! ### The relay graph (R41) -/

/-- Following relay sources from a source reaches booth b; a chain has at most 24 booths before it repeats one. -/
def reaches (relay : Nat → RelaySource) (b : Nat) : Nat → RelaySource → Bool
  | 0, _ => false
  | _ + 1, .floor => false
  | n + 1, .booth x => decide (x = b) || reaches relay b n (relay x)

/-- The relay depth from a source: the booths the chain passes through up to FLOOR, none for a chain that does not come to FLOOR
within the fuel. -/
def chainLength (relay : Nat → RelaySource) : Nat → RelaySource → Option Nat
  | _, .floor => some 0
  | 0, .booth _ => none
  | n + 1, .booth x => (chainLength relay n (relay x)).map (· + 1)

/-- The relay depth of a booth (02_booths_handover_and_relay.md, Relay), none on a cycle. -/
def relayDepthOf (relay : Nat → RelaySource) (b : Nat) : Option Nat := chainLength relay Config.booths (relay b)

/-- Every booth's relay depth is at most 3. -/
def depthsFit (relay : Nat → RelaySource) : Bool :=
  (upTo Config.booths).all fun b => (relayDepthOf relay b).any (fun d => decide (d ≤ Config.relayDepth))

/-- The relay sources as they stand. -/
def State.relay (s : State) (b : Nat) : RelaySource := (s.boothRec b).relay

/-- The relay sources with one changed. -/
def withSource (relay : Nat → RelaySource) (b : Nat) (source : RelaySource) : Nat → RelaySource :=
  fun x => if x = b then source else relay x

/-- The check of a proposed change of relay source (R41): none when it passes. -/
def relayRefusal (s : State) (b : Nat) (source : RelaySource) : Option LampCode :=
  if s.relay b = source then none
  else if reaches s.relay b (Config.booths + 1) source then some .relayCycle
  else if !depthsFit (withSource s.relay b source) then some .relayDepth
  else none

def setSource (b : Nat) (source : RelaySource) (s : State) : State := s.modBooth b fun x => { x with relay := source }

/-! ### Calls (R47) -/

/-- Sets a booth's call latch; a latch going from clear to set sets CALL (R47). -/
def latchCall (b : Nat) (s : State) : State :=
  if (s.boothRec b).callLatch then s else setFlag .call (s.modBooth b fun x => { x with callLatch := true })

/-- Records the levels of a configured slot marked SEEN, latching a held call in call mode HOLD (R22, R28, R47). -/
def recordLevels (slot : Nat) (cough call : Bool) (s : State) : State :=
  let t := s.modConsole slot fun c => { c with cough := cough, call := call }
  match (s.console slot).booth with
  | some b => if call && decide ((s.boothRec b).callMode = .hold) then latchCall b t else t
  | none => t

/-! ### Keys (R29 to R35, R42, R47) -/

/-- The console of booth b on a seat. -/
def slotOnSeat (s : State) (b seat : Nat) : Option Nat :=
  (upTo Config.slots).find? fun n =>
    (s.console n).configured && decide ((s.console n).booth = some b) && decide ((s.console n).seat = some seat)

/-- The offer target a HANDOVER key names, none when it is not valid (R32). -/
def handoverTarget (s : State) (slot b : Nat) : HandoverTarget → Option OfferTarget
  | .any => some .any
  | .seat n =>
    match slotOnSeat s b n with
    | some t => if (s.slotState t).presence = .present && t ≠ slot then some (.slot t) else none
    | none => none

/-- TAKE (R30). -/
def keyTake (slot b : Nat) (s : State) : State :=
  match (s.boothRec b).floor with
  | .offered d target _ =>
    if d = slot then s
    else if target = .any || target = .slot slot then changeLive slot d b .handover s
    else showLamp slot .notForYou s
  | _ => showLamp slot .noOffer s

/-- MIC_ON (R29). -/
def keyMicOn (slot b : Nat) (s : State) : State :=
  if s.mode = .setup then showLamp slot .notLiveMode s
  else
    match (s.boothRec b).floor with
    | .silent =>
      match (s.boothRec b).selected with
      | none => showLamp slot .noChannel s
      | some channel =>
        match claimRefusal (s.chan channel) with
        | some code => showLamp slot code s
        | none => goLive slot b (takeOwnership channel b s)
    | .live d =>
      if d = slot then s
      else
        match (s.boothRec b).interlock with
        | .refuse => showLamp slot .interlock s
        | .takeover => changeLive slot d b .takeover s
    | .offered d _ _ => if d = slot then s else keyTake slot b s

/-- HANDOVER (R32). -/
def keyHandover (slot b : Nat) (target : HandoverTarget) (s : State) : State :=
  if FloorState.console (s.boothRec b).floor ≠ some slot then showLamp slot .notLive s
  else
    match handoverTarget s slot b target with
    | none => showLamp slot .badTarget s
    | some offer => s.modBooth b fun x => { x with floor := .offered slot offer s.params.offerTimeout }

/-- MIC_OFF (R34). -/
def keyMicOff (slot b : Nat) (s : State) : State :=
  if FloorState.console (s.boothRec b).floor = some slot then goSilent b .micOff s else s

/-- The channel of a named output (R35). -/
def Booth.channelOf (x : Booth) : Output → Option Nat
  | .a => x.aChannel
  | .b => x.bChannel

/-- The output of a live booth changes to a channel claimed for it: claim, release of the old one, close and open, the offer dropped
(R35 step 5). -/
def switchOutput (slot b : Nat) (output : Output) (channel : Nat) (s : State) : State :=
  openSpell slot b
    (dutyClose slot .output
      ((releaseSelected b (takeOwnership channel b s)).modBooth b fun x =>
        { x with output := output, floor := .live slot, latest := none }))

/-- OUTPUT_A and OUTPUT_B (R35). -/
def keyOutput (slot b : Nat) (output : Output) (s : State) : State :=
  match (s.boothRec b).channelOf output with
  | none => showLamp slot .noChannel s
  | some channel =>
    if (s.boothRec b).output = output then s
    else
      match FloorState.console (s.boothRec b).floor with
      | none => s.modBooth b fun x => { x with output := output }
      | some live =>
        if live ≠ slot then showLamp slot .notLive s
        else
          match claimRefusal (s.chan channel) with
          | some code => showLamp slot code s
          | none => switchOutput slot b output channel s

/-- RELAY (R42). -/
def keyRelay (slot b : Nat) (source : RelaySource) (s : State) : State :=
  match relayRefusal s b source with
  | some code => showLamp slot code s
  | none => setSource b source s

/-- One key event from a console of booth b, its lamp code already put out (R28). -/
def carryOutKey (slot b : Nat) (key : KeyEvent) (s : State) : State :=
  match key with
  | .micOn => keyMicOn slot b s
  | .take => keyTake slot b s
  | .handover target => keyHandover slot b target s
  | .micOff => keyMicOff slot b s
  | .outputA => keyOutput slot b .a s
  | .outputB => keyOutput slot b .b s
  | .relay source => keyRelay slot b source s
  | .call => latchCall b s

/-- Booth control takes a key event: one from a console with Booth absent is discarded (R28). -/
def takeKey (slot : Nat) (key : KeyEvent) (s : State) : State :=
  match (s.console slot).booth with
  | none => s
  | some b => carryOutKey slot b key (clearLamp slot s)

/-! ### Offers and turns at the ticks (R31, R40, R155) -/

/-- An offer expires: LIVE again, and the offering console shows NO_OFFER (R31). -/
def expireOffer (b : Nat) (s : State) : State :=
  match (s.boothRec b).floor with
  | .offered slot _ _ => showLamp slot .noOffer (dropOffer b s)
  | _ => s

/-- A booth's offer expiry at a second tick: decremented, and expired when it reaches 0 (R31). -/
def offerSecond (b : Nat) (s : State) : State :=
  match (s.boothRec b).floor with
  | .offered slot target expiry =>
    if expiry ≤ 1 then expireOffer b s else s.modBooth b fun x => { x with floor := .offered slot target (expiry - 1) }
  | _ => s

/-- The offer of a booth expires at the next second tick booth control takes. -/
def offerDue (b : Nat) (s : State) : Bool :=
  match (s.boothRec b).floor with
  | .offered _ _ expiry => decide (expiry ≤ 1)
  | _ => false

/-- Booth control takes a second tick (R31). -/
def takeOffers (s : State) : State := (upTo Config.booths).foldl (fun t b => offerSecond b t) s

/-- A booth's turn timer at a minute tick; the turn that reaches 0 is due (R40). -/
def turnMinute (b : Nat) (s : State) : State :=
  if (s.boothRec b).onAir then
    match (s.boothRec b).turn with
    | some (n + 1) =>
      let t := s.modBooth b fun x => { x with turn := some n }
      if n = 0 then setFlag .turnDue t else t
    | _ => s
  else s

/-- The turn of a booth falls due at the next minute tick booth control takes. -/
def turnFalling (b : Nat) (s : State) : Bool := (s.boothRec b).onAir && decide ((s.boothRec b).turn = some 1)

/-- The live-minutes totals of a booth on the air and of its live console (R155). -/
def liveMinute (b : Nat) (s : State) : State :=
  match FloorState.console (s.boothRec b).floor with
  | none => s
  | some slot =>
    (s.modBooth b fun x => { x with liveMinutes := bump x.liveMinutes }).modConsole slot fun c =>
      { c with liveMinutes := bump c.liveMinutes }

/-- Booth control takes a minute tick (R40, R155). -/
def takeTurns (s : State) : State := (upTo Config.booths).foldl (fun t b => liveMinute b (turnMinute b t)) s

/-! ### Feeds and lamps (R44 to R46) -/

/-- The feed audio of a booth's consoles and their RELAY_FALLBACK lamp (R44). -/
def feedOf (s : State) (b : Nat) : SpeechBlock × Bool :=
  match (s.boothRec b).relay with
  | .floor => (s.booth.floorBlock, false)
  | .booth source =>
    if (s.boothRec source).onAir then ((s.boothRec source).latest.getD silence, false) else (s.booth.floorBlock, true)

/-- OFFER_TO_YOU (R45). -/
def offeredTo (floor : FloorState) (slot : Nat) : Bool :=
  match floor with
  | .offered d target _ => decide (d ≠ slot) && (decide (target = .any) || decide (target = .slot slot))
  | _ => false

/-- OFFER_PENDING (R45). -/
def offerPending (floor : FloorState) : Bool :=
  match floor with
  | .offered _ _ _ => true
  | _ => false

/-- The lamps of a console of booth b (R45). -/
def lampsOf (s : State) (slot b : Nat) : Lamps :=
  let x := s.boothRec b
  { micLive := decide (FloorState.console x.floor = some slot)
    boothLive := x.onAir
    offerToYou := offeredTo x.floor slot
    offerPending := offerPending x.floor
    turnDue := x.onAir && decide (x.turn = some 0)
    relayFallback := (feedOf s b).2
    outputB := decide (x.output = .b)
    callPending := x.callLatch
    setup := decide (s.mode = .setup) }

/-- The downstream part of a slot (R45, R46). -/
def downstream (s : State) (slot : Nat) : Downstream :=
  let c := s.console slot
  if !c.configured then {}
  else
    match c.booth with
    | none => { feed := s.booth.floorBlock, lamps := { setup := decide (s.mode = .setup) } }
    | some b =>
      { feed := (feedOf s b).1
        lamps := lampsOf s slot b
        turn := if (s.boothRec b).onAir then (s.boothRec b).turn else none
        lamp := c.lamp }

/-! ### Speech (R12, R38) -/

/-- The block a live console's slot brings its booth: silence while cough is held, none when the slot is not marked SEEN (R12). -/
def speechOf (u : Upstream) : Option SpeechBlock := if u.seen then some (if u.cough then silence else u.speech) else none

/-- The channel switch takes one booth's speech of a good return (R12): the block goes to the owned channel's queue and becomes the
booth's latest output block. -/
def takeSpeech (slots : Nat → Upstream) (b : Nat) (s : State) : State :=
  match FloorState.console (s.boothRec b).floor, (s.boothRec b).selected with
  | some slot, some channel =>
    match speechOf (slots slot) with
    | some block => (appendBlock channel block s).modBooth b fun x => { x with latest := some block }
    | none => s
  | _, _ => s

end Sys2Proof.Machine
end

