-- ==== Sys2Proof/Machine/RingLoop.lean ====
section
/-! DEFINITION. The loop controller: missed frames and presence, departures, returns, loop status (03_the_booth_loop.md). -/

namespace Sys2Proof.Machine

/-- Changes the frame counters. -/
def countLoop (f : LoopCounters → LoopCounters) (s : State) : State :=
  s.modLoop fun l => { l with counters := f l.counters }

/-! ### Presence (R52, R56, R57) -/

/-- A slot is configured as the loop controller holds it (R58). -/
def SlotState.configured (x : SlotState) : Bool := decide (x.presence ≠ .unconfigured)

/-- A missed frame at the slot's own counts (R56). -/
def SlotState.oneMissed (x : SlotState) : SlotState :=
  { x with missed := bump x.missed, missedRun := min (x.missedRun + 1) Config.missedRunMax }

/-- The missed frame brings a PRESENT console to the absence limit (R56). -/
def absenceDue (slot : Nat) (s : State) : Bool :=
  decide ((s.slotState slot).presence = .present) &&
    decide (s.params.absenceLimit ≤ (s.slotState slot).oneMissed.missedRun)

/-- A console becomes ABSENT (R56): CONSOLE_ABSENT is set and the absence is reported to booth control. -/
def goAbsent (slot : Nat) (s : State) : State :=
  consoleGone slot (setFlag .consoleAbsent (s.modSlot slot fun x => { x with presence := .absent }))

/-- A configured console is given one missed frame (R56). -/
def missFrame (slot : Nat) (s : State) : State :=
  if (s.slotState slot).configured then
    let t := s.modSlot slot SlotState.oneMissed
    if absenceDue slot s then goAbsent slot t else t
  else s

/-- A frame is taken as lost: counted, and every configured console is given one missed frame (R52), in ascending slot order: DESIGN
CHOICE (log 32), unsafe. -/
def loseFrame (s : State) : State :=
  (upTo Config.slots).foldl (fun t n => missFrame n t) (countLoop (fun c => { c with lost := bump c.lost }) s)

/-- Frames taken as lost one by one (R52). -/
def loseFrames (n : Nat) (s : State) : State := Nat.repeat loseFrame n s

/-- A configured console is heard (R57). -/
def hearConsole (slot : Nat) (s : State) : State :=
  s.modSlot slot fun x => { x with missedRun := 0, presence := .present }

/-- The slot's error counter. -/
def countError (slot : Nat) (s : State) : State := s.modSlot slot fun x => { x with errors := bump x.errors }

/-! ### Loop status (R62) -/

/-- A departure counts toward the loop status: at 8 without a good return a RUNNING loop breaks (R62). -/
def countDeparture (s : State) : State :=
  let n := min (s.loop.sinceGood + 1) Config.outstanding
  let t := s.modLoop fun l => { l with sinceGood := n }
  if n = Config.outstanding && decide (s.loop.status = .running) then
    setFlag .loopBroken (t.modLoop fun l => { l with status := .broken })
  else t

/-- The next departure breaks the loop (R62). -/
def breakDue (s : State) : Bool :=
  decide (Config.outstanding ≤ s.loop.sinceGood + 1) && decide (s.loop.status = .running)

/-- A good return counts toward the loop status (R62). -/
def countGoodReturn (s : State) : State := s.modLoop fun l => { l with sinceGood := 0, status := .running }

/-! ### Departure (R50) -/

/-- A list of 8 gives up its oldest entry as lost (R50 step 1). -/
def giveUpOldest (s : State) : State :=
  if Config.outstanding ≤ s.loop.outstanding.length then
    loseFrame (s.modLoop fun l => { l with outstanding := l.outstanding.drop 1 })
  else s

/-- The frame is built from the state booth control holds and sent (R50 steps 2 to 4). -/
def sendFrame (s : State) : State :=
  s.modLoop fun l =>
    { l with
      port := some ⟨l.nextSequence, (upTo Config.slots).map (downstream s)⟩
      outstanding := l.outstanding ++ [l.nextSequence]
      nextSequence := (l.nextSequence + 1) % 16
      counters := { l.counters with departed := bump l.counters.departed } }

/-- The loop controller takes a block tick: one frame departs (R50). -/
def takeDeparture (s : State) : State := countDeparture (sendFrame (giveUpOldest s))

/-! ### Slots of a good return (R55, R61, R200) -/

/-- The upstream part of a slot of a returned frame. -/
def upstreamOf (f : LoopReturn) (slot : Nat) : Upstream := Table.get {} f.slots slot

/-- One slot read (R55). -/
def readSlot (slot : Nat) (u : Upstream) (s : State) : State :=
  if (s.slotState slot).configured then
    if u.seen then
      if u.copied then hearConsole slot s else countError slot (hearConsole slot s)
    else missFrame slot s
  else if u.seen then countLoop (fun c => { c with stray := bump c.stray }) s
  else s

/-- A key event read from its code and argument bytes, none when the code or the argument is out of its values (R61, R200). -/
def readKey (bytes : Nat × Nat) : Option KeyEvent :=
  match bytes with
  | (1, 0) => some .micOn
  | (2, 0) => some .take
  | (3, 0) => some (.handover .any)
  | (3, n) => if n ≤ 3 then some (.handover (.seat n)) else none
  | (4, 0) => some .micOff
  | (5, 0) => some .outputA
  | (6, 0) => some .outputB
  | (7, 0) => some (.relay .floor)
  | (7, n) => if n ≤ Config.booths then some (.relay (.booth n)) else none
  | (8, 0) => some .call
  | _ => none

/-- The key events a slot carries, by its key event count (R200). -/
def carriedKeys (u : Upstream) : List (Nat × Nat) :=
  match u.keyCount with
  | 0 => []
  | 1 => [u.key1]
  | 2 => [u.key1, u.key2]
  | _ => []

/-- One carried key event: handed to booth control, or discarded and counted as an error of the console (R61). -/
def handKey (slot : Nat) (s : State) (bytes : Nat × Nat) : State :=
  match readKey bytes with
  | some key => takeKey slot key s
  | none => countError slot s

/-- The slot is configured and marked SEEN (R55). -/
def heardSlot (s : State) (slot : Nat) (u : Upstream) : Bool := (s.slotState slot).configured && u.seen

/-- The levels of one slot (R60 step 3). -/
def takeLevels (f : LoopReturn) (s : State) (slot : Nat) : State :=
  if heardSlot s slot (upstreamOf f slot) then recordLevels slot (upstreamOf f slot).cough (upstreamOf f slot).call s else s

/-- The key events of one slot, in the order carried; one that carries more than two has them all discarded and counts one error
(R60 step 4, R61). -/
def takeKeys (f : LoopReturn) (s : State) (slot : Nat) : State :=
  if heardSlot s slot (upstreamOf f slot) then
    if 2 < (upstreamOf f slot).keyCount then countError slot s
    else (carriedKeys (upstreamOf f slot)).foldl (handKey slot) s
  else s

/-! ### Return (R53, R54, R60) -/

/-- The older frames are taken as lost, the returning frame's own entry is removed and counted (R54). -/
def takeEntry (sequence : Nat) (s : State) : State :=
  let older := (s.loop.outstanding.takeWhile (fun q => q ≠ sequence)).length
  let t := loseFrames older (s.modLoop fun l => { l with outstanding := l.outstanding.drop (older + 1) })
  countLoop (fun c => { c with returned := bump c.returned }) t

/-- Steps 2 to 6 of R60. -/
def handOn (f : LoopReturn) (s : State) : State :=
  let read := (upTo Config.slots).foldl (fun t n => readSlot n (upstreamOf f n) t) s
  let levels := (upTo Config.slots).foldl (takeLevels f) read
  let keys := (upTo Config.slots).foldl (takeKeys f) levels
  let speech := (upTo Config.booths).foldl (fun t b => takeSpeech (upstreamOf f) b t) keys
  countGoodReturn speech

/-- A frame comes home: bad, unmatched, or good (R53, R54, R60). -/
def loopReturn (f : LoopReturn) (s : State) : State :=
  if !f.checkGood then countLoop (fun c => { c with bad := bump c.bad }) s
  else if !s.loop.outstanding.contains f.sequence then countLoop (fun c => { c with unmatched := bump c.unmatched }) s
  else handOn f (takeEntry f.sequence s)

/-! ### Reading (R63) -/

/-- The number of slots in a presence state. -/
def slotsIn (s : State) (p : Presence) : Nat := (upTo Config.slots).countP fun n => decide ((s.slotState n).presence = p)

/-- READ of the loop entry at its owner (R63). The number of entries is the count of the list: DEDUCED (log 33), unsafe. -/
def readLoop (s : State) : State × Answer :=
  let l := s.loop
  accept
    ([.name (loopStatusText l.status), .num l.sinceGood, .num l.nextSequence] ++
      listFields l.outstanding (fun q => [.num q]) ++
      [.num s.params.absenceLimit, .num (slotsIn s .present), .num (slotsIn s .absent), .num (slotsIn s .unconfigured),
       .num l.counters.departed, .num l.counters.returned, .num l.counters.lost, .num l.counters.bad,
       .num l.counters.unmatched, .num l.counters.stray]) s

/-! ### The commands -/

/-- LOOP_RETURN (R60): the frame as its bytes, its check value computed over them (R199). -/
def execLoopReturn (frame : List Byte) (s : State) : Host.Outcome State Fault Refusal :=
  .next (whileMains (loopReturn (returnOfBytes frame)) s)

/-- CONSOLE_ABSENT (R56): the missed frame that brings a PRESENT console to the absence limit; where the next missed frame does
not, the event does not come about (log 6). -/
def execConsoleAbsent (slot : Nat) (s : State) : Host.Outcome State Fault Refusal :=
  .next (whileMains (fun s => if absenceDue slot s then missFrame slot s else s) s)

/-- LOOP_BROKEN (R62): the departure count that reaches 8 while the loop is RUNNING (log 6). -/
def execLoopBroken (s : State) : Host.Outcome State Fault Refusal :=
  .next (whileMains (fun s => if breakDue s then countDeparture s else s) s)

/-- FLOOR_BLOCK_ARRIVAL (R13). -/
def execFloorBlockArrival (block : SpeechBlock) (s : State) : Host.Outcome State Fault Refusal :=
  .next (whileMains (floorArrival block) s)

/-- READ_LOOP (R63). -/
def execReadLoop (hdr : Header) (s : State) : Host.Outcome State Fault Refusal :=
  .next (serve hdr controlMonitor true readLoop s)

end Sys2Proof.Machine
end

