-- ==== Sys2Proof/Machine/Receivers.lean ====
section
/-! DEFINITION. Receivers on the air: reports, range, language choices, revocation passes, notes
(04_receivers_on_the_air.md). -/

namespace Sys2Proof.Machine

/-- Changes the air counters. -/
def countAir (f : AirCounters → AirCounters) (s : State) : State :=
  s.modAir fun a => { a with counters := f a.counters }

/-! ### Language choice (R76) -/

/-- Channel c is permitted to a receiver on loan to an account: not restricted, or the account is OPEN and has it in its access
set (04_receivers_on_the_air.md, Permitted). -/
def permitted (s : State) (account c : Nat) : Bool :=
  !(s.chan c).restricted ||
    match s.accountByNumber account with
    | some (_, a) => decide (a.state = .opened) && a.access.contains c
    | none => false

/-- A GRANT decision for channel c (R76). -/
def grantNote (serial c : Nat) (s : State) : State :=
  queueNote ⟨serial, .grant, c⟩ (countAir (fun k => { k with grants := bump k.grants }) s)

/-- A DENY decision for channel c (R76). -/
def denyNote (serial c : Nat) (s : State) : State :=
  queueNote ⟨serial, .deny, c⟩ (countAir (fun k => { k with denials := bump k.denials }) s)

/-- The reported channel c of a receiver on loan is judged (R76). -/
def judge (slot : Nat) (r : Receiver) (account c : Nat) (select : Bool) (s : State) : State :=
  if r.channel = some c then
    if select && (s.chan c).restricted then grantNote r.serial c s else s
  else if permitted s account c then
    let t := writeReceiver slot { r with channel := some c } s
    if (s.chan c).restricted then grantNote r.serial c t else t
  else denyNote r.serial c s

/-! ### Reports (R67 to R72) -/

/-- A report is bad (R68). -/
def badReport (p : AirReport) : Bool :=
  !p.sound || !within 1 p.radiator 8 || !(p.kind = 1 || p.kind = 2) || decide (Config.channels < p.channel)

/-- A report repeats the report last accepted for the receiver (R70). -/
def repeats (r : Receiver) (p : AirReport) : Bool :=
  decide (r.lastCounter = some p.counter) && r.lastHeard.any (fun n => decide (n < Config.duplicateWindow))

/-- What a duplicate leaves in the record: a better link moves the last radiator (R70). -/
def betterLink (r : Receiver) (p : AirReport) : Receiver :=
  if decide (r.lastLink.getD 0 < p.link) then { r with lastRadiator := some p.radiator, lastLink := some p.link } else r

/-- Steps 1 and 2 of R71 at the record. -/
def heardReport (r : Receiver) (p : AirReport) (clock : Clock) : Receiver :=
  { r with
    lastHeard := some 0
    lastHeardClock := some clock
    lastCounter := some p.counter
    lastRadiator := some p.radiator
    lastLink := some p.link
    battery := some p.battery
    range := .inRange }

/-- A report from an unknown serial (R69). -/
def unknownReport (p : AirReport) (s : State) : State :=
  setFlag .unknownReceiver
    ((countAir (fun k => { k with unknown := bump k.unknown }) s).modAir fun a =>
      { a with lastUnknown := some ⟨p.serial, p.radiator, s.now⟩ })

/-- A duplicate (R70). -/
def duplicateReport (slot : Nat) (r : Receiver) (p : AirReport) (s : State) : State :=
  writeReceiver slot (betterLink r p) (countAir (fun k => { k with duplicates := bump k.duplicates }) s)

/-- An accepted report (R71, R72). -/
def acceptReport (slot : Nat) (r : Receiver) (p : AirReport) (s : State) : State :=
  let counted := countAir (fun k =>
    { k with accepted := bump k.accepted, selects := if p.kind = 2 then bump k.selects else k.selects }) s
  let heard := heardReport r p s.now
  let t := writeReceiver slot heard counted
  match r.onLoan, r.loan with
  | true, some loan => judge slot heard loan.account p.channel (decide (p.kind = 2)) t
  | _, _ => if r.state = .lost then setFlag .lostHeard t else t

/-- A report is taken whole: bad, unknown, duplicate or accepted (R67). -/
def takeReport (p : AirReport) (s : State) : State :=
  let counted := countAir (fun k => { k with reports := bump k.reports }) s
  if badReport p then countAir (fun k => { k with bad := bump k.bad }) counted
  else
    let t := countAir (fun k =>
      { k with perRadiator := Table.set 0 p.radiator (bump (Table.get 0 k.perRadiator p.radiator)) k.perRadiator }) counted
    match s.receiverBySerial p.serial with
    | none => unknownReport p t
    | some (slot, r) => if repeats r p then duplicateReport slot r p t else acceptReport slot r p t

/-! ### Range (R73) -/

/-- One more second since the last accepted report (R66, R73). -/
def Receiver.aged (r : Receiver) : Receiver :=
  { r with lastHeard := r.lastHeard.map fun n => min (n + 1) Config.lastHeardMax }

/-- An IN_RANGE receiver reaches the silence limit at the next second tick (R73). -/
def rangeLossDue (limit : Nat) (r : Receiver) : Bool :=
  decide (r.range = .inRange) && r.aged.lastHeard.any fun n => decide (limit ≤ n)

/-- One receiver at a second tick (R73). -/
def rangeSecond (s : State) (slot : Nat) : State :=
  match Table.look s.hire.receivers slot with
  | none => s
  | some r =>
    if rangeLossDue s.params.silenceLimit r then
      countAir (fun k => { k with rangeLosses := bump k.rangeLosses })
        (writeReceiver slot { r.aged with range := .outOfRange } s)
    else writeReceiver slot r.aged s

/-- The occupied slots of the receiver table, in ascending order. -/
def receiverSlots (s : State) : List Nat := s.hire.receivers.map (·.1)

/-! ### Revocation (R77) -/

/-- A candidate that is on loan and whose current channel is present and no longer permitted (R77). -/
def losesChannel (s : State) (r : Receiver) : Option Nat :=
  match r.onLoan, r.loan, r.channel with
  | true, some loan, some c => if permitted s loan.account c then none else some c
  | _, _, _ => none

/-- One candidate of a revocation pass, with the number revoked so far (R77). -/
def revokeOne (candidate : Receiver → Bool) (acc : State × Nat) (slot : Nat) : State × Nat :=
  match Table.look acc.1.hire.receivers slot with
  | none => acc
  | some r =>
    if candidate r then
      match losesChannel acc.1 r with
      | none => acc
      | some c =>
        (countAir (fun k => { k with revocations := bump k.revocations })
          (queueNote ⟨r.serial, .revoke, c⟩ (writeReceiver slot { r with channel := some 0 } acc.1)), acc.2 + 1)
    else acc

/-- A revocation pass over the candidates in ascending slot order, with the number revoked (R77). -/
def revocationPass (candidate : Receiver → Bool) (s : State) : State × Nat :=
  (receiverSlots s).foldl (revokeOne candidate) (s, 0)

/-- The pass over the receivers whose loan names an account (R78). -/
def revokeAccount (account : Nat) : State → State × Nat :=
  revocationPass fun r => r.loan.any fun l => decide (l.account = account)

/-- The pass after a restriction notice for channel c (R79). -/
def revokeChannel (c : Nat) (s : State) : State := (revocationPass (fun r => decide (r.channel = some c)) s).1

/-! ### Notes at a block tick (R82) -/

/-- The air controller takes a block tick: up to 4 notes leave the queue and go out with the tick's set (R82). -/
def takeNotes (s : State) : State :=
  s.modAir fun a =>
    { a with
      notes := a.notes.drop Config.notesPerTick
      port := { a.port with notes := a.notes.take Config.notesPerTick }
      counters := { a.counters with notesSent := satAdd a.counters.notesSent (a.notes.take Config.notesPerTick).length } }

/-! ### Reading (R83) -/

/-- The number of records in a range status. -/
def inRangeStatus (s : State) (x : RangeStatus) : Nat := s.hire.receivers.countP fun e => decide (e.2.range = x)

/-- The air counters in the order of R84. -/
def airCounterFields (k : AirCounters) : List Field :=
  .num k.reports :: (upTo 8).map (fun n => .num (Table.get 0 k.perRadiator n)) ++
    [.num k.bad, .num k.unknown, .num k.duplicates, .num k.accepted, .num k.selects, .num k.rangeLosses, .num k.grants,
     .num k.denials, .num k.revocations, .num k.notesSent, .num k.notesDropped]

/-- READ of the air entry at its owner (R83). -/
def readAir (s : State) : State × Answer :=
  accept
    (.num s.air.notes.length :: optFields s.air.lastUnknown (fun u => [.num u.serial, .num u.radiator, .clock u.clock]) ++
      [.num s.params.silenceLimit, .num (inRangeStatus s .unheard), .num (inRangeStatus s .inRange),
       .num (inRangeStatus s .outOfRange)] ++ airCounterFields s.air.counters) s

/-! ### The commands -/

/-- RECEIVER_REPORT (R67): the report as its bytes, its check value computed over them (R199). -/
def execReceiverReport (report : List Byte) (s : State) : Host.Outcome State Fault Refusal :=
  .next (whileMains (takeReport (reportOfBytes report)) s)

/-- OUT_OF_RANGE (R73): the second tick's share of one receiver at which it reaches the silence limit; where it does not, the event
does not come about (log 6). -/
def execOutOfRange (serial : Nat) (s : State) : Host.Outcome State Fault Refusal :=
  .next (whileMains (fun s =>
    match s.receiverBySerial serial with
    | some (slot, r) => if rangeLossDue s.params.silenceLimit r then rangeSecond s slot else s
    | none => s) s)

/-- READ_AIR (R83). -/
def execReadAir (hdr : Header) (s : State) : Host.Outcome State Fault Refusal :=
  .next (serve hdr controlMonitor true readAir s)

end Sys2Proof.Machine
end

