-- ==== Sys2Proof/Machine/Accounts.lean ====
section
/-! DEFINITION. The accounting unit: tariffs, accounts, charges, statements and their posting
(07_accounts_tariffs_and_statements.md). -/

namespace Sys2Proof.Machine

/-- Changes the accounting counters. -/
def countAcct (f : AccountingCounters → AccountingCounters) (s : State) : State :=
  s.modAcct fun u => { u with counters := f u.counters }

/-! ### Tariffs (R126, R127) -/

/-- The fields of a tariff class within their ranges (R126). -/
def tariffFits (blockLength blockRate loanCap overdueRate lostCharge : Nat) : Bool :=
  within 15 blockLength 240 && decide (blockRate ≤ Config.rateMax) && decide (loanCap ≤ Config.moneyMax) &&
    decide (overdueRate ≤ Config.rateMax) && decide (lostCharge ≤ Config.moneyMax)

/-- LOAD of a tariff entry at its owner (R127). -/
def loadTariff (cls blockLength blockRate loanCap overdueRate lostCharge : Nat) (s : State) : State × Answer :=
  if !isClass cls then refuse .range s
  else if s.mode ≠ .setup then refuse .locked s
  else if !tariffFits blockLength blockRate loanCap overdueRate lostCharge then refuse .range s
  else
    accept [] (s.modAcct fun u =>
      { u with tariffs := Table.set {} cls ⟨true, blockLength, blockRate, loanCap, overdueRate, lostCharge⟩ u.tariffs })

/-- READ of a tariff entry at its owner (R127). -/
def readTariff (cls : Nat) (s : State) : State × Answer :=
  if !isClass cls then refuse .range s
  else
    let t := s.tariff cls
    accept
      [.num cls, .flag t.defined, .num t.blockLength, .num t.blockRate, .num t.loanCap, .num t.overdueRate, .num t.lostCharge,
       .num (s.acct.accounts.countP fun e => decide (e.2.cls = cls))] s

/-! ### Loans at the account (R134, R135) -/

/-- The loan number after one taken: it does not take the value 0 (R134). -/
def loanAfter (n : Nat) : Nat := if n < counterMax then n + 1 else 1

/-- Opening one loan for ISSUE: the refusal, or none (R135). -/
def openRefusal (s : State) (account : Nat) : Option RefusalCode :=
  match s.accountByNumber account with
  | none => some .notFound
  | some (_, a) =>
    if a.state = .suspended then some .accountState else if a.openLoans = a.loanLimit then some .limit else none

/-- Looking at an account for a BATCH ITEM: the refusal, or none (R135). -/
def lookRefusal (s : State) (account : Nat) : Option RefusalCode :=
  match s.accountByNumber account with
  | none => some .notFound
  | some (_, a) => if a.state = .suspended then some .accountState else none

/-- Opening n loans for a batch's final step: the refusal, or none (R118, R135). The account is in place, since CLOSE is refused
while the batch is open; without it nothing could be opened. -/
def openManyRefusal (s : State) (account n : Nat) : Option RefusalCode :=
  match s.accountByNumber account with
  | none => some .accountState
  | some (_, a) =>
    if a.state = .suspended then some .accountState else if a.loanLimit < a.openLoans + n then some .limit else none

/-- A loan is opened: the open-loan count rises and the next loan number is taken (R134, R135). -/
def openLoan (account : Nat) (s : State) : State :=
  let t := s.modAcct fun u => { u with nextLoan := loanAfter u.nextLoan }
  match s.accountByNumber account with
  | some (slot, a) => t.writeAccount slot { a with openLoans := a.openLoans + 1 }
  | none => t

/-- The tariff class of an account (R100). -/
def classOf (s : State) (account : Nat) : Nat :=
  match s.accountByNumber account with
  | some (_, a) => a.cls
  | none => 0

/-- The open-loan count falls by one (R136). -/
def endLoan (account : Nat) (s : State) : State :=
  match s.accountByNumber account with
  | some (slot, a) => s.writeAccount slot { a with openLoans := a.openLoans - 1 }
  | none => s

/-! ### Charges (R138) -/

/-- Started blocks of minutes: divided by the block length and rounded up (R138). -/
def startedBlocks (minutes blockLength : Nat) : Nat := (minutes + blockLength - 1) / blockLength

/-- Blocks times the block rate, or the loan cap if that is smaller (R138). -/
def loanCharge (t : Tariff) (chargeable : Nat) : Nat := min (startedBlocks chargeable t.blockLength * t.blockRate) t.loanCap

/-- Overdue blocks times the overdue rate (R138). -/
def overdueCharge (t : Tariff) (overdue : Nat) : Nat := startedBlocks overdue t.blockLength * t.overdueRate

/-- The amount of a closure, stopped at 16,777,215 (R138). -/
def amountOf (t : Tariff) (kind : StatementKind) (chargeable overdue : Nat) : Nat :=
  min Config.moneyMax
    (match kind with
    | .returned => loanCharge t chargeable + overdueCharge t overdue
    | .lost => loanCharge t chargeable + overdueCharge t overdue + t.lostCharge
    | .recovered => t.lostCharge)

/-- The amount of the closure of a loan, from the tariff table as it stands (R136). -/
def closureAmount (s : State) (kind : StatementKind) (loan : Loan) : Nat :=
  amountOf (s.tariff loan.cls) kind loan.chargeable loan.overdue

/-! ### Statements (R140 to R143) -/

/-- The statement of a closure (R140); a RECOVERED one carries no minutes. -/
def statementOf (kind : StatementKind) (loan : Loan) (serial : Nat) (close : Clock) (amount : Nat) : Statement :=
  { kind := kind, loan := loan.number, serial := serial, account := loan.account, cls := loan.cls
    issueClock := loan.issueClock, closeClock := close
    chargeable := if kind = .recovered then 0 else loan.chargeable
    overdue := if kind = .recovered then 0 else loan.overdue
    listening := if kind = .recovered then 0 else loan.listening
    amount := amount }

/-- The debit saturates the balance (R142). -/
def saturates (a : Account) (st : Statement) : Bool :=
  decide (st.kind ≠ .recovered) && decide (Config.moneyMax < a.balance + st.amount)

/-- An account with a statement applied to it (R142 step 2). -/
def Account.charged (a : Account) (st : Statement) : Account :=
  { a with
    balance := if st.kind = .recovered then a.balance - st.amount else min Config.moneyMax (a.balance + st.amount)
    saturated := a.saturated || saturates a st
    listening := satAdd a.listening st.listening
    posted := bump a.posted }

/-- The amount is applied to the account with the statement's number, or counted as an orphan (R142 step 2, R143). -/
def applyStatement (st : Statement) (s : State) : State :=
  match s.accountByNumber st.account with
  | none => countAcct (fun k => { k with orphans := bump k.orphans }) s
  | some (slot, a) =>
    let t := s.writeAccount slot (a.charged st)
    if saturates a st then
      setFlag .balanceSaturated (countAcct (fun k => { k with saturations := bump k.saturations }) t)
    else t

/-- STATEMENTS_HIGH and STATEMENTS_FULL after a posting (R142 step 3). -/
def flagQueue (s : State) : State :=
  let n := s.acct.statements.length
  let t := if s.params.highWater ≤ n then setFlag .statementsHigh s else s
  if Config.statements ≤ n then setFlag .statementsFull t else t

/-- A statement is posted (R142). -/
def postStatement (st : Statement) (s : State) : State :=
  countAcct (fun k =>
      { k with posted := bump k.posted, credits := if st.kind = .recovered then bump k.credits else k.credits })
    (flagQueue (applyStatement st (s.modAcct fun u => { u with statements := u.statements ++ [st] })))

/-- The statement queue has room. -/
def statementRoom (s : State) : Bool := decide (s.acct.statements.length < Config.statements)

/-! ### Accounts (R129 to R133) -/

/-- A set of channels in rising order, each once. -/
def accessSet (l : List Nat) : List Nat := (upTo Config.channels).filter fun c => l.contains c

/-- The new access set lacks a channel that the old one held (R78, R129). -/
def accessShrinks (old new : List Nat) : Bool := old.any fun c => !new.contains c

/-- The fields of ACCOUNT LOAD within their ranges (R129 step 1). -/
def accountLoadFits (account cls loanLimit : Nat) (access : List Nat) : Bool :=
  isAccount account && isClass cls && within 1 loanLimit Config.loanLimitMax && access.all isChannel

/-- ACCOUNT LOAD creates an account (R129). -/
def createAccount (account cls loanLimit : Nat) (access : List Nat) (s : State) : State × Answer :=
  if Config.accounts ≤ s.acct.accounts.length then refuse .tableFull s
  else
    accept [.flag true, .num 0]
      (countAcct (fun k => { k with created := bump k.created })
        (s.writeAccount (Table.firstFree s.acct.accounts 1)
          { number := account, cls := cls, loanLimit := loanLimit, access := accessSet access }))

/-- ACCOUNT LOAD changes an account, with the revocation pass when channels leave its access set (R129, R78). -/
def changeAccount (slot : Nat) (a : Account) (cls loanLimit : Nat) (access : List Nat) (s : State) : State × Answer :=
  if loanLimit < a.openLoans then refuse .limit s
  else
    let t := s.writeAccount slot { a with cls := cls, loanLimit := loanLimit, access := accessSet access }
    if accessShrinks a.access (accessSet access) then
      accept [.flag false, .num (revokeAccount a.number t).2] (revokeAccount a.number t).1
    else accept [.flag false, .num 0] t

/-- ACCOUNT LOAD at its owner (R129). -/
def accountLoad (account cls loanLimit : Nat) (access : List Nat) (s : State) : State × Answer :=
  if !accountLoadFits account cls loanLimit access then refuse .range s
  else if !distinct access then refuse .malformed s
  else if !(s.tariff cls).defined then refuse .range s
  else
    match s.accountByNumber account with
    | none => createAccount account cls loanLimit access s
    | some (slot, a) => changeAccount slot a cls loanLimit access s

/-- A request that names one account: RANGE and NOT_FOUND, else ruled at its record (R130 to R132). -/
def atAccount (account : Nat) (rule : Nat → Account → State → State × Answer) (s : State) : State × Answer :=
  if !isAccount account then refuse .range s
  else
    match s.accountByNumber account with
    | none => refuse .notFound s
    | some (slot, a) => rule slot a s

/-- SUSPEND at its owner (R130). The reply for a SUSPENDED account carries 0: DEDUCED (log 35), unsafe. -/
def suspendAccount (account : Nat) : State → State × Answer :=
  atAccount account fun slot a s =>
    if a.state = .suspended then accept [.num 0] s
    else
      let t := s.writeAccount slot { a with state := .suspended }
      accept [.num (revokeAccount account t).2] (revokeAccount account t).1

/-- RESUME at its owner (R130). -/
def resumeAccount (account : Nat) : State → State × Answer :=
  atAccount account fun slot a s => accept [] (s.writeAccount slot { a with state := .opened })

/-- RETURN_PENDING receivers whose pending part names the account (R131, R133). -/
def pendingFor (s : State) (account : Nat) : Nat :=
  s.hire.receivers.countP fun e =>
    decide (e.2.state = .returnPending) && e.2.loan.any fun l => decide (l.account = account)

/-- LOST receivers whose loan part names the account (R133). -/
def lostFor (s : State) (account : Nat) : Nat :=
  s.hire.receivers.countP fun e => decide (e.2.state = .lost) && e.2.loan.any fun l => decide (l.account = account)

/-- A batch is open for the account (R112). -/
def batchFor (s : State) (account : Nat) : Bool := s.hire.batches.any fun e => decide (e.2.account = account)

/-- CLOSE at its owner (R131). -/
def closeAccount (account : Nat) : State → State × Answer :=
  atAccount account fun slot a s =>
    if 0 < a.openLoans then refuse .onLoan s
    else if 0 < pendingFor s account then refuse .pending s
    else if batchFor s account then refuse .held s
    else if a.balance ≠ 0 then refuse .balance s
    else
      accept [.num a.listening, .num a.posted]
        (countAcct (fun k => { k with closed := bump k.closed })
          (s.modAcct fun u => { u with accounts := Table.drop slot u.accounts }))

/-- CLEAR BALANCE at its owner (R132). -/
def clearBalance (account expected : Nat) (s : State) : State × Answer :=
  if Config.moneyMax < expected then refuse .range s
  else
    atAccount account (fun slot a s =>
      if a.balance ≠ expected then (s, .refused .changed [.num a.balance])
      else
        accept []
          (countAcct (fun k => { k with cleared := bump k.cleared })
            (s.writeAccount slot { a with balance := 0, saturated := false }))) s

/-- An account record in a reply, with the further figures of R133. -/
def accountFields (s : State) (slot : Nat) (a : Account) : List Field :=
  [.num slot, .num a.number, .num a.cls, .name (accountStateText a.state), .num a.loanLimit] ++
    listFields a.access (fun c => [.num c]) ++
    [.num a.openLoans, .num a.balance, .flag a.saturated, .num a.listening, .num a.posted, .num (pendingFor s a.number),
     .num (lostFor s a.number), .flag (batchFor s a.number)]

/-- READ ACCOUNT at its owner (R133). -/
def readAccount (key : RecordKey) (s : State) : State × Answer :=
  match key with
  | .number n => atAccount n (fun slot a s => accept (accountFields s slot a) s) s
  | .slot n =>
    if !within 1 n Config.accounts then refuse .range s
    else
      match Table.look s.acct.accounts n with
      | none => refuse .notFound s
      | some a => accept (accountFields s n a) s

/-! ### Reading and releasing statements (R106, R144, R145) -/

/-- A statement in a reply (12_formats.md, Bodies). -/
def statementFields (st : Statement) : List Field :=
  [.name (statementKindText st.kind), .num st.loan, .num st.serial, .num st.account, .num st.cls, .clock st.issueClock,
   .clock st.closeClock, .num st.chargeable, .num st.overdue, .num st.listening, .num st.amount]

/-- READ STATEMENTS at its owner (R144). -/
def readStatements (s : State) : State × Answer :=
  accept (.num s.acct.statements.length :: listFields (s.acct.statements.take Config.entriesPerReply) statementFields) s

/-- The receiver at the head of the pending-return list has its statement posted and becomes AVAILABLE (R106, R139). -/
def postPending (slot : Nat) (s : State) : State :=
  let t := s.modHire fun h => { h with pendingList := h.pendingList.drop 1 }
  match Table.look s.hire.receivers slot with
  | none => t
  | some r =>
    match r.loan, r.pend with
    | some loan, some p =>
      writeReceiver slot { r with loan := none, pend := none, state := .available }
        (countAcct (fun k => { k with pendingPostings := bump k.pendingPostings })
          (postStatement (statementOf p.kind loan r.serial p.returnClock p.amount) t))
    | _, _ => t

/-- Pending returns are posted from the head of the list while the queue has room, with the number posted (R106, R145). -/
def postPendings : List Nat → State × Nat → State × Nat
  | [], acc => acc
  | slot :: rest, acc => if statementRoom acc.1 then postPendings rest (postPending slot acc.1, acc.2 + 1) else acc

/-- The queue's head is the statement the station expects (R145). -/
def headMatches (head : Option (Option StatementKind × Nat)) (statements : List Statement) : Bool :=
  match head, statements with
  | none, _ => true
  | some _, [] => false
  | some (kind, loan), st :: _ => decide (kind = some st.kind) && decide (loan = st.loan)

/-- RELEASE STATEMENTS at its owner (R145). -/
def releaseStatements (count : Nat) (head : Option (Option StatementKind × Nat)) (s : State) : State × Answer :=
  if Config.statements < count || decide (s.acct.statements.length < count) then refuse .range s
  else if !headMatches head s.acct.statements then refuse .changed s
  else
    let t := countAcct (fun k => { k with released := satAdd k.released count })
      (s.modAcct fun u => { u with statements := u.statements.drop count })
    let posted := postPendings t.hire.pendingList (t, 0)
    accept [.num count, .num posted.2, .num posted.1.acct.statements.length] posted.1

/-! ### Reading the accounting entry (R147, R160) -/

/-- The accounting counters in the order of R147. -/
def acctCounterFields (k : AccountingCounters) : List Field :=
  [.num k.posted, .num k.credits, .num k.pendingClosures, .num k.pendingPostings, .num k.lostRefused, .num k.released,
   .num k.orphans, .num k.saturations, .num k.created, .num k.closed, .num k.cleared]

/-- The duty counters in the order of R160. -/
def dutyCounterFields (k : DutyCounters) : List Field :=
  [.num k.opened, .num k.continuations, .num k.completed, .num k.released, .num k.overflows, .num k.cuts]

/-- READ of the accounting entry at its owner (R147, R160). The figures of R160 stand last: DEDUCED (log 36), unsafe. -/
def readAccounting (s : State) : State × Answer :=
  accept
    ([.num s.acct.statements.length, .num s.params.highWater, .num s.hire.pendingList.length, .num s.acct.nextLoan,
      .num s.acct.accounts.length, .num ((List.range 8).countP fun c => (s.tariff c).defined)] ++
      acctCounterFields s.acct.counters ++ dutyCounterFields s.acct.dutyCounters ++
      [.num s.acct.duty.length, .num (s.acct.duty.countP DutyEntry.isOpen)]) s

/-! ### The commands -/

/-- LOAD_TARIFF (R127). -/
def execLoadTariff (hdr : Header) (cls blockLength blockRate loanCap overdueRate lostCharge : Nat) (s : State) :
    Host.Outcome State Fault Refusal :=
  .next (serve hdr controlOnly true (loadTariff cls blockLength blockRate loanCap overdueRate lostCharge) s)

/-- READ_TARIFF (R127). -/
def execReadTariff (hdr : Header) (cls : Nat) (s : State) : Host.Outcome State Fault Refusal :=
  .next (serve hdr controlMonitor true (readTariff cls) s)

/-- ACCOUNT_LOAD (R129); an access set with more than 48 channels does not fit the body (12_formats.md, Bodies). -/
def execAccountLoad (hdr : Header) (account cls loanLimit : Nat) (access : List Nat) (s : State) :
    Host.Outcome State Fault Refusal :=
  .next (serve hdr controlOnly (decide (access.length ≤ Config.accessSetMax)) (accountLoad account cls loanLimit access) s)

/-- SUSPEND (R130). -/
def execSuspend (hdr : Header) (account : Nat) (s : State) : Host.Outcome State Fault Refusal :=
  .next (serve hdr controlOnly true (suspendAccount account) s)

/-- RESUME (R130). -/
def execResume (hdr : Header) (account : Nat) (s : State) : Host.Outcome State Fault Refusal :=
  .next (serve hdr controlOnly true (resumeAccount account) s)

/-- CLOSE (R131). -/
def execClose (hdr : Header) (account : Nat) (s : State) : Host.Outcome State Fault Refusal :=
  .next (serve hdr controlOnly true (closeAccount account) s)

/-- CLEAR_BALANCE (R132). -/
def execClearBalance (hdr : Header) (account expected : Nat) (s : State) : Host.Outcome State Fault Refusal :=
  .next (serve hdr controlOnly true (clearBalance account expected) s)

/-- READ_ACCOUNT (R133). -/
def execReadAccount (hdr : Header) (key : RecordKey) (s : State) : Host.Outcome State Fault Refusal :=
  .next (serve hdr controlMonitor true (readAccount key) s)

/-- READ_STATEMENTS (R144). -/
def execReadStatements (hdr : Header) (s : State) : Host.Outcome State Fault Refusal :=
  .next (serve hdr controlMonitor true readStatements s)

/-- RELEASE_STATEMENTS (R145). -/
def execReleaseStatements (hdr : Header) (count : Nat) (head : Option (Option StatementKind × Nat)) (s : State) :
    Host.Outcome State Fault Refusal :=
  .next (serve hdr controlOnly true (releaseStatements count head) s)

/-- READ_ACCOUNTING (R147). -/
def execReadAccounting (hdr : Header) (s : State) : Host.Outcome State Fault Refusal :=
  .next (serve hdr controlMonitor true readAccounting s)

end Sys2Proof.Machine
end

