-- ==== Sys2Proof/Machine/Hire.lean ====
section
/-! DEFINITION. Receiver hire: enrolment, racks, issue, closing a loan, overdue receivers, loan minutes, reading
(05_receiver_hire.md). -/

namespace Sys2Proof.Machine

/-- Changes the hire counters. -/
def countHire (f : HireCounters → HireCounters) (s : State) : State :=
  s.modHire fun h => { h with counters := f h.counters }

/-! ### Enrolment, withdrawal, deletion (R89 to R92) -/

/-- ENROL at its owner (R89). -/
def enrol (serial : Nat) (s : State) : State × Answer :=
  if !isSerial serial then refuse .range s
  else if (s.receiverBySerial serial).isSome then refuse .duplicate s
  else if Config.receivers ≤ s.hire.receivers.length then refuse .tableFull s
  else
    let slot := Table.firstFree s.hire.receivers 1
    accept [.num slot]
      (countHire (fun k => { k with enrolments := bump k.enrolments }) (writeReceiver slot { serial := serial } s))

/-- A request that names one receiver of the table: NOT_FOUND, else ruled at its record. -/
def atReceiver (serial : Nat) (rule : Nat → Receiver → State → State × Answer) (s : State) : State × Answer :=
  match s.receiverBySerial serial with
  | none => refuse .notFound s
  | some (slot, r) => rule slot r s

/-- The same with a serial above 16,777,215 refused with RANGE first. -/
def atSerial (serial : Nat) (rule : Nat → Receiver → State → State × Answer) (s : State) : State × Answer :=
  if !isSerial serial then refuse .range s else atReceiver serial rule s

/-- WITHDRAW at its owner (R90). -/
def withdraw (serial : Nat) : State → State × Answer :=
  atReceiver serial fun slot r s =>
    match r.state with
    | .available => accept [] (writeReceiver slot { r with state := .withdrawn } s)
    | .withdrawn => accept [] s
    | .issued | .overdue => refuse .onLoan s
    | .held => refuse .held s
    | .returnPending => refuse .pending s
    | .lost => refuse .lost s

/-- REINSTATE at its owner (R91). -/
def reinstate (serial : Nat) : State → State × Answer :=
  atReceiver serial fun slot r s =>
    match r.state with
    | .withdrawn => accept [] (writeReceiver slot { r with state := .available } s)
    | .available => accept [] s
    | .issued | .overdue => refuse .onLoan s
    | .held => refuse .held s
    | .returnPending => refuse .pending s
    | .lost => refuse .lost s

/-- DELETE RECEIVER at its owner (R92). -/
def deleteReceiver (serial : Nat) : State → State × Answer :=
  atReceiver serial fun slot r s =>
    match r.state with
    | .withdrawn =>
      accept []
        (countHire (fun k => { k with deletions := bump k.deletions })
          (s.modHire fun h => { h with receivers := Table.drop slot h.receivers }))
    | .available => refuse .range s
    | .issued | .overdue => refuse .onLoan s
    | .held => refuse .held s
    | .returnPending => refuse .pending s
    | .lost => refuse .lost s

/-! ### Issue (R98 to R100) -/

/-- The refusal of an issue by the receiver's state (R99 step 3). -/
def stateRefusal : ReceiverState → Option RefusalCode
  | .available => none
  | .issued => some .onLoan
  | .overdue => some .onLoan
  | .held => some .held
  | .returnPending => some .pending
  | .lost => some .lost
  | .withdrawn => some .withdrawn

/-- The battery is present and below the issue threshold (R98). -/
def batteryLow (threshold : Nat) (r : Receiver) : Bool := r.battery.any fun b => decide (b < threshold)

/-- The receiver part of the check of an issue (R99 steps 2 to 4, R115 step 6). -/
def receiverRefusal (threshold : Nat) (found : Option (Nat × Receiver)) : Option RefusalCode :=
  match found with
  | none => some .notFound
  | some (_, r) =>
    match stateRefusal r.state with
    | some code => some code
    | none => if batteryLow threshold r then some .battery else none

/-- The loan part written at an issue (R100). -/
def newLoan (s : State) (account : Nat) : Loan :=
  { number := s.acct.nextLoan, account := account, cls := classOf s account, issueClock := s.now
    issueMinute := s.time.sessionMinute }

/-- A loan opens on a receiver (R100). -/
def issueReceiver (slot : Nat) (r : Receiver) (account : Nat) (s : State) : State :=
  countHire (fun k => { k with issues := bump k.issues })
    (writeReceiver slot { r with state := .issued, loan := some (newLoan s account), batch := none } (openLoan account s))

/-- A refused ISSUE, counted (R99, R110). -/
def refuseIssue (code : RefusalCode) (s : State) : State × Answer :=
  refuse code (countHire (fun k => { k with issueRefusals := bump k.issueRefusals }) s)

/-- ISSUE at its owner (R99). -/
def issue (serial account : Nat) (s : State) : State × Answer :=
  if !isAccount account || !isSerial serial then refuseIssue .range s
  else if s.mode = .setup then refuseIssue .mode s
  else
    match receiverRefusal s.params.issueThreshold (s.receiverBySerial serial), s.receiverBySerial serial with
    | some code, _ => refuseIssue code s
    | none, none => refuseIssue .notFound s
    | none, some (slot, r) =>
      match openRefusal s account with
      | some code => refuseIssue code s
      | none => accept [.num s.acct.nextLoan] (issueReceiver slot r account s)

/-! ### Closing a loan (R101 to R105) -/

/-- The closure went pending: the receiver is RETURN_PENDING at the tail of the pending-return list (R101 step 4, R104, R105,
R136). -/
def makePending (slot : Nat) (r : Receiver) (kind : StatementKind) (amount : Nat) (s : State) : State :=
  countAcct (fun k => { k with pendingClosures := bump k.pendingClosures })
    (countHire (fun k => { k with pendingReturns := bump k.pendingReturns })
      ((writeReceiver slot { r with state := .returnPending, pend := some ⟨kind, s.now, amount⟩ } s).modHire fun h =>
        { h with pendingList := h.pendingList ++ [slot] }))

/-- A RETURNED or RECOVERED closure: posted when the statement queue has room, else pending (R101 steps 3 and 4, R104, R136). -/
def settleClosure (slot : Nat) (r : Receiver) (loan : Loan) (kind : StatementKind) (s : State) : State :=
  if statementRoom s then
    writeReceiver slot { r with loan := none, state := .available }
      (postStatement (statementOf kind loan r.serial s.now (closureAmount s kind loan)) s)
  else makePending slot r kind (closureAmount s kind loan) s

/-- A loan closes as RETURNED: the listener is decremented, the open-loan count falls, and the closure is settled (R101). -/
def closeReturned (slot : Nat) (r : Receiver) (loan : Loan) (s : State) : State :=
  settleClosure slot { r with channel := none } loan .returned
    (endLoan loan.account (writeReceiver slot { r with channel := none } s))

/-- The refusal of a RETURN or DECLARE LOST of a receiver not on loan (R102, R103). -/
def notOnLoanRefusal : ReceiverState → RefusalCode
  | .available => .notOnLoan
  | .held => .held
  | .returnPending => .pending
  | .lost => .lost
  | .withdrawn => .withdrawn
  | .issued => .notOnLoan
  | .overdue => .notOnLoan

/-- RETURN at its owner (R102). -/
def returnReceiver (serial : Nat) : State → State × Answer :=
  atSerial serial fun slot r s =>
    match r.onLoan, r.loan with
    | true, some loan =>
      accept [.num loan.number, .num (closureAmount s .returned loan), .flag (statementRoom s)]
        (countHire (fun k => { k with deskReturns := bump k.deskReturns }) (closeReturned slot r loan s))
    | _, _ => refuse (notOnLoanRefusal r.state) s

/-- A LOST closure with room in the statement queue (R103, R136). -/
def closeLost (slot : Nat) (r : Receiver) (loan : Loan) (s : State) : State :=
  let posted := postStatement (statementOf .lost loan r.serial s.now (closureAmount s .lost loan)) (endLoan loan.account s)
  countHire (fun k => { k with losses := bump k.losses })
    (writeReceiver slot { r with channel := none, state := .lost } posted)

/-- DECLARE LOST at its owner (R103). -/
def declareLost (serial : Nat) : State → State × Answer :=
  atSerial serial fun slot r s =>
    match r.onLoan, r.loan with
    | true, some loan =>
      if statementRoom s then
        accept [.num loan.number, .num (closureAmount s .lost loan)] (closeLost slot r loan s)
      else refuse .queueFull (countAcct (fun k => { k with lostRefused := bump k.lostRefused }) s)
    | _, _ => refuse (notOnLoanRefusal r.state) s

/-- A LOST receiver is recovered (R104). -/
def recover (slot : Nat) (r : Receiver) (loan : Loan) (s : State) : State :=
  countHire (fun k => { k with recoveries := bump k.recoveries }) (settleClosure slot r loan .recovered s)

/-! ### Racks (R93 to R97) -/

/-- The receiver recorded at a rack position, other than the one in a slot (R95). -/
def otherAt (s : State) (slot : Nat) (position : Nat × Nat) : Option (Nat × Receiver) :=
  s.hire.receivers.find? fun e => decide (e.1 ≠ slot) && decide (e.2.rack = some position)

/-- Another receiver recorded at the position loses it, which is counted (R95). -/
def clearPosition (slot : Nat) (position : Nat × Nat) (s : State) : State :=
  match otherAt s slot position with
  | none => s
  | some (n, other) =>
    countHire (fun k => { k with rackCollisions := bump k.rackCollisions })
      (writeReceiver n { other with rack := none } s)

/-- DOCKED for a known receiver: position, battery, then by its state (R94, R95). -/
def dock (station rackSlot battery slot : Nat) (r : Receiver) (s : State) : State :=
  let placed := { r with rack := some (station, rackSlot), battery := some battery }
  let t := writeReceiver slot placed (clearPosition slot (station, rackSlot) s)
  match r.state, r.loan with
  | .issued, some loan =>
    countHire (fun k => { k with dockedReturns := bump k.dockedReturns }) (closeReturned slot placed loan t)
  | .overdue, some loan =>
    countHire (fun k => { k with dockedReturns := bump k.dockedReturns }) (closeReturned slot placed loan t)
  | .lost, some loan => recover slot placed loan t
  | _, _ => t

/-- UNDOCKED for a known receiver (R96). -/
def undock (slot : Nat) (r : Receiver) (s : State) : State :=
  let t := writeReceiver slot { r with rack := none } s
  if r.state = .available then
    countHire (fun k => { k with unaccountedRemovals := bump k.unaccountedRemovals }) t
  else t

/-- CELL for a known receiver (R97). -/
def cellLevel (battery slot : Nat) (r : Receiver) (s : State) : State :=
  writeReceiver slot { r with battery := some battery } s

/-- A malformed rack message is discarded and counted (R93 step 1). -/
def rackMalformed (s : State) : State := countHire (fun k => { k with rackMalformed := bump k.rackMalformed }) s

/-- The hire controller takes a rack message: counted, malformed or unknown, else ruled at the receiver's record (R93). -/
def takeRack (fits : Bool) (serial : Nat) (rule : Nat → Receiver → State → State) (s : State) : State :=
  let t := countHire (fun k => { k with rackMessages := bump k.rackMessages }) s
  if !fits || !isSerial serial then rackMalformed t
  else
    match t.receiverBySerial serial with
    | none => setFlag .unknownReceiver (countHire (fun k => { k with rackUnknown := bump k.rackUnknown }) t)
    | some (slot, r) => rule slot r t

/-- Rack slots 1 to 32 (R93). -/
def isRackSlot (n : Nat) : Bool := within 1 n 32
/-- Battery levels 0 to 15 (R93). -/
def isBattery (n : Nat) : Bool := decide (n ≤ 15)

/-! ### Loans over time (R107, R108) -/

/-- An ISSUED receiver becomes OVERDUE (R107). -/
def Receiver.madeOverdue (r : Receiver) : Receiver := if r.state = .issued then { r with state := .overdue } else r

/-- The hire controller takes the return-by effect (R107); no receiver starts or stops counting as a listener by it. -/
def takeReturnBy (s : State) : State :=
  countHire (fun k =>
      { k with
        overdueReceivers :=
          satAdd k.overdueReceivers (s.hire.receivers.countP fun e => decide (e.2.state = .issued)) })
    (s.modHire fun h => { h with receivers := h.receivers.map fun e => (e.1, e.2.madeOverdue) })

/-- The loan part at a minute tick (R108). -/
def Loan.minute (mode : Mode) (r : Receiver) (l : Loan) : Loan :=
  { l with
    chargeable := if mode = .session then bump l.chargeable else l.chargeable
    overdue := if r.state = .overdue && decide (mode ≠ .setup) then bump l.overdue else l.overdue
    listening := if decide (r.range = .inRange) && decide (mode ≠ .setup) then bump l.listening else l.listening }

/-- A receiver at a minute tick (R108). -/
def Receiver.minute (mode : Mode) (r : Receiver) : Receiver :=
  if r.onLoan then { r with loan := r.loan.map (Loan.minute mode r) } else r

/-- The hire controller takes a minute tick (R108). -/
def takeLoans (s : State) : State :=
  s.modHire fun h => { h with receivers := h.receivers.map fun e => (e.1, Receiver.minute s.mode e.2) }

/-! ### Finding and reading (R109, R110) -/

def rackFields (o : Option (Nat × Nat)) : List Field := optFields o fun p => [.num p.1, .num p.2]

/-- FIND at its owner (R109). Account and loan number stand behind one presence indication: DEDUCED (log 46), unsafe. -/
def findReceiver (serial : Nat) : State → State × Answer :=
  atSerial serial fun _ r s =>
    accept
      ([.name (receiverStateText r.state)] ++ optFields r.loan (fun l => [.num l.account, .num l.number]) ++
        rackFields r.rack ++ optNum r.lastRadiator ++ optClock r.lastHeardClock ++ optNum r.battery) s

def loanFields (l : Loan) : List Field :=
  [.num l.number, .num l.account, .num l.cls, .clock l.issueClock, .num l.issueMinute, .num l.chargeable, .num l.overdue,
   .num l.listening]

/-- The place of a slot in the pending-return list, counted from 1 at the head (R105). -/
def placeInList (list : List Nat) (slot : Nat) : Nat := list.idxOf slot + 1

/-- A receiver record in a reply (R87, R109). The place in the pending-return list stands in the pending part: DEDUCED (log 43),
unsafe. -/
def receiverFields (s : State) (slot : Nat) (r : Receiver) : List Field :=
  [.num slot, .num r.serial, .name (receiverStateText r.state)] ++ rackFields r.rack ++ [.name (rangeText r.range)] ++
    optNum r.lastHeard ++ optClock r.lastHeardClock ++ optNum r.lastRadiator ++ optNum r.lastLink ++ optNum r.lastCounter ++
    optNum r.battery ++ optNum r.channel ++ optFields r.loan loanFields ++
    optFields r.pend (fun p =>
      [.name (statementKindText p.kind), .clock p.returnClock, .num p.amount, .num (placeInList s.hire.pendingList slot)]) ++
    optNum r.batch

/-- READ RECEIVER at its owner (R109). -/
def readReceiver (key : RecordKey) (s : State) : State × Answer :=
  match key with
  | .number serial => atSerial serial (fun slot r s => accept (receiverFields s slot r) s) s
  | .slot n =>
    if !within 1 n Config.receivers then refuse .range s
    else
      match Table.look s.hire.receivers n with
      | none => refuse .notFound s
      | some r => accept (receiverFields s n r) s

/-- The number of records in a receiver state. -/
def receiversIn (s : State) (x : ReceiverState) : Nat := s.hire.receivers.countP fun e => decide (e.2.state = x)

/-- The hire counters in the order of R110. -/
def hireCounterFields (k : HireCounters) : List Field :=
  [.num k.enrolments, .num k.deletions, .num k.issues, .num k.issueRefusals, .num k.deskReturns, .num k.dockedReturns,
   .num k.losses, .num k.recoveries, .num k.pendingReturns, .num k.overdueReceivers, .num k.rackMessages,
   .num k.rackMalformed, .num k.rackUnknown, .num k.rackCollisions, .num k.unaccountedRemovals]

/-- READ of the hire entry at its owner (R110). The states stand in the order of R87: DEDUCED (log 34), unsafe. -/
def readHire (s : State) : State × Answer :=
  accept
    ([.num (receiversIn s .available), .num (receiversIn s .held), .num (receiversIn s .issued),
      .num (receiversIn s .overdue), .num (receiversIn s .returnPending), .num (receiversIn s .lost),
      .num (receiversIn s .withdrawn), .num (Config.receivers - s.hire.receivers.length), .num s.hire.pendingList.length,
      .num s.params.issueThreshold, .num s.hire.batches.length] ++ hireCounterFields s.hire.counters) s

/-! ### The commands -/

/-- DOCKED (R94). -/
def execDocked (hdr : Header) (serial rackSlot battery : Nat) (s : State) : Host.Outcome State Fault Refusal :=
  .next (serveRack hdr
    (takeRack (isRackSlot rackSlot && isBattery battery) serial (dock hdr.station rackSlot battery)) s)

/-- UNDOCKED (R96). -/
def execUndocked (hdr : Header) (serial rackSlot : Nat) (s : State) : Host.Outcome State Fault Refusal :=
  .next (serveRack hdr (takeRack (isRackSlot rackSlot) serial undock) s)

/-- CELL (R97). -/
def execCell (hdr : Header) (serial battery : Nat) (s : State) : Host.Outcome State Fault Refusal :=
  .next (serveRack hdr (takeRack (isBattery battery) serial (cellLevel battery)) s)

/-- RETURN_BY_EFFECT (R107). -/
def execReturnByEffect (s : State) : Host.Outcome State Fault Refusal := .next (whileMains takeReturnBy s)

/-- ENROL (R89). -/
def execEnrol (hdr : Header) (serial : Nat) (s : State) : Host.Outcome State Fault Refusal :=
  .next (serve hdr controlOnly true (enrol serial) s)

/-- WITHDRAW (R90). -/
def execWithdraw (hdr : Header) (serial : Nat) (s : State) : Host.Outcome State Fault Refusal :=
  .next (serve hdr controlOnly true (withdraw serial) s)

/-- REINSTATE (R91). -/
def execReinstate (hdr : Header) (serial : Nat) (s : State) : Host.Outcome State Fault Refusal :=
  .next (serve hdr controlOnly true (reinstate serial) s)

/-- DELETE_RECEIVER (R92). -/
def execDeleteReceiver (hdr : Header) (serial : Nat) (s : State) : Host.Outcome State Fault Refusal :=
  .next (serve hdr controlOnly true (deleteReceiver serial) s)

/-- ISSUE (R99). -/
def execIssue (hdr : Header) (serial account : Nat) (s : State) : Host.Outcome State Fault Refusal :=
  .next (serve hdr controlDesk true (issue serial account) s)

/-- RETURN (R102). -/
def execReturnReceiver (hdr : Header) (serial : Nat) (s : State) : Host.Outcome State Fault Refusal :=
  .next (serve hdr controlDesk true (returnReceiver serial) s)

/-- DECLARE_LOST (R103). -/
def execDeclareLost (hdr : Header) (serial : Nat) (s : State) : Host.Outcome State Fault Refusal :=
  .next (serve hdr controlDesk true (declareLost serial) s)

/-- FIND (R109). -/
def execFind (hdr : Header) (serial : Nat) (s : State) : Host.Outcome State Fault Refusal :=
  .next (serve hdr controlDesk true (findReceiver serial) s)

/-- READ_RECEIVER (R109). -/
def execReadReceiver (hdr : Header) (key : RecordKey) (s : State) : Host.Outcome State Fault Refusal :=
  .next (serve hdr controlMonitor true (readReceiver key) s)

/-- READ_HIRE (R110). -/
def execReadHire (hdr : Header) (s : State) : Host.Outcome State Fault Refusal :=
  .next (serve hdr controlMonitor true readHire s)

end Sys2Proof.Machine
end

