-- ==== Sys2Proof/Machine/Batches.lean ====
section
/-! DEFINITION. Issue batches (06_issue_batches.md). -/

namespace Sys2Proof.Machine

/-- Changes the batch counters. -/
def countBatch (f : BatchCounters → BatchCounters) (s : State) : State :=
  s.modHire fun h => { h with batchCounters := f h.batchCounters }

/-- Writes the open batch of a station. -/
def writeBatch (station : Nat) (b : Batch) (s : State) : State :=
  s.modHire fun h => { h with batches := Table.put station b h.batches }

/-- The batch of a station closes; a closed batch leaves no record. -/
def dropBatch (station : Nat) (s : State) : State :=
  s.modHire fun h => { h with batches := Table.drop station h.batches }

/-- A HELD receiver becomes AVAILABLE, its batch reference absent (R117, R119, R121, R122). -/
def freeReceiver (s : State) (serial : Nat) : State :=
  match s.receiverBySerial serial with
  | none => s
  | some (slot, r) => writeReceiver slot { r with state := .available, batch := none } s

/-- The batch closes with release of every receiver in its item list (R119, R121, R122). -/
def releaseBatch (station : Nat) (b : Batch) (s : State) : State := dropBatch station (b.items.foldl freeReceiver s)

/-! ### Answers (R113) -/

/-- The reply to an item the batch accepts: the item's number, the state of the batch, the length of its list (R113). -/
def itemAccepted (b : Batch) : Answer :=
  .accepted [.num b.itemCount, .name (batchStateText b.state), .num b.items.length]

/-- BATCH_FAILED with the recorded failure code and failure item (R116, R119, R192). -/
def batchFailedAnswer (failure : Option (RefusalCode × Nat)) : Answer :=
  match failure with
  | some (code, item) => .refused .batchFailed [.name (refusalText code), .num item]
  | none => .refused .batchFailed []

/-! ### Taking items (R115 to R119) -/

/-- The batch takes an item: the next number, and the last-item second is 0 (R115, R116). -/
def Batch.numbered (b : Batch) : Batch :=
  { b with itemCount := min (b.itemCount + 1) Config.itemCountMax, lastItem := 0 }

/-- A FAILED batch's final item: it closes with release and is refused with BATCH_FAILED (R119). -/
def closeFailed (station : Nat) (b : Batch) (s : State) : State × Answer :=
  (countBatch (fun k => { k with failed := bump k.failed }) (releaseBatch station b s), batchFailedAnswer b.failure)

/-- An item fails an OPEN batch with a code: recorded against the item's number; a final item closes it (R116, R119). -/
def failBatch (station : Nat) (b : Batch) (code : RefusalCode) (final : Bool) (s : State) : State × Answer :=
  let failed := { b with state := .failed, failure := some (code, b.itemCount) }
  let t := countBatch (fun k => { k with failures := bump k.failures }) (writeBatch station failed s)
  if final then closeFailed station failed t else (t, batchFailedAnswer failed.failure)

/-- One receiver of the final step is issued, with the reply's entries so far (R118). -/
def issueItem (account : Nat) (acc : State × List (Nat × Nat)) (serial : Nat) : State × List (Nat × Nat) :=
  match acc.1.receiverBySerial serial with
  | none => acc
  | some (slot, r) => (issueReceiver slot r account acc.1, acc.2 ++ [(serial, acc.1.acct.nextLoan)])

/-- The final step of a batch that is still OPEN: the account is checked, then every held receiver is issued in list order and
the batch closes (R118). -/
def finalStep (station : Nat) (b : Batch) (s : State) : State × Answer :=
  match openManyRefusal s b.account b.items.length with
  | some code => failBatch station b code true s
  | none =>
    let done := b.items.foldl (issueItem b.account) (s, [])
    (countBatch (fun k => { k with issued := bump k.issued }) (dropBatch station done.1),
      .accepted (listFields done.2 fun e => [.num e.1, .num e.2]))

/-- An item settled without a failure: the final step when it is final, else its reply (R115). -/
def settleItem (station : Nat) (b : Batch) (final : Bool) (s : State) : State × Answer :=
  if final then finalStep station b s else (s, itemAccepted b)

/-- An ABORT item of an OPEN batch (R117). -/
def abortItem (station : Nat) (b : Batch) (serial : Nat) (s : State) : State × Answer :=
  if b.items.contains serial then
    let shorter := { b with items := b.items.filter fun x => x ≠ serial }
    (countBatch (fun k => { k with itemsAborted := bump k.itemsAborted })
      (writeBatch station shorter (freeReceiver s serial)), itemAccepted shorter)
  else refuse .notFound s

/-- A receiver that passes is HELD and joins the list (R115 step 7). -/
def holdItem (station : Nat) (b : Batch) (slot : Nat) (r : Receiver) (final : Bool) (s : State) : State × Answer :=
  let longer := { b with items := b.items ++ [r.serial] }
  let t := countBatch (fun k => { k with itemsHeld := bump k.itemsHeld })
    (writeBatch station longer (writeReceiver slot { r with state := .held, batch := some station } s))
  settleItem station longer final t

/-- Steps 4 to 7 of R115, for an item that names a serial. -/
def addItem (station : Nat) (b : Batch) (serial : Nat) (final : Bool) (s : State) : State × Answer :=
  if b.items.contains serial then settleItem station b final s
  else if Config.batchItems ≤ b.items.length then failBatch station b .batchFull final s
  else
    match receiverRefusal s.params.issueThreshold (s.receiverBySerial serial), s.receiverBySerial serial with
    | some code, _ => failBatch station b code final s
    | none, none => failBatch station b .notFound final s
    | none, some (slot, r) =>
      match lookRefusal s b.account with
      | some code => failBatch station b code final s
      | none => holdItem station b slot r final s

/-- An OPEN batch, the item already numbered, takes it (R115). -/
def openTakes (station account : Nat) (serial : Option Nat) (more abort : Bool) (b : Batch) (s : State) : State × Answer :=
  if account ≠ b.account then failBatch station b .malformed (!more) s
  else
    match serial with
    | none => settleItem station b (!more) s
    | some n => if abort then abortItem station b n s else addItem station b n (!more) s

/-- A FAILED batch, the item already numbered, takes it (R116). -/
def failedTakes (station : Nat) (more : Bool) (b : Batch) (s : State) : State × Answer :=
  if more then (s, batchFailedAnswer b.failure) else closeFailed station b s

/-- A batch takes an item (R115, R116). -/
def batchTakes (station account : Nat) (serial : Option Nat) (more abort : Bool) (b : Batch) (s : State) : State × Answer :=
  let numbered := b.numbered
  let t := writeBatch station numbered s
  match b.state with
  | .opened => openTakes station account serial more abort numbered t
  | .failed => failedTakes station more numbered t

/-- A BATCH ITEM from a station with no open batch (R114). -/
def openBatch (station account : Nat) (serial : Option Nat) (more abort : Bool) (s : State) : State × Answer :=
  if abort then refuse .notFound s
  else if !more && serial.isNone then refuse .notFound s
  else if Config.batches ≤ s.hire.batches.length then
    refuse .batchBusy (countBatch (fun k => { k with busyRefusals := bump k.busyRefusals }) s)
  else
    batchTakes station account serial more abort { account := account }
      (countBatch (fun k => { k with opened := bump k.opened }) s)

/-- The item's own checks (R113). -/
def itemRefusal (s : State) (account : Nat) (serial : Option Nat) (more abort : Bool) : Option RefusalCode :=
  if !isAccount account || serial.any (fun n => !isSerial n) then some .range
  else if (abort && serial.isNone) || (abort && !more) || (more && serial.isNone) then some .malformed
  else if s.mode = .setup then some .mode
  else none

/-- BATCH ITEM at its owner (R113, R114). -/
def batchItem (station account : Nat) (serial : Option Nat) (more abort : Bool) (s : State) : State × Answer :=
  match itemRefusal s account serial more abort with
  | some code => refuse code s
  | none =>
    match Table.look s.hire.batches station with
    | none => openBatch station account serial more abort s
    | some b => batchTakes station account serial more abort b s

/-! ### Idle timeout and abandoning (R121, R122) -/

/-- The stations that have an open batch, in ascending order. -/
def batchStations (s : State) : List Nat := s.hire.batches.map (·.1)

/-- A batch reaches 20 seconds since its last item at the next second tick (R121). -/
def idleDue (b : Batch) : Bool := decide (Config.batchIdle ≤ b.lastItem + 1)

/-- One open batch at a second tick (R121). -/
def batchSecond (s : State) (station : Nat) : State :=
  match Table.look s.hire.batches station with
  | none => s
  | some b =>
    if idleDue b then
      countBatch (fun k => { k with timedOut := bump k.timedOut }) (releaseBatch station b s)
    else writeBatch station { b with lastItem := b.lastItem + 1 } s

/-- One open batch at entry to SETUP (R122). -/
def abandonBatch (s : State) (station : Nat) : State :=
  match Table.look s.hire.batches station with
  | none => s
  | some b => countBatch (fun k => { k with abandoned := bump k.abandoned }) (releaseBatch station b s)

/-- The hire controller takes a second tick: ranges and batches (R73, R121, R162). -/
def takeRanges (s : State) : State :=
  let t := (receiverSlots s).foldl rangeSecond s
  (batchStations t).foldl batchSecond t

/-! ### Reading (R123, R124) -/

/-- READ of a batch entry at its owner (R123). -/
def readBatch (station : Nat) (s : State) : State × Answer :=
  if !isStation station then refuse .range s
  else
    match Table.look s.hire.batches station with
    | none => refuse .notFound s
    | some b =>
      accept
        ([.num station, .num b.account] ++ listFields b.items (fun n => [.num n]) ++
          [.num b.itemCount, .num b.lastItem, .name (batchStateText b.state)] ++
          optFields (b.failure.map (·.1)) (fun code => [.name (refusalText code)]) ++ optNum (b.failure.map (·.2))) s

/-- The batch counters in the order of R124. -/
def batchCounterFields (k : BatchCounters) : List Field :=
  [.num k.opened, .num k.busyRefusals, .num k.itemsHeld, .num k.itemsAborted, .num k.failures, .num k.issued, .num k.failed,
   .num k.timedOut, .num k.abandoned]

/-! ### The commands -/

/-- BATCH_TIMEOUT (R121): the second tick's share of one station's batch at which it has been idle for 20 seconds; where it is not,
the event does not come about (log 6). -/
def execBatchTimeout (station : Nat) (s : State) : Host.Outcome State Fault Refusal :=
  .next (whileMains (fun s =>
    match Table.look s.hire.batches station with
    | some b => if idleDue b then batchSecond s station else s
    | none => s) s)

/-- BATCH_ITEM (R113). -/
def execBatchItem (hdr : Header) (account : Nat) (serial : Option Nat) (more abort : Bool) (s : State) :
    Host.Outcome State Fault Refusal :=
  .next (serve hdr controlDesk true (batchItem hdr.station account serial more abort) s)

/-- READ_BATCH (R123). -/
def execReadBatch (hdr : Header) (station : Nat) (s : State) : Host.Outcome State Fault Refusal :=
  .next (serve hdr controlMonitor true (readBatch station) s)

end Sys2Proof.Machine
end

