-- ==== Sys2Proof/Machine/Channels.lean ====
section
/-! DEFINITION. The channel requests (01_language_channels.md). -/

namespace Sys2Proof.Machine

/-! ### At their owner (R3, R4, R8 to R10) -/

/-- LOAD of a channel entry at its owner (R3); a channel that becomes restricted has its listeners judged again (R79). -/
def loadChannel (channel : Nat) (label : Label) (restricted : Bool) (policy : Option Fallback) (s : State) : State × Answer :=
  if !isChannel channel then refuse .range s
  else if s.mode ≠ .setup then refuse .locked s
  else
    match isLabel label, policy with
    | true, some p =>
      let t := s.modChan channel fun x => { x with label := label, restricted := restricted, policy := p }
      accept [] (if !(s.chan channel).restricted && restricted then revokeChannel channel t else t)
    | _, _ => refuse .range s

/-- A channel record in a reply, its block queue as the number of blocks (R1, R4). -/
def channelFields (channel : Nat) (x : Channel) : List Field :=
  [.num channel, .flag x.enabled, .label x.label, .flag x.restricted, .name (fallbackText x.policy)] ++ optNum x.owner ++
    [.num x.queue.length, .num x.listeners] ++ optClock x.stamp ++
    [.num x.listenerMinutes, .num x.fallbackMinutes, .num x.underruns, .num x.dropped]

/-- What the reply for channel 0 carries besides (R4, R13). -/
def floorFields (w : ChannelSwitch) : List Field := [.num w.floorQueue.length, .num w.floorUnderruns, .num w.floorDropped]

/-- READ of a channel entry at its owner (R4). -/
def readChannel (channel : Nat) (s : State) : State × Answer :=
  if Config.channels < channel then refuse .range s
  else accept (channelFields channel (s.chan channel) ++ (if channel = 0 then floorFields s.switch else [])) s

/-- A request that names one channel from 1 to 48: RANGE, else ruled at its record. -/
def atChannel (channel : Nat) (rule : State → State × Answer) (s : State) : State × Answer :=
  if !isChannel channel then refuse .range s else rule s

/-- CLEAR STAMP at its owner (R8). -/
def clearStamp (channel : Nat) : State → State × Answer :=
  atChannel channel fun s => accept [] (s.modChan channel fun x => { x with stamp := none })

/-- ENABLE CHANNEL at its owner (R9). -/
def enableChannel (channel : Nat) : State → State × Answer :=
  atChannel channel fun s =>
    if (s.chan channel).enabled then accept [] s
    else accept [] (s.modChan channel fun x => { x with enabled := true, owner := none, queue := [] })

/-- The channel becomes disabled and its block queue is emptied (R10). -/
def turnOff (channel : Nat) (s : State) : State := s.modChan channel fun x => { x with enabled := false, queue := [] }

/-- DISABLE CHANNEL at its owner, with the booth forced SILENT in the reply (R10). -/
def disableChannel (channel : Nat) (force : Bool) : State → State × Answer :=
  atChannel channel fun s =>
    if !(s.chan channel).enabled then accept (optNum none) s
    else
      match (s.chan channel).owner with
      | none => accept (optNum none) (turnOff channel s)
      | some b =>
        if force then accept (optNum (some b)) (turnOff channel (goSilent b .channelOff s)) else refuse .engaged s

/-! ### The commands -/

/-- LOAD_CHANNEL (R3). -/
def execLoadChannel (hdr : Header) (channel : Nat) (label : Label) (restricted : Bool) (policy : Option Fallback)
    (s : State) : Host.Outcome State Fault Refusal :=
  .next (serve hdr controlOnly true (loadChannel channel label restricted policy) s)

/-- READ_CHANNEL (R4). -/
def execReadChannel (hdr : Header) (channel : Nat) (s : State) : Host.Outcome State Fault Refusal :=
  .next (serve hdr controlMonitor true (readChannel channel) s)

/-- CLEAR_STAMP (R8). -/
def execClearStamp (hdr : Header) (channel : Nat) (s : State) : Host.Outcome State Fault Refusal :=
  .next (serve hdr controlOnly true (clearStamp channel) s)

/-- ENABLE_CHANNEL (R9). -/
def execEnableChannel (hdr : Header) (channel : Nat) (s : State) : Host.Outcome State Fault Refusal :=
  .next (serve hdr controlOnly true (enableChannel channel) s)

/-- DISABLE_CHANNEL (R10). -/
def execDisableChannel (hdr : Header) (channel : Nat) (force : Bool) (s : State) : Host.Outcome State Fault Refusal :=
  .next (serve hdr controlOnly true (disableChannel channel force) s)

end Sys2Proof.Machine
end

