-- ==== Sys2Proof/Machine/Booths.lean ====
section
/-! DEFINITION. The console and booth requests (02_booths_handover_and_relay.md). -/

namespace Sys2Proof.Machine

/-! ### Console entries (R22, R23) -/

/-- Booth and seat as LOAD of a console entry may carry them: both in range, or both absent (R23 step 3). -/
def placeFits (booth seat : Option Nat) : Bool :=
  match booth, seat with
  | none, none => true
  | some b, some n => isBooth b && within 1 n 3
  | _, _ => false

/-- Another configured entry names the booth and seat (R23 step 4). -/
def placeTaken (s : State) (slot : Nat) (booth seat : Option Nat) : Bool :=
  booth.isSome &&
    (upTo Config.slots).any fun n =>
      decide (n ≠ slot) && (s.console n).configured && decide ((s.console n).booth = booth) &&
        decide ((s.console n).seat = seat)

/-- The loop controller follows the Configured field: UNCONFIGURED when it goes from yes to no, ABSENT with missed-run 0 when it goes
from no to yes (R23, R58). -/
def followConfigured (was is : Bool) (slot : Nat) (s : State) : State :=
  match was, is with
  | true, false => s.modSlot slot fun x => { x with presence := .unconfigured, missedRun := 0 }
  | false, true => s.modSlot slot fun x => { x with presence := .absent, missedRun := 0 }
  | _, _ => s

/-- LOAD of a console entry at its owner (R23). -/
def loadConsole (slot : Nat) (configured : Bool) (booth seat : Option Nat) (s : State) : State × Answer :=
  if !isSlot slot then refuse .range s
  else if s.mode ≠ .setup then refuse .locked s
  else if !placeFits booth seat then refuse .range s
  else if placeTaken s slot booth seat then refuse .duplicate s
  else
    accept []
      (followConfigured (s.console slot).configured configured slot
        (s.modConsole slot fun c => { c with configured := configured, booth := booth, seat := seat }))

/-- The console's seat in its booth's floor (R23). -/
def floorRole (s : State) (slot : Nat) : String :=
  match (s.console slot).booth with
  | none => "NONE"
  | some b =>
    match (s.boothRec b).floor with
    | .silent => "NONE"
    | .live c => if c = slot then "LIVE" else "NONE"
    | .offered c _ _ => if c = slot then "OFFERING" else "NONE"

/-- READ of a console entry at its owner: the fields of R22, then what the loop controller holds (R63) and the console's seat in its
booth's floor (R23). -/
def readConsole (slot : Nat) (s : State) : State × Answer :=
  if !isSlot slot then refuse .range s
  else
    let c := s.console slot
    let x := s.slotState slot
    accept
      ([.num slot, .flag c.configured] ++ optNum c.booth ++ optNum c.seat ++ [.flag c.cough, .flag c.call] ++
        optFields c.lamp (fun code => [.name (lampText code)]) ++ optNum c.displayEnd ++
        [.num c.liveMinutes, .name (presenceText x.presence), .num x.missedRun, .num x.missed, .num x.errors,
         .name (floorRole s slot)]) s

/-! ### Booth records (R24, R25) -/

/-- The fields of LOAD of a booth entry within their values (R25 step 3). -/
def boothFits (aChannel bChannel : Option Nat) (turnLimit : Nat) : Bool :=
  aChannel.all isChannel && bChannel.all isChannel && decide (turnLimit ≤ 120)

/-- A booth record with a configuration loaded (R25): without a B channel the selected output is A. -/
def Booth.configured (x : Booth) (aChannel bChannel : Option Nat) (interlock : Interlock) (turnLimit : Nat)
    (callMode : CallMode) : Booth :=
  { x with
    aChannel := aChannel, bChannel := bChannel, interlock := interlock, turnLimit := turnLimit, callMode := callMode
    output := if bChannel.isNone then .a else x.output }

/-- LOAD of a booth entry at its owner (R25). -/
def loadBooth (booth : Nat) (aChannel bChannel : Option Nat) (interlock : Option Interlock) (turnLimit : Nat)
    (callMode : Option CallMode) (s : State) : State × Answer :=
  if !isBooth booth then refuse .range s
  else if s.mode ≠ .setup then refuse .locked s
  else
    match boothFits aChannel bChannel turnLimit, interlock, callMode with
    | true, some i, some m => accept [] (s.modBooth booth fun x => x.configured aChannel bChannel i turnLimit m)
    | _, _, _ => refuse .range s

def FloorState.target : FloorState → Option OfferTarget
  | .offered _ target _ => some target
  | _ => none

def FloorState.expiry : FloorState → Option Nat
  | .offered _ _ expiry => some expiry
  | _ => none

/-- A booth record in a reply, without the latest output block (R24, R25). -/
def boothFields (b : Nat) (x : Booth) : List Field :=
  [.num b] ++ optNum x.aChannel ++ optNum x.bChannel ++
    [.name (interlockText x.interlock), .num x.turnLimit, .name (callModeText x.callMode)] ++ sourceFields x.relay ++
    [.name (outputText x.output), .name (floorText x.floor)] ++ optNum (FloorState.console x.floor) ++
    optFields (FloorState.target x.floor) targetFields ++ optNum (FloorState.expiry x.floor) ++ optNum x.turn ++
    [.flag x.callLatch, .num x.liveMinutes, .flag x.unlogged]

/-- READ of a booth entry at its owner (R25), with its relay depth and whether its feeds are in relay fallback. -/
def readBooth (booth : Nat) (s : State) : State × Answer :=
  if !isBooth booth then refuse .range s
  else
    accept
      (boothFields booth (s.boothRec booth) ++
        [.num ((relayDepthOf s.relay booth).getD 0), .flag (feedOf s booth).2]) s

/-! ### Requests to a booth (R37, R43, R47) -/

/-- FORCE SILENT at its owner (R37). -/
def forceSilent (booth : Nat) (s : State) : State × Answer :=
  if !isBooth booth then refuse .range s
  else accept (optNum (FloorState.console (s.boothRec booth).floor)) (goSilent booth .forced s)

/-- The refusal code of SET RELAY for a relay change that does not pass (R43). -/
def relayCode : LampCode → RefusalCode
  | .relayCycle => .relayCycle
  | _ => .relayDepth

/-- SET RELAY at its owner (R43). -/
def setRelay (booth : Nat) (source : RelaySource) (s : State) : State × Answer :=
  if !isBooth booth || !isSource source then refuse .range s
  else
    match relayRefusal s booth source with
    | some code => refuse (relayCode code) s
    | none => accept [] (setSource booth source s)

/-- The booths whose call latch is set, in ascending order. -/
def latchedBooths (s : State) : List Nat := (upTo Config.booths).filter fun b => (s.boothRec b).callLatch

/-- FETCH CALLS at its owner (R47). -/
def fetchCalls (s : State) : State × Answer :=
  accept (listFields (latchedBooths s) fun b => [.num b])
    ((upTo Config.booths).foldl (fun t b => t.modBooth b fun x => { x with callLatch := false }) s)

/-! ### The commands -/

/-- LOAD_CONSOLE (R23). -/
def execLoadConsole (hdr : Header) (slot : Nat) (configured : Bool) (booth seat : Option Nat) (s : State) :
    Host.Outcome State Fault Refusal :=
  .next (serve hdr controlOnly true (loadConsole slot configured booth seat) s)

/-- READ_CONSOLE (R23). -/
def execReadConsole (hdr : Header) (slot : Nat) (s : State) : Host.Outcome State Fault Refusal :=
  .next (serve hdr controlMonitor true (readConsole slot) s)

/-- LOAD_BOOTH (R25). -/
def execLoadBooth (hdr : Header) (booth : Nat) (aChannel bChannel : Option Nat) (interlock : Option Interlock)
    (turnLimit : Nat) (callMode : Option CallMode) (s : State) : Host.Outcome State Fault Refusal :=
  .next (serve hdr controlOnly true (loadBooth booth aChannel bChannel interlock turnLimit callMode) s)

/-- READ_BOOTH (R25). -/
def execReadBooth (hdr : Header) (booth : Nat) (s : State) : Host.Outcome State Fault Refusal :=
  .next (serve hdr controlMonitor true (readBooth booth) s)

/-- FORCE_SILENT (R37). -/
def execForceSilent (hdr : Header) (booth : Nat) (s : State) : Host.Outcome State Fault Refusal :=
  .next (serve hdr controlOnly true (forceSilent booth) s)

/-- SET_RELAY (R43). -/
def execSetRelay (hdr : Header) (booth : Nat) (source : RelaySource) (s : State) : Host.Outcome State Fault Refusal :=
  .next (serve hdr controlOnly true (setRelay booth source) s)

/-- FETCH_CALLS (R47). -/
def execFetchCalls (hdr : Header) (s : State) : Host.Outcome State Fault Refusal :=
  .next (serve hdr controlMonitor true fetchCalls s)

end Sys2Proof.Machine
end

