-- ==== Sys2Proof/Machine/HallClock.lean ====
section
/-! DEFINITION. The time base: hall clock, session minute counter, alarms (09_hall_clock_ticks_and_alarms.md). -/

namespace Sys2Proof.Machine

/-- Changes the time base counters. -/
def countClock (f : ClockCounters → ClockCounters) (s : State) : State :=
  s.modTime fun t => { t with counters := f t.counters }

/-! ### The hall clock (R163) -/

/-- The length of a month; February has 29 days in every year divisible by 4 (R163). -/
def daysIn (year month : Nat) : Nat :=
  if month = 2 then (if year % 4 = 0 then 29 else 28)
  else if month = 4 || month = 6 || month = 9 || month = 11 then 30
  else 31

/-- A clock value within the ranges of R163. -/
def clockFits (c : Clock) : Bool :=
  within 2000 c.year 2099 && within 1 c.month 12 && within 1 c.day (daysIn c.year c.month) && decide (c.hour ≤ 23) &&
    decide (c.minute ≤ 59) && decide (c.second ≤ 59)

/-- One day later; none when the year passes 2099 (R163). -/
def nextDay (c : Clock) : Option Clock :=
  if c.day < daysIn c.year c.month then some { c with day := c.day + 1 }
  else if c.month < 12 then some { c with day := 1, month := c.month + 1 }
  else if c.year < 2099 then some { c with day := 1, month := 1, year := c.year + 1 }
  else none

/-- One second later with the carries in one step; none when the year passes 2099 (R163). -/
def nextSecond (c : Clock) : Option Clock :=
  if c.second < 59 then some { c with second := c.second + 1 }
  else if c.minute < 59 then some { c with second := 0, minute := c.minute + 1 }
  else if c.hour < 23 then some { c with second := 0, minute := 0, hour := c.hour + 1 }
  else nextDay { c with second := 0, minute := 0, hour := 0 }

/-- The hall clock advances by one second; past 2099 it becomes 2000-01-01 00:00:00 and INVALID (R163). -/
def advanceClock (s : State) : State :=
  s.modTime fun t =>
    match nextSecond t.clock with
    | some c => { t with clock := c }
    | none => { t with clock := clockEpoch, valid := false }

/-- The second tick at this clock value rolls the seconds over (R164). -/
def rollsOver (c : Clock) : Bool := decide (59 ≤ c.second)

/-! ### Alarms (R169 to R172) -/

/-- The record of an alarm. -/
def alarmOf (s : State) : AlarmName → Alarm
  | .returnBy => s.time.returnBy
  | .sessionClose => s.time.sessionClose

/-- Changes the record of an alarm. -/
def modAlarm (name : AlarmName) (f : Alarm → Alarm) (s : State) : State :=
  s.modTime fun t =>
    match name with
    | .returnBy => { t with returnBy := f t.returnBy }
    | .sessionClose => { t with sessionClose := f t.sessionClose }

/-- The notice flag of an alarm. -/
def alarmFlag : AlarmName → NoticeFlag
  | .returnBy => .returnBy
  | .sessionClose => .sessionClose

/-- The owner's taking of an alarm's effect (R171, R172). -/
def alarmEffect : AlarmName → Taking
  | .returnBy => .returnByEffect
  | .sessionClose => .sessionCloseEffect

/-- An alarm with no field enabled is disarmed (R169). -/
def Alarm.armed (a : Alarm) : Bool := a.dayOn || a.hourOn || a.minuteOn

/-- Every enabled field equals the corresponding part of the clock (R170). -/
def Alarm.equals (a : Alarm) (c : Clock) : Bool :=
  (!a.dayOn || decide (a.day = c.day)) && (!a.hourOn || decide (a.hour = c.hour)) &&
    (!a.minuteOn || decide (a.minute = c.minute))

/-- The alarm matches the clock as it stands: VALID clock, not disarmed, enabled fields equal (R170). -/
def alarmMatches (name : AlarmName) (s : State) : Bool :=
  s.time.valid && (alarmOf s name).armed && (alarmOf s name).equals s.now

/-- The match counter of an alarm (R176). -/
def countMatch : AlarmName → ClockCounters → ClockCounters
  | .returnBy, k => { k with returnByMatches := bump k.returnByMatches }
  | .sessionClose, k => { k with sessionCloseMatches := bump k.sessionCloseMatches }

/-- What the time base does when an alarm matches with mains present, but for handing the effect on (R170 steps 1, 2 and 4). -/
def recordMatch (name : AlarmName) (s : State) : State :=
  countClock (countMatch name)
    (setFlag (alarmFlag name)
      (modAlarm name (fun a => { a with matched := true, lastMatch := some s.now }) s))

/-- One alarm evaluated at a minute tick; the takings of effects handed on so far are carried along (R170). -/
def evaluateAlarm (acc : State × List Taking) (name : AlarmName) : State × List Taking :=
  if alarmMatches name acc.1 then (recordMatch name acc.1, acc.2 ++ [alarmEffect name]) else acc

/-- Both alarms, RETURN_BY first and SESSION_CLOSE second (R170). -/
def evaluateAlarms (s : State) : State × List Taking := [AlarmName.returnBy, .sessionClose].foldl evaluateAlarm (s, [])

/-- Mode and supply control changes the mode and counts the change (R177). -/
def changeMode (m : Mode) (s : State) : State :=
  s.modSupply fun p => { p with mode := m, counters := { p.counters with modeChanges := bump p.counters.modeChanges } }

/-- Mode and supply control takes the SESSION_CLOSE effect (R172). -/
def takeSessionClose (s : State) : State := if s.mode = .session then changeMode .rehearsal s else s

/-- The owner takes an alarm's effect (R171, R172). -/
def takeEffect : AlarmName → State → State
  | .returnBy => takeReturnBy
  | .sessionClose => takeSessionClose

/-! ### On backup (R162, R174) -/

/-- One alarm evaluated during a mains loss (R174). -/
def backupAlarm (s : State) (name : AlarmName) : State :=
  if alarmMatches name s then
    countClock (fun k => { k with backupMatches := bump k.backupMatches })
      (modAlarm name (fun a => { a with matched := true, lastMatch := some s.now, pendingEffect := true }) s)
  else s

/-- A second of the backup cell: the phase comes round to 0, the clock advances, and at a rollover the alarms are evaluated
(R162, R174). -/
def backupSecond (s : State) : State :=
  let rolls := rollsOver s.now
  let t := advanceClock (s.modTime fun b => { b with phase := 0 })
  if rolls then [AlarmName.returnBy, .sessionClose].foldl backupAlarm t else t

/-- The backup cell counts on by a number of block periods: every 500 make one of its seconds (R162). -/
def backupCount (ticks : Nat) (s : State) : State :=
  let total := s.time.phase + ticks
  (Nat.repeat backupSecond (total / Config.ticksPerSecond) s).modTime fun b =>
    { b with phase := total % Config.ticksPerSecond }

/-! ### Requests (R167, R169, R173) -/

/-- The clock-set record as SET CLOCK writes it (R167 step 1). -/
def clockSetOf (s : State) (value : Clock) : ClockSet :=
  ⟨if s.time.valid then some s.now else none, value, s.time.sessionMinute⟩

def clockSetFields (r : ClockSet) : List Field :=
  (match r.previous with
    | some c => [.kind false, .clock c]
    | none => [.kind true, .name "INVALID"]) ++ [.clock r.new, .num r.minute]

/-- SET CLOCK at its owner (R167). -/
def setClock (value : Clock) (s : State) : State × Answer :=
  if !clockFits value then refuse .range s
  else
    accept (clockSetFields (clockSetOf s value))
      (countClock (fun k => { k with sets := bump k.sets })
        (s.modTime fun t => { t with clock := value, valid := true, clockSet := some (clockSetOf s value) }))

/-- The alarm fields within their ranges (R169). -/
def alarmFits (day hour minute : Nat) : Bool := within 1 day 31 && decide (hour ≤ 23) && decide (minute ≤ 59)

/-- LOAD of an alarm entry at its owner (R169). -/
def loadAlarm (alarm : Option AlarmName) (day : Nat) (dayOn : Bool) (hour : Nat) (hourOn : Bool) (minute : Nat)
    (minuteOn : Bool) (s : State) : State × Answer :=
  match alarm with
  | none => refuse .range s
  | some name =>
    if !alarmFits day hour minute then refuse .range s
    else
      accept [] (modAlarm name (fun a => ⟨day, dayOn, hour, hourOn, minute, minuteOn, false, none, a.pendingEffect⟩) s)

/-- CLEAR ALARM at its owner (R173). -/
def clearAlarm (alarm : Option AlarmName) (s : State) : State × Answer :=
  match alarm with
  | none => refuse .range s
  | some name => accept [] (modAlarm name (fun a => { a with matched := false }) s)

def alarmFields (a : Alarm) : List Field :=
  [.num a.day, .flag a.dayOn, .num a.hour, .flag a.hourOn, .num a.minute, .flag a.minuteOn, .flag a.matched] ++
    optClock a.lastMatch ++ [.flag a.pendingEffect]

/-- The time base counters in the order of R176. -/
def clockCounterFields (k : ClockCounters) : List Field :=
  [.num k.sets, .num k.returnByMatches, .num k.sessionCloseMatches, .num k.backupMatches, .num k.pendingApplied,
   .num k.pendingDiscarded]

/-- READ of the clock entry at its owner (R173). RETURN_BY stands first: DEDUCED (log 39), unsafe. -/
def readClock (s : State) : State × Answer :=
  accept
    ([.clock s.now, .name (if s.time.valid then "VALID" else "INVALID"), .num s.time.sessionMinute] ++
      optFields s.time.clockSet clockSetFields ++ alarmFields s.time.returnBy ++ alarmFields s.time.sessionClose ++
      clockCounterFields s.time.counters) s

/-! ### The commands -/

/-- ALARM_MATCH (R170): the time base's evaluation of one alarm at the clock as it stands, its effect being taken by its owner; an
alarm that does not match the clock changes nothing (log 6). -/
def execAlarmMatch (alarm : AlarmName) (s : State) : Host.Outcome State Fault Refusal :=
  .next (whileMains (fun s => if alarmMatches alarm s then takeEffect alarm (recordMatch alarm s) else s) s)

/-- SESSION_CLOSE_EFFECT (R172). -/
def execSessionCloseEffect (s : State) : Host.Outcome State Fault Refusal := .next (whileMains takeSessionClose s)

/-- BACKUP_SECOND (R174): while mains is present the backup cell's seconds are the time base's own and this event does not come
about (log 8). -/
def execBackupSecond (s : State) : Host.Outcome State Fault Refusal :=
  .next (if s.supply.mainsLost then backupSecond s else s)

/-- SET_CLOCK (R167). -/
def execSetClock (hdr : Header) (value : Clock) (s : State) : Host.Outcome State Fault Refusal :=
  .next (serve hdr controlOnly true (setClock value) s)

/-- LOAD_ALARM (R169). -/
def execLoadAlarm (hdr : Header) (alarm : Option AlarmName) (day : Nat) (dayOn : Bool) (hour : Nat) (hourOn : Bool)
    (minute : Nat) (minuteOn : Bool) (s : State) : Host.Outcome State Fault Refusal :=
  .next (serve hdr controlOnly true (loadAlarm alarm day dayOn hour hourOn minute minuteOn) s)

/-- CLEAR_ALARM (R173). -/
def execClearAlarm (hdr : Header) (alarm : Option AlarmName) (s : State) : Host.Outcome State Fault Refusal :=
  .next (serve hdr controlOnly true (clearAlarm alarm) s)

/-- READ_CLOCK (R173). -/
def execReadClock (hdr : Header) (s : State) : Host.Outcome State Fault Refusal :=
  .next (serve hdr controlMonitor true readClock s)

end Sys2Proof.Machine
end

