-- ==== Sys2Proof/Machine/Ticks.lean ====
section
/-! DEFINITION. Block, second and minute ticks (R162 to R165). A tick is taken by several blocks with no order between them; the
command names the order (log 4). -/

namespace Sys2Proof.Machine

/-! ### The takings of a tick -/

/-- What a second tick is handed to (R162). -/
def secondTakings : List Taking := [.clock, .offers, .ranges]

/-- What a block tick is handed to (R162). -/
def blockTakings : List Taking := [.departure, .resolution, .notes, .displayEnds]

/-- What a minute tick is handed to, but for alarm effects (R164). -/
def minuteTakings : List Taking := [.channelMinutes, .turns, .loans, .duties]

/-- The time base's own part of a minute tick: the session minute counter, then the alarms; with the takings that follow (R164,
R165, R170). -/
def issueMinute (s : State) : State × List Taking :=
  let evaluated := evaluateAlarms (s.modTime fun t => { t with sessionMinute := (t.sessionMinute + 1) % (counterMax + 1) })
  (evaluated.1, minuteTakings ++ evaluated.2)

/-- The time base's clock takes a second tick: it advances, and at a rollover of the seconds a minute tick is issued (R163,
R164). -/
def takeClock (s : State) : State × List Taking :=
  if rollsOver s.now then issueMinute (advanceClock s) else (advanceClock s, [])

/-- One taking, with the takings it gives rise to. -/
def takeOne : Taking → State → State × List Taking
  | .departure, s => (takeDeparture s, [])
  | .resolution, s => (takeResolution s, [])
  | .notes, s => (takeNotes s, [])
  | .displayEnds, s => (takeDisplayEnds s, [])
  | .clock, s => takeClock s
  | .offers, s => (takeOffers s, [])
  | .ranges, s => (takeRanges s, [])
  | .channelMinutes, s => (takeChannelMinutes s, [])
  | .turns, s => (takeTurns s, [])
  | .loans, s => (takeLoans s, [])
  | .duties, s => (takeDuties s, [])
  | .returnByEffect, s => (takeReturnBy s, [])
  | .sessionCloseEffect, s => (takeSessionClose s, [])

/-- The next taking among those due: the first the order names, else the first due. -/
def pickTaking (order due : List Taking) : Option Taking :=
  match order.find? (fun t => due.contains t) with
  | some t => some t
  | none => due.head?

/-- Takes what is due, one taking after another in the order given, until nothing is due; the fuel is the number of takings there
are. -/
def runTakings (order : List Taking) : Nat → List Taking → State → State
  | 0, _, s => s
  | n + 1, due, s =>
    match pickTaking order due with
    | none => s
    | some t => runTakings order n (due.filter (fun x => x ≠ t) ++ (takeOne t s).2) (takeOne t s).1

/-- The takings there are (Taking). -/
def takingCount : Nat := 13

/-! ### The ticks (R162) -/

/-- The block tick is also a second tick (R162). -/
def phaseEnds (s : State) : Bool := decide (Config.ticksPerSecond ≤ s.time.phase + 1)

/-- The phase counts the tick, and the air port's set begins empty (R162, R16). -/
def startTick (s : State) : State :=
  (s.modTime fun t => { t with phase := if phaseEnds s then 0 else t.phase + 1 }).modAir fun a => { a with port := {} }

/-- A block tick is taken by every block it is handed to (R162). -/
def blockTick (order : List Taking) (s : State) : State :=
  runTakings order takingCount (if phaseEnds s then blockTakings ++ secondTakings else blockTakings) (startTick s)

/-- A second tick is taken by every block it is handed to (R162). -/
def secondTick (order : List Taking) (s : State) : State := runTakings order takingCount secondTakings s

/-- A minute tick is taken by the time base and by every block it is handed to (R164). -/
def minuteTick (order : List Taking) (s : State) : State :=
  runTakings order takingCount (issueMinute s).2 (issueMinute s).1

/-! ### The commands -/

/-- BLOCK_TICK (R162): every 500th is also a second tick, and that at a rollover of the seconds a minute tick. -/
def execBlockTick (order : List Taking) (s : State) : Host.Outcome State Fault Refusal :=
  .next (whileMains (blockTick order) s)

/-- SECOND_TICK (R162), taken by itself (log 5). -/
def execSecondTick (order : List Taking) (s : State) : Host.Outcome State Fault Refusal :=
  .next (whileMains (secondTick order) s)

/-- MINUTE_TICK (R164), taken by itself (log 5). -/
def execMinuteTick (order : List Taking) (s : State) : Host.Outcome State Fault Refusal :=
  .next (whileMains (minuteTick order) s)

/-- DISPLAY_END (R28): booth control's taking, for one console, of the block tick after the display end tick; where another tick is
still to come before that, the event does not come about (log 6). -/
def execDisplayEnd (slot : Nat) (s : State) : Host.Outcome State Fault Refusal :=
  .next (whileMains (fun s => if (s.console slot).displayEnd = some 0 then displayTick slot s else s) s)

/-- OFFER_EXPIRY (R31): the second tick's share of one booth at which its offer expiry second reaches 0; where it does not, the
event does not come about (log 6). -/
def execOfferExpiry (booth : Nat) (s : State) : Host.Outcome State Fault Refusal :=
  .next (whileMains (fun s => if offerDue booth s then offerSecond booth s else s) s)

/-- TURN_DUE (R40): the minute tick's share of one booth's turn timer at which it reaches 0; where it does not, the event does not
come about (log 6). -/
def execTurnDue (booth : Nat) (s : State) : Host.Outcome State Fault Refusal :=
  .next (whileMains (fun s => if turnFalling booth s then turnMinute booth s else s) s)

end Sys2Proof.Machine
end

