-- ==== Sys2Proof/Machine/Supply.lean ====
section
/-! DEFINITION. Mode and supply control: the commissioning check, SET MODE, the part parameters, mains loss and return, cold
start, RESTART, the backup state (10_operating_modes_and_mains_loss.md), and the reset values of every block. -/

namespace Sys2Proof

/-- Every record of a table in which every key has one changed; the default record is left out of the list as before. -/
def Table.change {α : Type} [DecidableEq α] (d : α) (f : α → α) (t : Table α) : Table α :=
  t.foldr (fun e rest => Table.set d e.1 (f (Table.get d t e.1)) rest) []

namespace Machine

/-- Changes the counters of the group MODE. -/
def countMode (f : ModeCounters → ModeCounters) (s : State) : State :=
  s.modSupply fun p => { p with counters := f p.counters }

/-! ### The commissioning check (R181) -/

/-- Booth b has a configured console. -/
def staffed (s : State) (b : Nat) : Bool :=
  (upTo Config.slots).any fun n => (s.console n).configured && decide ((s.console n).booth = some b)

/-- A lower-numbered booth has the same A channel. -/
def sharesA (s : State) (b : Nat) : Bool :=
  (s.boothRec b).aChannel.isSome &&
    (upTo (b - 1)).any fun a => decide ((s.boothRec a).aChannel = (s.boothRec b).aChannel)

/-- A tariff class that is not defined, at the lowest account number that names one. -/
def undefinedClass (s : State) : Option Nat :=
  ((s.acct.accounts.map (·.2)).filter fun a => !(s.tariff a.cls).defined).map (·.number) |>.min?

/-- The record that fails an item, the first in ascending order of its index (R181). -/
def checkItem (s : State) : CheckItem → Option Nat
  | .consoleBooth => (upTo Config.slots).find? fun n => (s.console n).configured && (s.console n).booth.isNone
  | .boothChannel => (upTo Config.booths).find? fun b => staffed s b && (s.boothRec b).aChannel.isNone
  | .sharedA => (upTo Config.booths).find? fun b => sharesA s b
  | .bEqualsA =>
    (upTo Config.booths).find? fun b =>
      (s.boothRec b).bChannel.isSome && decide ((s.boothRec b).bChannel = (s.boothRec b).aChannel)
  | .relayGraph =>
    (upTo Config.booths).find? fun b => !(relayDepthOf s.relay b).any fun d => decide (d ≤ Config.relayDepth)
  | .clockInvalid => if s.time.valid then none else some 0
  | .tariffUndefined => undefinedClass s

/-- The items tested for a mode (R181). -/
def itemsFor (m : Mode) : List CheckItem :=
  [.consoleBooth, .boothChannel, .sharedA, .bEqualsA, .relayGraph] ++
    (if m = .session then [.clockInvalid, .tariffUndefined] else [])

/-- The commissioning check for a mode: the failing item and its index, or none when it passes (R181). -/
def commissioning (s : State) (m : Mode) : Option (CheckItem × Nat) :=
  (itemsFor m).findSome? fun i => (checkItem s i).map fun n => (i, n)

/-! ### SET MODE (R178, R179) -/

/-- The number of booths that are LIVE or OFFERED. -/
def boothsOnAir (s : State) : Nat := (upTo Config.booths).countP fun b => (s.boothRec b).onAir

/-- Booth control takes the entry to SETUP (R48). -/
def silenceAll (s : State) : State := (upTo Config.booths).foldl (fun t b => goSilent b .mode t) s

/-- The channel switch takes the entry to SETUP (R21). -/
def emptyFloor (s : State) : State := s.modSwitch fun w => { w with floorQueue := [] }

/-- The hire controller takes the entry to SETUP (R122). -/
def abandonBatches (s : State) : State := (batchStations s).foldl abandonBatch s

/-- Entry to SETUP: the mode first, then booth control, the channel switch and the hire controller (R179). -/
def enterSetup (s : State) : State := abandonBatches (emptyFloor (silenceAll (changeMode .setup s)))

/-- The modes before and after in the reply (R178). -/
def modeFields (before after : Mode) : List Field := [.name (modeText before), .name (modeText after)]

/-- SET MODE at its owner (R178). -/
def setMode (mode : Option Mode) (s : State) : State × Answer :=
  match mode with
  | none => refuse .range s
  | some m =>
    if m = s.mode then accept (modeFields m m) s
    else if m = .setup then
      accept (modeFields s.mode m ++ [.num (boothsOnAir s), .num s.hire.batches.length]) (enterSetup s)
    else if s.mode = .session then accept (modeFields s.mode m) (changeMode m s)
    else
      match commissioning s m with
      | some (item, index) =>
        (countMode (fun k => { k with checkFailures := bump k.checkFailures }) s,
          .refused .checkFailed [.name (checkText item), .num index])
      | none => accept (modeFields s.mode m) (changeMode m s)

/-! ### The part parameters (R180) -/

/-- The numbers of LOAD of the part parameter entry within their values (R180). -/
def parametersFit (absenceLimit offerTimeout silenceLimit issueThreshold highWater : Nat) : Bool :=
  within 4 absenceLimit 250 && within 1 offerTimeout 60 && within 10 silenceLimit 300 && decide (issueThreshold ≤ 15) &&
    within 1 highWater Config.statements

/-- LOAD of the part parameter entry at its owner (R180). -/
def loadParameters (absenceLimit offerTimeout silenceLimit issueThreshold : Nat) (stampMode : Option StampMode)
    (highWater : Nat) (s : State) : State × Answer :=
  if s.mode ≠ .setup then refuse .locked s
  else
    match parametersFit absenceLimit offerTimeout silenceLimit issueThreshold highWater, stampMode with
    | true, some stamps =>
      accept [] (s.modSupply fun p =>
        { p with params := ⟨absenceLimit, offerTimeout, silenceLimit, issueThreshold, stamps, highWater⟩ })
    | _, _ => refuse .range s

/-- READ of the part parameter entry at its owner (R180). -/
def readParameters (s : State) : State × Answer :=
  let p := s.params
  accept
    [.num p.absenceLimit, .num p.offerTimeout, .num p.silenceLimit, .num p.issueThreshold, .name (stampModeText p.stampMode),
     .num p.highWater] s

/-! ### The values every block takes at power return and RESTART

The ports show nothing then (log 20). -/

/-- A slot after power return or RESTART (R65). -/
def SlotState.started (x : SlotState) : SlotState := if x.configured then { presence := .absent } else {}

/-- The loop controller (R65). -/
def Loop.started (l : Loop) : Loop := { slots := Table.change {} SlotState.started l.slots }

/-- A console table entry (R49). -/
def Console.started (c : Console) : Console := { c with cough := false, call := false, lamp := none, displayEnd := none }

/-- A booth record (R49). -/
def Booth.started (b : Booth) : Booth := { b with floor := .silent, turn := none, callLatch := false, latest := none }

/-- Booth control (R49, R44). -/
def BoothControl.started (c : BoothControl) : BoothControl :=
  { consoles := Table.change {} Console.started c.consoles, booths := Table.change {} Booth.started c.booths }

/-- A channel record (R20). -/
def Channel.started (x : Channel) : Channel :=
  { x with owner := none, queue := [], listeners := 0, underruns := 0, dropped := 0 }

/-- The channel switch (R20). -/
def ChannelSwitch.started (w : ChannelSwitch) : ChannelSwitch := { channels := Table.change {} Channel.started w.channels }

/-- A receiver record: UNHEARD, without current channel, and AVAILABLE when it was HELD (R66, R111, R122). -/
def Receiver.started (r : Receiver) : Receiver :=
  { r with
    range := .unheard
    lastHeard := none
    lastCounter := none
    channel := none
    state := if r.state = .held then .available else r.state
    batch := none }

/-- The hire controller (R111, R122). -/
def Hire.started (h : Hire) : Hire :=
  { receivers := h.receivers.map fun e => (e.1, e.2.started), pendingList := h.pendingList }

/-- The accounting unit, apart from its OPEN duty entries (R148, R161). -/
def Accounting.started (u : Accounting) : Accounting := { u with counters := {}, dutyCounters := {} }

/-- The time base (R176). -/
def TimeBase.started (t : TimeBase) : TimeBase := { t with counters := {} }

/-- The service controller, before any flag is set (R198). -/
def Service.started (v : Service) : Service := { stations := v.stations }

/-- Mode and supply control, before the start record and the backup state are set (R188). -/
def Supply.started (p : Supply) : Supply :=
  { p with mode := .setup, mainsLost := false, backupLow := false, counters := {} }

/-- Every block takes its values (R185 step 1, R187 step 2); the air controller keeps nothing (R85). -/
def startValues (s : State) : State :=
  { s with
    loop := s.loop.started
    booth := s.booth.started
    switch := s.switch.started
    air := {}
    hire := s.hire.started
    acct := s.acct.started
    time := s.time.started
    serv := s.serv.started
    supply := s.supply.started }

/-! ### Starts -/

/-- The notice flag of an alarm whose matched flag is set (R173). -/
def flagMatched (s : State) (name : AlarmName) : State := if (alarmOf s name).matched then setFlag (alarmFlag name) s else s

/-- The flags of the matched alarms at a start, RETURN_BY first (R173): DESIGN CHOICE (log 38), unsafe. -/
def flagMatchedAlarms (s : State) : State := [AlarmName.returnBy, .sessionClose].foldl flagMatched s

/-- Mode and supply control takes the monitor's indication: LOW from NORMAL sets BACKUP_LOW and is counted, its withdrawal makes
NORMAL (R188). -/
def takeBackup (low : Bool) (s : State) : State :=
  if low && !s.supply.backupLow then
    setFlag .backupLow
      (countMode (fun k => { k with backupLows := bump k.backupLows }) (s.modSupply fun p => { p with backupLow := true }))
  else if low then s
  else s.modSupply fun p => { p with backupLow := false }

/-- The start record is written with the hall clock value (R185 step 5, R187 step 4). -/
def recordStart (kind : StartKind) (s : State) : State := s.modSupply fun p => { p with startRecord := ⟨kind, s.now⟩ }

/-- A pending RETURN_BY effect is handed to the hire controller (R175). -/
def applyPending (s : State) : State :=
  if s.time.returnBy.pendingEffect then
    takeReturnBy
      (countClock (fun k => { k with pendingApplied := bump k.pendingApplied })
        (modAlarm .returnBy (fun a => { a with pendingEffect := false }) s))
  else s

/-- A pending SESSION_CLOSE effect is discarded (R175). -/
def discardPending (s : State) : State :=
  if s.time.sessionClose.pendingEffect then
    countClock (fun k => { k with pendingDiscarded := bump k.pendingDiscarded })
      (modAlarm .sessionClose (fun a => { a with pendingEffect := false }) s)
  else s

/-- A power return (R185). -/
def powerReturn (low : Bool) (s : State) : State :=
  let values := startValues s
  let duty := completeEntries (fun _ => true) .power (s.supply.lossStamp.getD s.now) values
  let effects := discardPending (applyPending duty)
  recordStart .powerReturn (takeBackup low (flagMatchedAlarms (setFlag .mainsReturn effects)))

/-- A cold start (R186): the state right after the first start, then the backup state. -/
def coldStart (low : Bool) (s : State) : State := takeBackup low { State.reset with pending := s.pending }

/-- Mains comes back after a loss: the backup cell's count stands, the retention check is made, and the start is taken (R183, R185,
R162). -/
def mainsReturn (event : MainsReturn) (s : State) : State :=
  let t := backupCount event.cellTicks s
  if event.cellHeld && event.domainAgrees then powerReturn event.backupLow t else coldStart event.backupLow t

/-- Mains is lost (R184). -/
def mainsLoss (s : State) : State := s.modSupply fun p => { p with mainsLost := true, lossStamp := some s.now }

/-- The messages that had arrived and were not taken when a RESTART was taken, those waiting in the queue, are lost (R198). -/
def loseWaiting (s : State) : State := s.modServ fun v => { v with toLose := messagesWaiting s.pending }

/-- RESTART, let through by the service controller (R187): the reply is queued before the notices of the flags (R193), and the messages
waiting behind it are lost (R198). The monitor's indication at the start is the backup state as it stands (log 23). -/
def restartPart (h : Header) (s : State) : State :=
  let values := loseWaiting (startValues (completeEntries (fun _ => true) .restart s.now s))
  let replied := queueReply h.station h.tag (Answer.accepted [.name "RESTARTED"]).body values
  recordStart .restart (takeBackup s.supply.backupLow (flagMatchedAlarms replied))

/-! ### Reading (R188) -/

/-- The counters of the group MODE in the order of R188. -/
def modeCounterFields (k : ModeCounters) : List Field := [.num k.modeChanges, .num k.checkFailures, .num k.backupLows]

/-- READ of the supply entry at its owner (R188). -/
def readSupply (s : State) : State × Answer :=
  accept
    ([.name (modeText s.mode), .name (if s.supply.backupLow then "LOW" else "NORMAL")] ++ optClock s.supply.lossStamp ++
      [.name (startText s.supply.startRecord.kind), .clock s.supply.startRecord.clock] ++
      modeCounterFields s.supply.counters) s

/-! ### The commands -/

/-- SET_MODE (R178). -/
def execSetMode (hdr : Header) (mode : Option Mode) (s : State) : Host.Outcome State Fault Refusal :=
  .next (serve hdr controlOnly true (setMode mode) s)

/-- LOAD_PARAMETERS (R180). -/
def execLoadParameters (hdr : Header) (absenceLimit offerTimeout silenceLimit issueThreshold : Nat)
    (stampMode : Option StampMode) (highWater : Nat) (s : State) : Host.Outcome State Fault Refusal :=
  .next (serve hdr controlOnly true
    (loadParameters absenceLimit offerTimeout silenceLimit issueThreshold stampMode highWater) s)

/-- READ_PARAMETERS (R180). -/
def execReadParameters (hdr : Header) (s : State) : Host.Outcome State Fault Refusal :=
  .next (serve hdr controlMonitor true readParameters s)

/-- RESTART (R187, R198). -/
def execRestart (hdr : Header) (s : State) : Host.Outcome State Fault Refusal :=
  .next (takeMessage (whenAdmitted hdr controlOnly true (restartPart hdr)) s)

/-- READ_SUPPLY (R188). -/
def execReadSupply (hdr : Header) (s : State) : Host.Outcome State Fault Refusal :=
  .next (serve hdr controlMonitor true readSupply s)

/-- MAINS_LOSS (R184); while mains is lost it has no effect. -/
def execMainsLoss (s : State) : Host.Outcome State Fault Refusal := .next (whileMains mainsLoss s)

/-- MAINS_RETURN (R185); while mains is present it has no effect. -/
def execMainsReturn (event : MainsReturn) (s : State) : Host.Outcome State Fault Refusal :=
  .next (if s.supply.mainsLost then mainsReturn event s else s)

/-- BACKUP_LOW_INDICATION (R188); while mains is lost it is not taken. -/
def execBackupLowIndication (low : Bool) (s : State) : Host.Outcome State Fault Refusal :=
  .next (whileMains (takeBackup low) s)

end Machine
end Sys2Proof
end

