-- ==== Sys2Proof/Machine/Service.lean ====
section
/-! DEFINITION. The service controller's own requests: station table, notice flags, counter groups, and the sending of the outbound
queue (11_the_service_port.md). -/

namespace Sys2Proof.Machine

/-! ### The station table (R190) -/

/-- Writes an entry of the station table. -/
def writeStation (station : Nat) (e : Station) (s : State) : State :=
  s.modServ fun v => { v with stations := Table.put station e v.stations }

/-- Removes an entry of the station table. -/
def dropStation (station : Nat) (s : State) : State :=
  s.modServ fun v => { v with stations := Table.drop station v.stations }

/-- The table holds a CONTROL entry other than a station's. -/
def otherControl (s : State) (station : Nat) : Bool :=
  s.serv.stations.any fun e => decide (e.1 ≠ station) && decide (e.2.role = .control)

/-- The role that LOAD of a station entry carries, none for NONE or a value that is no role. -/
def entryRole : StationEntry → Option Role
  | .control _ => some .control
  | .monitor _ => some .monitor
  | .desk => some .desk
  | .rack => some .rack
  | .none => none
  | .other => none

/-- The mask that LOAD of a station entry carries. -/
def entryMask : StationEntry → List (Option NoticeFlag)
  | .control mask => mask
  | .monitor mask => mask
  | _ => []

/-- A mask as the table holds it: the flags named, in the order of R195: DESIGN CHOICE (log 40), unsafe for the reply alone. -/
def maskOf (flags : List NoticeFlag) : List NoticeFlag := flagSet fun f => flags.contains f

/-- Steps 5 and 6 of R190 for a role. -/
def placeRole (station : Nat) (role : Role) (mask : List NoticeFlag) (s : State) : State × Answer :=
  if (Table.look s.serv.stations station).isNone && decide (Config.stations ≤ s.serv.stations.length) then refuse .tableFull s
  else if decide (role ≠ .control) && !otherControl s station then refuse .limit s
  else accept [] (writeStation station ⟨role, maskOf mask⟩ s)

/-- Steps 5 and 6 of R190 for NONE. -/
def removeStation (station : Nat) (s : State) : State × Answer :=
  if (Table.look s.serv.stations station).isNone then refuse .notFound s
  else if !otherControl s station then refuse .limit s
  else accept [] (dropStation station s)

/-- LOAD of a station entry at its owner (R190). -/
def loadStation (station : Nat) (entry : StationEntry) (s : State) : State × Answer :=
  if !isStation station then refuse .range s
  else if s.mode ≠ .setup then refuse .locked s
  else
    match entry, namedFlags (entryMask entry) with
    | .other, _ => refuse .range s
    | _, none => refuse .range s
    | e, some mask =>
      if !distinct mask then refuse .malformed s
      else
        match entryRole e with
        | none => removeStation station s
        | some role => placeRole station role mask s

/-- SET NOTICE MASK at its owner (R190). Where several of its refusals apply, the first that R190 names is given: DEDUCED (log 44),
unsafe. -/
def setNoticeMask (station : Nat) (mask : List (Option NoticeFlag)) (s : State) : State × Answer :=
  if !isStation station then refuse .range s
  else
    match namedFlags mask with
    | none => refuse .range s
    | some flags =>
      if !distinct flags then refuse .malformed s
      else
        match Table.look s.serv.stations station with
        | none => refuse .notFound s
        | some e =>
          if controlMonitor e.role then accept [] (writeStation station { e with mask := maskOf flags } s)
          else refuse .range s

/-- A station entry in a reply; a DESK or RACK has no mask (R190; 12_formats.md, Bodies). Nothing stands for the mask of a DESK or
RACK: DEDUCED (log 41), unsafe. -/
def stationFields (station : Nat) (e : Station) : List Field :=
  [.num station, .name (roleText e.role)] ++
    (if controlMonitor e.role then listFields e.mask (fun f => [.name f.text]) else [])

/-- READ of a station entry at its owner (R190). -/
def readStation (station : Nat) (s : State) : State × Answer :=
  if !isStation station then refuse .range s
  else
    match Table.look s.serv.stations station with
    | none => refuse .notFound s
    | some e => accept (stationFields station e) s

/-! ### Notice flags (R196) -/

/-- The seventeen flags, set or clear, in the order of R195. -/
def flagFields (s : State) : List Field := NoticeFlag.all.map fun f => .flag (s.flagged f)

/-- READ NOTICES at its owner (R196). -/
def readNotices (s : State) : State × Answer := accept (flagFields s) s

/-- The flags named become clear (R196). -/
def clearFlags (flags : List NoticeFlag) (s : State) : State :=
  s.modServ fun v => { v with flags := v.flags.filter fun f => !flags.contains f }

/-- CLEAR NOTICES at its owner (R196). A list with both a name that is no flag and a flag named twice is refused with RANGE: DEDUCED
(log 45), unsafe. -/
def clearNotices (flags : List (Option NoticeFlag)) (s : State) : State × Answer :=
  match namedFlags flags with
  | none => refuse .range s
  | some named =>
    if !distinct named then refuse .malformed s
    else accept (flagFields (clearFlags named s)) (clearFlags named s)

/-! ### Counter groups (R197) -/

/-- The service counters in the order of R197. -/
def serviceCounterFields (k : ServiceCounters) : List Field :=
  [.num k.received, .num k.badFrames, .num k.notForPart, .num k.unknownSource, .num k.wrongKind, .num k.requests,
   .num k.rackPassed, .num k.roleRefusals, .num k.malformed, .num k.repliesDropped, .num k.noticesQueued,
   .num k.noticesDropped]

/-- The frame counters in the order of R64. -/
def loopCounterFields (k : LoopCounters) : List Field :=
  [.num k.departed, .num k.returned, .num k.lost, .num k.bad, .num k.unmatched, .num k.stray]

/-- Every counter of a group (R197). -/
def counterFields (s : State) : CounterGroup → List Field
  | .loop => loopCounterFields s.loop.counters
  | .consoles => (upTo Config.slots).flatMap fun n => [.num (s.slotState n).missed, .num (s.slotState n).errors]
  | .channels =>
    (upTo Config.channels).flatMap (fun c => [.num (s.chan c).underruns, .num (s.chan c).dropped]) ++
      [.num s.switch.floorUnderruns, .num s.switch.floorDropped]
  | .channelMinutes =>
    (0 :: upTo Config.channels).flatMap fun c => [.num (s.chan c).listenerMinutes, .num (s.chan c).fallbackMinutes]
  | .air => airCounterFields s.air.counters
  | .hire => hireCounterFields s.hire.counters
  | .batches => batchCounterFields s.hire.batchCounters
  | .accounts => acctCounterFields s.acct.counters
  | .duty => dutyCounterFields s.acct.dutyCounters
  | .clock => clockCounterFields s.time.counters
  | .mode => modeCounterFields s.supply.counters
  | .service => serviceCounterFields s.serv.counters

/-- Every counter of a group is set to 0 (R197). -/
def zeroGroup (g : CounterGroup) (s : State) : State :=
  match g with
  | .loop => countLoop (fun _ => {}) s
  | .consoles => (upTo Config.slots).foldl (fun t n => t.modSlot n fun x => { x with missed := 0, errors := 0 }) s
  | .channels =>
    ((upTo Config.channels).foldl (fun t c => t.modChan c fun x => { x with underruns := 0, dropped := 0 }) s).modSwitch
      fun w => { w with floorUnderruns := 0, floorDropped := 0 }
  | .channelMinutes =>
    (0 :: upTo Config.channels).foldl (fun t c => t.modChan c fun x => { x with listenerMinutes := 0, fallbackMinutes := 0 })
      s
  | .air => countAir (fun _ => {}) s
  | .hire => countHire (fun _ => {}) s
  | .batches => countBatch (fun _ => {}) s
  | .accounts => countAcct (fun _ => {}) s
  | .duty => countDuty (fun _ => {}) s
  | .clock => countClock (fun _ => {}) s
  | .mode => countMode (fun _ => {}) s
  | .service => countServ (fun _ => {}) s

/-- READ COUNTERS at its owner (R197). -/
def readCounters (group : Option CounterGroup) (s : State) : State × Answer :=
  match group with
  | none => refuse .range s
  | some g => accept (counterFields s g) s

/-- CLEAR COUNTERS at its owner (R197). -/
def clearCounters (group : Option CounterGroup) (s : State) : State × Answer :=
  match group with
  | none => refuse .range s
  | some g => accept [] (zeroGroup g s)

/-! ### Sending (R193) -/

/-- The link takes the message at the head of the outbound queue; with nothing queued nothing is sent (R193). -/
def sendHead (s : State) : State :=
  s.modServ fun v =>
    match v.outbound with
    | [] => v
    | m :: rest => { v with outbound := rest, port := some m }

/-! ### The commands -/

/-- LOAD_STATION (R190); a mask of more than 17 flags does not fit the body (12_formats.md, Bodies). -/
def execLoadStation (hdr : Header) (station : Nat) (entry : StationEntry) (s : State) : Host.Outcome State Fault Refusal :=
  .next (serve hdr controlOnly (decide ((entryMask entry).length ≤ Config.maskMax)) (loadStation station entry) s)

/-- SET_NOTICE_MASK (R190). -/
def execSetNoticeMask (hdr : Header) (station : Nat) (mask : List (Option NoticeFlag)) (s : State) :
    Host.Outcome State Fault Refusal :=
  .next (serve hdr controlOnly (decide (mask.length ≤ Config.maskMax)) (setNoticeMask station mask) s)

/-- READ_STATION (R190). -/
def execReadStation (hdr : Header) (station : Nat) (s : State) : Host.Outcome State Fault Refusal :=
  .next (serve hdr controlMonitor true (readStation station) s)

/-- READ_NOTICES (R196). -/
def execReadNotices (hdr : Header) (s : State) : Host.Outcome State Fault Refusal :=
  .next (serve hdr controlMonitor true readNotices s)

/-- CLEAR_NOTICES names one or more flags; one that names none is refused with MALFORMED by the service controller (R196). -/
def execClearNotices (hdr : Header) (flags : List (Option NoticeFlag)) (s : State) : Host.Outcome State Fault Refusal :=
  .next (serve hdr controlMonitor (decide (flags ≠ [])) (clearNotices flags) s)

/-- READ_COUNTERS (R197). -/
def execReadCounters (hdr : Header) (group : Option CounterGroup) (s : State) : Host.Outcome State Fault Refusal :=
  .next (serve hdr controlMonitor true (readCounters group) s)

/-- CLEAR_COUNTERS (R197). -/
def execClearCounters (hdr : Header) (group : Option CounterGroup) (s : State) : Host.Outcome State Fault Refusal :=
  .next (serve hdr controlOnly true (clearCounters group) s)

/-- OUTBOUND_SEND (R193). -/
def execOutboundSend (s : State) : Host.Outcome State Fault Refusal := .next (whileMains sendHead s)

end Sys2Proof.Machine
end

