-- ==== Sys2Proof/Machine/Formats.lean ====
section
/-! DEFINITION. The runs of bytes that the part sends: loop frame, air block set, service message (12_formats.md). -/

namespace Sys2Proof.Machine

/-! ### Loop frame -/

/-- The lamps of a downstream part, bits 0 to 8 in the order of the format. -/
def lampBits (l : Lamps) : Nat :=
  bitOf l.micLive + 2 * bitOf l.boothLive + 4 * bitOf l.offerToYou + 8 * bitOf l.offerPending + 16 * bitOf l.turnDue +
    32 * bitOf l.relayFallback + 64 * bitOf l.outputB + 128 * bitOf l.callPending + 256 * bitOf l.setup

/-- The value of a refusal lamp code. -/
def lampValue : LampCode → Nat
  | .notLiveMode => 1 | .engaged => 2 | .channelOff => 3 | .interlock => 4 | .noOffer => 5 | .notForYou => 6 | .notLive => 7
  | .badTarget => 8 | .noChannel => 9 | .relayCycle => 10 | .relayDepth => 11

/-- One slot of a departing frame: its downstream part, and 69 upstream bytes of 0. -/
def slotBytes (d : Downstream) : List Byte :=
  speechBytes d.feed ++ natBytes 2 (lampBits d.lamps) ++ natBytes 1 (d.turn.getD 255) ++
    natBytes 1 ((d.lamp.map lampValue).getD 0) ++ List.replicate 69 0

/-- A departing frame. -/
def frameBytes (f : LoopFrame) : List Byte := withCheck (natBytes 1 f.sequence ++ f.slots.flatMap slotBytes)

/-! ### Air block set -/

def airStateValue : AirState → Nat
  | .interpreted => 1 | .fallback => 2 | .muted => 3 | .underrun => 4

def noteKindValue : NoteKind → Nat
  | .grant => 1 | .deny => 2 | .revoke => 3

def labelBytes (l : Label) : List Byte := natBytes 1 l.first.toNat ++ natBytes 1 l.second.toNat ++ natBytes 1 l.third.toNat

def airBlockBytes (b : AirBlock) : List Byte :=
  natBytes 1 b.channel ++ natBytes 1 (airStateValue b.state) ++ natBytes 1 (bitOf b.restricted) ++ labelBytes b.label ++
    speechBytes b.speech

def noteBytes (n : AirNote) : List Byte := natBytes 3 n.serial ++ natBytes 1 (noteKindValue n.kind) ++ natBytes 1 n.channel

/-- One air block set. -/
def airSetBytes (a : AirSet) : List Byte :=
  natBytes 1 a.blocks.length ++ natBytes 1 a.notes.length ++ a.blocks.flatMap airBlockBytes ++ a.notes.flatMap noteBytes

/-! ### Service messages the part sends -/

/-- A text in ASCII. -/
def textBytes (t : String) : List Byte := t.toList.map fun c => BitVec.ofNat 8 c.toNat

def clockBytes (c : Clock) : List Byte :=
  natBytes 2 c.year ++ natBytes 1 c.month ++ natBytes 1 c.day ++ natBytes 1 c.hour ++ natBytes 1 c.minute ++
    natBytes 1 c.second

/-- One field of a body. -/
def fieldBytes : Field → List Byte
  | .num n => natBytes 4 n
  | .name t => natBytes 1 (textBytes t).length ++ textBytes t
  | .flag b => natBytes 1 (bitOf b)
  | .present b => natBytes 1 (bitOf b)
  | .kind b => natBytes 1 (bitOf b)
  | .count n => natBytes 1 n
  | .clock c => clockBytes c
  | .label l => labelBytes l

def messageKindValue : MessageKind → Nat
  | .reply => 2 | .notice => 3

/-- A message of the part as it goes out, its source being station 0. -/
def messageBytes (m : Message) : List Byte :=
  withCheck
    (natBytes 1 m.dest ++ natBytes 1 0 ++ natBytes 1 (messageKindValue m.kind) ++ natBytes 2 m.tag ++
      natBytes 2 (m.body.flatMap fieldBytes).length ++ m.body.flatMap fieldBytes)

end Sys2Proof.Machine
end

