-- ==== Sys2Proof/Machine/Messages.lean ====
section
/-! DEFINITION. Messages at the service port from their bytes: the tests of R189, the roles and bodies of R191, and the reading of
every request body (12_formats.md, Bodies). -/

namespace Sys2Proof.Machine

/-! ### Reading a body -/

/-- Reads a value from the front of a body, none when the bytes there are not of its kind. -/
abbrev Reader (α : Type) : Type := StateT (List Byte) Option α

def readByte : Reader Nat := fun l =>
  match l with
  | [] => none
  | b :: rest => some (b.toNat, rest)

/-- A number of 4 bytes. -/
def readNum : Reader Nat := fun l => if l.length < 4 then none else some (bytesNat (l.take 4), l.drop 4)

/-- Yes or no, a presence indication, which of two kinds follows: 00h or 01h. -/
def readFlag : Reader Bool := fun l =>
  match l with
  | [] => none
  | b :: rest => if b = 0#8 then some (false, rest) else if b = 1#8 then some (true, rest) else none

/-- The bytes of a name, preceded by their number. -/
def readText : Reader (List Byte) := fun l =>
  match l with
  | [] => none
  | n :: rest => if rest.length < n.toNat then none else some (rest.take n.toNat, rest.drop n.toNat)

/-- A value sent as its name: none when the name is not that of one of the values. -/
def readValue {α : Type} (all : List α) (text : α → String) : Reader (Option α) := do
  let name ← readText
  pure (all.find? fun a => decide (textBytes (text a) = name))

/-- A field that may be absent. -/
def readOpt {α : Type} (r : Reader α) : Reader (Option α) := do
  if ← readFlag then some <$> r else pure none

/-- A run of n values. -/
def readRun {α : Type} (r : Reader α) : Nat → Reader (List α)
  | 0 => pure []
  | n + 1 => do
    let a ← r
    let rest ← readRun r n
    pure (a :: rest)

/-- A list preceded by its count. -/
def readList {α : Type} (r : Reader α) : Reader (List α) := do
  let n ← readByte
  readRun r n

def readClockValue : Reader Clock := do
  let y1 ← readByte
  let y2 ← readByte
  let month ← readByte
  let day ← readByte
  let hour ← readByte
  let minute ← readByte
  let second ← readByte
  pure ⟨256 * y1 + y2, month, day, hour, minute, second⟩

def readLabel : Reader Label := do
  let a ← readByte
  let b ← readByte
  let c ← readByte
  pure ⟨Char.ofNat a, Char.ofNat b, Char.ofNat c⟩

def readFlagName : Reader (Option NoticeFlag) := readValue NoticeFlag.all NoticeFlag.text

/-- FLOOR or a booth; another name than FLOOR is a source out of range, as booth 0 is. -/
def readSource : Reader RelaySource := do
  if ← readFlag then
    let b ← readNum
    pure (.booth b)
  else
    let floor ← readValue [()] fun _ => "FLOOR"
    pure (if floor.isSome then .floor else .booth 0)

/-- A number or a table slot (R109, R133). -/
def readKeyOf : Reader RecordKey := do
  let slot ← readFlag
  let n ← readNum
  pure (if slot then .slot n else .number n)

def alarmText : AlarmName → String
  | .returnBy => "RETURN_BY" | .sessionClose => "SESSION_CLOSE"

def readAlarmName : Reader (Option AlarmName) := readValue [.returnBy, .sessionClose] alarmText

def groupText : CounterGroup → String
  | .loop => "LOOP" | .consoles => "CONSOLES" | .channels => "CHANNELS" | .channelMinutes => "CHANNEL_MINUTES"
  | .air => "AIR" | .hire => "HIRE" | .batches => "BATCHES" | .accounts => "ACCOUNTS" | .duty => "DUTY" | .clock => "CLOCK"
  | .mode => "MODE" | .service => "SERVICE"

def readGroup : Reader (Option CounterGroup) :=
  readValue [.loop, .consoles, .channels, .channelMinutes, .air, .hire, .batches, .accounts, .duty, .clock, .mode, .service]
    groupText

/-- What LOAD of a station entry carries: a role or NONE, with a mask for CONTROL and MONITOR (12_formats.md, Bodies). -/
def readEntry : Reader StationEntry := do
  let name ← readText
  if name = textBytes "CONTROL" then StationEntry.control <$> readList readFlagName
  else if name = textBytes "MONITOR" then StationEntry.monitor <$> readList readFlagName
  else if name = textBytes "DESK" then pure .desk
  else if name = textBytes "RACK" then pure .rack
  else if name = textBytes "NONE" then pure .none
  else pure .other

/-! ### The requests and their bodies -/

/-- What is done with a request once its body has been read. -/
abbrev Act : Type := Header → State → Host.Outcome State Fault Refusal

/-- LOAD, by the table named: none for a table that takes no LOAD or is not in the list (R194). -/
def loadTables : List (String × Reader Act) :=
  [("CONSOLE", do
      let slot ← readNum
      let configured ← readFlag
      let booth ← readOpt readNum
      let seat ← readOpt readNum
      pure fun h => execLoadConsole h slot configured booth seat),
   ("BOOTH", do
      let booth ← readNum
      let a ← readOpt readNum
      let b ← readOpt readNum
      let interlock ← readValue [.refuse, .takeover] interlockText
      let limit ← readNum
      let mode ← readValue [.edge, .hold] callModeText
      pure fun h => execLoadBooth h booth a b interlock limit mode),
   ("CHANNEL", do
      let channel ← readNum
      let label ← readLabel
      let restricted ← readFlag
      let policy ← readValue [.floor, .silence] fallbackText
      pure fun h => execLoadChannel h channel label restricted policy),
   ("TARIFF", do
      let cls ← readNum
      let len ← readNum
      let rate ← readNum
      let cap ← readNum
      let overdue ← readNum
      let lost ← readNum
      pure fun h => execLoadTariff h cls len rate cap overdue lost),
   ("ACCOUNT", do
      let account ← readNum
      let cls ← readNum
      let limit ← readNum
      let access ← readList readNum
      pure fun h => execAccountLoad h account cls limit access),
   ("ALARM", do
      let alarm ← readAlarmName
      let day ← readNum
      let dayOn ← readFlag
      let hour ← readNum
      let hourOn ← readFlag
      let minute ← readNum
      let minuteOn ← readFlag
      pure fun h => execLoadAlarm h alarm day dayOn hour hourOn minute minuteOn),
   ("STATION", do
      let station ← readNum
      let entry ← readEntry
      pure fun h => execLoadStation h station entry),
   ("PARAMETERS", do
      let absence ← readNum
      let offer ← readNum
      let silent ← readNum
      let threshold ← readNum
      let stamps ← readValue [.last, .first] stampModeText
      let high ← readNum
      pure fun h => execLoadParameters h absence offer silent threshold stamps high)]

/-- A body of one number. -/
def oneNum (act : Header → Nat → State → Host.Outcome State Fault Refusal) : Reader Act := do
  let n ← readNum
  pure fun h => act h n

/-- A body of a number or a slot. -/
def oneKey (act : Header → RecordKey → State → Host.Outcome State Fault Refusal) : Reader Act := do
  let key ← readKeyOf
  pure fun h => act h key

/-- READ, by the table or entry named (R194). -/
def readTables : List (String × Reader Act) :=
  [("CONSOLE", oneNum execReadConsole), ("BOOTH", oneNum execReadBooth), ("CHANNEL", oneNum execReadChannel),
   ("TARIFF", oneNum execReadTariff), ("ACCOUNT", oneKey execReadAccount), ("RECEIVER", oneKey execReadReceiver),
   ("BATCH", oneNum execReadBatch), ("STATION", oneNum execReadStation), ("PARAMETERS", pure execReadParameters),
   ("LOOP", pure execReadLoop), ("AIR", pure execReadAir), ("HIRE", pure execReadHire),
   ("ACCOUNTING", pure execReadAccounting), ("CLOCK", pure execReadClock), ("SUPPLY", pure execReadSupply)]

/-- The entry of a list under a name. -/
def byName {α : Type} (entries : List (String × α)) (name : List Byte) : Option α :=
  (entries.find? fun e => decide (textBytes e.1 = name)).map (·.2)

/-- LOAD or READ: the table name, then the fields of the table. -/
def oneTable (tables : List (String × Reader Act)) : Reader Act := do
  let name ← readText
  match byName tables name with
  | some r => r
  | none => fun _ => none

/-- A request: the roles that may send it and the reading of its body (R191). -/
structure Request where
  may : Role → Bool
  read : Reader Act

/-- Requests of the channel switch, booth control and the duty queue. -/
def speechRequests : List (String × Request) :=
  [("LOAD", ⟨controlOnly, oneTable loadTables⟩),
   ("READ", ⟨controlMonitor, oneTable readTables⟩),
   ("CLEAR STAMP", ⟨controlOnly, oneNum execClearStamp⟩),
   ("ENABLE CHANNEL", ⟨controlOnly, oneNum execEnableChannel⟩),
   ("DISABLE CHANNEL", ⟨controlOnly, do
      let channel ← readNum
      let force ← readFlag
      pure fun h => execDisableChannel h channel force⟩),
   ("FORCE SILENT", ⟨controlOnly, oneNum execForceSilent⟩),
   ("SET RELAY", ⟨controlOnly, do
      let booth ← readNum
      let source ← readSource
      pure fun h => execSetRelay h booth source⟩),
   ("FETCH CALLS", ⟨controlMonitor, pure execFetchCalls⟩),
   ("READ DUTY", ⟨controlMonitor, pure execReadDuty⟩),
   ("RELEASE DUTY", ⟨controlOnly, oneNum execReleaseDuty⟩),
   ("CUT DUTY", ⟨controlOnly, pure execCutDuty⟩),
   ("CLEAR DUTY TOTALS", ⟨controlOnly, pure execClearDutyTotals⟩)]

/-- Requests of the hire controller. -/
def hireRequests : List (String × Request) :=
  [("ENROL", ⟨controlOnly, oneNum execEnrol⟩),
   ("WITHDRAW", ⟨controlOnly, oneNum execWithdraw⟩),
   ("REINSTATE", ⟨controlOnly, oneNum execReinstate⟩),
   ("DELETE RECEIVER", ⟨controlOnly, oneNum execDeleteReceiver⟩),
   ("ISSUE", ⟨controlDesk, do
      let serial ← readNum
      let account ← readNum
      pure fun h => execIssue h serial account⟩),
   ("RETURN", ⟨controlDesk, oneNum execReturnReceiver⟩),
   ("DECLARE LOST", ⟨controlDesk, oneNum execDeclareLost⟩),
   ("FIND", ⟨controlDesk, oneNum execFind⟩),
   ("READ RECEIVER", ⟨controlMonitor, oneKey execReadReceiver⟩),
   ("BATCH ITEM", ⟨controlDesk, do
      let account ← readNum
      let serial ← readOpt readNum
      let more ← readFlag
      let abort ← readFlag
      pure fun h => execBatchItem h account serial more abort⟩)]

/-- The kind and loan number expected at the head (R145). -/
def readHeadOf : Reader (Option StatementKind × Nat) := do
  let kind ← readValue [.returned, .lost, .recovered] statementKindText
  let loan ← readNum
  pure (kind, loan)

/-- Requests of the accounting unit. -/
def accountRequests : List (String × Request) :=
  [("ACCOUNT LOAD", ⟨controlOnly, do
      let account ← readNum
      let cls ← readNum
      let limit ← readNum
      let access ← readList readNum
      pure fun h => execAccountLoad h account cls limit access⟩),
   ("SUSPEND", ⟨controlOnly, oneNum execSuspend⟩),
   ("RESUME", ⟨controlOnly, oneNum execResume⟩),
   ("CLOSE", ⟨controlOnly, oneNum execClose⟩),
   ("CLEAR BALANCE", ⟨controlOnly, do
      let account ← readNum
      let expected ← readNum
      pure fun h => execClearBalance h account expected⟩),
   ("READ ACCOUNT", ⟨controlMonitor, oneKey execReadAccount⟩),
   ("READ STATEMENTS", ⟨controlMonitor, pure execReadStatements⟩),
   ("RELEASE STATEMENTS", ⟨controlOnly, do
      let count ← readNum
      let head ← readOpt readHeadOf
      pure fun h => execReleaseStatements h count head⟩)]

/-- Requests of the time base, mode and supply control and the service controller. -/
def partRequests : List (String × Request) :=
  [("SET CLOCK", ⟨controlOnly, do
      let value ← readClockValue
      pure fun h => execSetClock h value⟩),
   ("CLEAR ALARM", ⟨controlOnly, do
      let alarm ← readAlarmName
      pure fun h => execClearAlarm h alarm⟩),
   ("SET MODE", ⟨controlOnly, do
      let mode ← readValue [.setup, .rehearsal, .session] modeText
      pure fun h => execSetMode h mode⟩),
   ("RESTART", ⟨controlOnly, pure execRestart⟩),
   ("SET NOTICE MASK", ⟨controlOnly, do
      let station ← readNum
      let mask ← readList readFlagName
      pure fun h => execSetNoticeMask h station mask⟩),
   ("READ NOTICES", ⟨controlMonitor, pure execReadNotices⟩),
   ("CLEAR NOTICES", ⟨controlMonitor, do
      let flags ← readList readFlagName
      pure fun h => execClearNotices h flags⟩),
   ("READ COUNTERS", ⟨controlMonitor, do
      let group ← readGroup
      pure fun h => execReadCounters h group⟩),
   ("CLEAR COUNTERS", ⟨controlOnly, do
      let group ← readGroup
      pure fun h => execClearCounters h group⟩)]

/-- The part's requests by name (R191). -/
def requests : List (String × Request) := speechRequests ++ hireRequests ++ accountRequests ++ partRequests

/-- A rack message: its kind, its serial, and what the kind carries besides (R93; 12_formats.md, Bodies). -/
def rackBody : Reader Act := do
  let name ← readText
  let serial ← readNum
  if name = textBytes "DOCKED" then
    let rackSlot ← readNum
    let battery ← readNum
    pure fun h => execDocked h serial rackSlot battery
  else if name = textBytes "UNDOCKED" then
    let rackSlot ← readNum
    pure fun h => execUndocked h serial rackSlot
  else if name = textBytes "CELL" then
    let battery ← readNum
    pure fun h => execCell h serial battery
  else fun _ => none

/-- What a body read whole says: none when bytes are missing, of another kind, or left over. -/
def readWhole {α : Type} (r : Reader α) (body : List Byte) : Option α :=
  match r body with
  | some (a, []) => some a
  | _ => none

/-! ### Taking a message (R189, R191) -/

/-- The layout of a service message holds: a length that agrees and a check value that agrees (R189). That a length above 2,048 which
agrees is sound is DEDUCED (log 47), unsafe. -/
def messageSound (l : List Byte) : Bool :=
  decide (numberAt l 5 2 + 9 = l.length) && checkAgrees l

/-- A REQUEST from a station of a role: name, role, body, then the request's own taking (R191). -/
def takeRequestBody (h : Header) (role : Role) (body : List Byte) (s : State) : Host.Outcome State Fault Refusal :=
  match readText body with
  | none => .next (refuseMalformed h (messageReceived s))
  | some (name, fields) =>
    match byName requests name with
    | none => .next (refuseMalformed h (messageReceived s))
    | some request =>
      if !request.may role then .next (refuseRole h (messageReceived s))
      else
        match readWhole request.read fields with
        | none => .next (refuseMalformed h (messageReceived s))
        | some act => act h s

/-- A RACK message: one whose body cannot be read is malformed at the hire controller (log 13). -/
def takeRackBody (h : Header) (body : List Byte) (s : State) : Host.Outcome State Fault Refusal :=
  match readWhole rackBody body with
  | some act => act h s
  | none => .next (serveRack h (takeRack false 0 fun _ _ t => t) s)

/-- A sound message for the part from a station of the table, by its kind: 1 REQUEST, 2 REPLY, 3 NOTICE, 4 RACK (R189, R191). A kind
that is none of these meets no test: DESIGN CHOICE (log 25), unsafe: it is dropped and counted as received alone. -/
def takeKind (kind : Nat) (h : Header) (role : Role) (body : List Byte) (s : State) : Host.Outcome State Fault Refusal :=
  match kind with
  | 1 => takeRequestBody h role body s
  | 2 => .next (countServ (fun c => { c with wrongKind := bump c.wrongKind }) (messageReceived s))
  | 3 => .next (countServ (fun c => { c with wrongKind := bump c.wrongKind }) (messageReceived s))
  | 4 => takeRackBody h body s
  | _ => .next (messageReceived s)

/-- The service controller takes a run of bytes at its port (R189). -/
def takeBytes (l : List Byte) (s : State) : Host.Outcome State Fault Refusal :=
  if !messageSound l then .next (countServ (fun c => { c with badFrames := bump c.badFrames }) (messageReceived s))
  else if numberAt l 0 1 ≠ 0 then
    .next (countServ (fun c => { c with notForPart := bump c.notForPart }) (messageReceived s))
  else
    match Table.look s.serv.stations (numberAt l 1 1) with
    | none => .next (sourceUnknown (messageReceived s))
    | some station =>
      takeKind (numberAt l 2 1) ⟨numberAt l 1 1, numberAt l 3 2⟩ station.role ((l.drop 7).take (numberAt l 5 2)) s

/-! ### The command -/

/-- MESSAGE_DROPPED (R189, R191): any run of bytes at the service port; the messages that are not dropped, ignored or refused here are
taken as the request or rack message they spell. -/
def execMessageDropped (bytes : List Byte) (s : State) : Host.Outcome State Fault Refusal :=
  match messageLost s with
  | some t => .next t
  | none => takeBytes bytes s

end Sys2Proof.Machine
end

