-- ==== Sys2Proof/Machine/Dispatch.lean ====
section
/-! DEFINITION. One arm per command: its meaning. -/

namespace Sys2Proof.Machine

def exec (i : Instr) (s : State) : Host.Outcome State Fault Refusal :=
  match i with
  | .blockTick order => Sys2Proof.Machine.execBlockTick order s
  | .displayEnd slot => Sys2Proof.Machine.execDisplayEnd slot s
  | .secondTick order => Sys2Proof.Machine.execSecondTick order s
  | .offerExpiry booth => Sys2Proof.Machine.execOfferExpiry booth s
  | .outOfRange serial => Sys2Proof.Machine.execOutOfRange serial s
  | .batchTimeout station => Sys2Proof.Machine.execBatchTimeout station s
  | .minuteTick order => Sys2Proof.Machine.execMinuteTick order s
  | .turnDue booth => Sys2Proof.Machine.execTurnDue booth s
  | .alarmMatch alarm => Sys2Proof.Machine.execAlarmMatch alarm s
  | .returnByEffect => Sys2Proof.Machine.execReturnByEffect s
  | .sessionCloseEffect => Sys2Proof.Machine.execSessionCloseEffect s
  | .loopReturn frame => Sys2Proof.Machine.execLoopReturn frame s
  | .consoleAbsent slot => Sys2Proof.Machine.execConsoleAbsent slot s
  | .loopBroken => Sys2Proof.Machine.execLoopBroken s
  | .floorBlockArrival block => Sys2Proof.Machine.execFloorBlockArrival block s
  | .receiverReport report => Sys2Proof.Machine.execReceiverReport report s
  | .docked hdr serial rackSlot battery => Sys2Proof.Machine.execDocked hdr serial rackSlot battery s
  | .undocked hdr serial rackSlot => Sys2Proof.Machine.execUndocked hdr serial rackSlot s
  | .cell hdr serial battery => Sys2Proof.Machine.execCell hdr serial battery s
  | .messageDropped bytes => Sys2Proof.Machine.execMessageDropped bytes s
  | .outboundSend => Sys2Proof.Machine.execOutboundSend s
  | .loadConsole hdr slot configured booth seat => Sys2Proof.Machine.execLoadConsole hdr slot configured booth seat s
  | .readConsole hdr slot => Sys2Proof.Machine.execReadConsole hdr slot s
  | .loadBooth hdr booth aChannel bChannel interlock turnLimit callMode => Sys2Proof.Machine.execLoadBooth hdr booth aChannel bChannel interlock turnLimit callMode s
  | .readBooth hdr booth => Sys2Proof.Machine.execReadBooth hdr booth s
  | .loadChannel hdr channel label restricted policy => Sys2Proof.Machine.execLoadChannel hdr channel label restricted policy s
  | .readChannel hdr channel => Sys2Proof.Machine.execReadChannel hdr channel s
  | .clearStamp hdr channel => Sys2Proof.Machine.execClearStamp hdr channel s
  | .enableChannel hdr channel => Sys2Proof.Machine.execEnableChannel hdr channel s
  | .disableChannel hdr channel force => Sys2Proof.Machine.execDisableChannel hdr channel force s
  | .forceSilent hdr booth => Sys2Proof.Machine.execForceSilent hdr booth s
  | .setRelay hdr booth source => Sys2Proof.Machine.execSetRelay hdr booth source s
  | .fetchCalls hdr => Sys2Proof.Machine.execFetchCalls hdr s
  | .readLoop hdr => Sys2Proof.Machine.execReadLoop hdr s
  | .readAir hdr => Sys2Proof.Machine.execReadAir hdr s
  | .enrol hdr serial => Sys2Proof.Machine.execEnrol hdr serial s
  | .withdraw hdr serial => Sys2Proof.Machine.execWithdraw hdr serial s
  | .reinstate hdr serial => Sys2Proof.Machine.execReinstate hdr serial s
  | .deleteReceiver hdr serial => Sys2Proof.Machine.execDeleteReceiver hdr serial s
  | .issue hdr serial account => Sys2Proof.Machine.execIssue hdr serial account s
  | .returnReceiver hdr serial => Sys2Proof.Machine.execReturnReceiver hdr serial s
  | .declareLost hdr serial => Sys2Proof.Machine.execDeclareLost hdr serial s
  | .find hdr serial => Sys2Proof.Machine.execFind hdr serial s
  | .readReceiver hdr key => Sys2Proof.Machine.execReadReceiver hdr key s
  | .readHire hdr => Sys2Proof.Machine.execReadHire hdr s
  | .batchItem hdr account serial more abort => Sys2Proof.Machine.execBatchItem hdr account serial more abort s
  | .readBatch hdr station => Sys2Proof.Machine.execReadBatch hdr station s
  | .loadTariff hdr cls blockLength blockRate loanCap overdueRate lostCharge => Sys2Proof.Machine.execLoadTariff hdr cls blockLength blockRate loanCap overdueRate lostCharge s
  | .readTariff hdr cls => Sys2Proof.Machine.execReadTariff hdr cls s
  | .accountLoad hdr account cls loanLimit access => Sys2Proof.Machine.execAccountLoad hdr account cls loanLimit access s
  | .suspend hdr account => Sys2Proof.Machine.execSuspend hdr account s
  | .resume hdr account => Sys2Proof.Machine.execResume hdr account s
  | .close hdr account => Sys2Proof.Machine.execClose hdr account s
  | .clearBalance hdr account expected => Sys2Proof.Machine.execClearBalance hdr account expected s
  | .readAccount hdr key => Sys2Proof.Machine.execReadAccount hdr key s
  | .readStatements hdr => Sys2Proof.Machine.execReadStatements hdr s
  | .releaseStatements hdr count head => Sys2Proof.Machine.execReleaseStatements hdr count head s
  | .readAccounting hdr => Sys2Proof.Machine.execReadAccounting hdr s
  | .readDuty hdr => Sys2Proof.Machine.execReadDuty hdr s
  | .releaseDuty hdr count => Sys2Proof.Machine.execReleaseDuty hdr count s
  | .cutDuty hdr => Sys2Proof.Machine.execCutDuty hdr s
  | .clearDutyTotals hdr => Sys2Proof.Machine.execClearDutyTotals hdr s
  | .setClock hdr value => Sys2Proof.Machine.execSetClock hdr value s
  | .loadAlarm hdr alarm day dayOn hour hourOn minute minuteOn => Sys2Proof.Machine.execLoadAlarm hdr alarm day dayOn hour hourOn minute minuteOn s
  | .clearAlarm hdr alarm => Sys2Proof.Machine.execClearAlarm hdr alarm s
  | .readClock hdr => Sys2Proof.Machine.execReadClock hdr s
  | .setMode hdr mode => Sys2Proof.Machine.execSetMode hdr mode s
  | .loadParameters hdr absenceLimit offerTimeout silenceLimit issueThreshold stampMode highWater => Sys2Proof.Machine.execLoadParameters hdr absenceLimit offerTimeout silenceLimit issueThreshold stampMode highWater s
  | .readParameters hdr => Sys2Proof.Machine.execReadParameters hdr s
  | .restart hdr => Sys2Proof.Machine.execRestart hdr s
  | .readSupply hdr => Sys2Proof.Machine.execReadSupply hdr s
  | .loadStation hdr station entry => Sys2Proof.Machine.execLoadStation hdr station entry s
  | .setNoticeMask hdr station mask => Sys2Proof.Machine.execSetNoticeMask hdr station mask s
  | .readStation hdr station => Sys2Proof.Machine.execReadStation hdr station s
  | .readNotices hdr => Sys2Proof.Machine.execReadNotices hdr s
  | .clearNotices hdr flags => Sys2Proof.Machine.execClearNotices hdr flags s
  | .readCounters hdr group => Sys2Proof.Machine.execReadCounters hdr group s
  | .clearCounters hdr group => Sys2Proof.Machine.execClearCounters hdr group s
  | .mainsLoss => Sys2Proof.Machine.execMainsLoss s
  | .backupSecond => Sys2Proof.Machine.execBackupSecond s
  | .mainsReturn event => Sys2Proof.Machine.execMainsReturn event s
  | .backupLowIndication low => Sys2Proof.Machine.execBackupLowIndication low s

end Sys2Proof.Machine
end

