-- ==== Sys2Proof/Machine/Spelling.lean ====
section
/-! DEFINITION. The message that spells a request or a rack message: its bytes as a station sends them (12_formats.md, Service message
and Bodies). What the part makes of such bytes is Messages.lean's. -/

namespace Sys2Proof.Machine

/-! ### Fields of a request body -/

def spellNum (n : Nat) : List Byte := natBytes 4 n

def spellFlag (b : Bool) : List Byte := natBytes 1 (bitOf b)

def spellName (t : String) : List Byte := natBytes 1 (textBytes t).length ++ textBytes t

/-- A value sent as its name; one that is none of the values has an empty name. -/
def spellValue {α : Type} (text : α → String) (v : Option α) : List Byte := spellName ((v.map text).getD "")

/-- A field that may be absent. -/
def spellOpt {α : Type} (spell : α → List Byte) : Option α → List Byte
  | none => spellFlag false
  | some v => spellFlag true ++ spell v

/-- A list preceded by its count. -/
def spellList {α : Type} (spell : α → List Byte) (l : List α) : List Byte := natBytes 1 l.length ++ l.flatMap spell

def spellSource : RelaySource → List Byte
  | .floor => spellFlag false ++ spellName "FLOOR"
  | .booth b => spellFlag true ++ spellNum b

def spellKey : RecordKey → List Byte
  | .number n => spellFlag false ++ spellNum n
  | .slot n => spellFlag true ++ spellNum n

def spellMask : List (Option NoticeFlag) → List Byte := spellList (spellValue NoticeFlag.text)

/-- A role, or NONE, with the mask of CONTROL and MONITOR; a value that is no role has an empty name. -/
def spellEntry : StationEntry → List Byte
  | .control mask => spellName "CONTROL" ++ spellMask mask
  | .monitor mask => spellName "MONITOR" ++ spellMask mask
  | .desk => spellName "DESK"
  | .rack => spellName "RACK"
  | .none => spellName "NONE"
  | .other => spellName ""

/-! ### Bodies -/

/-- The body of a LOAD, behind the request name (12_formats.md, Bodies). -/
def spellLoad : Instr → Option (Header × List Byte)
  | .loadConsole h slot configured booth seat =>
    some (h, spellName "CONSOLE" ++ spellNum slot ++ spellFlag configured ++ spellOpt spellNum booth ++ spellOpt spellNum seat)
  | .loadBooth h booth a b interlock limit mode =>
    some (h, spellName "BOOTH" ++ spellNum booth ++ spellOpt spellNum a ++ spellOpt spellNum b ++
      spellValue interlockText interlock ++ spellNum limit ++ spellValue callModeText mode)
  | .loadChannel h channel label restricted policy =>
    some (h, spellName "CHANNEL" ++ spellNum channel ++ labelBytes label ++ spellFlag restricted ++
      spellValue fallbackText policy)
  | .loadTariff h cls len rate cap overdue lost =>
    some (h, spellName "TARIFF" ++ spellNum cls ++ spellNum len ++ spellNum rate ++ spellNum cap ++ spellNum overdue ++
      spellNum lost)
  | .loadAlarm h alarm day dayOn hour hourOn minute minuteOn =>
    some (h, spellName "ALARM" ++ spellValue alarmText alarm ++ spellNum day ++ spellFlag dayOn ++ spellNum hour ++
      spellFlag hourOn ++ spellNum minute ++ spellFlag minuteOn)
  | .loadStation h station entry => some (h, spellName "STATION" ++ spellNum station ++ spellEntry entry)
  | .loadParameters h absence offer silent threshold stamps high =>
    some (h, spellName "PARAMETERS" ++ spellNum absence ++ spellNum offer ++ spellNum silent ++ spellNum threshold ++
      spellValue stampModeText stamps ++ spellNum high)
  | _ => none

/-- The body of a READ, behind the request name. -/
def spellRead : Instr → Option (Header × List Byte)
  | .readConsole h n => some (h, spellName "CONSOLE" ++ spellNum n)
  | .readBooth h n => some (h, spellName "BOOTH" ++ spellNum n)
  | .readChannel h n => some (h, spellName "CHANNEL" ++ spellNum n)
  | .readTariff h n => some (h, spellName "TARIFF" ++ spellNum n)
  | .readBatch h n => some (h, spellName "BATCH" ++ spellNum n)
  | .readStation h n => some (h, spellName "STATION" ++ spellNum n)
  | .readParameters h => some (h, spellName "PARAMETERS")
  | .readLoop h => some (h, spellName "LOOP")
  | .readAir h => some (h, spellName "AIR")
  | .readHire h => some (h, spellName "HIRE")
  | .readAccounting h => some (h, spellName "ACCOUNTING")
  | .readClock h => some (h, spellName "CLOCK")
  | .readSupply h => some (h, spellName "SUPPLY")
  | _ => none

/-- The request name and the fields of every other request of the speech path, the duty queue and the part. -/
def spellPart : Instr → Option (Header × String × List Byte)
  | .clearStamp h n => some (h, "CLEAR STAMP", spellNum n)
  | .enableChannel h n => some (h, "ENABLE CHANNEL", spellNum n)
  | .disableChannel h n force => some (h, "DISABLE CHANNEL", spellNum n ++ spellFlag force)
  | .forceSilent h n => some (h, "FORCE SILENT", spellNum n)
  | .setRelay h n source => some (h, "SET RELAY", spellNum n ++ spellSource source)
  | .fetchCalls h => some (h, "FETCH CALLS", [])
  | .readDuty h => some (h, "READ DUTY", [])
  | .releaseDuty h n => some (h, "RELEASE DUTY", spellNum n)
  | .cutDuty h => some (h, "CUT DUTY", [])
  | .clearDutyTotals h => some (h, "CLEAR DUTY TOTALS", [])
  | .setClock h value => some (h, "SET CLOCK", clockBytes value)
  | .clearAlarm h alarm => some (h, "CLEAR ALARM", spellValue alarmText alarm)
  | .setMode h mode => some (h, "SET MODE", spellValue modeText mode)
  | .restart h => some (h, "RESTART", [])
  | .setNoticeMask h n mask => some (h, "SET NOTICE MASK", spellNum n ++ spellMask mask)
  | .readNotices h => some (h, "READ NOTICES", [])
  | .clearNotices h flags => some (h, "CLEAR NOTICES", spellMask flags)
  | .readCounters h group => some (h, "READ COUNTERS", spellValue groupText group)
  | .clearCounters h group => some (h, "CLEAR COUNTERS", spellValue groupText group)
  | _ => none

/-- The request name and the fields of every request of the hire controller and the accounting unit. -/
def spellHire : Instr → Option (Header × String × List Byte)
  | .enrol h n => some (h, "ENROL", spellNum n)
  | .withdraw h n => some (h, "WITHDRAW", spellNum n)
  | .reinstate h n => some (h, "REINSTATE", spellNum n)
  | .deleteReceiver h n => some (h, "DELETE RECEIVER", spellNum n)
  | .issue h serial account => some (h, "ISSUE", spellNum serial ++ spellNum account)
  | .returnReceiver h n => some (h, "RETURN", spellNum n)
  | .declareLost h n => some (h, "DECLARE LOST", spellNum n)
  | .find h n => some (h, "FIND", spellNum n)
  | .readReceiver h key => some (h, "READ RECEIVER", spellKey key)
  | .batchItem h account serial more abort =>
    some (h, "BATCH ITEM", spellNum account ++ spellOpt spellNum serial ++ spellFlag more ++ spellFlag abort)
  | .accountLoad h account cls limit access =>
    some (h, "ACCOUNT LOAD", spellNum account ++ spellNum cls ++ spellNum limit ++ spellList spellNum access)
  | .suspend h n => some (h, "SUSPEND", spellNum n)
  | .resume h n => some (h, "RESUME", spellNum n)
  | .close h n => some (h, "CLOSE", spellNum n)
  | .clearBalance h account expected => some (h, "CLEAR BALANCE", spellNum account ++ spellNum expected)
  | .readAccount h key => some (h, "READ ACCOUNT", spellKey key)
  | .readStatements h => some (h, "READ STATEMENTS", [])
  | .releaseStatements h count head =>
    some (h, "RELEASE STATEMENTS",
      spellNum count ++ spellOpt (fun e => spellValue statementKindText e.1 ++ spellNum e.2) head)
  | _ => none

/-- A rack message (R93). -/
def spellRack : Instr → Option (Header × List Byte)
  | .docked h serial rackSlot battery =>
    some (h, spellName "DOCKED" ++ spellNum serial ++ spellNum rackSlot ++ spellNum battery)
  | .undocked h serial rackSlot => some (h, spellName "UNDOCKED" ++ spellNum serial ++ spellNum rackSlot)
  | .cell h serial battery => some (h, spellName "CELL" ++ spellNum serial ++ spellNum battery)
  | _ => none

/-! ### Messages -/

/-- A message to the part: layout and check value (12_formats.md, Service message). -/
def messageTo (kind : Nat) (h : Header) (body : List Byte) : List Byte :=
  withCheck (natBytes 1 0 ++ natBytes 1 h.station ++ natBytes 1 kind ++ natBytes 2 h.tag ++ natBytes 2 body.length ++ body)

/-- The message that spells a request or a rack message; none for a command that is not a message. -/
def spell (c : Instr) : Option (List Byte) :=
  match spellLoad c, spellRead c, (spellPart c).or (spellHire c), spellRack c with
  | some (h, fields), _, _, _ => some (messageTo 1 h (spellName "LOAD" ++ fields))
  | _, some (h, fields), _, _ => some (messageTo 1 h (spellName "READ" ++ fields))
  | _, _, some (h, name, fields), _ => some (messageTo 1 h (spellName name ++ fields))
  | _, _, _, some (h, body) => some (messageTo 4 h body)
  | _, _, _, _ => none

end Sys2Proof.Machine
end

