-- ==== Sys2Proof/Safety.lean ====
section
/-! DEFINITION. The words claims are made in: a request that is admitted, taken and replied to, and the properties that every command
keeps. -/

namespace Sys2Proof.Machine

/-! ### Requests -/

/-- No message is lost (R184, R198) and the request comes from a station of the table whose role may send it (R189, R191). -/
abbrev admitted (may : Role → Bool) (h : Header) (s : State) : Prop :=
  s.supply.mainsLost = false ∧ s.serv.toLose = 0 ∧ (Table.look s.serv.stations h.station).any (fun e => may e.role) = true

/-- A rack message from a RACK station (R191). -/
abbrev fromRack (h : Header) (s : State) : Prop :=
  s.supply.mainsLost = false ∧ s.serv.toLose = 0 ∧ (Table.look s.serv.stations h.station).map (·.role) = some .rack

/-- The service counters have counted a request handed to its owner (R189, R191). -/
def taken (s : State) : State := countServ (fun c => { c with requests := bump c.requests }) (messageReceived s)

/-- The service and hire counters have counted a rack message handed to the hire controller (R93, R189, R191). -/
def rackTaken (s : State) : State :=
  countHire (fun k => { k with rackMessages := bump k.rackMessages })
    (countServ (fun c => { c with rackPassed := bump c.rackPassed }) (messageReceived s))

/-- The owner's answer has become the reply (R192, R193). -/
def replied (h : Header) (a : Answer) (s : State) : State := queueReply h.station h.tag a.body s

/-! ### Properties that every command keeps -/

/-- No queue or list holds more than its capacity (00_scope.md, Fixed capacities). -/
def QueuesFit (s : State) : Prop :=
  s.loop.outstanding.length ≤ Config.outstanding ∧
    (∀ e ∈ s.switch.channels, e.2.queue.length ≤ Config.blockQueue) ∧
    s.switch.floorQueue.length ≤ Config.blockQueue ∧
    s.air.notes.length ≤ Config.notes ∧
    s.acct.statements.length ≤ Config.statements ∧
    s.acct.duty.length ≤ Config.dutyEntries ∧
    s.serv.outbound.length ≤ Config.outbound

/-- The relay graph has no cycle and no relay depth above 3 (R41). -/
def RelayFits (s : State) : Prop := depthsFit s.relay = true

/-- The hall clock holds a date and a time of day (R163). -/
def ClockFits (s : State) : Prop := clockFits s.now = true

/-- Every listener count is the number of receivers on loan, in range and on that channel (R17). -/
def ListenersCounted (s : State) : Prop :=
  Table.rising s.hire.receivers = true ∧
    ∀ c, (s.chan c).listeners = s.hire.receivers.countP fun e => decide (e.2.listening = some c)

/-- Booths and channels agree on ownership: a booth on the air owns its selected output channel, an owner is on the air with that
channel selected, an owned channel is enabled, a booth on the air is one of the 24, and in SETUP none is on the air (R5, R27,
R48). -/
def OwnershipAgrees (s : State) : Prop :=
  (∀ b, (s.boothRec b).onAir = true → ∃ c, (s.boothRec b).selected = some c ∧ (s.chan c).owner = some b) ∧
    (∀ b c, (s.chan c).owner = some b → (s.boothRec b).onAir = true ∧ (s.boothRec b).selected = some c) ∧
    (∀ c, (s.chan c).owner.isSome = true → (s.chan c).enabled = true) ∧
    (∀ b, (s.boothRec b).onAir = true → isBooth b = true) ∧
    (∀ n b, (s.console n).booth = some b → isBooth b = true) ∧
    (s.mode = .setup → ∀ b, (s.boothRec b).onAir = false)

/-- Channel 0 is fixed, and booths name only channels 1 to 48 (R1, R24). -/
def FloorChannelFixed (s : State) : Prop :=
  ((s.chan 0).enabled = true ∧ (s.chan 0).label = ⟨'F', 'L', 'R'⟩ ∧ (s.chan 0).restricted = false ∧
      (s.chan 0).owner = none ∧ (s.chan 0).queue = [] ∧ (s.chan 0).stamp = none ∧ (s.chan 0).fallbackMinutes = 0 ∧
      (s.chan 0).underruns = 0 ∧ (s.chan 0).dropped = 0) ∧
    ∀ b, (s.boothRec b).aChannel.all isChannel = true ∧ (s.boothRec b).bChannel.all isChannel = true

end Sys2Proof.Machine
end

