-- ==== Sys2Proof/WellFormed.lean ====
section
/-! DEFINITION. Which commands can cross the part's ports at all: every number fits the bytes 12_formats.md gives it, and an
event names a record that exists. Any run of bytes can come at the loop port and at the air port. Requests out of their RANGE are well formed: their owners refuse them. -/

namespace Sys2Proof

/-- A number of 4 bytes (12_formats.md, Bodies). -/
def fitsNumber (n : Nat) : Bool := n < 2 ^ 32

/-- A number of one byte. -/
def fitsByte (n : Nat) : Bool := n < 256

/-- A record number from 1 to a largest one. -/
def names (n last : Nat) : Bool := 1 ≤ n && n ≤ last

def Header.wellFormed (h : Header) : Bool := fitsByte h.station && decide (h.tag < 65536)

def RecordKey.wellFormed : RecordKey → Bool
  | .number n => fitsNumber n
  | .slot n => fitsNumber n

def RelaySource.wellFormed : RelaySource → Bool
  | .floor => true
  | .booth b => fitsNumber b

def Label.wellFormed (l : Label) : Bool := fitsByte l.first.toNat && fitsByte l.second.toNat && fitsByte l.third.toNat

/-- A clock value of 7 bytes (12_formats.md, Bodies). -/
def Clock.wellFormed (c : Clock) : Bool :=
  decide (c.year < 65536) && fitsByte c.month && fitsByte c.day && fitsByte c.hour && fitsByte c.minute && fitsByte c.second

/-- A list whose count is one byte. -/
def fitsCount {α : Type} (l : List α) : Bool := l.length < 256

def StationEntry.wellFormed : StationEntry → Bool
  | .control mask => fitsCount mask
  | .monitor mask => fitsCount mask
  | .desk => true
  | .rack => true
  | .none => true
  | .other => true

def fitsOption (o : Option Nat) : Bool := o.all fitsNumber

/-- No taking is named twice in the order of a tick. -/
def orderWellFormed (order : List Taking) : Bool := decide order.Nodup

/-- The well-formedness check, one arm per command. Runs at the service port with a body above 2,048 bytes are left out (log 47). -/
def Instr.wellFormed : Instr → Bool
  | .blockTick order => orderWellFormed order
  | .displayEnd slot => names slot Config.slots
  | .secondTick order => orderWellFormed order
  | .offerExpiry booth => names booth Config.booths
  | .outOfRange serial => decide (serial ≤ Config.serialMax)
  | .batchTimeout station => names station Config.stationMax
  | .minuteTick order => orderWellFormed order
  | .turnDue booth => names booth Config.booths
  | .alarmMatch _ => true
  | .returnByEffect => true
  | .sessionCloseEffect => true
  | .loopReturn _ => true
  | .consoleAbsent slot => names slot Config.slots
  | .loopBroken => true
  | .floorBlockArrival _ => true
  | .receiverReport _ => true
  | .docked h serial rackSlot battery => h.wellFormed && fitsNumber serial && fitsNumber rackSlot && fitsNumber battery
  | .undocked h serial rackSlot => h.wellFormed && fitsNumber serial && fitsNumber rackSlot
  | .cell h serial battery => h.wellFormed && fitsNumber serial && fitsNumber battery
  | .messageDropped bytes => decide (bytes.length ≤ Config.bodyMax + 9)
  | .outboundSend => true
  | .loadConsole h slot _ booth seat => h.wellFormed && fitsNumber slot && fitsOption booth && fitsOption seat
  | .readConsole h slot => h.wellFormed && fitsNumber slot
  | .loadBooth h booth a b _ limit _ => h.wellFormed && fitsNumber booth && fitsOption a && fitsOption b && fitsNumber limit
  | .readBooth h booth => h.wellFormed && fitsNumber booth
  | .loadChannel h channel label _ _ => h.wellFormed && fitsNumber channel && label.wellFormed
  | .readChannel h channel => h.wellFormed && fitsNumber channel
  | .clearStamp h channel => h.wellFormed && fitsNumber channel
  | .enableChannel h channel => h.wellFormed && fitsNumber channel
  | .disableChannel h channel _ => h.wellFormed && fitsNumber channel
  | .forceSilent h booth => h.wellFormed && fitsNumber booth
  | .setRelay h booth source => h.wellFormed && fitsNumber booth && source.wellFormed
  | .fetchCalls h => h.wellFormed
  | .readLoop h => h.wellFormed
  | .readAir h => h.wellFormed
  | .enrol h serial => h.wellFormed && fitsNumber serial
  | .withdraw h serial => h.wellFormed && fitsNumber serial
  | .reinstate h serial => h.wellFormed && fitsNumber serial
  | .deleteReceiver h serial => h.wellFormed && fitsNumber serial
  | .issue h serial account => h.wellFormed && fitsNumber serial && fitsNumber account
  | .returnReceiver h serial => h.wellFormed && fitsNumber serial
  | .declareLost h serial => h.wellFormed && fitsNumber serial
  | .find h serial => h.wellFormed && fitsNumber serial
  | .readReceiver h key => h.wellFormed && key.wellFormed
  | .readHire h => h.wellFormed
  | .batchItem h account serial _ _ => h.wellFormed && fitsNumber account && fitsOption serial
  | .readBatch h station => h.wellFormed && fitsNumber station
  | .loadTariff h cls len rate cap overdue lost =>
      h.wellFormed && fitsNumber cls && fitsNumber len && fitsNumber rate && fitsNumber cap && fitsNumber overdue && fitsNumber lost
  | .readTariff h cls => h.wellFormed && fitsNumber cls
  | .accountLoad h account cls limit access =>
      h.wellFormed && fitsNumber account && fitsNumber cls && fitsNumber limit && fitsCount access && access.all fitsNumber
  | .suspend h account => h.wellFormed && fitsNumber account
  | .resume h account => h.wellFormed && fitsNumber account
  | .close h account => h.wellFormed && fitsNumber account
  | .clearBalance h account expected => h.wellFormed && fitsNumber account && fitsNumber expected
  | .readAccount h key => h.wellFormed && key.wellFormed
  | .readStatements h => h.wellFormed
  | .releaseStatements h count head => h.wellFormed && fitsNumber count && head.all (fun e => fitsNumber e.2)
  | .readAccounting h => h.wellFormed
  | .readDuty h => h.wellFormed
  | .releaseDuty h count => h.wellFormed && fitsNumber count
  | .cutDuty h => h.wellFormed
  | .clearDutyTotals h => h.wellFormed
  | .setClock h value => h.wellFormed && value.wellFormed
  | .loadAlarm h _ day _ hour _ minute _ => h.wellFormed && fitsNumber day && fitsNumber hour && fitsNumber minute
  | .clearAlarm h _ => h.wellFormed
  | .readClock h => h.wellFormed
  | .setMode h _ => h.wellFormed
  | .loadParameters h absence offer silent threshold _ high =>
      h.wellFormed && fitsNumber absence && fitsNumber offer && fitsNumber silent && fitsNumber threshold && fitsNumber high
  | .readParameters h => h.wellFormed
  | .restart h => h.wellFormed
  | .readSupply h => h.wellFormed
  | .loadStation h station entry => h.wellFormed && fitsNumber station && entry.wellFormed
  | .setNoticeMask h station mask => h.wellFormed && fitsNumber station && fitsCount mask
  | .readStation h station => h.wellFormed && fitsNumber station
  | .readNotices h => h.wellFormed
  | .clearNotices h flags => h.wellFormed && fitsCount flags
  | .readCounters h _ => h.wellFormed
  | .clearCounters h _ => h.wellFormed
  | .mainsLoss => true
  | .backupSecond => true
  | .mainsReturn event => decide (event.cellTicks < Config.ticksPerSecond)
  | .backupLowIndication _ => true

end Sys2Proof
end

