-- ==== Sys2Proof/Certificates/Slice0/Obligations.lean ====
section
/-! DEFINITION. The statements for the provers. A conclusion of the form exec c s = .next t gives the whole next state, so it is also
the frame of the command: what t does not change stays as it is. -/

open Sys2Proof Sys2Proof.Machine

/-! ### The queue of commands -/

/-- A step takes the command at the front of the queue; that an empty queue idles is the model's choice (log 2). -/
def Obligations.StepTakesTheFront : Prop :=
  (∀ (c : Instr) (rest : List Instr) (s : State), step (s.withPending (c :: rest)) = exec c (s.withPending rest)) ∧
    ∀ s : State, s.pending = [] → step s = .next s

/-- Every command answers a next state, whatever the state, and leaves the queue as it is. -/
def Obligations.EveryCommandAnswersNext : Prop :=
  ∀ (c : Instr) (s : State), ∃ t, exec c s = .next t ∧ t.pending = s.pending

/-- What a cold start leaves (R2, R20, R49, R65, R85, R111, R122, R126, R128, R134, R148, R161, R166, R176, R180, R186, R190,
R198). -/
def Obligations.ResetIsAColdStart : Prop :=
  State.reset.mode = .setup ∧ State.reset.supply.mainsLost = false ∧ State.reset.supply.lossStamp = none ∧
    State.reset.supply.startRecord = ⟨.coldStart, ⟨2000, 1, 1, 0, 0, 0⟩⟩ ∧
    State.reset.params = ⟨16, 10, 30, 4, .last, 448⟩ ∧
    State.reset.now = ⟨2000, 1, 1, 0, 0, 0⟩ ∧ State.reset.time.valid = false ∧ State.reset.time.phase = 0 ∧
    State.reset.time.sessionMinute = 0 ∧ State.reset.time.clockSet = none ∧
    State.reset.serv.stations = [(1, ⟨.control, []⟩)] ∧ State.reset.serv.flags = [.retentionLost] ∧
    State.reset.loop.outstanding = [] ∧ State.reset.loop.nextSequence = 0 ∧ State.reset.loop.status = .running ∧
    State.reset.hire.receivers = [] ∧ State.reset.hire.pendingList = [] ∧ State.reset.hire.batches = [] ∧
    State.reset.acct.accounts = [] ∧ State.reset.acct.statements = [] ∧ State.reset.acct.duty = [] ∧
    State.reset.acct.nextLoan = 1 ∧ State.reset.air.notes = [] ∧ State.reset.air.lastUnknown = none ∧
    State.reset.switch.floorQueue = [] ∧
    (∀ n, State.reset.slotState n = {} ∧ State.reset.console n = {} ∧ State.reset.boothRec n = {}) ∧
    (∀ c, c ≠ 0 → State.reset.chan c = {}) ∧ ∀ cls, (State.reset.tariff cls).defined = false

/-! ### Ticks -/

/-- What each taking of a tick is: the block's own, and for the clock its second, with the minute tick where the seconds roll over
(R162 to R165). The time base's own part of a minute tick is first: the session minute counter, then RETURN_BY and SESSION_CLOSE
evaluated, whose effects are handed on with the minute tick (R164, R165, R170). A tick is taken by every block it is handed to: a
block tick by four, the 500th also by the three of a second tick, and that by those of a minute tick once the clock has rolled over.
That the takings stand in the one order that the command names, those it leaves out behind, is the model's choice (log 4), and so
are the second and the minute tick inside the block tick and sent alone (log 5). -/
def Obligations.TicksTakeInTheOrderNamed : Prop :=
  let all : List Taking :=
    [.departure, .resolution, .notes, .displayEnds, .clock, .offers, .ranges, .channelMinutes, .turns, .loans, .duties,
     .returnByEffect, .sessionCloseEffect]
  let line (order : List Taking) : List Taking := (order ++ all).eraseDups
  let take (s : State) (x : Taking) : State := (takeOne x s).1
  let matchReturnBy (s : State) : State :=
    countClock (fun k => { k with returnByMatches := bump k.returnByMatches })
      (setFlag .returnBy (modAlarm .returnBy (fun a => { a with matched := true, lastMatch := some s.now }) s))
  let matchSessionClose (s : State) : State :=
    countClock (fun k => { k with sessionCloseMatches := bump k.sessionCloseMatches })
      (setFlag .sessionClose (modAlarm .sessionClose (fun a => { a with matched := true, lastMatch := some s.now }) s))
  let minute (s : State) : State × List Taking :=
    let begun := { s with time := { s.time with sessionMinute := (s.time.sessionMinute + 1) % 4294967296 } }
    let first := if alarmMatches .returnBy begun = true then matchReturnBy begun else begun
    (if alarmMatches .sessionClose first = true then matchSessionClose first else first,
      [.channelMinutes, .turns, .loans, .duties] ++ (if alarmMatches .returnBy begun = true then [.returnByEffect] else []) ++
        (if alarmMatches .sessionClose first = true then [.sessionCloseEffect] else []))
  let second (handed order : List Taking) (s : State) : State :=
    let before := ((line order).takeWhile fun x => decide (x ≠ .clock)).filter fun x => decide (x ∈ handed)
    let clock := takeOne .clock (before.foldl take s)
    let after := (line order).filter fun x => decide ((x ∈ handed ∨ x ∈ clock.2) ∧ x ≠ .clock ∧ x ∉ before)
    after.foldl take clock.1
  let start (phase : Nat) (s : State) : State :=
    { s with time := { s.time with phase := phase }, air := { s.air with port := {} } }
  (∀ s : State,
    (takeOne .departure s = (takeDeparture s, []) ∧ takeOne .resolution s = (takeResolution s, []) ∧
      takeOne .notes s = (takeNotes s, []) ∧ takeOne .displayEnds s = (takeDisplayEnds s, [])) ∧
    (takeOne .clock s = (if s.now.second < 59 then (advanceClock s, []) else minute (advanceClock s)) ∧
      takeOne .offers s = (takeOffers s, []) ∧ takeOne .ranges s = (takeRanges s, [])) ∧
    (takeOne .channelMinutes s = (takeChannelMinutes s, []) ∧ takeOne .turns s = (takeTurns s, []) ∧
      takeOne .loans s = (takeLoans s, []) ∧ takeOne .duties s = (takeDuties s, [])) ∧
    takeOne .returnByEffect s = (takeReturnBy s, []) ∧ takeOne .sessionCloseEffect s = (takeSessionClose s, [])) ∧
  ∀ (order : List Taking) (s : State), s.supply.mainsLost = false →
    (s.time.phase + 1 < 500 →
      let taken := (line order).filter fun x => decide (x ∈ [Taking.departure, .resolution, .notes, .displayEnds])
      exec (.blockTick order) s = .next (taken.foldl take (start (s.time.phase + 1) s))) ∧
    (s.time.phase + 1 = 500 →
      exec (.blockTick order) s =
        .next (second [.departure, .resolution, .notes, .displayEnds, .clock, .offers, .ranges] order (start 0 s))) ∧
    exec (.secondTick order) s = .next (second [.clock, .offers, .ranges] order s) ∧
    (let taken := (line order).filter fun x => decide (x ∈ (minute s).2)
     exec (.minuteTick order) s = .next (taken.foldl take (minute s).1))

/-- The phase counts every block tick from 0 to 499, the clock advances at the 500th, and the session minute counter rises when the
seconds roll over (R162 to R165), whatever the order. -/
def Obligations.EveryFiveHundredthTickIsASecond : Prop :=
  ∀ (order : List Taking) (s : State), s.supply.mainsLost = false → s.time.phase < Config.ticksPerSecond →
    ∃ t, exec (.blockTick order) s = .next t ∧
      t.time.phase = (s.time.phase + 1) % Config.ticksPerSecond ∧
      t.now = (if s.time.phase + 1 = Config.ticksPerSecond then (nextSecond s.now).getD clockEpoch else s.now) ∧
      t.time.sessionMinute =
        (if s.time.phase + 1 = Config.ticksPerSecond ∧ 59 ≤ s.now.second then (s.time.sessionMinute + 1) % 4294967296
          else s.time.sessionMinute)

/-- Each departure sends one frame, with every slot's downstream part as booth control then has it; a full list first gives up its
oldest entry as lost (R50, R62). The downstream part of a slot: feed (R44), lamps, turn remaining and refusal lamp code (R45), and
that of a slot without a console or of a console without a booth (R46). The port that shows the frame is the model's own (log 20).
-/
def Obligations.DepartureSendsOneFrame : Prop :=
  (∀ s : State,
    let g := if 8 ≤ s.loop.outstanding.length then
        loseFrame { s with loop := { s.loop with outstanding := s.loop.outstanding.drop 1 } } else s
    let t := takeDeparture s
    t.loop.port = some ⟨s.loop.nextSequence, (upTo 72).map (downstream g)⟩ ∧
      t.loop.outstanding = s.loop.outstanding.drop (if 8 ≤ s.loop.outstanding.length then 1 else 0) ++ [s.loop.nextSequence] ∧
      t.loop.nextSequence = (s.loop.nextSequence + 1) % 16 ∧
      t.loop.counters.departed = bump s.loop.counters.departed ∧
      t.loop.sinceGood = min (s.loop.sinceGood + 1) 8 ∧
      t.loop.status = (if 8 ≤ s.loop.sinceGood + 1 then .broken else s.loop.status)) ∧
  ∀ (s : State) (n : Nat),
    let c := s.console n
    let part := downstream s n
    (c.configured = false → part = {}) ∧
    (c.configured = true → c.booth = none →
      part = { feed := s.booth.floorBlock, lamps := { setup := decide (s.mode = .setup) } }) ∧
    ∀ b, c.configured = true → c.booth = some b →
      let x := s.boothRec b
      part.turn = (if x.floor = .silent then none else x.turn) ∧
      part.lamp = c.lamp ∧
      (x.relay = .floor → part.feed = s.booth.floorBlock ∧ part.lamps.relayFallback = false) ∧
      (∀ k, x.relay = .booth k → (s.boothRec k).floor = .silent →
        part.feed = s.booth.floorBlock ∧ part.lamps.relayFallback = true) ∧
      (∀ k, x.relay = .booth k → (s.boothRec k).floor ≠ .silent →
        part.feed = (s.boothRec k).latest.getD silence ∧ part.lamps.relayFallback = false) ∧
      (part.lamps.micLive = true ↔ FloorState.console x.floor = some n) ∧
      (part.lamps.boothLive = true ↔ x.floor ≠ .silent) ∧
      (part.lamps.offerToYou = true ↔
        ∃ d target expiry, x.floor = .offered d target expiry ∧ d ≠ n ∧ (target = .any ∨ target = .slot n)) ∧
      (part.lamps.offerPending = true ↔ ∃ d target expiry, x.floor = .offered d target expiry) ∧
      (part.lamps.turnDue = true ↔ x.floor ≠ .silent ∧ x.turn = some 0) ∧
      (part.lamps.outputB = true ↔ x.output = .b) ∧
      part.lamps.callPending = x.callLatch ∧
      (part.lamps.setup = true ↔ s.mode = .setup)

/-- Outside SETUP every channel is resolved to its source, and the set carries channel 0's block first and then at most one block a
channel in ascending order (R15, R16); in SETUP none is resolved, and no air block joins the set. -/
def Obligations.ChannelsAreResolvedByTheTable : Prop :=
  (∀ s : State, s.mode ≠ .setup →
    let blocks := (takeResolution s).air.port.blocks
    let x := s.chan 0
    blocks.head? =
        some (if s.switch.floorQueue = [] then ⟨0, .underrun, x.restricted, x.label, silence⟩
          else ⟨0, .fallback, x.restricted, x.label, s.switch.floorQueue.headD silence⟩) ∧
      (blocks.map (·.channel)).Pairwise (· < ·) ∧ ∀ k ∈ blocks, k.channel ≤ 48) ∧
  ∀ (s : State) (c : Nat), isChannel c = true →
    let x := s.chan c
    let y := (takeResolution s).chan c
    let blocks := (takeResolution s).air.port.blocks
    (s.mode = .setup → y = x ∧ blocks = s.air.port.blocks) ∧
    (s.mode ≠ .setup →
      (x.enabled = false → y = x ∧ ∀ k ∈ blocks, k.channel ≠ c) ∧
      (∀ b q rest, x.enabled = true → x.owner = some b → x.queue = q :: rest →
        y = { x with queue := rest } ∧ ⟨c, .interpreted, x.restricted, x.label, q⟩ ∈ blocks) ∧
      (∀ b, x.enabled = true → x.owner = some b → x.queue = [] →
        y = { x with underruns := bump x.underruns } ∧ ⟨c, .underrun, x.restricted, x.label, silence⟩ ∈ blocks) ∧
      (x.enabled = true → x.owner = none → x.policy = .floor →
        y = x ∧ ⟨c, .fallback, x.restricted, x.label, s.switch.floorQueue.headD silence⟩ ∈ blocks) ∧
      (x.enabled = true → x.owner = none → x.policy = .silence →
        y = x ∧ ⟨c, .muted, x.restricted, x.label, silence⟩ ∈ blocks))

/-- Air notes: queued while there is room, dropped and counted at 64 (R81), and up to 4 sent at each block tick (R82). -/
def Obligations.AirNotesAreQueuedAndSent : Prop :=
  (∀ (n : AirNote) (s : State), s.air.notes.length < 64 →
    queueNote n s = { s with air := { s.air with notes := s.air.notes ++ [n] } }) ∧
  (∀ (n : AirNote) (s : State), 64 ≤ s.air.notes.length →
    queueNote n s =
      { s with air :=
        { s.air with counters := { s.air.counters with notesDropped := bump s.air.counters.notesDropped } } }) ∧
  ∀ s : State,
    takeNotes s =
      { s with air :=
        { s.air with
          notes := s.air.notes.drop 4, port := { s.air.port with notes := s.air.notes.take 4 }
          counters :=
            { s.air.counters with notesSent := min (s.air.counters.notesSent + min 4 s.air.notes.length) 4294967295 } } }

/-- Listener minutes and fallback minutes at a minute tick (R18), and that nothing but the channel records changes there. -/
def Obligations.ChannelMinutesCount : Prop :=
  ∀ (s : State) (c : Nat), c ≤ 48 →
    (s.mode = .setup → takeChannelMinutes s = s) ∧
    (∃ channels, takeChannelMinutes s = { s with switch := { s.switch with channels := channels } }) ∧
    (s.mode ≠ .setup →
      (takeChannelMinutes s).chan c =
        { s.chan c with
          listenerMinutes := min ((s.chan c).listenerMinutes + (s.chan c).listeners) 4294967295
          fallbackMinutes :=
            if 1 ≤ c ∧ (s.chan c).enabled = true ∧ (s.chan c).owner = none ∧ 0 < (s.chan c).listeners then
              min ((s.chan c).fallbackMinutes + 1) 4294967295
            else (s.chan c).fallbackMinutes })

/-- The minute counts of loans at a minute tick (R108), and that nothing but the receiver records changes there. -/
def Obligations.LoanMinutesAccrue : Prop :=
  ∀ (s : State) (slot : Nat) (r : Receiver), Table.look s.hire.receivers slot = some r →
    (∀ l, r.state = .issued ∨ r.state = .overdue → r.loan = some l →
      let counted : Loan :=
        { l with
          chargeable := if s.mode = .session then bump l.chargeable else l.chargeable
          overdue := if r.state = .overdue ∧ s.mode ≠ .setup then bump l.overdue else l.overdue
          listening := if r.range = .inRange ∧ s.mode ≠ .setup then bump l.listening else l.listening }
      Table.look (takeLoans s).hire.receivers slot = some { r with loan := some counted }) ∧
    (r.state ≠ .issued → r.state ≠ .overdue → Table.look (takeLoans s).hire.receivers slot = some r) ∧
    ∃ receivers, takeLoans s = { s with hire := { s.hire with receivers := receivers } }

/-- The turn timer and the live-minutes totals of booths at a minute tick (R40, R155), the live-minutes total of every console,
which gains one for each booth that it is live in (R155), and the minutes of duty entries (R154). -/
def Obligations.TurnsAndDutyMinutesCount : Prop :=
  (∀ (s : State) (b : Nat), isBooth b = true →
    ((s.boothRec b).onAir = true →
      (takeTurns s).boothRec b =
        { s.boothRec b with
          turn := (s.boothRec b).turn.map fun n => n - 1
          liveMinutes := bump (s.boothRec b).liveMinutes }) ∧
    ((s.boothRec b).onAir = false → (takeTurns s).boothRec b = s.boothRec b) ∧
    ((s.boothRec b).onAir = true → (s.boothRec b).turn = some 1 → (takeTurns s).flagged .turnDue = true)) ∧
  (∀ s : State,
    takeTurns s = { s with booth := (takeTurns s).booth, serv := (takeTurns s).serv } ∧
      (takeTurns s).booth.floorBlock = s.booth.floorBlock ∧
      ((∀ b, isBooth b = true → (s.boothRec b).onAir = true → (s.boothRec b).turn ≠ some 1) →
        (takeTurns s).serv = s.serv)) ∧
  (∀ (s : State) (slot : Nat),
    let times := (upTo 24).countP fun b => decide (FloorState.console (s.boothRec b).floor = some slot)
    (takeTurns s).console slot =
      { s.console slot with liveMinutes := Nat.repeat bump times (s.console slot).liveMinutes }) ∧
  ∀ s : State,
    takeDuties s =
      { s with acct := { s.acct with duty := s.acct.duty.map fun e =>
        if e.status = .opened then
          { e with live := bump e.live, session := if s.mode = .session then bump e.session else e.session }
        else e } }

/-- Booth control's ends at a tick: a lamp code past its display end (R28), an offer that expires (R31), a turn that falls due
(R40); the display end of every console at a block tick, one tick nearer, and at the tick after it the code out (R28); and the offer
expiry second of every booth at a second tick (R31). The display end as the ticks still to come is the model's form (log 11), and
that the three rows can be sent alone is its choice (log 6). -/
def Obligations.OffersTurnsAndDisplaysEnd : Prop :=
  ((∀ (n : Nat) (s : State), s.supply.mainsLost = false → (s.console n).displayEnd = some 0 →
     exec (.displayEnd n) s = .next (s.modConsole n fun c => { c with lamp := none, displayEnd := none })) ∧
   (∀ (b slot : Nat) (target : OfferTarget) (s : State), s.supply.mainsLost = false →
     (s.boothRec b).floor = .offered slot target 1 →
     exec (.offerExpiry b) s =
       .next ((s.modBooth b fun x => { x with floor := .live slot }).modConsole slot fun c =>
         { c with lamp := some .noOffer, displayEnd := some 500 })) ∧
   ∀ (b : Nat) (s : State), s.supply.mainsLost = false → (s.boothRec b).onAir = true → (s.boothRec b).turn = some 1 →
     exec (.turnDue b) s = .next (setFlag .turnDue (s.modBooth b fun x => { x with turn := some 0 }))) ∧
  (∀ (s : State) (n : Nat),
    let c := s.console n
    let d := (takeDisplayEnds s).console n
    (isSlot n = true →
      (c.displayEnd = none → d = c) ∧ (∀ k, c.displayEnd = some (k + 1) → d = { c with displayEnd := some k }) ∧
        (c.displayEnd = some 0 → d = { c with lamp := none, displayEnd := none })) ∧
    (isSlot n = false → d = c) ∧
    ∃ consoles, takeDisplayEnds s = { s with booth := { s.booth with consoles := consoles } }) ∧
  (∀ (s : State) (n : Nat),
    (∃ consoles booths,
      takeOffers s = { s with booth := { s.booth with consoles := consoles, booths := booths } }) ∧
    ((∀ b target expiry, isBooth b = true → (s.boothRec b).floor = .offered n target expiry → 2 ≤ expiry) →
      (takeOffers s).console n = s.console n)) ∧
  ∀ (s : State) (b : Nat), isBooth b = true →
    (∀ slot target n, (s.boothRec b).floor = .offered slot target (n + 2) →
      (takeOffers s).boothRec b = { s.boothRec b with floor := .offered slot target (n + 1) }) ∧
    (∀ slot target, (s.boothRec b).floor = .offered slot target 1 →
      (takeOffers s).boothRec b = { s.boothRec b with floor := .live slot } ∧
        (takeOffers s).console slot = { s.console slot with lamp := some .noOffer, displayEnd := some 500 }) ∧
    ((∀ slot target n, (s.boothRec b).floor ≠ .offered slot target n) → (takeOffers s).boothRec b = s.boothRec b)

/-- A receiver reaches the silence limit (R73), a batch its idle timeout (R121; what its release does is written out in BatchItems),
a console the absence limit (R56), which booth control answers by clearing its levels, forcing its booth SILENT or dropping an offer
to it (R33, R37); the loop breaks at the eighth departure without a good return (R62). At a second tick every receiver's last heard
second and every batch's last-item second rise by one (R73, R121). That LIVE_LOST is set before the release, and so its notice
queued before that of CHANNEL_FALLBACK, is the model's reading (log 31); that these rows can be sent alone is its choice (log 6). -/
def Obligations.RangesBatchesConsolesAndTheLoopTimeOut : Prop :=
  ((∀ (serial slot n : Nat) (r : Receiver) (s : State), s.supply.mainsLost = false →
     s.receiverBySerial serial = some (slot, r) → Table.look s.hire.receivers slot = some r → r.range = .inRange →
     r.lastHeard = some n → s.params.silenceLimit ≤ min (n + 1) 65535 →
     exec (.outOfRange serial) s =
       .next (countAir (fun k => { k with rangeLosses := bump k.rangeLosses })
         (writeReceiver slot { r with lastHeard := some (min (n + 1) 65535), range := .outOfRange } s))) ∧
   ∀ (station : Nat) (b : Batch) (s : State), s.supply.mainsLost = false → Table.look s.hire.batches station = some b →
     20 ≤ b.lastItem + 1 →
     exec (.batchTimeout station) s =
       .next (countBatch (fun k => { k with timedOut := bump k.timedOut })
         (dropBatch station (b.items.foldl freeReceiver s)))) ∧
  (∀ (n : Nat) (s : State), s.supply.mainsLost = false → (s.slotState n).presence = .present →
    s.params.absenceLimit ≤ min ((s.slotState n).missedRun + 1) 250 →
    exec (.consoleAbsent n) s =
      .next (consoleGone n (setFlag .consoleAbsent
        ((s.modSlot n fun x => { x with missed := bump x.missed, missedRun := min (x.missedRun + 1) 250 }).modSlot n
          fun x => { x with presence := .absent })))) ∧
  (∀ (n : Nat) (s : State),
    let quiet := s.modConsole n fun c => { c with cough := false, call := false }
    ((s.console n).booth = none → consoleGone n s = quiet) ∧
    ∀ b, (s.console n).booth = some b →
      let floor := (s.boothRec b).floor
      (floor = .silent → consoleGone n s = quiet) ∧
      (FloorState.console floor = some n → consoleGone n s = goSilent b .absent (setFlag .liveLost quiet)) ∧
      (∀ d, floor = .live d → d ≠ n → consoleGone n s = quiet) ∧
      (∀ d expiry, floor = .offered d (.slot n) expiry → d ≠ n →
        consoleGone n s = quiet.modBooth b fun x => { x with floor := .live d }) ∧
      ∀ d target expiry, floor = .offered d target expiry → d ≠ n → target ≠ .slot n → consoleGone n s = quiet) ∧
  (∀ s : State, s.supply.mainsLost = false → s.loop.status = .running → 7 ≤ s.loop.sinceGood →
    exec .loopBroken s = .next (setFlag .loopBroken { s with loop := { s.loop with sinceGood := 8, status := .broken } })) ∧
  ∀ s : State,
    let aged := (s.hire.receivers.map (·.1)).foldl rangeSecond s
    takeRanges s = (aged.hire.batches.map (·.1)).foldl batchSecond aged ∧
    (∀ slot r, Table.look s.hire.receivers slot = some r →
      (r.lastHeard = none → rangeSecond s slot = writeReceiver slot r s) ∧
      (∀ n, r.lastHeard = some n → r.range ≠ .inRange ∨ min (n + 1) 65535 < s.params.silenceLimit →
        rangeSecond s slot = writeReceiver slot { r with lastHeard := some (min (n + 1) 65535) } s) ∧
      (∀ n, r.lastHeard = some n → r.range = .inRange → s.params.silenceLimit ≤ min (n + 1) 65535 →
        rangeSecond s slot =
          countAir (fun k => { k with rangeLosses := bump k.rangeLosses })
            (writeReceiver slot { r with lastHeard := some (min (n + 1) 65535), range := .outOfRange } s))) ∧
    ∀ station b, Table.look s.hire.batches station = some b →
      (b.lastItem + 1 < 20 →
        batchSecond s station =
          { s with hire :=
            { s.hire with batches := Table.put station { b with lastItem := b.lastItem + 1 } s.hire.batches } }) ∧
      (20 ≤ b.lastItem + 1 →
        batchSecond s station =
          countBatch (fun k => { k with timedOut := bump k.timedOut }) (dropBatch station (b.items.foldl freeReceiver s)))

/-- When an alarm matches (R170) and which record its matching writes, what it does then, the effects of the two alarms written out
(R171, R172), and a match during a mains loss, at the second of the backup cell that rolls the seconds over (R174). That ALARM_MATCH
and the two effects can be sent alone is the model's choice (log 6), and so is the row BACKUP_SECOND as one whole second of the cell
(log 9). -/
def Obligations.AlarmsMatchAndTakeEffect : Prop :=
  (∀ (name : AlarmName) (s : State),
    let a := alarmOf s name
    (alarmOf s .returnBy = s.time.returnBy ∧ alarmOf s .sessionClose = s.time.sessionClose) ∧
    (alarmMatches name s = true ↔
      s.time.valid = true ∧ (a.dayOn = true ∨ a.hourOn = true ∨ a.minuteOn = true) ∧
        (a.dayOn = true → a.day = s.now.day) ∧ (a.hourOn = true → a.hour = s.now.hour) ∧
        (a.minuteOn = true → a.minute = s.now.minute))) ∧
  (∀ (f : Alarm → Alarm) (s : State),
    modAlarm .returnBy f s = { s with time := { s.time with returnBy := f s.time.returnBy } } ∧
      modAlarm .sessionClose f s = { s with time := { s.time with sessionClose := f s.time.sessionClose } }) ∧
  (∀ s : State, s.supply.mainsLost = true → ∃ t, exec .backupSecond s = .next { s with time := t } ∧
    let advanced := advanceClock s
    let rolls := decide (59 ≤ s.now.second)
    let hit (name : AlarmName) : Bool := rolls && alarmMatches name advanced
    let evaluated (name : AlarmName) (a : Alarm) : Alarm :=
      if hit name then { a with matched := true, lastMatch := some advanced.now, pendingEffect := true } else a
    t.clock = advanced.now ∧ t.valid = advanced.time.valid ∧ t.phase = 0 ∧ t.clockSet = s.time.clockSet ∧
      t.sessionMinute = s.time.sessionMinute ∧
      t.returnBy = evaluated .returnBy s.time.returnBy ∧ t.sessionClose = evaluated .sessionClose s.time.sessionClose ∧
      t.counters =
        { s.time.counters with
          backupMatches :=
            Nat.repeat bump ((if hit .returnBy then 1 else 0) + (if hit .sessionClose then 1 else 0))
              s.time.counters.backupMatches }) ∧
  (∀ s : State, s.supply.mainsLost = false → alarmMatches .returnBy s = true →
    exec (.alarmMatch .returnBy) s =
      .next (takeReturnBy (countClock (fun k => { k with returnByMatches := bump k.returnByMatches })
        (setFlag .returnBy
          (modAlarm .returnBy (fun a => { a with matched := true, lastMatch := some s.now }) s))))) ∧
  (∀ s : State, s.supply.mainsLost = false → alarmMatches .sessionClose s = true →
    exec (.alarmMatch .sessionClose) s =
      .next (takeSessionClose (countClock (fun k => { k with sessionCloseMatches := bump k.sessionCloseMatches })
        (setFlag .sessionClose
          (modAlarm .sessionClose (fun a => { a with matched := true, lastMatch := some s.now }) s))))) ∧
  ∀ s : State,
    takeReturnBy s =
        { s with hire :=
          { s.hire with
            receivers := s.hire.receivers.map fun e =>
              (e.1, if e.2.state = .issued then { e.2 with state := .overdue } else e.2)
            counters :=
              { s.hire.counters with
                overdueReceivers :=
                  min (s.hire.counters.overdueReceivers + s.hire.receivers.countP fun e => decide (e.2.state = .issued))
                    4294967295 } } } ∧
      takeSessionClose s =
        (if s.mode = .session then
          { s with supply :=
            { s.supply with
              mode := .rehearsal
              counters := { s.supply.counters with modeChanges := bump s.supply.counters.modeChanges } } }
          else s) ∧
      (s.supply.mainsLost = false →
        exec .returnByEffect s = .next (takeReturnBy s) ∧ exec .sessionCloseEffect s = .next (takeSessionClose s))

/-! ### The booth loop -/

/-- A frame that comes home with a good check value and a listed sequence number is taken in the order of R60: older frames lost and
its entry removed, slots read by their marks (R55 to R57), levels with the call latch of call mode HOLD (R28, R47), keys, speech
(R12), loop status. A lost frame gives every configured console one missed frame (R52), as a slot not marked SEEN does; that the
consoles are taken in ascending slot order there is the model's choice (log 32). -/
def Obligations.GoodReturnIsHandedOnInOrder : Prop :=
  (∀ (frame : List Byte) (s : State), s.supply.mainsLost = false → frame.length = 9867 → checkAgrees frame = true →
     numberAt frame 0 1 ∈ s.loop.outstanding →
     let f := returnOfBytes frame
     f.sequence = numberAt frame 0 1 ∧
     let older := (s.loop.outstanding.takeWhile fun q => q ≠ f.sequence).length
     let rid := loseFrames older { s with loop := { s.loop with outstanding := s.loop.outstanding.drop (older + 1) } }
     let entry := countLoop (fun c => { c with returned := bump c.returned }) rid
     let read := (upTo 72).foldl (fun t n => readSlot n (upstreamOf f n) t) entry
     let levels := (upTo 72).foldl (takeLevels f) read
     let keys := (upTo 72).foldl (takeKeys f) levels
     let speech := (upTo 24).foldl (fun t b => takeSpeech (upstreamOf f) b t) keys
     exec (.loopReturn frame) s = .next { speech with loop := { speech.loop with sinceGood := 0, status := .running } }) ∧
  (∀ (slots : Nat → Upstream) (b slot c : Nat) (s : State), FloorState.console (s.boothRec b).floor = some slot →
     (s.boothRec b).selected = some c →
     let block := if (slots slot).cough = true then silence else (slots slot).speech
     ((slots slot).seen = false → takeSpeech slots b s = s) ∧
     ((slots slot).seen = true →
       takeSpeech slots b s =
         (s.modChan c fun x =>
           if 4 ≤ x.queue.length then { x with queue := x.queue.drop 1 ++ [block], dropped := bump x.dropped }
           else { x with queue := x.queue ++ [block] }).modBooth b fun x => { x with latest := some block })) ∧
  (∀ s : State,
    loseFrame s =
      (upTo 72).foldl (fun t n => readSlot n {} t)
        { s with loop := { s.loop with counters := { s.loop.counters with lost := bump s.loop.counters.lost } } }) ∧
  (∀ (f : LoopReturn) (n : Nat) (s : State),
    let u := upstreamOf f n
    let levels := s.modConsole n fun c => { c with cough := u.cough, call := u.call }
    ((s.slotState n).presence = .unconfigured ∨ u.seen = false → takeLevels f s n = s) ∧
    ((s.slotState n).presence ≠ .unconfigured → u.seen = true →
      ((s.console n).booth = none → takeLevels f s n = levels) ∧
      ∀ b, (s.console n).booth = some b →
        (u.call = false ∨ (s.boothRec b).callMode = .edge ∨ (s.boothRec b).callLatch = true → takeLevels f s n = levels) ∧
        (u.call = true → (s.boothRec b).callMode = .hold → (s.boothRec b).callLatch = false →
          takeLevels f s n = setFlag .call (levels.modBooth b fun x => { x with callLatch := true })))) ∧
  ∀ (n : Nat) (u : Upstream) (s : State),
    ((s.slotState n).presence = .present → u.seen = false →
      s.params.absenceLimit ≤ min ((s.slotState n).missedRun + 1) 250 →
      readSlot n u s =
        consoleGone n (setFlag .consoleAbsent
          ((s.modSlot n fun x => { x with missed := bump x.missed, missedRun := min (x.missedRun + 1) 250 }).modSlot n
            fun x => { x with presence := .absent }))) ∧
    ((s.slotState n).presence ≠ .unconfigured → u.seen = true → u.copied = true →
      readSlot n u s = s.modSlot n fun x => { x with missedRun := 0, presence := .present }) ∧
    ((s.slotState n).presence ≠ .unconfigured → u.seen = true → u.copied = false →
      readSlot n u s =
        (s.modSlot n fun x => { x with missedRun := 0, presence := .present }).modSlot n
          fun x => { x with errors := bump x.errors }) ∧
    ((s.slotState n).presence = .absent → u.seen = false →
      readSlot n u s = s.modSlot n fun x => { x with missed := bump x.missed, missedRun := min (x.missedRun + 1) 250 }) ∧
    ((s.slotState n).presence = .present → u.seen = false →
      min ((s.slotState n).missedRun + 1) 250 < s.params.absenceLimit →
      readSlot n u s = s.modSlot n fun x => { x with missed := bump x.missed, missedRun := min (x.missedRun + 1) 250 }) ∧
    ((s.slotState n).presence = .unconfigured → u.seen = true →
      readSlot n u s =
        { s with loop := { s.loop with counters := { s.loop.counters with stray := bump s.loop.counters.stray } } }) ∧
    ((s.slotState n).presence = .unconfigured → u.seen = false → readSlot n u s = s)

/-- The check value: CRC-16 with polynomial 1021h from FFFFh, most significant bit first, over every byte before it (R199). A loop
frame, a receiver report or a service message whose check value does not agree is counted as bad and nothing else; so is a report
with a radiator, kind or channel out of its values (R68), and a frame whose sequence number is not listed is counted as unmatched
(R53). That a loop frame of another length is bad is the model's reading (log 24). -/
def Obligations.BadFramesAndReportsAreOnlyCounted : Prop :=
  (∀ l : List Byte,
    let bits := l.flatMap fun b => [7, 6, 5, 4, 3, 2, 1, 0].map fun k => b.getLsbD k
    crc16 l = bits.foldl (fun (reg : BitVec 16) bit => (reg <<< 1) ^^^ (if reg.msb = bit then 0x0000#16 else 0x1021#16)) 0xFFFF#16) ∧
  (∀ (body : List Byte) (high low : Byte),
    checkAgrees (body ++ [high, low]) = true ↔ high.toNat * 256 + low.toNat = (crc16 body).toNat) ∧
  (∀ (l : List Byte) (s : State), s.supply.mainsLost = false →
    l.length ≠ 9867 ∨ checkAgrees l = false →
    exec (.loopReturn l) s =
      .next { s with loop := { s.loop with counters := { s.loop.counters with bad := bump s.loop.counters.bad } } }) ∧
  (∀ (l : List Byte) (s : State), s.supply.mainsLost = false → l.length = 9867 → checkAgrees l = true →
    numberAt l 0 1 ∉ s.loop.outstanding →
    exec (.loopReturn l) s =
      .next { s with loop :=
        { s.loop with counters := { s.loop.counters with unmatched := bump s.loop.counters.unmatched } } }) ∧
  (∀ (l : List Byte) (s : State), s.supply.mainsLost = false →
    let radiator := numberAt l 0 1
    let kind := numberAt l 4 1 / 16 % 4
    l.length ≠ 9 ∨ checkAgrees l = false ∨ radiator < 1 ∨ 8 < radiator ∨ (kind ≠ 1 ∧ kind ≠ 2) ∨ 48 < numberAt l 5 1 →
    exec (.receiverReport l) s =
      .next { s with air := { s.air with counters :=
        { s.air.counters with reports := bump s.air.counters.reports, bad := bump s.air.counters.bad } } }) ∧
  ∀ (l : List Byte) (s : State), s.supply.mainsLost = false → s.serv.toLose = 0 → checkAgrees l = false →
    exec (.messageDropped l) s =
      .next { s with serv := { s.serv with counters :=
        { s.serv.counters with
          received := bump s.serv.counters.received, badFrames := bump s.serv.counters.badFrames } } }

/-- Where the upstream part of a slot stands in a frame (12_formats.md, Loop frame), the key events a slot carries, the codes and
arguments that make one and which they make (R200, R61), and that the carried events are handed to booth control in order. -/
def Obligations.KeyEventsAreReadByCountCodeAndArgument : Prop :=
  (∀ (frame : List Byte) (n : Nat), isSlot n = true →
    let u := upstreamOf (returnOfBytes frame) n
    let start := 1 + 137 * (n - 1)
    let marks := numberAt frame (start + 68) 1
    (u.seen = true ↔ marks % 2 = 1) ∧ (u.copied = true ↔ marks / 2 % 2 = 1) ∧ (u.cough = true ↔ marks / 4 % 2 = 1) ∧
      (u.call = true ↔ marks / 8 % 2 = 1) ∧ u.keyCount = marks / 16 % 4 ∧
      u.key1 = (numberAt frame (start + 69) 1, numberAt frame (start + 70) 1) ∧
      u.key2 = (numberAt frame (start + 71) 1, numberAt frame (start + 72) 1) ∧
      u.speech = BitVec.ofNat 512 (numberAt frame (start + 73) 64)) ∧
  (∀ code argument : Nat,
    (readKey (code, argument)).isSome = true ↔
      ((code = 1 ∨ code = 2 ∨ code = 4 ∨ code = 5 ∨ code = 6 ∨ code = 8) ∧ argument = 0) ∨ (code = 3 ∧ argument ≤ 3) ∨
        (code = 7 ∧ argument ≤ 24)) ∧
  (readKey (1, 0) = some .micOn ∧ readKey (2, 0) = some .take ∧ readKey (3, 0) = some (.handover .any) ∧
    (∀ seat, 1 ≤ seat → seat ≤ 3 → readKey (3, seat) = some (.handover (.seat seat))) ∧ readKey (4, 0) = some .micOff ∧
    readKey (5, 0) = some .outputA ∧ readKey (6, 0) = some .outputB ∧ readKey (7, 0) = some (.relay .floor) ∧
    (∀ b, 1 ≤ b → b ≤ 24 → readKey (7, b) = some (.relay (.booth b))) ∧ readKey (8, 0) = some .call) ∧
  (∀ u : Upstream, (u.keyCount = 0 → carriedKeys u = []) ∧ (u.keyCount = 1 → carriedKeys u = [u.key1]) ∧
    (u.keyCount = 2 → carriedKeys u = [u.key1, u.key2])) ∧
  (∀ (f : LoopReturn) (n : Nat) (s : State),
    let u := upstreamOf f n
    ((s.slotState n).presence = .unconfigured ∨ u.seen = false → takeKeys f s n = s) ∧
    ((s.slotState n).presence ≠ .unconfigured → u.seen = true → u.keyCount ≤ 2 →
      takeKeys f s n = (carriedKeys u).foldl (fun t bytes => handKey n t bytes) s) ∧
    ((s.slotState n).presence ≠ .unconfigured → u.seen = true → u.keyCount = 3 →
      takeKeys f s n = s.modSlot n fun x => { x with errors := bump x.errors })) ∧
  ∀ (n : Nat) (bytes : Nat × Nat) (s : State),
    (∀ key, readKey bytes = some key → handKey n s bytes = takeKey n key s) ∧
    (readKey bytes = none → handKey n s bytes = s.modSlot n fun x => { x with errors := bump x.errors })

/-! ### Booths -/

/-- MIC_ON by the floor state (R29, R39); what showing a refusal lamp code and putting it out are at the console (R28), the display
end as the ticks still to come being the model's form (log 11). -/
def Obligations.MicOnByTheFloorState : Prop :=
  (∀ (slot : Nat) (code : LampCode) (s : State),
    showLamp slot code s = s.modConsole slot (fun c => { c with lamp := some code, displayEnd := some 500 }) ∧
      clearLamp slot s = s.modConsole slot fun c => { c with lamp := none, displayEnd := none }) ∧
  ∀ (slot b : Nat) (s : State), (s.console slot).booth = some b →
    let x := s.boothRec b
    let u := clearLamp slot s
    let lit := u.modBooth b fun x => { x with floor := .live slot, turn := if x.turnLimit = 0 then none else some x.turnLimit }
    (s.mode = .setup → takeKey slot .micOn s = showLamp slot .notLiveMode u) ∧
    (s.mode ≠ .setup →
      (x.floor = .silent → x.selected = none → takeKey slot .micOn s = showLamp slot .noChannel u) ∧
      (∀ c, x.floor = .silent → x.selected = some c → (s.chan c).enabled = false →
        takeKey slot .micOn s = showLamp slot .channelOff u) ∧
      (∀ c, x.floor = .silent → x.selected = some c → (s.chan c).enabled = true → (s.chan c).owner.isSome = true →
        takeKey slot .micOn s = showLamp slot .engaged u) ∧
      (∀ c, x.floor = .silent → x.selected = some c → (s.chan c).enabled = true → (s.chan c).owner = none →
        takeKey slot .micOn s = dutyOpen slot b c (takeOwnership c b lit)) ∧
      (x.floor = .live slot → takeKey slot .micOn s = u) ∧
      (∀ d, x.floor = .live d → d ≠ slot → x.interlock = .refuse → takeKey slot .micOn s = showLamp slot .interlock u) ∧
      (∀ d c, x.floor = .live d → d ≠ slot → x.interlock = .takeover → x.selected = some c →
        takeKey slot .micOn s = dutyOpen slot b c (dutyClose d .takeover lit)) ∧
      (∀ d t n, x.floor = .offered d t n → d ≠ slot → takeKey slot .micOn s = takeKey slot .take s) ∧
      (∀ t n, x.floor = .offered slot t n → takeKey slot .micOn s = u))

/-- TAKE by the floor state (R30, R39); HANDOVER and MIC_OFF (R32, R34) from the live console and from any other. -/
def Obligations.TakeHandoverAndMicOff : Prop :=
  (∀ (slot b : Nat) (s : State), (s.console slot).booth = some b →
     let x := s.boothRec b
     let u := clearLamp slot s
     (∀ d n c target, x.floor = .offered d target n → d ≠ slot → target = .any ∨ target = .slot slot → x.selected = some c →
       takeKey slot .take s =
         dutyOpen slot b c (dutyClose d .handover
           (u.modBooth b fun x => { x with floor := .live slot, turn := if x.turnLimit = 0 then none else some x.turnLimit }))) ∧
     (∀ d n k, x.floor = .offered d (.slot k) n → d ≠ slot → k ≠ slot → takeKey slot .take s = showLamp slot .notForYou u) ∧
     (∀ n target, x.floor = .offered slot target n → takeKey slot .take s = u) ∧
     (x.floor = .silent → takeKey slot .take s = showLamp slot .noOffer u) ∧
     (∀ d, x.floor = .live d → takeKey slot .take s = showLamp slot .noOffer u)) ∧
  ∀ (slot b : Nat) (s : State), (s.console slot).booth = some b →
    let x := s.boothRec b
    let u := clearLamp slot s
    (FloorState.console x.floor ≠ some slot →
      (∀ target, takeKey slot (.handover target) s = showLamp slot .notLive u) ∧ takeKey slot .micOff s = u) ∧
    (FloorState.console x.floor = some slot →
      takeKey slot (.handover .any) s =
          u.modBooth b (fun x => { x with floor := .offered slot .any s.params.offerTimeout }) ∧
        takeKey slot .micOff s = goSilent b .micOff u ∧
        (∀ k n, isSlot k = true → (s.console k).configured = true → (s.console k).booth = some b →
          (s.console k).seat = some n → (s.slotState k).presence = .present → k ≠ slot →
          (∀ j, isSlot j = true → (s.console j).configured = true → (s.console j).booth = some b →
            (s.console j).seat = some n → j = k) →
          takeKey slot (.handover (.seat n)) s =
            u.modBooth b (fun x => { x with floor := .offered slot (.slot k) s.params.offerTimeout })) ∧
        ∀ n, (∀ j, isSlot j = true → (s.console j).configured = true → (s.console j).booth = some b →
            (s.console j).seat = some n → (s.slotState j).presence ≠ .present ∨ j = slot) →
          takeKey slot (.handover (.seat n)) s = showLamp slot .badTarget u)

/-- OUTPUT_A and OUTPUT_B, the five steps in order, the claim before the release (R35); RELAY and CALL from a console (R42, R47); a
key from a console without a booth is discarded (R28). -/
def Obligations.OutputRelayAndCallKeys : Prop :=
  (∀ (slot b : Nat) (key : KeyEvent) (o : Output) (s : State), (s.console slot).booth = some b →
     (key = .outputA ∧ o = .a) ∨ (key = .outputB ∧ o = .b) →
     let x := s.boothRec b
     let u := clearLamp slot s
     let target := if o = .a then x.aChannel else x.bChannel
     (target = none → takeKey slot key s = showLamp slot .noChannel u) ∧
     (target.isSome = true → x.output = o → takeKey slot key s = u) ∧
     (target.isSome = true → x.output ≠ o → x.floor = .silent →
       takeKey slot key s = u.modBooth b fun x => { x with output := o }) ∧
     (∀ d, target.isSome = true → x.output ≠ o → FloorState.console x.floor = some d → d ≠ slot →
       takeKey slot key s = showLamp slot .notLive u) ∧
     (∀ c, target = some c → x.output ≠ o → FloorState.console x.floor = some slot → (s.chan c).enabled = false →
       takeKey slot key s = showLamp slot .channelOff u) ∧
     (∀ c, target = some c → x.output ≠ o → FloorState.console x.floor = some slot → (s.chan c).enabled = true →
       (s.chan c).owner.isSome = true → takeKey slot key s = showLamp slot .engaged u) ∧
     (∀ c old, target = some c → x.output ≠ o → FloorState.console x.floor = some slot → (s.chan c).enabled = true →
       (s.chan c).owner = none → x.selected = some old →
       takeKey slot key s =
         dutyOpen slot b c (dutyClose slot .output
           ((release old b (takeOwnership c b u)).modBooth b fun x =>
             { x with output := o, floor := .live slot, latest := none })))) ∧
  (∀ (slot b : Nat) (s : State), (s.console slot).booth = some b →
    let u := clearLamp slot s
    (∀ source, relayRefusal s b source = none →
      takeKey slot (.relay source) s = u.modBooth b fun x => { x with relay := source }) ∧
    (∀ source code, relayRefusal s b source = some code → takeKey slot (.relay source) s = showLamp slot code u) ∧
    ((s.boothRec b).callLatch = true → takeKey slot .call s = u) ∧
    ((s.boothRec b).callLatch = false →
      takeKey slot .call s = setFlag .call (u.modBooth b fun x => { x with callLatch := true }))) ∧
  ∀ (slot : Nat) (key : KeyEvent) (s : State), (s.console slot).booth = none → takeKey slot key s = s

/-- A forced silence (R36): the whole state that it leaves, the close and the release before the booth's own record, and read from
it what changes in its booth, its channel and its duty entry, and what does not. -/
def Obligations.ForcedSilence : Prop :=
  ∀ (b : Nat) (reason : EndReason) (s : State),
    ((s.boothRec b).floor = .silent → goSilent b reason s = s) ∧
    (∀ slot c, FloorState.console (s.boothRec b).floor = some slot → (s.boothRec b).selected = some c →
      (s.chan c).owner = some b →
      goSilent b reason s =
          (dutyClose slot reason (release c b s)).modBooth b
            (fun x => { x with floor := .silent, turn := none, latest := none }) ∧
      (goSilent b reason s).boothRec b = { s.boothRec b with floor := .silent, turn := none, latest := none } ∧
        (∀ d, d ≠ b → (goSilent b reason s).boothRec d = s.boothRec d) ∧
        (∀ n, (goSilent b reason s).console n = s.console n) ∧
        ((goSilent b reason s).chan c).owner = none ∧ ((goSilent b reason s).chan c).queue = [] ∧
        (∀ d, d ≠ c → (goSilent b reason s).chan d = s.chan d) ∧
        (goSilent b reason s).acct.duty =
          s.acct.duty.map fun e =>
            if e.status = .opened ∧ e.slot = slot then
              { e with stop := some s.now, reason := some reason, status := .complete }
            else e)

/-- What the accounting unit does of an open and of a close: an entry appended, or with 256 entries none, the booth marked and
DUTY_FULL set (R151, R152); the OPEN entry of the console completed, or none when it has none (R153). -/
def Obligations.DutyEntriesAreOpenedAndClosed : Prop :=
  (∀ (slot b channel : Nat) (s : State),
    (s.acct.duty.length < 256 →
      dutyOpen slot b channel s =
        { s with acct :=
          { s.acct with
            duty := s.acct.duty ++
              [{ slot := slot, booth := b, channel := channel, start := s.now, startMinute := s.time.sessionMinute
                 stop := none, live := 0, session := 0, reason := none, continued := false, status := .opened }]
            dutyCounters := { s.acct.dutyCounters with opened := bump s.acct.dutyCounters.opened } } }) ∧
    (256 ≤ s.acct.duty.length →
      let marked := s.modBooth b fun x => { x with unlogged := true }
      dutyOpen slot b channel s =
        setFlag .dutyFull
          { marked with acct :=
            { s.acct with
              dutyCounters := { s.acct.dutyCounters with overflows := bump s.acct.dutyCounters.overflows } } })) ∧
  ∀ (slot : Nat) (reason : EndReason) (s : State),
    ((∀ e ∈ s.acct.duty, e.slot = slot → e.status = .complete) → s.acct.dutyCounters.completed ≤ 4294967295 →
      dutyClose slot reason s = s) ∧
    ∀ before e rest, s.acct.duty = before ++ e :: rest → e.slot = slot → e.status = .opened →
      (∀ d ∈ before ++ rest, d.slot = slot → d.status = .complete) →
      dutyClose slot reason s =
        { s with acct :=
          { s.acct with
            duty := before ++ { e with stop := some s.now, reason := some reason, status := .complete } :: rest
            dutyCounters := { s.acct.dutyCounters with completed := bump s.acct.dutyCounters.completed } } }

/-! ### Channels -/

/-- How a claim is ruled at the channel record (R5). -/
def Obligations.ClaimsAreRuledAtTheChannel : Prop :=
  (∀ x : Channel, x.enabled = false → claimRefusal x = some .channelOff) ∧
  (∀ x : Channel, x.enabled = true → x.owner = none → claimRefusal x = none) ∧
  (∀ (x : Channel) (b : Nat), x.enabled = true → x.owner = some b → claimRefusal x = some .engaged) ∧
  ∀ (c b : Nat) (s : State),
    (takeOwnership c b s).chan c = { s.chan c with owner := some b } ∧
      ∀ d, d ≠ c → (takeOwnership c b s).chan d = s.chan d

/-- A release and the fallback stamp (R7, R8, R21). -/
def Obligations.ReleaseStampsOutsideSetup : Prop :=
  ∀ (c b : Nat) (s : State),
    ((s.chan c).owner ≠ some b → release c b s = s) ∧
    ((s.chan c).owner = some b →
      let x := s.chan c
      let stamped := if s.params.stampMode = .first ∧ x.stamp.isSome = true then x.stamp else some s.now
      (∀ d, d ≠ c → (release c b s).chan d = s.chan d) ∧
      (s.mode = .setup ∨ x.enabled = false →
        release c b s = s.modChan c fun x => { x with owner := none, queue := [] }) ∧
      (s.mode ≠ .setup → x.enabled = true →
        (release c b s).chan c = { x with owner := none, queue := [], stamp := stamped } ∧
          (0 < x.listeners → (release c b s).flagged .channelFallback = true) ∧
          (x.listeners = 0 → (release c b s).serv = s.serv)))

/-- A floor block that arrives is appended, the oldest of a full queue being dropped and counted (R13); one is taken at each block
tick in every mode (R14). -/
def Obligations.FloorBlocksAreQueuedAndTaken : Prop :=
  ((∀ (x : SpeechBlock) (s : State), s.supply.mainsLost = false → s.switch.floorQueue.length < 4 →
     exec (.floorBlockArrival x) s =
       .next { s with switch := { s.switch with floorQueue := s.switch.floorQueue ++ [x] } }) ∧
   ∀ (x : SpeechBlock) (s : State), s.supply.mainsLost = false → 4 ≤ s.switch.floorQueue.length →
     exec (.floorBlockArrival x) s =
       .next { s with switch :=
         { s.switch with
           floorQueue := s.switch.floorQueue.drop 1 ++ [x]
           floorDropped := bump s.switch.floorDropped } }) ∧
  ∀ s : State,
    ((takeResolution s).booth.floorBlock = s.switch.floorQueue.headD silence) ∧
      (takeResolution s).switch.floorQueue = s.switch.floorQueue.drop 1 ∧
      (takeResolution s).switch.floorUnderruns =
        (if s.switch.floorQueue = [] then bump s.switch.floorUnderruns else s.switch.floorUnderruns) ∧
      (takeResolution s).switch.floorDropped = s.switch.floorDropped

/-- ENABLE CHANNEL (R9), DISABLE CHANNEL by owner and FORCE (R10), and CLEAR STAMP (R8); a channel outside 1 to 48 is refused with
RANGE by all three. -/
def Obligations.ChannelsAreEnabledAndDisabled : Prop :=
  (∀ (h : Header) (c : Nat) (s : State), admitted controlOnly h s →
      (isChannel c = false →
        exec (.enableChannel h c) s = .next (replied h (.refused .range []) (taken s)) ∧
          (∀ force, exec (.disableChannel h c force) s = .next (replied h (.refused .range []) (taken s))) ∧
          exec (.clearStamp h c) s = .next (replied h (.refused .range []) (taken s))) ∧
      (isChannel c = true → (s.chan c).enabled = true →
        exec (.enableChannel h c) s = .next (replied h (.accepted []) (taken s))) ∧
      (isChannel c = true → (s.chan c).enabled = false →
        exec (.enableChannel h c) s =
          .next (replied h (.accepted [])
            ((taken s).modChan c fun x => { x with enabled := true, owner := none, queue := [] })))) ∧
  ∀ (h : Header) (c : Nat) (s : State), admitted controlOnly h s → isChannel c = true →
    (∀ force, (s.chan c).enabled = false →
      exec (.disableChannel h c force) s = .next (replied h (.accepted [.present false]) (taken s))) ∧
    (∀ force, (s.chan c).enabled = true → (s.chan c).owner = none →
      exec (.disableChannel h c force) s =
        .next (replied h (.accepted [.present false])
          ((taken s).modChan c fun x => { x with enabled := false, queue := [] }))) ∧
    (∀ b, (s.chan c).enabled = true → (s.chan c).owner = some b →
      exec (.disableChannel h c false) s = .next (replied h (.refused .engaged []) (taken s)) ∧
        exec (.disableChannel h c true) s =
          .next (replied h (.accepted [.present true, .num b])
            ((goSilent b .channelOff (taken s)).modChan c fun x => { x with enabled := false, queue := [] }))) ∧
    exec (.clearStamp h c) s =
      .next (replied h (.accepted []) ((taken s).modChan c fun x => { x with stamp := none }))

/-! ### Receivers on the air -/

/-- A report of 9 bytes whose check value agrees and whose radiator, kind and channel are within their values (R68) is unknown, a
duplicate or accepted (R67, R69 to R72); the judging of its channel is apart (R76). Its fields are read as 12_formats.md lays them
out. -/
def Obligations.ReportsAreUnknownDuplicateOrAccepted : Prop :=
  ∀ (report : List Byte) (s : State), s.supply.mainsLost = false → report.length = 9 → checkAgrees report = true →
    let p := reportOfBytes report
    p.radiator = numberAt report 0 1 ∧ p.serial = numberAt report 1 3 ∧ p.counter = numberAt report 4 1 % 16 ∧
    p.kind = numberAt report 4 1 / 16 % 4 ∧ p.channel = numberAt report 5 1 ∧ p.battery = numberAt report 6 1 % 16 ∧
    p.link = numberAt report 6 1 / 16 ∧
    (1 ≤ p.radiator → p.radiator ≤ 8 → p.kind = 1 ∨ p.kind = 2 → p.channel ≤ 48 →
      let heard := countAir (fun k =>
        { k with
          reports := bump k.reports
          perRadiator := Table.set 0 p.radiator (bump (Table.get 0 k.perRadiator p.radiator)) k.perRadiator }) s
      (s.receiverBySerial p.serial = none →
        exec (.receiverReport report) s =
          .next (setFlag .unknownReceiver
            ((countAir (fun k => { k with unknown := bump k.unknown }) heard).modAir fun a =>
              { a with lastUnknown := some ⟨p.serial, p.radiator, s.now⟩ }))) ∧
      (∀ slot r n, s.receiverBySerial p.serial = some (slot, r) → r.lastCounter = some p.counter → r.lastHeard = some n →
        n < 2 →
        exec (.receiverReport report) s =
          .next (writeReceiver slot
            (if r.lastLink.getD 0 < p.link then { r with lastRadiator := some p.radiator, lastLink := some p.link } else r)
            (countAir (fun k => { k with duplicates := bump k.duplicates }) heard))) ∧
      (∀ slot r, s.receiverBySerial p.serial = some (slot, r) →
        (r.lastCounter ≠ some p.counter ∨ ∀ n, r.lastHeard = some n → 2 ≤ n) →
        let after := { r with
          lastHeard := some 0, lastHeardClock := some s.now, lastCounter := some p.counter
          lastRadiator := some p.radiator, lastLink := some p.link, battery := some p.battery, range := .inRange }
        let t := writeReceiver slot after
          (countAir (fun k =>
            { k with accepted := bump k.accepted, selects := if p.kind = 2 then bump k.selects else k.selects }) heard)
        (r.onLoan = false → r.state ≠ .lost → exec (.receiverReport report) s = .next t) ∧
        (r.state = .lost → exec (.receiverReport report) s = .next (setFlag .lostHeard t)) ∧
        (∀ l, r.onLoan = true → r.loan = some l →
          exec (.receiverReport report) s = .next (judge slot after l.account p.channel (decide (p.kind = 2)) t))))

/-- How the channel of an accepted report is judged for a receiver on loan (R76, R80), and the revocation pass (R77): of the
candidates on loan, those whose current channel is no longer permitted are put on channel 0 and counted, each with a REVOKE note, in
slot order, and a move of its listener to channel 0, and the others stay. -/
def Obligations.LanguageChoiceAndRevocation : Prop :=
  (∀ (slot account c : Nat) (r : Receiver) (select : Bool) (s : State),
     (r.channel = some c → ¬(select = true ∧ (s.chan c).restricted = true) → judge slot r account c select s = s) ∧
     (r.channel = some c → select = true → (s.chan c).restricted = true →
       judge slot r account c select s =
         queueNote ⟨r.serial, .grant, c⟩ (countAir (fun k => { k with grants := bump k.grants }) s)) ∧
     (r.channel ≠ some c → (s.chan c).restricted = false →
       judge slot r account c select s = writeReceiver slot { r with channel := some c } s) ∧
     (∀ n a, r.channel ≠ some c → (s.chan c).restricted = true → s.accountByNumber account = some (n, a) →
       a.state = .opened → c ∈ a.access →
       judge slot r account c select s =
         queueNote ⟨r.serial, .grant, c⟩
           (countAir (fun k => { k with grants := bump k.grants }) (writeReceiver slot { r with channel := some c } s))) ∧
     ((r.channel ≠ some c ∧ (s.chan c).restricted = true ∧
         ∀ n a, s.accountByNumber account = some (n, a) → a.state = .suspended ∨ c ∉ a.access) →
       judge slot r account c select s =
         queueNote ⟨r.serial, .deny, c⟩ (countAir (fun k => { k with denials := bump k.denials }) s))) ∧
  ∀ (candidate : Receiver → Bool) (s : State), Table.rising s.hire.receivers = true →
    let barred (account c : Nat) : Prop :=
      (s.chan c).restricted = true ∧
        ∀ n a, s.accountByNumber account = some (n, a) → a.state = .suspended ∨ c ∉ a.access
    let after := revocationPass candidate s
    let revoked : List (Receiver × Nat) :=
      s.hire.receivers.filterMap fun e => if candidate e.2 = true then (losesChannel s e.2).map fun c => (e.2, c) else none
    (∀ r c, losesChannel s r = some c ↔
      r.onLoan = true ∧ r.channel = some c ∧ ∃ l, r.loan = some l ∧ barred l.account c) ∧
    (∀ slot r l c, Table.look s.hire.receivers slot = some r → candidate r = true → r.onLoan = true → r.loan = some l →
      r.channel = some c → barred l.account c →
      Table.look after.1.hire.receivers slot = some { r with channel := some 0 }) ∧
    (∀ slot r, Table.look s.hire.receivers slot = some r →
      (candidate r = false ∨ r.onLoan = false ∨ (∀ l c, r.loan = some l → r.channel = some c → ¬barred l.account c)) →
      Table.look after.1.hire.receivers slot = some r) ∧
    after.2 = revoked.length ∧
    (s.air.notes.length ≤ 64 →
      after.1.air.notes = (s.air.notes ++ revoked.map fun x => (⟨x.1.serial, .revoke, x.2⟩ : AirNote)).take 64) ∧
    (∀ d, d ≠ 0 →
      after.1.chan d =
        { s.chan d with
          listeners :=
            (s.chan d).listeners - revoked.countP fun x => decide (x.1.range = .inRange) && decide (x.2 = d) }) ∧
    ((s.chan 0).restricted = false →
      after.1.chan 0 =
        { s.chan 0 with listeners := (s.chan 0).listeners + revoked.countP fun x => decide (x.1.range = .inRange) }) ∧
    (s.air.counters.revocations ≤ 4294967295 →
      after.1.air.counters.revocations = min (s.air.counters.revocations + after.2) 4294967295) ∧
    after.1.acct = s.acct ∧ after.1.serv = s.serv ∧ after.1.booth = s.booth ∧ after.1.loop = s.loop

/-! ### The service port -/

/-- The service controller's tests on a request: source, role, body; a request it lets through is counted, ruled by its owner and
answered with one reply (R189, R191, R192), whose body is ACCEPTED and the result, or REFUSED, the name of the refusal code and its
figures (R194; 12_formats.md). A request or rack message that had arrived when a RESTART was taken is lost and only lowers the count
of those (R198); that the messages in the queue are those is the model's choice (log 42). A reply joins the outbound queue while it
holds fewer than 32 messages and is dropped and counted otherwise; the link takes the head (R193). -/
def Obligations.RequestsAreAdmittedAndAnswered : Prop :=
  (∀ (h : Header) (may : Role → Bool) (fits : Bool) (owner : State → State × Answer) (s : State),
     s.supply.mainsLost = false → s.serv.toLose = 0 →
     (Table.look s.serv.stations h.station = none →
       serve h may fits owner s = countServ (fun c => { c with unknownSource := bump c.unknownSource }) (messageReceived s)) ∧
     (∀ e, Table.look s.serv.stations h.station = some e →
       (may e.role = false →
         serve h may fits owner s =
           replied h (.refused .role [])
             (countServ (fun c => { c with roleRefusals := bump c.roleRefusals }) (messageReceived s))) ∧
       (may e.role = true → fits = false →
         serve h may fits owner s =
           replied h (.refused .malformed [])
             (countServ (fun c => { c with malformed := bump c.malformed }) (messageReceived s))) ∧
       (may e.role = true → fits = true →
         serve h may fits owner s = replied h (owner (taken s)).2 (owner (taken s)).1))) ∧
  (∀ (h : Header) (may : Role → Bool) (fits : Bool) (owner : State → State × Answer) (act : State → State) (n : Nat)
     (s : State), s.supply.mainsLost = false → s.serv.toLose = n + 1 →
     serve h may fits owner s = { s with serv := { s.serv with toLose := n } } ∧
       serveRack h act s = { s with serv := { s.serv with toLose := n } }) ∧
  (∀ s : State,
    let counted (k : ServiceCounters) : ServiceCounters := { k with received := bump k.received }
    messageReceived s = { s with serv := { s.serv with counters := counted s.serv.counters } } ∧
      taken s =
        { s with serv :=
          { s.serv with counters := { counted s.serv.counters with requests := bump s.serv.counters.requests } } }) ∧
  (∀ (result : List Field) (code : RefusalCode) (figures : List Field),
    (Answer.accepted result).body = .name "ACCEPTED" :: result ∧
      (Answer.refused code figures).body = .name "REFUSED" :: .name (refusalText code) :: figures) ∧
  ([RefusalCode.malformed, .role, .mode, .locked, .range, .notFound, .duplicate, .tableFull, .onLoan, .held, .pending, .lost,
      .withdrawn, .notOnLoan, .battery, .accountState, .limit, .queueFull, .changed, .balance, .batchBusy, .batchFull,
      .batchFailed, .checkFailed, .engaged, .relayCycle, .relayDepth].map refusalText =
    ["MALFORMED", "ROLE", "MODE", "LOCKED", "RANGE", "NOT_FOUND", "DUPLICATE", "TABLE_FULL", "ON_LOAN", "HELD", "PENDING",
     "LOST", "WITHDRAWN", "NOT_ON_LOAN", "BATTERY", "ACCOUNT_STATE", "LIMIT", "QUEUE_FULL", "CHANGED", "BALANCE",
     "BATCH_BUSY", "BATCH_FULL", "BATCH_FAILED", "CHECK_FAILED", "ENGAGED", "RELAY_CYCLE", "RELAY_DEPTH"]) ∧
  (∀ (h : Header) (a : Answer) (s : State), s.serv.outbound.length < 32 →
    replied h a s =
      { s with serv := { s.serv with outbound := s.serv.outbound ++ [⟨h.station, .reply, h.tag, a.body⟩] } }) ∧
  (∀ (h : Header) (a : Answer) (s : State), 32 ≤ s.serv.outbound.length →
    replied h a s =
      { s with serv := { s.serv with counters :=
        { s.serv.counters with repliesDropped := bump s.serv.counters.repliesDropped } } }) ∧
  (∀ (m : Message) (rest : List Message) (s : State), s.supply.mainsLost = false → s.serv.outbound = m :: rest →
    exec .outboundSend s = .next { s with serv := { s.serv with outbound := rest, port := some m } }) ∧
  ∀ s : State, s.supply.mainsLost = false → s.serv.outbound = [] → exec .outboundSend s = .next s

/-- The requests and rack messages of each role (R191): from a station of another role each is refused with ROLE, counted and
answered, with no other effect. That a rack message from another role is answered is the model's reading (log 12). -/
def Obligations.RequestsOutsideTheRoleAreRefused : Prop :=
  ∀ (h : Header) (e : Station) (s : State), s.supply.mainsLost = false → s.serv.toLose = 0 →
    Table.look s.serv.stations h.station = some e →
    let turned (c : Instr) : Prop :=
      exec c s =
        .next (replied h (.refused .role [])
          (countServ (fun k => { k with roleRefusals := bump k.roleRefusals }) (messageReceived s)))
    (e.role ≠ .control →
      (∀ a b c d, turned (.loadConsole h a b c d)) ∧ (∀ a b c d f g, turned (.loadBooth h a b c d f g)) ∧
      (∀ a b c d, turned (.loadChannel h a b c d)) ∧ (∀ a, turned (.clearStamp h a)) ∧ (∀ a, turned (.enableChannel h a)) ∧
      (∀ a b, turned (.disableChannel h a b)) ∧ (∀ a, turned (.forceSilent h a)) ∧ (∀ a b, turned (.setRelay h a b)) ∧
      (∀ a, turned (.enrol h a)) ∧ (∀ a, turned (.withdraw h a)) ∧ (∀ a, turned (.reinstate h a)) ∧
      (∀ a, turned (.deleteReceiver h a)) ∧ (∀ a b c d f g, turned (.loadTariff h a b c d f g)) ∧
      (∀ a b c d, turned (.accountLoad h a b c d)) ∧ (∀ a, turned (.suspend h a)) ∧ (∀ a, turned (.resume h a)) ∧
      (∀ a, turned (.close h a)) ∧ (∀ a b, turned (.clearBalance h a b)) ∧ (∀ a b, turned (.releaseStatements h a b)) ∧
      (∀ a, turned (.releaseDuty h a)) ∧ turned (.cutDuty h) ∧ turned (.clearDutyTotals h) ∧ (∀ a, turned (.setClock h a)) ∧
      (∀ a b c d f g i, turned (.loadAlarm h a b c d f g i)) ∧ (∀ a, turned (.clearAlarm h a)) ∧
      (∀ a, turned (.setMode h a)) ∧ (∀ a b c d f g, turned (.loadParameters h a b c d f g)) ∧ turned (.restart h) ∧
      (∀ a b, turned (.loadStation h a b)) ∧ (∀ a b, turned (.setNoticeMask h a b)) ∧ (∀ a, turned (.clearCounters h a))) ∧
    (e.role ≠ .control → e.role ≠ .monitor →
      (∀ a, turned (.readConsole h a)) ∧ (∀ a, turned (.readBooth h a)) ∧ (∀ a, turned (.readChannel h a)) ∧
      turned (.fetchCalls h) ∧ turned (.readLoop h) ∧ turned (.readAir h) ∧ (∀ a, turned (.readReceiver h a)) ∧
      turned (.readHire h) ∧ (∀ a, turned (.readBatch h a)) ∧ (∀ a, turned (.readTariff h a)) ∧
      (∀ a, turned (.readAccount h a)) ∧ turned (.readStatements h) ∧ turned (.readAccounting h) ∧ turned (.readDuty h) ∧
      turned (.readClock h) ∧ turned (.readParameters h) ∧ turned (.readSupply h) ∧ (∀ a, turned (.readStation h a)) ∧
      turned (.readNotices h) ∧ (∀ a, turned (.clearNotices h a)) ∧ (∀ a, turned (.readCounters h a))) ∧
    (e.role ≠ .control → e.role ≠ .desk →
      (∀ a b, turned (.issue h a b)) ∧ (∀ a, turned (.returnReceiver h a)) ∧ (∀ a, turned (.declareLost h a)) ∧
      (∀ a, turned (.find h a)) ∧ (∀ a b c d, turned (.batchItem h a b c d))) ∧
    (e.role ≠ .rack →
      (∀ a b c, turned (.docked h a b c)) ∧ (∀ a b, turned (.undocked h a b)) ∧ (∀ a b, turned (.cell h a b)))

/-- Messages that are dropped or ignored before any owner (R189): each is counted as received and under the test that stops it. One
that had arrived when a RESTART was taken is lost before any test (R198); that the messages in the queue are those is the model's
choice (log 42). That a body length above 2,048 which agrees passes the first test is its reading (log 47). -/
def Obligations.MessagesAreDroppedByTheTests : Prop :=
  (∀ (l : List Byte) (n : Nat) (s : State), s.supply.mainsLost = false → s.serv.toLose = n + 1 →
    exec (.messageDropped l) s = .next { s with serv := { s.serv with toLose := n } }) ∧
  ∀ (l : List Byte) (s : State), s.supply.mainsLost = false → s.serv.toLose = 0 →
    let drops (f : ServiceCounters → ServiceCounters) : Prop :=
      exec (.messageDropped l) s =
        .next { s with serv := { s.serv with counters := f { s.serv.counters with received := bump s.serv.counters.received } } }
    let sound := numberAt l 5 2 + 9 = l.length ∧ checkAgrees l = true
    (¬sound → drops fun c => { c with badFrames := bump c.badFrames }) ∧
    (sound → numberAt l 0 1 ≠ 0 → drops fun c => { c with notForPart := bump c.notForPart }) ∧
    (sound → numberAt l 0 1 = 0 → Table.look s.serv.stations (numberAt l 1 1) = none →
      drops fun c => { c with unknownSource := bump c.unknownSource }) ∧
    (sound → numberAt l 0 1 = 0 → (Table.look s.serv.stations (numberAt l 1 1)).isSome = true →
      numberAt l 2 1 = 2 ∨ numberAt l 2 1 = 3 → drops fun c => { c with wrongKind := bump c.wrongKind })

/-- The bytes that spell a request or a rack message are taken as that command: no operand is lost in its body (R189, R191, R194,
R199; 12_formats.md, Bodies), and every request and rack message has such bytes. The layouts that the formats leave open are the
model's reading: logs 15, 21 and 28. -/
def Obligations.MessagesSpellTheirCommands : Prop :=
  (∀ c : Instr, (spell c).isSome = true ↔ isMessage c = true ∧ ∀ l, c ≠ .messageDropped l) ∧
  ∀ (c : Instr) (bytes : List Byte) (s : State), c.wellFormed = true → spell c = some bytes →
    exec (.messageDropped bytes) s = exec c s

/-! ### Reading -/

/-- The READ requests and FIND: the entry as it stands, every field written out, and nothing changed but the service controller's
counters and outbound queue (R4, R23, R25, R63, R83, R109, R110, R123, R127, R133, R144, R147, R156, R160, R173, R180, R188, R190,
R194, R196, R197); before them, how a field that may be absent, a list and a value in capitals are sent (12_formats.md, Bodies). The
model's own readings and choices in these layouts: the display end as ticks still to come (log 11), the policy of channel 0 (log
14), fields of two kinds, yes and no, and HEAD_OPEN (log 15), the figures of READ CONSOLE (log 16), the order of a group of counters
(log 17), an access set in rising order (log 19), the count of READ LOOP (log 33), the order of the states in READ HIRE (log 34),
the place of the duty figures in READ ACCOUNTING (log 36), the order of the alarm records in READ CLOCK (log 39), the order of a
mask and its absence for DESK and RACK (logs 40 and 41), the place in the pending-return list in READ RECEIVER (log 43), and one
presence indication for account and loan number in FIND (log 46). -/
def Obligations.ReadsChangeNothing : Prop :=
  ((∀ (α : Type) (f : α → List Field) (v : α) (l : List α),
      optFields none f = [.present false] ∧ optFields (some v) f = .present true :: f v ∧
        listFields l f = .count l.length :: (l.map f).flatten) ∧
    (∀ (n : Nat) (c : Clock),
      (optNum none = [.present false] ∧ optNum (some n) = [.present true, .num n]) ∧
        optClock none = [.present false] ∧ optClock (some c) = [.present true, .clock c]) ∧
    ([Mode.setup, .rehearsal, .session].map modeText = ["SETUP", "REHEARSAL", "SESSION"] ∧
      [Fallback.floor, .silence].map fallbackText = ["FLOOR", "SILENCE"] ∧
      [StampMode.last, .first].map stampModeText = ["LAST", "FIRST"] ∧
      [Presence.unconfigured, .absent, .present].map presenceText = ["UNCONFIGURED", "ABSENT", "PRESENT"] ∧
      [LoopStatus.running, .broken].map loopStatusText = ["RUNNING", "BROKEN"] ∧
      [Interlock.refuse, .takeover].map interlockText = ["REFUSE", "TAKEOVER"] ∧
      [CallMode.edge, .hold].map callModeText = ["EDGE", "HOLD"] ∧ [Output.a, .b].map outputText = ["A", "B"] ∧
      [Role.control, .monitor, .desk, .rack].map roleText = ["CONTROL", "MONITOR", "DESK", "RACK"] ∧
      [StartKind.coldStart, .powerReturn, .restart].map startText = ["COLD_START", "POWER_RETURN", "RESTART"]) ∧
    ([LampCode.notLiveMode, .engaged, .channelOff, .interlock, .noOffer, .notForYou, .notLive, .badTarget, .noChannel,
        .relayCycle, .relayDepth].map lampText =
        ["NOT_LIVE_MODE", "ENGAGED", "CHANNEL_OFF", "INTERLOCK", "NO_OFFER", "NOT_FOR_YOU", "NOT_LIVE", "BAD_TARGET",
         "NO_CHANNEL", "RELAY_CYCLE", "RELAY_DEPTH"] ∧
      [EndReason.micOff, .handover, .takeover, .output, .absent, .forced, .channelOff, .mode, .cut, .power,
        .restart].map endReasonText =
        ["MIC_OFF", "HANDOVER", "TAKEOVER", "OUTPUT", "ABSENT", "FORCED", "CHANNEL_OFF", "MODE", "CUT", "POWER", "RESTART"] ∧
      [DutyStatus.opened, .complete].map dutyStatusText = ["OPEN", "COMPLETE"] ∧
      [RangeStatus.unheard, .inRange, .outOfRange].map rangeText = ["UNHEARD", "IN_RANGE", "OUT_OF_RANGE"] ∧
      [ReceiverState.available, .held, .issued, .overdue, .returnPending, .lost, .withdrawn].map receiverStateText =
        ["AVAILABLE", "HELD", "ISSUED", "OVERDUE", "RETURN_PENDING", "LOST", "WITHDRAWN"] ∧
      [StatementKind.returned, .lost, .recovered].map statementKindText = ["RETURNED", "LOST", "RECOVERED"] ∧
      [BatchState.opened, .failed].map batchStateText = ["OPEN", "FAILED"] ∧
      [AccountState.opened, .suspended].map accountStateText = ["OPEN", "SUSPENDED"])) ∧
  (∀ (h : Header) (n : Nat) (s : State), admitted controlMonitor h s →
     let u := taken s
     (let x := s.chan n
      let head : List Field :=
        [.num n, .flag x.enabled, .label x.label, .flag x.restricted, .name (fallbackText x.policy)]
      let now : List Field := [.num x.queue.length, .num x.listeners]
      let counts : List Field :=
        [.num x.listenerMinutes, .num x.fallbackMinutes, .num x.underruns, .num x.dropped]
      let floor : List Field :=
        if n = 0 then
          [.num s.switch.floorQueue.length, .num s.switch.floorUnderruns, .num s.switch.floorDropped]
        else []
      n ≤ 48 → exec (.readChannel h n) s =
        .next (replied h (.accepted (head ++ optNum x.owner ++ now ++ optClock x.stamp ++ counts ++ floor)) u)) ∧
     (let x := s.boothRec n
      let modes : List Field := [.name (interlockText x.interlock), .num x.turnLimit, .name (callModeText x.callMode)]
      let source : List Field :=
        match x.relay with
        | .floor => [.kind false, .name "FLOOR"]
        | .booth k => [.kind true, .num k]
      let floor : List Field :=
        match x.floor with
        | .silent => [.name "SILENT", .present false, .present false, .present false]
        | .live c => [.name "LIVE", .present true, .num c, .present false, .present false]
        | .offered c .any e =>
          [.name "OFFERED", .present true, .num c, .present true, .kind false, .name "ANY", .present true, .num e]
        | .offered c (.slot k) e =>
          [.name "OFFERED", .present true, .num c, .present true, .kind true, .num k, .present true, .num e]
      let totals : List Field := [.flag x.callLatch, .num x.liveMinutes, .flag x.unlogged]
      let fallback : Bool :=
        match x.relay with
        | .floor => false
        | .booth k => decide ((s.boothRec k).floor = .silent)
      let feeds : RelaySource → RelaySource
        | .floor => .floor
        | .booth k => (s.boothRec k).relay
      ∀ depth, isBooth n = true → depth ≤ 24 → Nat.repeat feeds depth x.relay = .floor →
        (∀ k, k < depth → Nat.repeat feeds k x.relay ≠ .floor) →
        let head : List Field := .num n :: (optNum x.aChannel ++ optNum x.bChannel ++ modes ++ source)
        exec (.readBooth h n) s =
          .next (replied h
            (.accepted (head ++ (.name (outputText x.output) :: floor) ++ optNum x.turn ++ totals ++
              [.num depth, .flag fallback])) u)) ∧
     (let c := s.console n
      let x := s.slotState n
      let levels : List Field := [.flag c.cough, .flag c.call]
      let seat : String :=
        match c.booth with
        | none => "NONE"
        | some b =>
          match (s.boothRec b).floor with
          | .silent => "NONE"
          | .live d => if d = n then "LIVE" else "NONE"
          | .offered d _ _ => if d = n then "OFFERING" else "NONE"
      let counts : List Field :=
        [.num c.liveMinutes, .name (presenceText x.presence), .num x.missedRun, .num x.missed, .num x.errors, .name seat]
      let shown := optFields c.lamp (fun code => [.name (lampText code)]) ++ optNum c.displayEnd
      isSlot n = true →
       exec (.readConsole h n) s =
         .next (replied h (.accepted (.num n :: .flag c.configured ::
           (optNum c.booth ++ optNum c.seat ++ levels ++ shown ++ counts))) u)) ∧
     (let k := s.loop.counters
      let slots (p : Presence) : Nat := (upTo 72).countP fun n => decide ((s.slotState n).presence = p)
      let status : List Field := [.name (loopStatusText s.loop.status), .num s.loop.sinceGood, .num s.loop.nextSequence]
      let listed := listFields s.loop.outstanding fun q => [.num q]
      let limits : List Field :=
        [.num s.params.absenceLimit, .num (slots .present), .num (slots .absent), .num (slots .unconfigured)]
      let counts : List Field :=
        [.num k.departed, .num k.returned, .num k.lost, .num k.bad, .num k.unmatched, .num k.stray]
      exec (.readLoop h) s = .next (replied h (.accepted (status ++ listed ++ limits ++ counts)) u)) ∧
     (let duty := s.acct.duty
      let run := duty.takeWhile fun e => decide (e.status ≠ .opened)
      let sizes : List Field :=
        [.num duty.length, .num (duty.countP fun e => decide (e.status = .opened)), .num run.length]
      let entry (e : DutyEntry) : List Field :=
        let spell : List Field := [.num e.slot, .num e.booth, .num e.channel, .clock e.start, .num e.startMinute]
        let minutes : List Field := [.num e.live, .num e.session]
        spell ++ optClock e.stop ++ minutes ++ optFields e.reason (fun r => [.name (endReasonText r)]) ++
          [.flag e.continued, .name (dutyStatusText e.status)]
      let entries := listFields (run.take 8) entry
      (∀ e rest, duty = e :: rest → e.status = .opened →
        let head : List Field := [.present true, .name "HEAD_OPEN", .num e.slot, .num e.booth, .clock e.start]
        exec (.readDuty h) s = .next (replied h (.accepted (sizes ++ entries ++ head)) u)) ∧
      ((∀ e rest, duty = e :: rest → e.status ≠ .opened) →
        exec (.readDuty h) s = .next (replied h (.accepted (sizes ++ entries ++ [.present false])) u)))) ∧
  (∀ (h : Header) (n : Nat) (s : State),
     let u := taken s
     let place (rack : Option (Nat × Nat)) : List Field :=
       optFields rack fun p => [.num p.1, .num p.2]
     (admitted controlMonitor h s →
       (let k := s.air.counters
        let ranges (x : RangeStatus) : Nat := s.hire.receivers.countP fun e => decide (e.2.range = x)
        let heard := optFields s.air.lastUnknown fun x => [.num x.serial, .num x.radiator, .clock x.clock]
        let limits : List Field :=
          [.num s.params.silenceLimit, .num (ranges .unheard), .num (ranges .inRange), .num (ranges .outOfRange)]
        let radiators : List Field := (upTo 8).map fun r => .num (Table.get 0 k.perRadiator r)
        let counts : List Field :=
          [.num k.bad, .num k.unknown, .num k.duplicates, .num k.accepted, .num k.selects, .num k.rangeLosses,
           .num k.grants, .num k.denials, .num k.revocations, .num k.notesSent, .num k.notesDropped]
        exec (.readAir h) s =
          .next (replied h
            (.accepted (.num s.air.notes.length :: (heard ++ limits ++ (.num k.reports :: radiators) ++ counts))) u)) ∧
       (let k := s.hire.counters
        let states (x : ReceiverState) : Nat := s.hire.receivers.countP fun e => decide (e.2.state = x)
        let records : List Field :=
          [.num (states .available), .num (states .held), .num (states .issued), .num (states .overdue),
           .num (states .returnPending), .num (states .lost), .num (states .withdrawn),
           .num (2048 - s.hire.receivers.length)]
        let sizes : List Field :=
          [.num s.hire.pendingList.length, .num s.params.issueThreshold, .num s.hire.batches.length]
        let counts : List Field :=
          [.num k.enrolments, .num k.deletions, .num k.issues, .num k.issueRefusals, .num k.deskReturns,
           .num k.dockedReturns, .num k.losses, .num k.recoveries, .num k.pendingReturns, .num k.overdueReceivers,
           .num k.rackMessages, .num k.rackMalformed, .num k.rackUnknown, .num k.rackCollisions,
           .num k.unaccountedRemovals]
        exec (.readHire h) s = .next (replied h (.accepted (records ++ sizes ++ counts)) u)) ∧
       (let k := s.acct.counters
        let d := s.acct.dutyCounters
        let sizes : List Field :=
          [.num s.acct.statements.length, .num s.params.highWater, .num s.hire.pendingList.length, .num s.acct.nextLoan,
           .num s.acct.accounts.length, .num ((List.range 8).countP fun c => (s.tariff c).defined)]
        let counts : List Field :=
          [.num k.posted, .num k.credits, .num k.pendingClosures, .num k.pendingPostings, .num k.lostRefused,
           .num k.released, .num k.orphans, .num k.saturations, .num k.created, .num k.closed, .num k.cleared]
        let duty : List Field :=
          [.num d.opened, .num d.continuations, .num d.completed, .num d.released, .num d.overflows, .num d.cuts,
           .num s.acct.duty.length, .num (s.acct.duty.countP fun e => decide (e.status = .opened))]
        exec (.readAccounting h) s = .next (replied h (.accepted (sizes ++ counts ++ duty)) u)) ∧
       (let statement (st : Statement) : List Field :=
          [.name (statementKindText st.kind), .num st.loan, .num st.serial, .num st.account, .num st.cls,
           .clock st.issueClock, .clock st.closeClock, .num st.chargeable, .num st.overdue, .num st.listening,
           .num st.amount]
        exec (.readStatements h) s =
          .next (replied h (.accepted (.num s.acct.statements.length ::
            listFields (s.acct.statements.take 8) statement)) u)) ∧
       (let record (slot : Nat) (r : Receiver) : List Field :=
          let head : List Field := [.num slot, .num r.serial, .name (receiverStateText r.state)]
          let air := optNum r.lastHeard ++ optClock r.lastHeardClock ++ optNum r.lastRadiator ++ optNum r.lastLink ++
            optNum r.lastCounter ++ optNum r.battery ++ optNum r.channel
          let loan := optFields r.loan fun l =>
            [.num l.number, .num l.account, .num l.cls, .clock l.issueClock, .num l.issueMinute, .num l.chargeable,
             .num l.overdue, .num l.listening]
          let waiting := optFields r.pend fun p =>
            [.name (statementKindText p.kind), .clock p.returnClock, .num p.amount,
             .num (s.hire.pendingList.idxOf slot + 1)]
          head ++ place r.rack ++ (.name (rangeText r.range) :: air) ++ loan ++ waiting ++ optNum r.batch
        (∀ slot r, isSerial n = true → s.receiverBySerial n = some (slot, r) →
          exec (.readReceiver h (.number n)) s = .next (replied h (.accepted (record slot r)) u)) ∧
        ∀ r, 1 ≤ n → n ≤ 2048 → Table.look s.hire.receivers n = some r →
          exec (.readReceiver h (.slot n)) s = .next (replied h (.accepted (record n r)) u)) ∧
       (let record (slot : Nat) (a : Account) : List Field :=
          let head : List Field :=
            [.num slot, .num a.number, .num a.cls, .name (accountStateText a.state), .num a.loanLimit]
          let totals : List Field :=
            [.num a.openLoans, .num a.balance, .flag a.saturated, .num a.listening, .num a.posted]
          let receivers (x : ReceiverState) : Nat :=
            s.hire.receivers.countP fun e => decide (e.2.state = x ∧ e.2.loan.map (·.account) = some a.number)
          let further : List Field :=
            [.num (receivers .returnPending), .num (receivers .lost),
             .flag (s.hire.batches.any fun e => decide (e.2.account = a.number))]
          head ++ listFields a.access (fun c => [.num c]) ++ totals ++ further
        (∀ a, 1 ≤ n → n ≤ 256 → Table.look s.acct.accounts n = some a →
          exec (.readAccount h (.slot n)) s = .next (replied h (.accepted (record n a)) u)) ∧
        ∀ slot a, isAccount n = true → s.accountByNumber n = some (slot, a) →
          exec (.readAccount h (.number n)) s = .next (replied h (.accepted (record slot a)) u)) ∧
       (∀ b, isStation n = true → Table.look s.hire.batches n = some b →
         let items := listFields b.items fun k => [.num k]
         let counts : List Field := [.num b.itemCount, .num b.lastItem, .name (batchStateText b.state)]
         let failure := optFields (b.failure.map (·.1)) (fun code => [.name (refusalText code)]) ++ optNum (b.failure.map (·.2))
         exec (.readBatch h n) s =
           .next (replied h (.accepted (.num n :: .num b.account :: (items ++ counts ++ failure))) u)) ∧
       (n ≤ 7 → exec (.readTariff h n) s =
         .next (replied h (.accepted
           [.num n, .flag (s.tariff n).defined, .num (s.tariff n).blockLength, .num (s.tariff n).blockRate,
            .num (s.tariff n).loanCap, .num (s.tariff n).overdueRate, .num (s.tariff n).lostCharge,
            .num (s.acct.accounts.countP fun e => decide (e.2.cls = n))]) u))) ∧
     (admitted controlDesk h s → ∀ slot r, isSerial n = true → s.receiverBySerial n = some (slot, r) →
       let loan := optFields r.loan fun l => [.num l.account, .num l.number]
       exec (.find h n) s =
         .next (replied h (.accepted (.name (receiverStateText r.state) ::
           (loan ++ place r.rack ++ optNum r.lastRadiator ++ optClock r.lastHeardClock ++ optNum r.battery))) u))) ∧
  (∀ (h : Header) (n : Nat) (s : State),
     let refused (code : RefusalCode) (c : Instr) : Prop := exec c s = .next (replied h (.refused code []) (taken s))
     (admitted controlMonitor h s →
       (48 < n → refused .range (.readChannel h n)) ∧ (isBooth n = false → refused .range (.readBooth h n)) ∧
       (isSlot n = false → refused .range (.readConsole h n)) ∧ (7 < n → refused .range (.readTariff h n)) ∧
       (isStation n = false → refused .range (.readStation h n) ∧ refused .range (.readBatch h n)) ∧
       (isStation n = true → Table.look s.serv.stations n = none → refused .notFound (.readStation h n)) ∧
       (isStation n = true → Table.look s.hire.batches n = none → refused .notFound (.readBatch h n)) ∧
       (isSerial n = false → refused .range (.readReceiver h (.number n))) ∧
       (isSerial n = true → s.receiverBySerial n = none → refused .notFound (.readReceiver h (.number n))) ∧
       (¬(1 ≤ n ∧ n ≤ 2048) → refused .range (.readReceiver h (.slot n))) ∧
       (1 ≤ n → n ≤ 2048 → Table.look s.hire.receivers n = none → refused .notFound (.readReceiver h (.slot n))) ∧
       (isAccount n = false → refused .range (.readAccount h (.number n))) ∧
       (isAccount n = true → s.accountByNumber n = none → refused .notFound (.readAccount h (.number n))) ∧
       (¬(1 ≤ n ∧ n ≤ 256) → refused .range (.readAccount h (.slot n))) ∧
       (1 ≤ n → n ≤ 256 → Table.look s.acct.accounts n = none → refused .notFound (.readAccount h (.slot n))) ∧
       refused .range (.readCounters h none)) ∧
     (admitted controlDesk h s →
       (isSerial n = false → refused .range (.find h n)) ∧
       (isSerial n = true → s.receiverBySerial n = none → refused .notFound (.find h n)))) ∧
  ∀ (h : Header) (n : Nat) (g : CounterGroup) (s : State), admitted controlMonitor h s →
    let u := taken s
    (let k := s.time.counters
     let hall : List Field :=
       [.clock s.now, .name (if s.time.valid = true then "VALID" else "INVALID"), .num s.time.sessionMinute]
     let record := optFields s.time.clockSet fun r =>
       let before : List Field :=
         match r.previous with
         | some c => [.kind false, .clock c]
         | none => [.kind true, .name "INVALID"]
       before ++ [.clock r.new, .num r.minute]
     let alarm (a : Alarm) : List Field :=
       .num a.day :: .flag a.dayOn :: .num a.hour :: .flag a.hourOn :: .num a.minute :: .flag a.minuteOn ::
         .flag a.matched :: (optClock a.lastMatch ++ [.flag a.pendingEffect])
     let counts : List Field :=
       [.num k.sets, .num k.returnByMatches, .num k.sessionCloseMatches, .num k.backupMatches, .num k.pendingApplied,
        .num k.pendingDiscarded]
     exec (.readClock h) s =
       .next (replied h
         (.accepted (hall ++ record ++ alarm s.time.returnBy ++ alarm s.time.sessionClose ++ counts)) u)) ∧
      (let k := s.supply.counters
       let state : List Field :=
         [.name (modeText s.mode), .name (if s.supply.backupLow = true then "LOW" else "NORMAL")]
       let start : List Field := [.name (startText s.supply.startRecord.kind), .clock s.supply.startRecord.clock]
       let counts : List Field := [.num k.modeChanges, .num k.checkFailures, .num k.backupLows]
       exec (.readSupply h) s =
         .next (replied h (.accepted (state ++ optClock s.supply.lossStamp ++ start ++ counts)) u)) ∧
      exec (.readParameters h) s =
        .next (replied h (.accepted
          [.num s.params.absenceLimit, .num s.params.offerTimeout, .num s.params.silenceLimit, .num s.params.issueThreshold,
           .name (stampModeText s.params.stampMode), .num s.params.highWater]) u) ∧
      (∀ e, isStation n = true → Table.look s.serv.stations n = some e →
        let head : List Field := [.num n, .name (roleText e.role)]
        (e.role = .control ∨ e.role = .monitor →
          exec (.readStation h n) s =
            .next (replied h (.accepted (head ++ listFields e.mask fun f => [.name f.text])) u)) ∧
        (e.role = .desk ∨ e.role = .rack → exec (.readStation h n) s = .next (replied h (.accepted head) u))) ∧
      exec (.readNotices h) s =
        .next (replied h (.accepted (NoticeFlag.all.map fun f => .flag (s.flagged f))) u) ∧
      let loop := s.loop.counters
      let air := s.air.counters
      let hire := s.hire.counters
      let batch := s.hire.batchCounters
      let acct := s.acct.counters
      let duty := s.acct.dutyCounters
      let clock := s.time.counters
      let mode := s.supply.counters
      let serv := u.serv.counters
      let counts : List Nat :=
        match g with
        | .loop => [loop.departed, loop.returned, loop.lost, loop.bad, loop.unmatched, loop.stray]
        | .consoles => ((upTo 72).map fun n => [(s.slotState n).missed, (s.slotState n).errors]).flatten
        | .channels =>
          ((upTo 48).map fun c => [(s.chan c).underruns, (s.chan c).dropped]).flatten ++
            [s.switch.floorUnderruns, s.switch.floorDropped]
        | .channelMinutes =>
          ((0 :: upTo 48).map fun c => [(s.chan c).listenerMinutes, (s.chan c).fallbackMinutes]).flatten
        | .air =>
          air.reports :: ((upTo 8).map fun r => Table.get 0 air.perRadiator r) ++
            [air.bad, air.unknown, air.duplicates, air.accepted, air.selects, air.rangeLosses, air.grants, air.denials,
             air.revocations, air.notesSent, air.notesDropped]
        | .hire =>
          [hire.enrolments, hire.deletions, hire.issues, hire.issueRefusals, hire.deskReturns, hire.dockedReturns,
           hire.losses, hire.recoveries, hire.pendingReturns, hire.overdueReceivers, hire.rackMessages,
           hire.rackMalformed, hire.rackUnknown, hire.rackCollisions, hire.unaccountedRemovals]
        | .batches =>
          [batch.opened, batch.busyRefusals, batch.itemsHeld, batch.itemsAborted, batch.failures, batch.issued,
           batch.failed, batch.timedOut, batch.abandoned]
        | .accounts =>
          [acct.posted, acct.credits, acct.pendingClosures, acct.pendingPostings, acct.lostRefused, acct.released,
           acct.orphans, acct.saturations, acct.created, acct.closed, acct.cleared]
        | .duty => [duty.opened, duty.continuations, duty.completed, duty.released, duty.overflows, duty.cuts]
        | .clock =>
          [clock.sets, clock.returnByMatches, clock.sessionCloseMatches, clock.backupMatches, clock.pendingApplied,
           clock.pendingDiscarded]
        | .mode => [mode.modeChanges, mode.checkFailures, mode.backupLows]
        | .service =>
          [serv.received, serv.badFrames, serv.notForPart, serv.unknownSource, serv.wrongKind, serv.requests,
           serv.rackPassed, serv.roleRefusals, serv.malformed, serv.repliesDropped, serv.noticesQueued,
           serv.noticesDropped]
      exec (.readCounters h (some g)) s = .next (replied h (.accepted (counts.map Field.num)) u)

/-! ### Loading the tables -/

/-- LOAD of console, booth, channel, tariff and parameter entries in SETUP (R3, R23, R25, R127, R180), with the presence of a
console whose Configured field changes (R58), booth and seat being written as carried also with Configured no, which is the model's
reading (log 18); the pass that follows a new restriction of channel c is over the receivers whose current channel is c (R79); a
field out of its range is refused with RANGE, and a booth and seat that another configured console holds with DUPLICATE. In every
mode a key out of range is refused with RANGE; outside SETUP a LOAD of a locked table is refused with LOCKED, once its key is in
range (R180). -/
def Obligations.TablesAreLoadedInSetupOnly : Prop :=
  (∀ (c : Nat) (s : State), revokeChannel c s = (revocationPass (fun r => decide (r.channel = some c)) s).1) ∧
  (∀ (h : Header) (s : State), admitted controlOnly h s → s.mode = .setup →
     let u := taken s
     (∀ slot configured (place : Option (Nat × Nat)), isSlot slot = true →
       (∀ b n, place = some (b, n) → isBooth b = true ∧ 1 ≤ n ∧ n ≤ 3 ∧
         ∀ k, isSlot k = true → k ≠ slot → ¬((s.console k).configured = true ∧ (s.console k).booth = some b ∧
           (s.console k).seat = some n)) →
       let written := u.modConsole slot fun c =>
         { c with configured := configured, booth := place.map (·.1), seat := place.map (·.2) }
       exec (.loadConsole h slot configured (place.map (·.1)) (place.map (·.2))) s =
         .next (replied h (.accepted [])
           (if (s.console slot).configured = configured then written
            else written.modSlot slot fun x =>
              { x with presence := if configured = true then .absent else .unconfigured, missedRun := 0 }))) ∧
     (∀ b a1 b1 i limit m, isBooth b = true → Option.all isChannel a1 = true → Option.all isChannel b1 = true →
       limit ≤ 120 →
       exec (.loadBooth h b a1 b1 (some i) limit (some m)) s =
         .next (replied h (.accepted [])
           (u.modBooth b fun x =>
             { x with
               aChannel := a1, bChannel := b1, interlock := i, turnLimit := limit, callMode := m
               output := if b1 = none then .a else x.output }))) ∧
     (∀ c l r p, isChannel c = true → isLabel l = true →
       let written := u.modChan c fun x => { x with label := l, restricted := r, policy := p }
       exec (.loadChannel h c l r (some p)) s =
         .next (replied h (.accepted [])
           (if r = true ∧ (s.chan c).restricted = false then revokeChannel c written else written))) ∧
     (∀ cls len rate cap late lost, cls ≤ 7 → 15 ≤ len → len ≤ 240 → rate ≤ 65535 → cap ≤ 16777215 → late ≤ 65535 →
       lost ≤ 16777215 →
       exec (.loadTariff h cls len rate cap late lost) s =
         .next (replied h (.accepted [])
           { u with acct :=
             { u.acct with tariffs := Table.set {} cls ⟨true, len, rate, cap, late, lost⟩ u.acct.tariffs } })) ∧
     ∀ p : Parameters, 4 ≤ p.absenceLimit → p.absenceLimit ≤ 250 → 1 ≤ p.offerTimeout → p.offerTimeout ≤ 60 →
       10 ≤ p.silenceLimit → p.silenceLimit ≤ 300 → p.issueThreshold ≤ 15 → 1 ≤ p.highWater → p.highWater ≤ 512 →
       exec (.loadParameters h p.absenceLimit p.offerTimeout p.silenceLimit p.issueThreshold (some p.stampMode) p.highWater)
           s =
         .next (replied h (.accepted []) { u with supply := { u.supply with params := p } })) ∧
  (∀ (h : Header) (s : State), admitted controlOnly h s → s.mode = .setup →
     let refused (code : RefusalCode) (c : Instr) : Prop := exec c s = .next (replied h (.refused code []) (taken s))
     (∀ slot configured booth seat, isSlot slot = true →
       ¬((booth = none ∧ seat = none) ∨ ∃ b n, booth = some b ∧ seat = some n ∧ isBooth b = true ∧ 1 ≤ n ∧ n ≤ 3) →
       refused .range (.loadConsole h slot configured booth seat)) ∧
     (∀ slot configured b n k, isSlot slot = true → isBooth b = true → 1 ≤ n → n ≤ 3 → isSlot k = true → k ≠ slot →
       (s.console k).configured = true → (s.console k).booth = some b → (s.console k).seat = some n →
       refused .duplicate (.loadConsole h slot configured (some b) (some n))) ∧
     (∀ b a1 b1 i limit m, isBooth b = true →
       ¬(Option.all isChannel a1 = true ∧ Option.all isChannel b1 = true ∧ limit ≤ 120 ∧ i ≠ none ∧ m ≠ none) →
       refused .range (.loadBooth h b a1 b1 i limit m)) ∧
     (∀ c l r p, isChannel c = true → ¬(isLabel l = true ∧ p ≠ none) → refused .range (.loadChannel h c l r p)) ∧
     (∀ cls len rate cap late lost, cls ≤ 7 →
       ¬(15 ≤ len ∧ len ≤ 240 ∧ rate ≤ 65535 ∧ cap ≤ 16777215 ∧ late ≤ 65535 ∧ lost ≤ 16777215) →
       refused .range (.loadTariff h cls len rate cap late lost)) ∧
     ∀ a o q i st w,
       ¬(4 ≤ a ∧ a ≤ 250 ∧ 1 ≤ o ∧ o ≤ 60 ∧ 10 ≤ q ∧ q ≤ 300 ∧ i ≤ 15 ∧ st ≠ none ∧ 1 ≤ w ∧ w ≤ 512) →
       refused .range (.loadParameters h a o q i st w)) ∧
  (∀ (h : Header) (s : State), admitted controlOnly h s →
     let turned (c : Instr) : Prop := exec c s = .next (replied h (.refused .range []) (taken s))
     (∀ slot c b n, isSlot slot = false → turned (.loadConsole h slot c b n)) ∧
     (∀ b a1 b1 i limit m, isBooth b = false → turned (.loadBooth h b a1 b1 i limit m)) ∧
     (∀ c l r p, isChannel c = false → turned (.loadChannel h c l r p)) ∧
     ∀ cls len rate cap late lost, 7 < cls → turned (.loadTariff h cls len rate cap late lost)) ∧
  ∀ (h : Header) (s : State), admitted controlOnly h s → s.mode ≠ .setup →
    let locked := Host.Outcome.next (replied h (.refused .locked []) (taken s))
    (∀ slot c b n, isSlot slot = true → exec (.loadConsole h slot c b n) s = locked) ∧
    (∀ b a1 b1 i limit m, isBooth b = true → exec (.loadBooth h b a1 b1 i limit m) s = locked) ∧
    (∀ c l r p, isChannel c = true → exec (.loadChannel h c l r p) s = locked) ∧
    (∀ cls len rate cap late lost, cls ≤ 7 → exec (.loadTariff h cls len rate cap late lost) s = locked) ∧
    (∀ n e, isStation n = true → (entryMask e).length ≤ 17 → exec (.loadStation h n e) s = locked) ∧
    ∀ a o q i st w, exec (.loadParameters h a o q i st w) s = locked

/-- The station table (R190): writing and removing an entry in SETUP, never leaving the table without a CONTROL entry, and the
notice mask, which is a set; the refusals of LOAD of a station entry in the order R190 checks them, and those of SET NOTICE MASK.
That a mask is held in the order of R195 is the model's choice (log 40); that SET NOTICE MASK gives the first refusal R190 names is
its reading (log 44). -/
def Obligations.StationTable : Prop :=
  (∀ (h : Header) (n : Nat) (s : State), admitted controlOnly h s → isStation n = true →
    let u := taken s
    let other := ∃ k e, (k, e) ∈ s.serv.stations ∧ k ≠ n ∧ e.role = .control
    let listed (mask : List NoticeFlag) := NoticeFlag.all.filter fun f => decide (f ∈ mask)
    let written (e : Station) : Host.Outcome State Fault Refusal :=
      .next (replied h (.accepted []) { u with serv := { u.serv with stations := Table.put n e u.serv.stations } })
    let refused (code : RefusalCode) : Host.Outcome State Fault Refusal := .next (replied h (.refused code []) u)
    (s.mode = .setup →
      (s.serv.stations.length < 32 ∨ (Table.look s.serv.stations n).isSome = true →
        (∀ mask, mask.Nodup → exec (.loadStation h n (.control (mask.map some))) s = written ⟨.control, listed mask⟩) ∧
        (other →
          (∀ mask, mask.Nodup → exec (.loadStation h n (.monitor (mask.map some))) s = written ⟨.monitor, listed mask⟩) ∧
          exec (.loadStation h n .desk) s = written ⟨.desk, []⟩ ∧
          exec (.loadStation h n .rack) s = written ⟨.rack, []⟩) ∧
        (¬other →
          (∀ mask : List NoticeFlag, mask.Nodup →
            exec (.loadStation h n (.monitor (mask.map some))) s = refused .limit) ∧
          exec (.loadStation h n .desk) s = refused .limit ∧ exec (.loadStation h n .rack) s = refused .limit)) ∧
      (32 ≤ s.serv.stations.length → Table.look s.serv.stations n = none →
        (∀ mask : List NoticeFlag, mask.Nodup →
          exec (.loadStation h n (.control (mask.map some))) s = refused .tableFull ∧
            exec (.loadStation h n (.monitor (mask.map some))) s = refused .tableFull) ∧
        exec (.loadStation h n .desk) s = refused .tableFull ∧ exec (.loadStation h n .rack) s = refused .tableFull) ∧
      ((Table.look s.serv.stations n).isSome = true →
        (other →
          exec (.loadStation h n .none) s =
            .next (replied h (.accepted [])
              { u with serv := { u.serv with stations := Table.drop n u.serv.stations } })) ∧
        (¬other → exec (.loadStation h n .none) s = refused .limit)) ∧
      (Table.look s.serv.stations n = none → exec (.loadStation h n .none) s = refused .notFound) ∧
      exec (.loadStation h n .other) s = refused .range ∧
      (∀ mask : List (Option NoticeFlag), mask.length ≤ 17 → none ∈ mask →
        exec (.loadStation h n (.control mask)) s = refused .range ∧
          exec (.loadStation h n (.monitor mask)) s = refused .range) ∧
      ∀ mask : List NoticeFlag, mask.length ≤ 17 → ¬mask.Nodup →
        exec (.loadStation h n (.control (mask.map some))) s = refused .malformed ∧
          exec (.loadStation h n (.monitor (mask.map some))) s = refused .malformed) ∧
    (∀ mask e, mask.Nodup → Table.look s.serv.stations n = some e → e.role = .control ∨ e.role = .monitor →
      exec (.setNoticeMask h n (mask.map some)) s = written { e with mask := listed mask }) ∧
    (∀ mask : List (Option NoticeFlag), mask.length ≤ 17 → none ∈ mask →
      exec (.setNoticeMask h n mask) s = refused .range) ∧
    (∀ mask : List NoticeFlag, mask.length ≤ 17 → ¬mask.Nodup →
      exec (.setNoticeMask h n (mask.map some)) s = refused .malformed) ∧
    (∀ mask : List NoticeFlag, mask.Nodup → Table.look s.serv.stations n = none →
      exec (.setNoticeMask h n (mask.map some)) s = refused .notFound) ∧
    ∀ (mask : List NoticeFlag) (e : Station), mask.Nodup → Table.look s.serv.stations n = some e →
      e.role = .desk ∨ e.role = .rack → exec (.setNoticeMask h n (mask.map some)) s = refused .range) ∧
  (∀ (h : Header) (n : Nat) (s : State), admitted controlOnly h s → isStation n = false →
    (∀ e, (entryMask e).length ≤ 17 →
      exec (.loadStation h n e) s = .next (replied h (.refused .range []) (taken s))) ∧
    ∀ mask : List (Option NoticeFlag), mask.length ≤ 17 →
      exec (.setNoticeMask h n mask) s = .next (replied h (.refused .range []) (taken s))) ∧
  ∀ (h : Header) (n : Nat) (mask : List (Option NoticeFlag)) (s : State), admitted controlOnly h s → 17 < mask.length →
    let malformed :=
      Host.Outcome.next (replied h (.refused .malformed [])
        (countServ (fun k => { k with malformed := bump k.malformed }) (messageReceived s)))
    exec (.loadStation h n (.control mask)) s = malformed ∧ exec (.loadStation h n (.monitor mask)) s = malformed ∧
      exec (.setNoticeMask h n mask) s = malformed

/-! ### Booth requests -/

/-- FORCE SILENT, SET RELAY and FETCH CALLS (R37, R43, R47), with a booth or a relay source out of range refused with RANGE; FETCH
CALLS changes the call latches of the 24 booths and nothing else of booth control. The check of a relay change (R41): in a graph
that fits, the change is a cycle exactly when following relay sources from the new source reaches the booth, else too deep exactly
when with the change made a booth of the 24 does not come to FLOOR within 3 booths, else it passes; a source that stands already
passes. -/
def Obligations.BoothRequests : Prop :=
  (∀ (h : Header) (b : Nat) (s : State),
     let u := taken s
     (admitted controlOnly h s → isBooth b = false →
       exec (.forceSilent h b) s = .next (replied h (.refused .range []) u) ∧
         ∀ source, exec (.setRelay h b source) s = .next (replied h (.refused .range []) u)) ∧
     (admitted controlOnly h s → ∀ source, isSource source = false →
       exec (.setRelay h b source) s = .next (replied h (.refused .range []) u)) ∧
     (admitted controlOnly h s → isBooth b = true →
       (∀ slot, FloorState.console (s.boothRec b).floor = some slot →
         exec (.forceSilent h b) s =
           .next (replied h (.accepted [.present true, .num slot]) (goSilent b .forced u))) ∧
       ((s.boothRec b).floor = .silent →
         exec (.forceSilent h b) s = .next (replied h (.accepted [.present false]) u)) ∧
       ∀ source, isSource source = true →
         (relayRefusal s b source = none →
           exec (.setRelay h b source) s =
             .next (replied h (.accepted []) (u.modBooth b fun x => { x with relay := source }))) ∧
         (relayRefusal s b source = some .relayCycle →
           exec (.setRelay h b source) s = .next (replied h (.refused .relayCycle []) u)) ∧
         (relayRefusal s b source = some .relayDepth →
           exec (.setRelay h b source) s = .next (replied h (.refused .relayDepth []) u))) ∧
     (admitted controlMonitor h s → ∃ t,
       exec (.fetchCalls h) s =
           .next (replied h (.accepted (listFields ((upTo 24).filter fun b => (s.boothRec b).callLatch) fun b => [.num b]))
             t) ∧
         (∀ d, isBooth d = true → t.boothRec d = { s.boothRec d with callLatch := false }) ∧
         (∀ d, isBooth d = false → t.boothRec d = s.boothRec d) ∧
         t = { u with booth := t.booth } ∧ t.booth.consoles = s.booth.consoles ∧
         t.booth.floorBlock = s.booth.floorBlock)) ∧
  (∀ (s : State) (b : Nat), (s.boothRec b).relay ≠ .booth b → relayRefusal s b (.booth b) = some .relayCycle) ∧
  (∀ (s : State) (b x : Nat), x ≠ b → (s.boothRec b).relay ≠ .booth x → (s.boothRec x).relay = .booth b →
    relayRefusal s b (.booth x) = some .relayCycle) ∧
  (∀ s : State, RelayFits s → ∀ b, relayRefusal s b .floor = none) ∧
  (∀ (s : State) (b : Nat) (source : RelaySource), relayRefusal s b source = none → RelayFits s →
    depthsFit (withSource s.relay b source) = true) ∧
  ∀ (s : State) (b : Nat) (source : RelaySource), RelayFits s → isBooth b = true → isSource source = true →
    let feeds (relay : Nat → RelaySource) : RelaySource → RelaySource
      | .floor => .floor
      | .booth k => relay k
    let changed : Nat → RelaySource := fun k => if k = b then source else s.relay k
    let cycle := ∃ n, Nat.repeat (feeds s.relay) n source = .booth b
    let deep := ∃ d, isBooth d = true ∧ Nat.repeat (feeds changed) 3 (changed d) ≠ .floor
    (relayRefusal s b source = some .relayCycle ↔ s.relay b ≠ source ∧ cycle) ∧
    (relayRefusal s b source = some .relayDepth ↔ s.relay b ≠ source ∧ ¬cycle ∧ deep) ∧
    (relayRefusal s b source = none ↔ s.relay b = source ∨ (¬cycle ∧ ¬deep))

/-! ### Hire -/

/-- ENROL (R89); WITHDRAW, REINSTATE and DELETE RECEIVER by the receiver's state (R90 to R92). -/
def Obligations.TheReceiverTable : Prop :=
  (∀ (h : Header) (serial : Nat) (s : State), admitted controlOnly h s →
     let u := taken s
     let slot := Table.firstFree s.hire.receivers 1
     (16777215 < serial → exec (.enrol h serial) s = .next (replied h (.refused .range []) u)) ∧
     (serial ≤ 16777215 → (s.receiverBySerial serial).isSome = true →
       exec (.enrol h serial) s = .next (replied h (.refused .duplicate []) u)) ∧
     (serial ≤ 16777215 → s.receiverBySerial serial = none → 2048 ≤ s.hire.receivers.length →
       exec (.enrol h serial) s = .next (replied h (.refused .tableFull []) u)) ∧
     (serial ≤ 16777215 → s.receiverBySerial serial = none → s.hire.receivers.length < 2048 →
       Table.rising s.hire.receivers = true → (∀ e ∈ s.hire.receivers, 1 ≤ e.1) →
       exec (.enrol h serial) s =
           .next (replied h (.accepted [.num slot])
             { u with hire :=
               { u.hire with
                 receivers := Table.put slot { serial := serial } u.hire.receivers
                 counters := { u.hire.counters with enrolments := bump u.hire.counters.enrolments } } }) ∧
         Table.look s.hire.receivers slot = none)) ∧
  ∀ (h : Header) (serial : Nat) (s : State), admitted controlOnly h s →
    let u := taken s
    (s.receiverBySerial serial = none →
      exec (.withdraw h serial) s = .next (replied h (.refused .notFound []) u) ∧
        exec (.reinstate h serial) s = .next (replied h (.refused .notFound []) u) ∧
        exec (.deleteReceiver h serial) s = .next (replied h (.refused .notFound []) u)) ∧
    ∀ slot r, s.receiverBySerial serial = some (slot, r) →
      (r.state = .available →
        exec (.withdraw h serial) s =
            .next (replied h (.accepted []) (writeReceiver slot { r with state := .withdrawn } u)) ∧
          exec (.reinstate h serial) s = .next (replied h (.accepted []) u) ∧
          exec (.deleteReceiver h serial) s = .next (replied h (.refused .range []) u)) ∧
      (r.state = .withdrawn →
        exec (.withdraw h serial) s = .next (replied h (.accepted []) u) ∧
          exec (.reinstate h serial) s =
            .next (replied h (.accepted []) (writeReceiver slot { r with state := .available } u)) ∧
          exec (.deleteReceiver h serial) s =
            .next (replied h (.accepted [])
              { u with hire :=
                { u.hire with
                  receivers := Table.drop slot u.hire.receivers
                  counters := { u.hire.counters with deletions := bump u.hire.counters.deletions } } })) ∧
      (∀ code, (code = .onLoan ∧ (r.state = .issued ∨ r.state = .overdue)) ∨ (code = .held ∧ r.state = .held) ∨
          (code = .pending ∧ r.state = .returnPending) ∨ (code = .lost ∧ r.state = .lost) →
        exec (.withdraw h serial) s = .next (replied h (.refused code []) u) ∧
          exec (.reinstate h serial) s = .next (replied h (.refused code []) u) ∧
          exec (.deleteReceiver h serial) s = .next (replied h (.refused code []) u))

/-- A receiver counts as a listener on its current channel when it is on loan and in range, and its record is written with the
listener adjustment that goes with the change (R17, R75). -/
def Obligations.ReceiverWritesAdjustListeners : Prop :=
  ∀ (slot : Nat) (old r : Receiver) (s : State), Table.look s.hire.receivers slot = some old →
    (∀ c, r.listening = some c ↔ (r.state = .issued ∨ r.state = .overdue) ∧ r.range = .inRange ∧ r.channel = some c) ∧
      (writeReceiver slot r s).hire = { s.hire with receivers := Table.put slot r s.hire.receivers } ∧
      (old.listening = r.listening → (writeReceiver slot r s).switch = s.switch) ∧
      (∀ c, old.listening = none → r.listening = some c →
        (writeReceiver slot r s).chan c = { s.chan c with listeners := (s.chan c).listeners + 1 }) ∧
      (∀ c, old.listening = some c → r.listening = none →
        (writeReceiver slot r s).chan c = { s.chan c with listeners := (s.chan c).listeners - 1 }) ∧
      (∀ c d, old.listening = some c → r.listening = some d → c ≠ d →
        (writeReceiver slot r s).chan c = { s.chan c with listeners := (s.chan c).listeners - 1 } ∧
          (writeReceiver slot r s).chan d = { s.chan d with listeners := (s.chan d).listeners + 1 }) ∧
      ∀ c, old.listening ≠ some c → r.listening ≠ some c → (writeReceiver slot r s).chan c = s.chan c

/-- ISSUE opens a loan (R98 to R100, R134, R135), or is refused, in the order of R99: by the ranges, the mode, the receiver's state
and battery, and the account; each refusal is counted and changes no record. -/
def Obligations.IssueOpensALoan : Prop :=
  ∀ (h : Header) (serial account : Nat) (s : State), admitted controlDesk h s →
    let refused (code : RefusalCode) : Prop :=
      exec (.issue h serial account) s =
        .next (replied h (.refused code []) (countHire (fun k => { k with issueRefusals := bump k.issueRefusals }) (taken s)))
    let inRange := serial ≤ 16777215 ∧ 1 ≤ account ∧ account ≤ 65535
    (¬inRange → refused .range) ∧
    (inRange → s.mode = .setup → refused .mode) ∧
    (inRange → s.mode ≠ .setup → s.receiverBySerial serial = none → refused .notFound) ∧
    ∀ slot r, inRange → s.mode ≠ .setup → s.receiverBySerial serial = some (slot, r) →
      (r.state = .issued ∨ r.state = .overdue → refused .onLoan) ∧ (r.state = .held → refused .held) ∧
      (r.state = .returnPending → refused .pending) ∧ (r.state = .lost → refused .lost) ∧
      (r.state = .withdrawn → refused .withdrawn) ∧
      (∀ b, r.state = .available → r.battery = some b → b < s.params.issueThreshold → refused .battery) ∧
      (r.state = .available → (∀ b, r.battery = some b → s.params.issueThreshold ≤ b) →
        (s.accountByNumber account = none → refused .notFound) ∧
        ∀ n a, s.accountByNumber account = some (n, a) →
          (a.state = .suspended → refused .accountState) ∧
          (a.state = .opened → a.openLoans = a.loanLimit → refused .limit) ∧
          (a.state = .opened → a.openLoans ≠ a.loanLimit →
            exec (.issue h serial account) s =
              .next (replied h (.accepted [.num s.acct.nextLoan])
                (countHire (fun k => { k with issues := bump k.issues })
                  (writeReceiver slot
                    { r with
                      state := .issued, batch := none
                      loan := some
                        { number := s.acct.nextLoan, account := account, cls := a.cls, issueClock := s.now
                          issueMinute := s.time.sessionMinute } }
                    { taken s with acct :=
                      { s.acct with
                        nextLoan := if s.acct.nextLoan < 4294967295 then s.acct.nextLoan + 1 else 1
                        accounts := Table.put n { a with openLoans := a.openLoans + 1 } s.acct.accounts } })))))

/-- RETURN and DECLARE LOST are refused by the range of the serial, by the table and by the receiver's state, and otherwise close a
loan: posted while the statement queue has room, otherwise pending or refused (R101 to R103, R105, R136). That RETURN's reply says
posted or pending as yes or no is the model's reading (log 15). -/
def Obligations.LoansAreClosed : Prop :=
  (∀ (h : Header) (serial : Nat) (s : State), admitted controlDesk h s →
    let refused (code : RefusalCode) : Prop :=
      exec (.returnReceiver h serial) s = .next (replied h (.refused code []) (taken s)) ∧
        exec (.declareLost h serial) s = .next (replied h (.refused code []) (taken s))
    (16777215 < serial → refused .range) ∧
    (serial ≤ 16777215 → s.receiverBySerial serial = none → refused .notFound) ∧
    ∀ slot r, serial ≤ 16777215 → s.receiverBySerial serial = some (slot, r) →
      (r.state = .available → refused .notOnLoan) ∧ (r.state = .held → refused .held) ∧
        (r.state = .returnPending → refused .pending) ∧ (r.state = .lost → refused .lost) ∧
        (r.state = .withdrawn → refused .withdrawn)) ∧
  ∀ (h : Header) (serial slot n : Nat) (r : Receiver) (l : Loan) (a : Account) (s : State), admitted controlDesk h s →
    serial ≤ 16777215 → s.receiverBySerial serial = some (slot, r) → r.onLoan = true → r.loan = some l →
    s.accountByNumber l.account = some (n, a) →
    let u := taken s
    let ended (t : State) : State := t.writeAccount n { a with openLoans := a.openLoans - 1 }
    let quiet := ended (writeReceiver slot { r with channel := none } u)
    let due := amountOf (s.tariff l.cls) .returned l.chargeable l.overdue
    let lost := amountOf (s.tariff l.cls) .lost l.chargeable l.overdue
    let waiting := writeReceiver slot
      { r with channel := none, state := .returnPending, pend := some ⟨.returned, s.now, due⟩ } quiet
    (s.acct.statements.length < 512 →
      exec (.returnReceiver h serial) s =
        .next (replied h (.accepted [.num l.number, .num due, .flag true])
          (countHire (fun k => { k with deskReturns := bump k.deskReturns })
            (writeReceiver slot { r with channel := none, loan := none, state := .available }
              (postStatement (statementOf .returned l r.serial s.now due) quiet)))) ∧
      exec (.declareLost h serial) s =
        .next (replied h (.accepted [.num l.number, .num lost])
          (countHire (fun k => { k with losses := bump k.losses })
            (writeReceiver slot { r with channel := none, state := .lost }
              (postStatement (statementOf .lost l r.serial s.now lost) (ended u)))))) ∧
    (512 ≤ s.acct.statements.length →
      exec (.returnReceiver h serial) s =
        .next (replied h (.accepted [.num l.number, .num due, .flag false])
          (countHire (fun k => { k with deskReturns := bump k.deskReturns })
            { waiting with
              hire :=
                { waiting.hire with
                  pendingList := waiting.hire.pendingList ++ [slot]
                  counters :=
                    { waiting.hire.counters with pendingReturns := bump waiting.hire.counters.pendingReturns } }
              acct :=
                { waiting.acct with
                  counters :=
                    { waiting.acct.counters with
                      pendingClosures := bump waiting.acct.counters.pendingClosures } } })) ∧
      exec (.declareLost h serial) s =
        .next (replied h (.refused .queueFull [])
          (countAcct (fun k => { k with lostRefused := bump k.lostRefused }) u)))

/-- Rack messages (R93 to R97): a malformed one and one of an unknown serial are counted, the latter sets UNKNOWN_RECEIVER; DOCKED
records position and battery, takes the position from another receiver (R95), returns a loan (R101) and recovers a LOST receiver
(R104); UNDOCKED clears the position; CELL records the battery. -/
def Obligations.RackMessages : Prop :=
  (∀ (h : Header) (serial rackSlot battery : Nat) (s : State), fromRack h s →
    let u := rackTaken s
    let malformed := countHire (fun k => { k with rackMalformed := bump k.rackMalformed }) u
    let unknown := setFlag .unknownReceiver (countHire (fun k => { k with rackUnknown := bump k.rackUnknown }) u)
    let badSlot := rackSlot < 1 ∨ 32 < rackSlot
    (badSlot ∨ 15 < battery ∨ 16777215 < serial → exec (.docked h serial rackSlot battery) s = .next malformed) ∧
    (badSlot ∨ 16777215 < serial → exec (.undocked h serial rackSlot) s = .next malformed) ∧
    (15 < battery ∨ 16777215 < serial → exec (.cell h serial battery) s = .next malformed) ∧
    (serial ≤ 16777215 → s.receiverBySerial serial = none →
      (¬badSlot → battery ≤ 15 → exec (.docked h serial rackSlot battery) s = .next unknown) ∧
      (¬badSlot → exec (.undocked h serial rackSlot) s = .next unknown) ∧
      (battery ≤ 15 → exec (.cell h serial battery) s = .next unknown))) ∧
  (∀ (slot : Nat) (position : Nat × Nat) (s : State),
    ((∀ e ∈ s.hire.receivers, e.1 ≠ slot → e.2.rack ≠ some position) → clearPosition slot position s = s) ∧
    ∀ n other, (n, other) ∈ s.hire.receivers → n ≠ slot → other.rack = some position →
      (∀ e ∈ s.hire.receivers, e.1 ≠ slot → e.2.rack = some position → e = (n, other)) →
      clearPosition slot position s =
        countHire (fun k => { k with rackCollisions := bump k.rackCollisions })
          (writeReceiver n { other with rack := none } s)) ∧
  (∀ (slot n : Nat) (r : Receiver) (l : Loan) (a : Account) (s : State),
    let pended (x : Receiver) (kind : StatementKind) (amount : Nat) (t : State) : State :=
      let w := writeReceiver slot { x with state := .returnPending, pend := some ⟨kind, s.now, amount⟩ } t
      { w with
        hire :=
          { w.hire with
            pendingList := w.hire.pendingList ++ [slot]
            counters := { w.hire.counters with pendingReturns := bump w.hire.counters.pendingReturns } }
        acct :=
          { w.acct with
            counters := { w.acct.counters with pendingClosures := bump w.acct.counters.pendingClosures } } }
    let due := amountOf (s.tariff l.cls) .returned l.chargeable l.overdue
    let credit := amountOf (s.tariff l.cls) .recovered l.chargeable l.overdue
    let recovered := countHire (fun k => { k with recoveries := bump k.recoveries })
    (s.acct.statements.length < 512 →
      recover slot r l s =
        recovered (writeReceiver slot { r with loan := none, state := .available }
          (postStatement (statementOf .recovered l r.serial s.now credit) s))) ∧
    (512 ≤ s.acct.statements.length → recover slot r l s = recovered (pended r .recovered credit s)) ∧
    (s.accountByNumber l.account = some (n, a) →
      let silent := { r with channel := none }
      let quiet := (writeReceiver slot silent s).writeAccount n { a with openLoans := a.openLoans - 1 }
      (s.acct.statements.length < 512 →
        closeReturned slot r l s =
          writeReceiver slot { silent with loan := none, state := .available }
            (postStatement (statementOf .returned l r.serial s.now due) quiet)) ∧
      (512 ≤ s.acct.statements.length → closeReturned slot r l s = pended silent .returned due quiet))) ∧
  ∀ (h : Header) (serial rackSlot battery slot : Nat) (r : Receiver) (s : State), fromRack h s → serial ≤ 16777215 →
    1 ≤ rackSlot → rackSlot ≤ 32 → battery ≤ 15 → s.receiverBySerial serial = some (slot, r) →
    let u := rackTaken s
    let placed := { r with rack := some (h.station, rackSlot), battery := some battery }
    let docked := writeReceiver slot placed (clearPosition slot (h.station, rackSlot) u)
    (r.onLoan = false → r.state ≠ .lost → exec (.docked h serial rackSlot battery) s = .next docked) ∧
    (∀ l, r.onLoan = true → r.loan = some l →
      exec (.docked h serial rackSlot battery) s =
        .next (countHire (fun k => { k with dockedReturns := bump k.dockedReturns }) (closeReturned slot placed l docked))) ∧
    (∀ l, r.state = .lost → r.loan = some l →
      exec (.docked h serial rackSlot battery) s = .next (recover slot placed l docked)) ∧
    (r.state ≠ .available →
      exec (.undocked h serial rackSlot) s = .next (writeReceiver slot { r with rack := none } u)) ∧
    (r.state = .available →
      exec (.undocked h serial rackSlot) s =
        .next (countHire (fun k => { k with unaccountedRemovals := bump k.unaccountedRemovals })
          (writeReceiver slot { r with rack := none } u))) ∧
    exec (.cell h serial battery) s = .next (writeReceiver slot { r with battery := some battery } u)

/-- BATCH ITEM: what giving a receiver back, closing a batch and issuing one receiver of the final step do (R118, R119, R121); the
checks of an item on its own, RANGE, MALFORMED and MODE (R113); without an open batch an ABORT item and a final item without a
serial are refused with NOT_FOUND, a fifth batch with BATCH_BUSY, and an item that opens one is taken as an item of the batch just
opened (R114); an item holds a receiver, and a final one goes on to the final step; every failure of R115 fails the batch with its
code (R116), a serial in the list is accepted again, ABORT gives a receiver back and is refused with NOT_FOUND for a serial that is
not in the list (R117), a final item, with or without a serial, issues the held ones or fails the batch (R118); a FAILED batch
answers its recorded failure and its final item releases what it holds (R116, R119). -/
def Obligations.BatchItems : Prop :=
  (∀ (serial : Nat) (s : State),
    (s.receiverBySerial serial = none → freeReceiver s serial = s) ∧
    ∀ slot r, s.receiverBySerial serial = some (slot, r) →
      freeReceiver s serial = writeReceiver slot { r with state := .available, batch := none } s) ∧
  (∀ (station : Nat) (s : State),
    dropBatch station s = { s with hire := { s.hire with batches := Table.drop station s.hire.batches } }) ∧
  (∀ (account serial slot n : Nat) (r : Receiver) (a : Account) (entries : List (Nat × Nat)) (s : State),
    s.receiverBySerial serial = some (slot, r) → s.accountByNumber account = some (n, a) →
    issueItem account (s, entries) serial =
      (countHire (fun k => { k with issues := bump k.issues })
        (writeReceiver slot
          { r with
            state := .issued, batch := none
            loan := some
              { number := s.acct.nextLoan, account := account, cls := a.cls, issueClock := s.now
                issueMinute := s.time.sessionMinute } }
          { s with acct :=
            { s.acct with
              nextLoan := if s.acct.nextLoan < 4294967295 then s.acct.nextLoan + 1 else 1
              accounts := Table.put n { a with openLoans := a.openLoans + 1 } s.acct.accounts } }),
        entries ++ [(serial, s.acct.nextLoan)])) ∧
  (∀ (h : Header) (account : Nat) (serial : Option Nat) (more abort : Bool) (s : State), admitted controlDesk h s →
    let refused (code : RefusalCode) : Prop :=
      exec (.batchItem h account serial more abort) s = .next (replied h (.refused code []) (taken s))
    let inRange := 1 ≤ account ∧ account ≤ 65535 ∧ ∀ n, serial = some n → n ≤ 16777215
    let unformed := (serial = none ∧ (abort = true ∨ more = true)) ∨ (abort = true ∧ more = false)
    (¬inRange → refused .range) ∧ (inRange → unformed → refused .malformed) ∧
      (inRange → ¬unformed → s.mode = .setup → refused .mode)) ∧
  (∀ (h : Header) (account serial : Nat) (more : Bool) (s : State), admitted controlDesk h s → s.mode ≠ .setup →
    1 ≤ account → account ≤ 65535 → serial ≤ 16777215 → Table.look s.hire.batches h.station = none →
    s.hire.batches.length < 4 →
    let opened : State :=
      { s with hire :=
        { s.hire with
          batches := Table.put h.station { account := account } s.hire.batches
          batchCounters := { s.hire.batchCounters with opened := bump s.hire.batchCounters.opened } } }
    exec (.batchItem h account (some serial) more false) s = exec (.batchItem h account (some serial) more false) opened) ∧
  (∀ (h : Header) (account : Nat) (s : State), admitted controlDesk h s → s.mode ≠ .setup → 1 ≤ account →
    account ≤ 65535 → Table.look s.hire.batches h.station = none →
    let u := taken s
    (∀ serial, serial ≤ 16777215 →
      exec (.batchItem h account (some serial) true true) s = .next (replied h (.refused .notFound []) u)) ∧
    exec (.batchItem h account none false false) s = .next (replied h (.refused .notFound []) u) ∧
    ∀ serial more, serial ≤ 16777215 → 4 ≤ s.hire.batches.length →
      exec (.batchItem h account (some serial) more false) s =
        .next (replied h (.refused .batchBusy [])
          (countBatch (fun k => { k with busyRefusals := bump k.busyRefusals }) u))) ∧
  (∀ (h : Header) (account : Nat) (b : Batch) (s : State), admitted controlDesk h s → s.mode ≠ .setup → 1 ≤ account →
    account ≤ 65535 → Table.look s.hire.batches h.station = some b →
    let u := taken s
    let numbered : Batch := { b with itemCount := min (b.itemCount + 1) 65535, lastItem := 0 }
    let t := writeBatch h.station numbered u
    let refusal (code : RefusalCode) (item : Nat) : Answer :=
      .refused .batchFailed [.name (refusalText code), .num item]
    let failing (code : RefusalCode) : State :=
      countBatch (fun k => { k with failures := bump k.failures })
        (writeBatch h.station { numbered with state := .failed, failure := some (code, numbered.itemCount) } t)
    let released (x : State) : State :=
      countBatch (fun k => { k with failed := bump k.failed }) (dropBatch h.station (b.items.foldl freeReceiver x))
    let fails (serial : Nat) (code : RefusalCode) : Prop :=
      exec (.batchItem h account (some serial) true false) s =
          .next (replied h (refusal code numbered.itemCount) (failing code)) ∧
        exec (.batchItem h account (some serial) false false) s =
          .next (replied h (refusal code numbered.itemCount) (released (failing code)))
    (∀ code item, b.state = .failed → b.failure = some (code, item) →
      (∀ serial abort, serial ≤ 16777215 →
        exec (.batchItem h account (some serial) true abort) s = .next (replied h (refusal code item) t)) ∧
      ∀ serial, (∀ n, serial = some n → n ≤ 16777215) →
        exec (.batchItem h account serial false false) s = .next (replied h (refusal code item) (released t))) ∧
    (b.state = .opened → b.account ≠ account →
      (∀ serial, serial ≤ 16777215 →
        fails serial .malformed ∧
          exec (.batchItem h account (some serial) true true) s =
            .next (replied h (refusal .malformed numbered.itemCount) (failing .malformed))) ∧
        exec (.batchItem h account none false false) s =
          .next (replied h (refusal .malformed numbered.itemCount) (released (failing .malformed)))) ∧
    (b.state = .opened → b.account = account →
      (∀ serial, serial ≤ 16777215 → serial ∈ b.items →
        exec (.batchItem h account (some serial) true false) s =
          .next (replied h (.accepted [.num numbered.itemCount, .name "OPEN", .num b.items.length]) t)) ∧
      (∀ serial, serial ≤ 16777215 → serial ∉ b.items →
        exec (.batchItem h account (some serial) true true) s = .next (replied h (.refused .notFound []) t)) ∧
      (∀ serial, serial ≤ 16777215 → serial ∉ b.items → 32 ≤ b.items.length → fails serial .batchFull) ∧
      (∀ serial, serial ≤ 16777215 → serial ∉ b.items → b.items.length < 32 →
        (s.receiverBySerial serial = none → fails serial .notFound) ∧
        ∀ slot r, s.receiverBySerial serial = some (slot, r) →
          (r.state = .issued ∨ r.state = .overdue → fails serial .onLoan) ∧ (r.state = .held → fails serial .held) ∧
          (r.state = .returnPending → fails serial .pending) ∧ (r.state = .lost → fails serial .lost) ∧
          (r.state = .withdrawn → fails serial .withdrawn) ∧
          (r.state = .available →
            (∀ level, r.battery = some level → level < s.params.issueThreshold → fails serial .battery) ∧
            ((∀ level, r.battery = some level → s.params.issueThreshold ≤ level) →
              (s.accountByNumber account = none → fails serial .notFound) ∧
              ∀ n a, s.accountByNumber account = some (n, a) → a.state = .suspended → fails serial .accountState))) ∧
      ∀ n a, s.accountByNumber account = some (n, a) →
        (a.state = .suspended →
          exec (.batchItem h account none false false) s =
            .next (replied h (refusal .accountState numbered.itemCount) (released (failing .accountState)))) ∧
        (a.state = .opened → a.loanLimit < a.openLoans + b.items.length →
          exec (.batchItem h account none false false) s =
            .next (replied h (refusal .limit numbered.itemCount) (released (failing .limit)))))) ∧
  ∀ (h : Header) (account : Nat) (s : State), admitted controlDesk h s → s.mode ≠ .setup → 1 ≤ account →
    account ≤ 65535 →
    let u := taken s
    let closed (items : List Nat) (x : State) : Host.Outcome State Fault Refusal :=
      let done := items.foldl (issueItem account) (x, [])
      .next (replied h (.accepted (listFields done.2 fun e => [.num e.1, .num e.2]))
        (countBatch (fun k => { k with issued := bump k.issued }) (dropBatch h.station done.1)))
    (∀ serial slot r n a, serial ≤ 16777215 → Table.look s.hire.batches h.station = none → s.hire.batches.length < 4 →
      s.receiverBySerial serial = some (slot, r) → r.state = .available →
      (∀ level, r.battery = some level → s.params.issueThreshold ≤ level) → s.accountByNumber account = some (n, a) →
      a.state = .opened → a.openLoans + 1 ≤ a.loanLimit →
      let first : Batch := { account := account, itemCount := 1, lastItem := 0 }
      exec (.batchItem h account (some serial) false false) s =
        closed [serial]
          (countBatch (fun k => { k with itemsHeld := bump k.itemsHeld })
            (writeBatch h.station { first with items := [serial] }
              (writeReceiver slot { r with state := .held, batch := some h.station }
                (writeBatch h.station first (countBatch (fun k => { k with opened := bump k.opened }) u)))))) ∧
    (∀ serial slot r n a, serial ≤ 16777215 → Table.look s.hire.batches h.station = none → s.hire.batches.length < 4 →
      s.receiverBySerial serial = some (slot, r) → r.state = .available →
      (∀ b, r.battery = some b → s.params.issueThreshold ≤ b) → s.accountByNumber account = some (n, a) →
      a.state = .opened →
      ∃ t, exec (.batchItem h account (some serial) true false) s =
          .next (replied h (.accepted [.num 1, .name "OPEN", .num 1]) t) ∧
        Table.look t.hire.batches h.station =
          some { account := account, items := [serial], itemCount := 1, lastItem := 0 } ∧
        Table.look t.hire.receivers slot = some { r with state := .held, batch := some h.station } ∧
        t.hire.batchCounters =
          { s.hire.batchCounters with
            opened := bump s.hire.batchCounters.opened, itemsHeld := bump s.hire.batchCounters.itemsHeld } ∧
        t.acct = s.acct ∧ t.loop = s.loop ∧ t.booth = s.booth ∧ t.air = s.air ∧ t.time = s.time ∧ t.supply = s.supply) ∧
    ∀ b, Table.look s.hire.batches h.station = some b → b.state = .opened → b.account = account →
      let numbered : Batch := { b with itemCount := min (b.itemCount + 1) 65535, lastItem := 0 }
      let t := writeBatch h.station numbered u
      let listReply (k : Batch) : Answer := .accepted [.num numbered.itemCount, .name "OPEN", .num k.items.length]
      (∀ serial slot r n a, serial ≤ 16777215 → serial ∉ b.items → b.items.length < 32 →
        s.receiverBySerial serial = some (slot, r) → r.state = .available →
        (∀ level, r.battery = some level → s.params.issueThreshold ≤ level) → s.accountByNumber account = some (n, a) →
        a.state = .opened →
        let longer := { numbered with items := b.items ++ [serial] }
        exec (.batchItem h account (some serial) true false) s =
          .next (replied h (listReply longer)
            (countBatch (fun k => { k with itemsHeld := bump k.itemsHeld })
              (writeBatch h.station longer (writeReceiver slot { r with state := .held, batch := some h.station } t))))) ∧
      (∀ serial, serial ≤ 16777215 → serial ∉ b.items → b.items.length < 32 → s.receiverBySerial serial = none →
        exec (.batchItem h account (some serial) true false) s =
          .next (replied h (.refused .batchFailed [.name "NOT_FOUND", .num numbered.itemCount])
            (countBatch (fun k => { k with failures := bump k.failures })
              (writeBatch h.station
                { numbered with state := .failed, failure := some (.notFound, numbered.itemCount) } t)))) ∧
      (∀ serial slot r, serial ≤ 16777215 → serial ∈ b.items → s.receiverBySerial serial = some (slot, r) →
        let shorter := { numbered with items := b.items.filter fun x => x ≠ serial }
        exec (.batchItem h account (some serial) true true) s =
          .next (replied h (listReply shorter)
            (countBatch (fun k => { k with itemsAborted := bump k.itemsAborted })
              (writeBatch h.station shorter (writeReceiver slot { r with state := .available, batch := none } t))))) ∧
      ∀ n a, s.accountByNumber account = some (n, a) → a.state = .opened →
        (a.openLoans + b.items.length ≤ a.loanLimit →
          exec (.batchItem h account none false false) s = closed b.items t ∧
          ∀ serial, serial ≤ 16777215 → serial ∈ b.items →
            exec (.batchItem h account (some serial) false false) s = closed b.items t) ∧
        ∀ serial slot r, serial ≤ 16777215 → serial ∉ b.items → b.items.length < 32 →
          s.receiverBySerial serial = some (slot, r) → r.state = .available →
          (∀ level, r.battery = some level → s.params.issueThreshold ≤ level) →
          a.openLoans + (b.items.length + 1) ≤ a.loanLimit →
          exec (.batchItem h account (some serial) false false) s =
            closed (b.items ++ [serial])
              (countBatch (fun k => { k with itemsHeld := bump k.itemsHeld })
                (writeBatch h.station { numbered with items := b.items ++ [serial] }
                  (writeReceiver slot { r with state := .held, batch := some h.station } t)))

/-! ### Accounts -/

/-- Started blocks, charges and amounts (R138). -/
def Obligations.ChargesByTheStartedBlock : Prop :=
  (∀ minutes len, 0 < len →
    startedBlocks 0 len = 0 ∧ minutes ≤ startedBlocks minutes len * len ∧ startedBlocks minutes len * len < minutes + len) ∧
  ∀ (t : Tariff) (chargeable overdue : Nat),
    let loan := min (startedBlocks chargeable t.blockLength * t.blockRate) t.loanCap
    let late := startedBlocks overdue t.blockLength * t.overdueRate
    amountOf t .returned chargeable overdue = min 16777215 (loan + late) ∧
      amountOf t .lost chargeable overdue = min 16777215 (loan + late + t.lostCharge) ∧
      amountOf t .recovered chargeable overdue = min 16777215 t.lostCharge

/-- Posting a statement (R142, R143): the queue, the balance of the account with its number, the counters. -/
def Obligations.PostingAppliesTheAmount : Prop :=
  ∀ (st : Statement) (s : State),
    let t := postStatement st s
    t.acct.statements = s.acct.statements ++ [st] ∧
      t.acct.counters.posted = bump s.acct.counters.posted ∧
      (512 ≤ s.acct.statements.length + 1 → t.flagged .statementsFull = true) ∧
      (s.params.highWater ≤ s.acct.statements.length + 1 → t.flagged .statementsHigh = true) ∧
      (s.accountByNumber st.account = none →
        t.acct.accounts = s.acct.accounts ∧ t.acct.counters.orphans = bump s.acct.counters.orphans) ∧
      (∀ n a, s.accountByNumber st.account = some (n, a) → st.kind ≠ .recovered →
        t.acct.accounts =
            Table.put n
              { a with
                balance := min 16777215 (a.balance + st.amount)
                saturated := a.saturated || decide (16777215 < a.balance + st.amount)
                listening := min (a.listening + st.listening) 4294967295
                posted := bump a.posted } s.acct.accounts ∧
          (16777215 < a.balance + st.amount → t.flagged .balanceSaturated = true)) ∧
      ∀ n a, s.accountByNumber st.account = some (n, a) → st.kind = .recovered →
        t.acct.accounts =
            Table.put n
              { a with
                balance := a.balance - st.amount
                listening := min (a.listening + st.listening) 4294967295
                posted := bump a.posted } s.acct.accounts ∧
          t.acct.counters.credits = bump s.acct.counters.credits

/-- ACCOUNT LOAD, RESUME, CLOSE and CLEAR BALANCE (R129 to R132), with the refusals of each, those of CLOSE in the order R131 checks
them; a SUSPEND, and an ACCOUNT LOAD that takes a channel away, are followed by the revocation pass over the account's loans, and
the reply carries the number it revoked (R78, R130). That ACCOUNT LOAD's reply says created or changed as yes or no is the model's
reading (log 15), as are the access set in rising order (log 19) and the 0 in the reply to a SUSPEND without effect (log 35). -/
def Obligations.AccountRequests : Prop :=
  (∀ (account : Nat) (s : State),
    revokeAccount account s = revocationPass (fun r => r.loan.any fun l => decide (l.account = account)) s) ∧
  (∀ (h : Header) (account : Nat) (s : State), admitted controlOnly h s → 1 ≤ account → account ≤ 65535 →
     let u := taken s
     let refused (code : RefusalCode) : Host.Outcome State Fault Refusal := .next (replied h (.refused code []) u)
     let owing := ∃ e ∈ s.hire.receivers, e.2.state = .returnPending ∧ ∃ l, e.2.loan = some l ∧ l.account = account
     let gathering := ∃ e ∈ s.hire.batches, e.2.account = account
     (s.accountByNumber account = none →
       exec (.suspend h account) s = refused .notFound ∧ exec (.resume h account) s = refused .notFound ∧
         exec (.close h account) s = refused .notFound ∧
         ∀ expected, expected ≤ 16777215 → exec (.clearBalance h account expected) s = refused .notFound) ∧
     (∀ expected, 16777215 < expected → exec (.clearBalance h account expected) s = refused .range) ∧
     (∀ cls limit access, access.length ≤ 48 → ¬(cls ≤ 7 ∧ 1 ≤ limit ∧ limit ≤ 2048 ∧ ∀ c ∈ access, isChannel c = true) →
       exec (.accountLoad h account cls limit access) s = refused .range) ∧
     (∀ cls limit access, cls ≤ 7 → 1 ≤ limit → limit ≤ 2048 → (∀ c ∈ access, isChannel c = true) → access.length ≤ 48 →
       (¬access.Nodup → exec (.accountLoad h account cls limit access) s = refused .malformed) ∧
       (access.Nodup → (s.tariff cls).defined = false → exec (.accountLoad h account cls limit access) s = refused .range) ∧
       (access.Nodup → (s.tariff cls).defined = true → s.accountByNumber account = none →
         256 ≤ s.acct.accounts.length → exec (.accountLoad h account cls limit access) s = refused .tableFull)) ∧
     (∀ cls limit access, cls ≤ 7 → 1 ≤ limit → limit ≤ 2048 → (∀ c ∈ access, isChannel c = true) → access.Nodup →
       access.length ≤ 48 → (s.tariff cls).defined = true → s.accountByNumber account = none →
       s.acct.accounts.length < 256 →
       exec (.accountLoad h account cls limit access) s =
         .next (replied h (.accepted [.flag true, .num 0])
           { u with acct :=
             { u.acct with
               accounts :=
                 Table.put (Table.firstFree s.acct.accounts 1)
                   { number := account, cls := cls, loanLimit := limit
                     access := (upTo 48).filter fun c => decide (c ∈ access) } u.acct.accounts
               counters := { u.acct.counters with created := bump u.acct.counters.created } } })) ∧
     ∀ n a, s.accountByNumber account = some (n, a) →
       (∀ cls limit access, cls ≤ 7 → 1 ≤ limit → limit ≤ 2048 → (∀ c ∈ access, isChannel c = true) → access.Nodup →
         access.length ≤ 48 → (s.tariff cls).defined = true →
         let set := (upTo 48).filter fun c => decide (c ∈ access)
         let changed := u.writeAccount n { a with cls := cls, loanLimit := limit, access := set }
         (limit < a.openLoans →
           exec (.accountLoad h account cls limit access) s = refused .limit) ∧
         (a.openLoans ≤ limit → (∀ c ∈ a.access, c ∈ access) →
           (∀ c ∈ a.access, isChannel c = true) →
           exec (.accountLoad h account cls limit access) s =
             .next (replied h (.accepted [.flag false, .num 0]) changed)) ∧
         (∀ c, a.openLoans ≤ limit → c ∈ a.access → c ∉ access →
           exec (.accountLoad h account cls limit access) s =
             .next (replied h (.accepted [.flag false, .num (revokeAccount account changed).2])
               (revokeAccount account changed).1))) ∧
       exec (.resume h account) s =
           .next (replied h (.accepted [])
             { u with acct := { u.acct with accounts := Table.put n { a with state := .opened } u.acct.accounts } }) ∧
         (∀ expected, expected ≤ 16777215 → expected ≠ a.balance →
           exec (.clearBalance h account expected) s = .next (replied h (.refused .changed [.num a.balance]) u)) ∧
         exec (.clearBalance h account a.balance) s =
           .next (if a.balance ≤ 16777215 then
             replied h (.accepted [])
               { u with acct :=
                 { u.acct with
                   accounts := Table.put n { a with balance := 0, saturated := false } u.acct.accounts
                   counters := { u.acct.counters with cleared := bump u.acct.counters.cleared } } }
             else replied h (.refused .range []) u) ∧
         (0 < a.openLoans → exec (.close h account) s = refused .onLoan) ∧
         (a.openLoans = 0 → owing → exec (.close h account) s = refused .pending) ∧
         (a.openLoans = 0 → ¬owing → gathering → exec (.close h account) s = refused .held) ∧
         (a.openLoans = 0 → ¬owing → ¬gathering → a.balance ≠ 0 → exec (.close h account) s = refused .balance) ∧
         (a.openLoans = 0 → ¬owing → ¬gathering → a.balance = 0 →
           exec (.close h account) s =
             .next (replied h (.accepted [.num a.listening, .num a.posted])
               { u with acct :=
                 { u.acct with
                   accounts := Table.drop n u.acct.accounts
                   counters := { u.acct.counters with closed := bump u.acct.counters.closed } } }))) ∧
  (∀ (h : Header) (account : Nat) (s : State), admitted controlOnly h s → isAccount account = false →
    let refused := Host.Outcome.next (replied h (.refused .range []) (taken s))
    exec (.suspend h account) s = refused ∧ exec (.resume h account) s = refused ∧ exec (.close h account) s = refused ∧
      (∀ expected, exec (.clearBalance h account expected) s = refused) ∧
      ∀ cls limit access, access.length ≤ 48 → exec (.accountLoad h account cls limit access) s = refused) ∧
  (∀ (h : Header) (account cls limit : Nat) (access : List Nat) (s : State), admitted controlOnly h s →
    48 < access.length →
    exec (.accountLoad h account cls limit access) s =
      .next (replied h (.refused .malformed [])
        (countServ (fun k => { k with malformed := bump k.malformed }) (messageReceived s)))) ∧
  ∀ (h : Header) (account n : Nat) (a : Account) (s : State), admitted controlOnly h s → 1 ≤ account → account ≤ 65535 →
    s.accountByNumber account = some (n, a) →
    (a.state = .suspended → exec (.suspend h account) s = .next (replied h (.accepted [.num 0]) (taken s))) ∧
    (a.state = .opened →
      let closed := (taken s).writeAccount n { a with state := .suspended }
      exec (.suspend h account) s =
        .next (replied h (.accepted [.num (revokeAccount account closed).2]) (revokeAccount account closed).1))

/-- RELEASE STATEMENTS, refused with RANGE or CHANGED, with the posting of the pending returns while the list lasts and the
statement queue holds fewer than 512 (R106, R145); CLEAR DUTY TOTALS, which changes the totals and unlogged marks of the 24 booths
and the totals of the 72 consoles and nothing else (R155); RELEASE DUTY, refused with RANGE and the length of the complete run
(R157), without it above 256, which is the model's reading (log 37); and CUT DUTY (R158): what it completes, and for each booth in
ascending order its continuation, or with 256 entries the booth marked, the overflow counted, DUTY_FULL set and the booth named in
the reply. -/
def Obligations.RecordsAreReleasedAndCut : Prop :=
  ∀ (h : Header) (s : State), admitted controlOnly h s →
    let u := taken s
    (∀ n head, n ≤ s.acct.statements.length → n ≤ 512 →
      (∀ kind loan, head = some (kind, loan) →
        ∃ st ∈ s.acct.statements.head?, kind = some st.kind ∧ loan = st.loan) →
      let shorter : State :=
        { u with acct :=
          { u.acct with
            statements := u.acct.statements.drop n
            counters := { u.acct.counters with released := min (u.acct.counters.released + n) 4294967295 } } }
      let posted := postPendings s.hire.pendingList (shorter, 0)
      exec (.releaseStatements h n head) s =
          .next (replied h (.accepted [.num n, .num posted.2, .num posted.1.acct.statements.length]) posted.1) ∧
        (s.hire.pendingList = [] → posted = (shorter, 0))) ∧
    (∀ n head, s.acct.statements.length < n ∨ 512 < n →
      exec (.releaseStatements h n head) s = .next (replied h (.refused .range []) u)) ∧
    (∀ n kind loan, n ≤ s.acct.statements.length → n ≤ 512 →
      (∀ st ∈ s.acct.statements.head?, kind ≠ some st.kind ∨ loan ≠ st.loan) →
      exec (.releaseStatements h n (some (kind, loan))) s = .next (replied h (.refused .changed []) u)) ∧
    (let run := (s.acct.duty.takeWhile fun e => e.status ≠ .opened).length
      ∀ n, (256 < n → exec (.releaseDuty h n) s = .next (replied h (.refused .range []) u)) ∧
        (n ≤ 256 → run < n → exec (.releaseDuty h n) s = .next (replied h (.refused .range [.num run]) u))) ∧
    (∀ n, n ≤ 256 → n ≤ (s.acct.duty.takeWhile fun e => e.status ≠ .opened).length →
      exec (.releaseDuty h n) s =
        .next (replied h (.accepted [])
          { u with acct :=
            { u.acct with
              duty := u.acct.duty.drop n
              dutyCounters :=
                { u.acct.dutyCounters with released := min (u.acct.dutyCounters.released + n) 4294967295 } } })) ∧
    (let ends := s.acct.duty.countP fun e => decide (e.status = .opened)
      let cut : State :=
        { u with acct :=
          { s.acct with
            duty := s.acct.duty.map fun e =>
              if e.status = .opened then { e with stop := some s.now, reason := some .cut, status := .complete } else e
            dutyCounters :=
              { s.acct.dutyCounters with
                cuts := bump s.acct.dutyCounters.cuts
                completed := min (s.acct.dutyCounters.completed + ends) 4294967295 } } }
      let done := (upTo 24).foldl continueBooth (cut, 0, [])
      exec (.cutDuty h) s =
          .next (replied h
            (.accepted ([.num ends, .num done.2.1] ++ listFields done.2.2 (fun b => [.num b])))
            done.1) ∧
        ((∀ b, isBooth b = true → (s.boothRec b).onAir = false) → done = (cut, 0, []))) ∧
    (∃ t, exec (.clearDutyTotals h) s = .next (replied h (.accepted []) t) ∧
      (∀ b, isBooth b = true → t.boothRec b = { s.boothRec b with liveMinutes := 0, unlogged := false }) ∧
      (∀ n, isSlot n = true → t.console n = { s.console n with liveMinutes := 0 }) ∧
      (∀ b, isBooth b = false → t.boothRec b = s.boothRec b) ∧ (∀ n, isSlot n = false → t.console n = s.console n) ∧
      t = { u with booth := t.booth } ∧ t.booth.floorBlock = s.booth.floorBlock) ∧
    (∀ (b slot channel : Nat) (n : Nat) (without : List Nat), FloorState.console (s.boothRec b).floor = some slot →
      (s.boothRec b).selected = some channel → s.acct.duty.length < 256 →
      continueBooth (s, n, without) b =
        ({ s with acct :=
          { s.acct with
            duty := s.acct.duty ++
              [{ slot := slot, booth := b, channel := channel, start := s.now, startMinute := s.time.sessionMinute
                 continued := true }]
            dutyCounters :=
              { s.acct.dutyCounters with continuations := bump s.acct.dutyCounters.continuations } } }, n + 1, without)) ∧
    (∀ (b slot channel : Nat) (n : Nat) (without : List Nat), FloorState.console (s.boothRec b).floor = some slot →
      (s.boothRec b).selected = some channel → 256 ≤ s.acct.duty.length →
      let marked := s.modBooth b fun x => { x with unlogged := true }
      continueBooth (s, n, without) b =
        (setFlag .dutyFull
          { marked with acct :=
            { s.acct with
              dutyCounters := { s.acct.dutyCounters with overflows := bump s.acct.dutyCounters.overflows } } },
          n, without ++ [b])) ∧
    (∀ (b n : Nat) (without : List Nat), (s.boothRec b).floor = .silent →
      continueBooth (s, n, without) b = (s, n, without)) ∧
    (∀ (waiting : List Nat) (n : Nat), waiting = [] ∨ 512 ≤ s.acct.statements.length →
      postPendings waiting (s, n) = (s, n)) ∧
    ∀ (slot n : Nat) (rest : List Nat) (r : Receiver) (l : Loan) (p : PendingPart),
      Table.look s.hire.receivers slot = some r → r.loan = some l → r.pend = some p → s.acct.statements.length < 512 →
      s.hire.pendingList = slot :: rest →
      postPendings (slot :: rest) (s, n) =
        postPendings rest
          (writeReceiver slot { r with loan := none, pend := none, state := .available }
            (countAcct (fun k => { k with pendingPostings := bump k.pendingPostings })
              (postStatement (statementOf p.kind l r.serial p.returnClock p.amount)
                { s with hire := { s.hire with pendingList := rest } })), n + 1)

/-! ### Clock, mode and supply -/

/-- The hall clock keeps a date and a time of day, and its seconds roll over as the calendar says (R163); SET CLOCK, LOAD of an
alarm and CLEAR ALARM, with a value, an alarm name or a field out of range refused with RANGE (R167 to R169, R173). -/
def Obligations.TheClockKeepsTheCalendar : Prop :=
  ((∀ c d : Clock, clockFits c = true → nextSecond c = some d → clockFits d = true) ∧
   (∀ c : Clock, clockFits c = true → (nextSecond c = none ↔ c = ⟨2099, 12, 31, 23, 59, 59⟩)) ∧
   (∀ c : Clock, c.second < 59 → nextSecond c = some { c with second := c.second + 1 }) ∧
   (∀ year month day hour minute second : Nat, 59 ≤ second →
     (minute < 59 →
       nextSecond ⟨year, month, day, hour, minute, second⟩ = some ⟨year, month, day, hour, minute + 1, 0⟩) ∧
     (59 ≤ minute → hour < 23 →
       nextSecond ⟨year, month, day, hour, minute, second⟩ = some ⟨year, month, day, hour + 1, 0, 0⟩) ∧
     (59 ≤ minute → 23 ≤ hour → day < daysIn year month →
       nextSecond ⟨year, month, day, hour, minute, second⟩ = some ⟨year, month, day + 1, 0, 0, 0⟩) ∧
     (59 ≤ minute → 23 ≤ hour → daysIn year month ≤ day → month < 12 →
       nextSecond ⟨year, month, day, hour, minute, second⟩ = some ⟨year, month + 1, 1, 0, 0, 0⟩) ∧
     (59 ≤ minute → 23 ≤ hour → daysIn year month ≤ day → 12 ≤ month → year < 2099 →
       nextSecond ⟨year, month, day, hour, minute, second⟩ = some ⟨year + 1, 1, 1, 0, 0, 0⟩)) ∧
   (∀ year, daysIn year 2 = (if year % 4 = 0 then 29 else 28)) ∧
   (∀ year month, month ∈ [4, 6, 9, 11] → daysIn year month = 30) ∧
   (∀ year month, month ∈ [1, 3, 5, 7, 8, 10, 12] → daysIn year month = 31) ∧
   (∀ (s : State) (c : Clock), nextSecond s.now = some c → advanceClock s = { s with time := { s.time with clock := c } }) ∧
   ∀ s : State, nextSecond s.now = none →
     advanceClock s = { s with time := { s.time with clock := ⟨2000, 1, 1, 0, 0, 0⟩, valid := false } }) ∧
  ∀ (h : Header) (s : State), admitted controlOnly h s →
    let u := taken s
    (∀ value, clockFits value = false → exec (.setClock h value) s = .next (replied h (.refused .range []) u)) ∧
    (∀ name day dayOn hour hourOn minute minuteOn,
      name = none ∨ ¬(1 ≤ day ∧ day ≤ 31 ∧ hour ≤ 23 ∧ minute ≤ 59) →
      exec (.loadAlarm h name day dayOn hour hourOn minute minuteOn) s = .next (replied h (.refused .range []) u)) ∧
    exec (.clearAlarm h none) s = .next (replied h (.refused .range []) u) ∧
    (∀ value, clockFits value = true →
      let r : ClockSet := ⟨if s.time.valid = true then some s.now else none, value, s.time.sessionMinute⟩
      let before : List Field :=
        if s.time.valid = true then [.kind false, .clock s.now] else [.kind true, .name "INVALID"]
      exec (.setClock h value) s =
        .next (replied h (.accepted (before ++ [.clock value, .num s.time.sessionMinute]))
          { u with time :=
            { u.time with
              clock := value, valid := true, clockSet := some r
              counters := { u.time.counters with sets := bump u.time.counters.sets } } })) ∧
    (∀ name day dayOn hour hourOn minute minuteOn, 1 ≤ day → day ≤ 31 → hour ≤ 23 → minute ≤ 59 →
      exec (.loadAlarm h (some name) day dayOn hour hourOn minute minuteOn) s =
        .next (replied h (.accepted [])
          (modAlarm name (fun a =>
            { day := day, dayOn := dayOn, hour := hour, hourOn := hourOn, minute := minute, minuteOn := minuteOn
              matched := false, lastMatch := none, pendingEffect := a.pendingEffect }) u))) ∧
    ∀ name, exec (.clearAlarm h (some name)) s =
      .next (replied h (.accepted []) (modAlarm name (fun a => { a with matched := false }) u))

/-- SET MODE (R177, R178, R182): a mode out of range refused with RANGE, no effect, REHEARSAL from SESSION, a check passed, or
failed with its item, by the name of R181, and its index, and entry to SETUP (R179): with the mode already SETUP booths 1 to 24 are
forced SILENT with end reason MODE (R48; what that does to each is written out in ForcedSilence), the floor queue is emptied (R21),
and every open batch is released (what becomes of its receivers is written out in BatchItems), closed and counted as abandoned
(R122). -/
def Obligations.SetMode : Prop :=
  [CheckItem.consoleBooth, .boothChannel, .sharedA, .bEqualsA, .relayGraph, .clockInvalid, .tariffUndefined].map checkText =
    ["CONSOLE_BOOTH", "BOOTH_CHANNEL", "SHARED_A", "B_EQUALS_A", "RELAY_GRAPH", "CLOCK_INVALID", "TARIFF_UNDEFINED"] ∧
  ∀ (h : Header) (m : Mode) (s : State), admitted controlOnly h s →
    let u := taken s
    let changed := { u with supply :=
      { u.supply with
        mode := m
        counters := { u.supply.counters with modeChanges := bump u.supply.counters.modeChanges } } }
    let modes : List Field := [.name (modeText s.mode), .name (modeText m)]
    exec (.setMode h none) s = .next (replied h (.refused .range []) u) ∧
    (m = s.mode → exec (.setMode h (some m)) s = .next (replied h (.accepted modes) u)) ∧
    (s.mode = .session → m = .rehearsal → exec (.setMode h (some m)) s = .next (replied h (.accepted modes) changed)) ∧
    (m ≠ s.mode → m ≠ .setup → ¬(s.mode = .session ∧ m = .rehearsal) → commissioning s m = none →
      exec (.setMode h (some m)) s = .next (replied h (.accepted modes) changed)) ∧
    (∀ item index, m ≠ s.mode → m ≠ .setup → ¬(s.mode = .session ∧ m = .rehearsal) →
      commissioning s m = some (item, index) →
      exec (.setMode h (some m)) s =
        .next (replied h (.refused .checkFailed [.name (checkText item), .num index])
          (countMode (fun k => { k with checkFailures := bump k.checkFailures }) u))) ∧
    (s.mode ≠ .setup → m = .setup →
      let silent := (upTo 24).foldl (fun t b => goSilent b .mode t) changed
      let emptied := { silent with switch := { silent.switch with floorQueue := [] } }
      exec (.setMode h (some m)) s =
        .next (replied h
          (.accepted (modes ++
            [.num ((upTo 24).countP fun b => (s.boothRec b).onAir), .num s.hire.batches.length]))
          ((s.hire.batches.map (·.1)).foldl abandonBatch emptied))) ∧
    ∀ station b, Table.look s.hire.batches station = some b →
      let freed := b.items.foldl freeReceiver s
      abandonBatch s station =
        { freed with hire :=
          { freed.hire with
            batches := Table.drop station freed.hire.batches
            batchCounters := { freed.hire.batchCounters with abandoned := bump freed.hire.batchCounters.abandoned } } }

/-- The commissioning check tests its items in order, the records of an item in ascending order of its index, and names the first
item and record that fails; the check passes when nothing fails (R181). -/
def Obligations.CommissioningCheck : Prop :=
  (∀ s : State,
    let fails (item : CheckItem) (n : Nat) : Prop :=
      match item with
      | .consoleBooth => isSlot n = true ∧ (s.console n).configured = true ∧ (s.console n).booth = none
      | .boothChannel =>
        isBooth n = true ∧ (s.boothRec n).aChannel = none ∧
          ∃ k, isSlot k = true ∧ (s.console k).configured = true ∧ (s.console k).booth = some n
      | .sharedA =>
        isBooth n = true ∧ ∃ b c, 1 ≤ b ∧ b < n ∧ (s.boothRec b).aChannel = some c ∧ (s.boothRec n).aChannel = some c
      | .bEqualsA => isBooth n = true ∧ ∃ c, (s.boothRec n).bChannel = some c ∧ (s.boothRec n).aChannel = some c
      | .relayGraph => isBooth n = true ∧ ∀ d, relayDepthOf s.relay n = some d → 3 < d
      | .clockInvalid => n = 0 ∧ s.time.valid = false
      | .tariffUndefined => ∃ e ∈ s.acct.accounts, e.2.number = n ∧ (s.tariff e.2.cls).defined = false
    ∀ m : Mode, m ≠ .setup →
      let tested : List CheckItem :=
        if m = .session then
          [.consoleBooth, .boothChannel, .sharedA, .bEqualsA, .relayGraph, .clockInvalid, .tariffUndefined]
        else [.consoleBooth, .boothChannel, .sharedA, .bEqualsA, .relayGraph]
      (∀ item n, commissioning s m = some (item, n) ↔
        item ∈ tested ∧ fails item n ∧ (∀ k, k < n → ¬fails item k) ∧
          ∀ earlier ∈ tested.takeWhile (fun i => i ≠ item), ∀ k, ¬fails earlier k) ∧
      (commissioning s m = none ↔ ∀ item ∈ tested, ∀ k, ¬fails item k)) ∧
  ∀ s : State, commissioning s .rehearsal = none → RelayFits s

/-- CLEAR NOTICES and CLEAR COUNTERS (R196, R197, R19), with a name that is none refused with RANGE, a flag named twice and an empty
list with MALFORMED; that RANGE goes before MALFORMED is the model's reading (log 45). Clearing a group of counters leaves
everything else as it is: of the channels also the other group, channel 0 and the floor queue. The names of the seventeen flags, and
setting one (R195): a set flag stays set and sends nothing; a clear one becomes set, and one NOTICE for each station that wants it,
in ascending order, is queued and counted while the outbound queue holds fewer than 32 messages, and dropped and counted from there
on (R193). That CLEAR NOTICES replies with the seventeen flags as yes and no is the model's reading (log 15). -/
def Obligations.NoticesAreSetOnceAndCleared : Prop :=
  (∀ (h : Header) (s : State),
     let u := taken s
     (∀ named : List NoticeFlag, admitted controlMonitor h s → named ≠ [] → named.Nodup →
       let left := { u with serv := { u.serv with flags := u.serv.flags.filter fun f => decide (f ∉ named) } }
       exec (.clearNotices h (named.map some)) s =
         .next (replied h (.accepted (NoticeFlag.all.map fun f => .flag (left.flagged f))) left)) ∧
     (admitted controlMonitor h s →
       let refused (code : RefusalCode) (flags : List (Option NoticeFlag)) : Prop :=
         exec (.clearNotices h flags) s = .next (replied h (.refused code []) u)
       (∀ flags, none ∈ flags → refused .range flags) ∧
         (∀ named : List NoticeFlag, ¬named.Nodup → refused .malformed (named.map some)) ∧
         exec (.clearNotices h []) s =
           .next (replied h (.refused .malformed [])
             (countServ (fun k => { k with malformed := bump k.malformed }) (messageReceived s)))) ∧
     (admitted controlOnly h s → exec (.clearCounters h none) s = .next (replied h (.refused .range []) u)) ∧
     (admitted controlOnly h s → ∃ t,
       exec (.clearCounters h (some .channels)) s = .next (replied h (.accepted []) t) ∧
         (∀ c, isChannel c = true → t.chan c = { s.chan c with underruns := 0, dropped := 0 }) ∧
         (∀ c, isChannel c = false → t.chan c = s.chan c) ∧
         t.switch.floorUnderruns = 0 ∧ t.switch.floorDropped = 0 ∧ t.switch.floorQueue = s.switch.floorQueue ∧
         t = { u with switch := t.switch }) ∧
     (admitted controlOnly h s → ∃ t,
       exec (.clearCounters h (some .channelMinutes)) s = .next (replied h (.accepted []) t) ∧
         (∀ c, c ≤ 48 → t.chan c = { s.chan c with listenerMinutes := 0, fallbackMinutes := 0 }) ∧
         (∀ c, 48 < c → t.chan c = s.chan c) ∧ t.switch.floorQueue = s.switch.floorQueue ∧
         t.switch.floorUnderruns = s.switch.floorUnderruns ∧ t.switch.floorDropped = s.switch.floorDropped ∧
         t = { u with switch := t.switch }) ∧
     (admitted controlOnly h s →
       let cleared (g : CounterGroup) (t : State) : Prop :=
         exec (.clearCounters h (some g)) s = .next (replied h (.accepted []) t)
       cleared .loop { u with loop := { u.loop with counters := {} } } ∧
       cleared .air { u with air := { u.air with counters := {} } } ∧
       cleared .hire { u with hire := { u.hire with counters := {} } } ∧
       cleared .batches { u with hire := { u.hire with batchCounters := {} } } ∧
       cleared .accounts { u with acct := { u.acct with counters := {} } } ∧
       cleared .duty { u with acct := { u.acct with dutyCounters := {} } } ∧
       cleared .clock { u with time := { u.time with counters := {} } } ∧
       cleared .mode { u with supply := { u.supply with counters := {} } } ∧
       cleared .service { u with serv := { u.serv with counters := {} } }) ∧
     (admitted controlOnly h s → ∃ t,
       exec (.clearCounters h (some .consoles)) s = .next (replied h (.accepted []) t) ∧
         (∀ n, isSlot n = true → t.slotState n = { s.slotState n with missed := 0, errors := 0 }) ∧
         (∀ n, isSlot n = false → t.slotState n = s.slotState n) ∧
         { t with loop := { t.loop with slots := [] } } = { u with loop := { u.loop with slots := [] } })) ∧
  NoticeFlag.all.map (fun f => (f, f.text)) =
    [(.loopBroken, "LOOP_BROKEN"), (.consoleAbsent, "CONSOLE_ABSENT"), (.liveLost, "LIVE_LOST"),
     (.channelFallback, "CHANNEL_FALLBACK"), (.turnDue, "TURN_DUE"), (.call, "CALL"), (.returnBy, "RETURN_BY"),
     (.sessionClose, "SESSION_CLOSE"), (.statementsHigh, "STATEMENTS_HIGH"), (.statementsFull, "STATEMENTS_FULL"),
     (.dutyFull, "DUTY_FULL"), (.lostHeard, "LOST_HEARD"), (.unknownReceiver, "UNKNOWN_RECEIVER"),
     (.balanceSaturated, "BALANCE_SATURATED"), (.mainsReturn, "MAINS_RETURN"), (.retentionLost, "RETENTION_LOST"),
     (.backupLow, "BACKUP_LOW")] ∧
  ∀ (f : NoticeFlag) (s : State),
    (s.flagged f = true → setFlag f s = s) ∧
    (setFlag f s).flagged f = true ∧
    (∀ g, g ≠ f → (setFlag f s).flagged g = s.flagged g) ∧
    (s.flagged f = false → s.serv.outbound.length + (noticeStations f s).length ≤ 32 →
      (setFlag f s).serv.outbound =
          s.serv.outbound ++ (noticeStations f s).map fun n => ⟨n, .notice, 0, [.name f.text, .clock s.now]⟩) ∧
    (s.flagged f = false →
      let notices : List Message := (noticeStations f s).map fun n => ⟨n, .notice, 0, [.name f.text, .clock s.now]⟩
      let fits := min notices.length (32 - s.serv.outbound.length)
      setFlag f s =
        { s with serv :=
          { s.serv with
            flags := NoticeFlag.all.filter fun g => decide (g = f) || s.flagged g
            outbound := s.serv.outbound ++ notices.take fits
            counters :=
              { s.serv.counters with
                noticesQueued := Nat.repeat bump fits s.serv.counters.noticesQueued
                noticesDropped := Nat.repeat bump (notices.length - fits) s.serv.counters.noticesDropped } } }) ∧
    (Table.rising s.serv.stations = true → (noticeStations f s).Pairwise (· < ·)) ∧
    (∀ n, n ∈ noticeStations f s ↔
      ∃ e, (n, e) ∈ s.serv.stations ∧ (e.role = .control ∨ e.role = .monitor) ∧ f ∉ e.mask)

/-- Mains loss, the seconds of the backup cell, and the backup-low indication (R184, R174, R188); while mains is lost no other
command but the return of mains has an effect. -/
def Obligations.MainsLossAndBackup : Prop :=
  (∀ (c : Instr) (s : State), s.supply.mainsLost = true → c ≠ .backupSecond → (∀ e, c ≠ .mainsReturn e) →
     exec c s = .next s) ∧
  ∀ s : State,
    (s.supply.mainsLost = false →
      exec .mainsLoss s = .next { s with supply := { s.supply with mainsLost := true, lossStamp := some s.now } } ∧
        exec (.backupLowIndication false) s = .next { s with supply := { s.supply with backupLow := false } } ∧
        (s.supply.backupLow = true → exec (.backupLowIndication true) s = .next s) ∧
        (s.supply.backupLow = false →
          exec (.backupLowIndication true) s =
            .next (setFlag .backupLow
              { s with supply :=
                { s.supply with
                  backupLow := true
                  counters := { s.supply.counters with backupLows := bump s.supply.counters.backupLows } } }))) ∧
    (s.supply.mainsLost = true → ∃ t, exec .backupSecond s = .next { s with time := t } ∧
      t.clock = (nextSecond s.now).getD clockEpoch ∧ t.sessionMinute = s.time.sessionMinute ∧
      (s.now.second < 59 → t.returnBy = s.time.returnBy ∧ t.sessionClose = s.time.sessionClose))

/-- MAINS RETURN: a cold start when the retention check fails; when it passes (R183, R185, R186), the mode is SETUP and the start
record is written. What is kept of each block is listed whole: booth and console records with their configuration and totals,
channel records with their configuration, minutes and stamp, receiver records with their loans, the pending-return list, tariffs,
accounts, statements, the loan number counter, stations, part parameters, alarms and loss stamp. Every booth is SILENT (R49), every
channel unowned (R20), every configured slot ABSENT (R65), OPEN duty entries are completed with POWER at the loss stamp (R159), HELD
receivers AVAILABLE and every receiver UNHEARD (R66, R111), pending alarm effects applied or discarded (R175), the flags of the
start set (R173, R188). The clock is that of the backup cell's count (R162); the outcomes of the environment are operands (log 9).
That State.reset stands for a cold start, and the monitor's indication for it, is log 1; that the ports show nothing is log 20; that
what a start counts stands on counters that begin at 0 is log 30. -/
def Obligations.MainsReturn : Prop :=
  ∀ (e : Sys2Proof.MainsReturn) (s : State), s.supply.mainsLost = true →
    (e.cellHeld = false ∨ e.domainAgrees = false →
      let cold := State.reset.withPending s.pending
      exec (.mainsReturn e) s =
        .next (if e.backupLow = true then
          setFlag .backupLow
            { cold with supply := { cold.supply with backupLow := true, counters := { backupLows := 1 } } }
          else cold)) ∧
    (e.cellHeld = true → e.domainAgrees = true → ∃ t, exec (.mainsReturn e) s = .next t ∧
      let time := (backupCount e.cellTicks s).time
      let stamp := s.supply.lossStamp.getD time.clock
      let applied := time.returnBy.pendingEffect
      t.mode = .setup ∧ t.supply.mainsLost = false ∧ t.supply.lossStamp = s.supply.lossStamp ∧
      t.supply.startRecord = ⟨.powerReturn, t.now⟩ ∧ t.params = s.params ∧ t.supply.backupLow = e.backupLow ∧
      t.supply.counters = { backupLows := if e.backupLow = true then 1 else 0 } ∧
      (∀ f, t.flagged f = true ↔
        f = .mainsReturn ∨ (f = .returnBy ∧ time.returnBy.matched = true) ∨
          (f = .sessionClose ∧ time.sessionClose.matched = true) ∨ (f = .backupLow ∧ e.backupLow = true)) ∧
      t.serv.stations = s.serv.stations ∧ t.serv.toLose = 0 ∧
      (∀ b, t.boothRec b =
        { s.boothRec b with floor := .silent, turn := none, callLatch := false, latest := none }) ∧
      (∀ n, t.console n = { s.console n with cough := false, call := false, lamp := none, displayEnd := none }) ∧
      (∀ c, t.chan c = { s.chan c with owner := none, queue := [], listeners := 0, underruns := 0, dropped := 0 }) ∧
      (∀ n, t.slotState n = if (s.slotState n).presence = .unconfigured then {} else { presence := .absent }) ∧
      t.booth.floorBlock = silence ∧ t.switch = { channels := t.switch.channels } ∧ t.loop = { slots := t.loop.slots } ∧
      t.air = {} ∧
      t.acct.duty =
        s.acct.duty.map (fun d =>
          if d.status = .opened then { d with stop := some stamp, reason := some .power, status := .complete } else d) ∧
      t.acct.dutyCounters =
        { completed := min (s.acct.duty.countP fun d => decide (d.status = .opened)) 4294967295 } ∧
      t.acct.accounts = s.acct.accounts ∧ t.acct.statements = s.acct.statements ∧ t.acct.nextLoan = s.acct.nextLoan ∧
      t.acct.tariffs = s.acct.tariffs ∧ t.acct.counters = {} ∧ t.hire.batchCounters = {} ∧
      t.hire.receivers =
        s.hire.receivers.map (fun x =>
          (x.1,
            { x.2 with
              range := .unheard, lastHeard := none, lastCounter := none, channel := none, batch := none
              state :=
                if x.2.state = .held then .available
                else if x.2.state = .issued ∧ applied = true then .overdue else x.2.state })) ∧
      t.hire.counters =
        { overdueReceivers :=
            if applied = true then
              min (s.hire.receivers.countP fun x => decide (x.2.state = .issued)) 4294967295
            else 0 } ∧
      t.hire.pendingList = s.hire.pendingList ∧ t.hire.batches = [] ∧
      t.time =
        { time with
          returnBy := { time.returnBy with pendingEffect := false }
          sessionClose := { time.sessionClose with pendingEffect := false }
          counters :=
            { pendingApplied := if applied = true then 1 else 0
              pendingDiscarded := if time.sessionClose.pendingEffect = true then 1 else 0 } })

/-- RESTART (R187, R193, R198): SETUP, duty entries completed with RESTART, the reply first in the outbound queue. What is kept of
each block is listed whole: booth and console records with their configuration and totals, channel records with their configuration,
minutes and stamp, receiver records with their loans (HELD made AVAILABLE, every one UNHEARD without a current channel: R66, R111),
the pending-return list, tariffs, accounts, statements, the loan number counter, stations, part parameters, clock and alarms. The
backup state as it stands is the monitor's indication (log 23), what a start counts stands on counters that begin at 0 (log 30), and
the ports show nothing (log 20). The messages that had arrived and were not taken are to be lost; that those are the messages
waiting in the queue, up to a mains loss, is the model's choice (log 42). -/
def Obligations.Restart : Prop :=
  ∀ (h : Header) (s : State), admitted controlOnly h s → ∃ t, exec (.restart h) s = .next t ∧
    t.mode = .setup ∧ t.supply.lossStamp = s.supply.lossStamp ∧ t.supply.startRecord = ⟨.restart, s.now⟩ ∧
    t.params = s.params ∧
    t.serv.outbound.head? = some ⟨h.station, .reply, h.tag, [.name "ACCEPTED", .name "RESTARTED"]⟩ ∧
    (∀ f, t.flagged f = true ↔
      (f = .returnBy ∧ s.time.returnBy.matched = true) ∨ (f = .sessionClose ∧ s.time.sessionClose.matched = true) ∨
        (f = .backupLow ∧ s.supply.backupLow = true)) ∧
    t.supply.backupLow = s.supply.backupLow ∧
    t.supply.counters = { backupLows := if s.supply.backupLow = true then 1 else 0 } ∧
    t.serv.stations = s.serv.stations ∧ t.time = { s.time with counters := {} } ∧
    (∀ b, t.boothRec b = { s.boothRec b with floor := .silent, turn := none, callLatch := false, latest := none }) ∧
    (∀ n, t.console n = { s.console n with cough := false, call := false, lamp := none, displayEnd := none }) ∧
    (∀ c, t.chan c = { s.chan c with owner := none, queue := [], listeners := 0, underruns := 0, dropped := 0 }) ∧
    (∀ n, t.slotState n = if (s.slotState n).presence = .unconfigured then {} else { presence := .absent }) ∧
    t.booth.floorBlock = silence ∧ t.switch = { channels := t.switch.channels } ∧ t.loop = { slots := t.loop.slots } ∧
    t.air = {} ∧
    t.hire =
      { pendingList := s.hire.pendingList
        receivers := s.hire.receivers.map fun x =>
          (x.1,
            { x.2 with
              range := .unheard, lastHeard := none, lastCounter := none, channel := none, batch := none
              state := if x.2.state = .held then .available else x.2.state }) } ∧
    t.acct.nextLoan = s.acct.nextLoan ∧ t.acct.tariffs = s.acct.tariffs ∧ t.acct.counters = {} ∧ t.acct.dutyCounters = {} ∧
    t.acct.duty =
      s.acct.duty.map (fun d =>
        if d.status = .opened then { d with stop := some s.now, reason := some .restart, status := .complete } else d) ∧
    t.acct.accounts = s.acct.accounts ∧ t.acct.statements = s.acct.statements ∧
    t.serv.toLose = messagesWaiting s.pending

/-! ### What every command keeps -/

/-- The properties below hold after reset. -/
def Obligations.ResetIsSafe : Prop :=
  QueuesFit State.reset ∧ RelayFits State.reset ∧ ClockFits State.reset ∧ ListenersCounted State.reset ∧
    OwnershipAgrees State.reset ∧ FloorChannelFixed State.reset

/-- No step overfills a queue. -/
def Obligations.StepKeepsQueuesFit : Prop :=
  ∀ s t : State, QueuesFit s → step s = .next t → QueuesFit t

/-- No step makes a relay cycle or a relay depth above 3 (R41). -/
def Obligations.StepKeepsRelayFits : Prop :=
  ∀ s t : State, RelayFits s → step s = .next t → RelayFits t

/-- No step takes the hall clock out of the calendar (R163), and every step keeps channel 0 as it is fixed (R1). -/
def Obligations.StepKeepsClockAndFloorChannel : Prop :=
  (∀ s t : State, ClockFits s → step s = .next t → ClockFits t) ∧
  ∀ s t : State, FloorChannelFixed s → step s = .next t → FloorChannelFixed t

/-- Every step keeps every listener count equal to the number of listening receivers (R17). -/
def Obligations.StepKeepsListenersCounted : Prop :=
  ∀ s t : State, ListenersCounted s → step s = .next t → ListenersCounted t

/-- Every step keeps booths and channels in agreement on ownership, and SETUP without a booth on the air (R5, R27, R48). -/
def Obligations.StepKeepsOwnershipAgrees : Prop :=
  ∀ s t : State, OwnershipAgrees s → step s = .next t → OwnershipAgrees t

/-- A notice flag that is set stays set at every command but CLEAR NOTICES, a start, and a message that spells one of those (R195).
-/
def Obligations.FlagsStaySet : Prop :=
  ∀ (c : Instr) (s t : State) (f : NoticeFlag), exec c s = .next t → s.flagged f = true →
    (∀ h l, c ≠ .clearNotices h l) → (∀ h, c ≠ .restart h) → (∀ e, c ≠ .mainsReturn e) → (∀ l, c ≠ .messageDropped l) →
    t.flagged f = true
end

