-- ==== Sys2Proof/Laws/Bytes.lean ====
section
/-! SUPPORT. Numbers and check values as bytes: what is written in bytes is read from them. -/

namespace Sys2Proof.Machine

@[simp] theorem natBytes_length (n k : Nat) : (natBytes n k).length = n := by simp [natBytes]

/-- The last byte apart. -/
theorem natBytes_succ (n k : Nat) : natBytes (n + 1) k = natBytes n (k / 256) ++ [BitVec.ofNat 8 k] := by
  simp only [natBytes, List.range_succ, List.map_append, List.map_cons, List.map_nil]
  congr 1
  · refine List.map_congr_left fun i hi => ?_
    have hi : i < n := List.mem_range.1 hi
    rw [Nat.div_div_eq_div_mul, ← Nat.pow_succ']
    congr 3
    omega
  · simp

theorem bytesNat_append (l : List Byte) (b : Byte) : bytesNat (l ++ [b]) = 256 * bytesNat l + b.toNat := by
  simp [bytesNat]

/-- A number that n bytes can hold is read back. -/
theorem bytesNat_natBytes (n : Nat) : ∀ k, k < 256 ^ n → bytesNat (natBytes n k) = k := by
  induction n with
  | zero =>
    intro k h
    have : k = 0 := by simpa using h
    rw [this]; rfl
  | succ n ih =>
    intro k h
    rw [natBytes_succ, bytesNat_append, ih _ (by rw [Nat.pow_succ] at h; omega), BitVec.toNat_ofNat]
    omega

@[simp] theorem withCheck_length (l : List Byte) : (withCheck l).length = l.length + 2 := by simp [withCheck]

/-- Reading at an offset within the front part. -/
theorem numberAt_append_left (l m : List Byte) {offset n : Nat} (h : offset + n ≤ l.length) :
    numberAt (l ++ m) offset n = numberAt l offset n := by
  rw [numberAt, numberAt, List.drop_append_of_le_length (by omega), List.take_append_of_le_length (by simp; omega)]

/-- The check value of a run of bytes behind which two more stand (R199). -/
theorem checkAgrees_append (body tail : List Byte) (h : tail.length = 2) :
    checkAgrees (body ++ tail) = decide (bytesNat tail = (crc16 body).toNat) := by
  have hb : (body ++ tail).length - 2 = body.length := by simp [h]
  rw [checkAgrees, hb, List.take_left, numberAt, List.drop_left, List.take_of_length_le (Nat.le_of_eq h)]

/-- Bytes sent with their check value pass the check (R199). -/
@[simp] theorem checkAgrees_withCheck (l : List Byte) : checkAgrees (withCheck l) = true := by
  rw [withCheck, checkAgrees_append _ _ (natBytes_length ..), bytesNat_natBytes 2 _ (crc16 l).isLt]
  simp

end Sys2Proof.Machine
end

