-- ==== Sys2Proof/Laws/Table.lean ====
section
/-! SUPPORT. Reading a table after a write, and the canonical form of a table. -/

namespace Sys2Proof.Table

variable {α : Type}

@[simp] theorem look_nil (k : Nat) : look ([] : Table α) k = none := rfl

@[simp] theorem look_put_self (k : Nat) (v : α) (t : Table α) : look (put k v t) k = some v := by
  induction t with
  | nil => simp [put, look]
  | cons e t ih =>
    obtain ⟨j, w⟩ := e
    by_cases h1 : k < j
    · simp [put, h1, look]
    · by_cases h2 : k = j
      · simp [put, h2, look]
      · have h3 : j ≠ k := fun h => h2 h.symm
        simp [put, h1, h2, look, h3, ih]

theorem look_put_ne {j k : Nat} (h : j ≠ k) (v : α) (t : Table α) : look (put k v t) j = look t j := by
  have hk : k ≠ j := fun e => h e.symm
  induction t with
  | nil => simp [put, look, hk]
  | cons e t ih =>
    obtain ⟨i, w⟩ := e
    by_cases h1 : k < i
    · simp [put, h1, look, hk]
    · by_cases h2 : k = i
      · subst h2
        simp [put, look, hk]
      · simp only [put, h1, h2, if_false, look, ih]

theorem look_put (j k : Nat) (v : α) (t : Table α) : look (put k v t) j = if j = k then some v else look t j := by
  by_cases h : j = k
  · subst h
    simp
  · simp [h, look_put_ne h]

theorem look_drop (j k : Nat) (t : Table α) : look (drop k t) j = if j = k then none else look t j := by
  induction t with
  | nil => simp [drop, look]
  | cons e t ih =>
    obtain ⟨i, w⟩ := e
    unfold drop at ih ⊢
    by_cases h : i = k
    · by_cases hj : j = k
      · simp_all
      · have : i ≠ j := fun e => hj (e.symm.trans h)
        simp_all [look]
    · by_cases hj : j = k
      · have : i ≠ j := fun e => h (e.trans hj)
        simp_all [look]
      · simp_all [look]

theorem get_put (d : α) (j k : Nat) (v : α) (t : Table α) : get d (put k v t) j = if j = k then v else get d t j := by
  unfold get
  rw [look_put]
  by_cases h : j = k <;> simp [h]

theorem get_set [DecidableEq α] (d : α) (j k : Nat) (v : α) (t : Table α) :
    get d (set d k v t) j = if j = k then v else get d t j := by
  unfold set
  by_cases hv : v = d
  · rw [if_pos hv]
    unfold get
    rw [look_drop]
    by_cases h : j = k <;> simp [h, hv]
  · rw [if_neg hv]
    exact get_put d j k v t

@[simp] theorem get_set_self [DecidableEq α] (d : α) (k : Nat) (v : α) (t : Table α) : get d (set d k v t) k = v := by
  simp [get_set]

theorem get_set_ne [DecidableEq α] (d : α) {j k : Nat} (h : j ≠ k) (v : α) (t : Table α) :
    get d (set d k v t) j = get d t j := by
  simp [get_set, h]

theorem look_isSome_of_mem {t : Table α} {e : Nat × α} (h : e ∈ t) : (look t e.1).isSome := by
  induction t with
  | nil => cases h
  | cons x t ih =>
    obtain ⟨j, w⟩ := x
    simp only [look]
    split
    · rfl
    · rename_i hne
      cases h with
      | head => exact absurd rfl hne
      | tail _ h => exact ih h

theorem mem_of_look {t : Table α} {k : Nat} {v : α} (h : look t k = some v) : (k, v) ∈ t := by
  induction t with
  | nil => cases h
  | cons x t ih =>
    obtain ⟨j, w⟩ := x
    simp only [look] at h
    split at h
    · rename_i e
      subst e
      simp_all
    · exact List.mem_cons_of_mem _ (ih h)

theorem look_none_of_not_mem {t : Table α} {k : Nat} (h : ∀ e ∈ t, e.1 ≠ k) : look t k = none := by
  cases hl : look t k with
  | none => rfl
  | some v => exact absurd rfl (h _ (mem_of_look hl))

/-! ### Properties of every record -/

theorem forall_put {p : Nat × α → Prop} {k : Nat} {v : α} {t : Table α} (ht : ∀ e ∈ t, p e) (hv : p (k, v)) :
    ∀ e ∈ put k v t, p e := by
  induction t with
  | nil => simpa [put] using hv
  | cons x t ih =>
    obtain ⟨j, w⟩ := x
    have hx : p (j, w) := ht _ (List.mem_cons_self ..)
    have hrest : ∀ e ∈ t, p e := fun e he => ht e (List.mem_cons_of_mem _ he)
    unfold put
    split
    · intro e he
      rcases List.mem_cons.mp he with rfl | he
      · exact hv
      · exact ht e he
    · split
      · intro e he
        rcases List.mem_cons.mp he with rfl | he
        · exact hv
        · exact hrest e he
      · intro e he
        rcases List.mem_cons.mp he with rfl | he
        · exact hx
        · exact ih hrest e he

theorem forall_drop {p : Nat × α → Prop} {k : Nat} {t : Table α} (ht : ∀ e ∈ t, p e) : ∀ e ∈ drop k t, p e :=
  fun e he => ht e (List.mem_of_mem_filter he)

theorem forall_set [DecidableEq α] {p : Nat × α → Prop} {d : α} {k : Nat} {v : α} {t : Table α} (ht : ∀ e ∈ t, p e)
    (hv : p (k, v)) : ∀ e ∈ set d k v t, p e := by
  unfold set
  split
  · exact forall_drop ht
  · exact forall_put ht hv

/-! ### The canonical form -/

theorem rising_cons {j : Nat} {w : α} {t : Table α} :
    rising ((j, w) :: t) = true ↔ (∀ e ∈ t, j < e.1) ∧ rising t = true := by
  simp [rising]

theorem rising_put {k : Nat} {v : α} {t : Table α} (h : rising t = true) : rising (put k v t) = true := by
  induction t with
  | nil => rfl
  | cons x t ih =>
    obtain ⟨j, w⟩ := x
    obtain ⟨hj, ht⟩ := rising_cons.mp h
    unfold put
    split
    · rename_i hk
      refine rising_cons.mpr ⟨fun e he => ?_, h⟩
      rcases List.mem_cons.mp he with rfl | he
      · exact hk
      · exact Nat.lt_trans hk (hj e he)
    · rename_i hk
      split
      · rename_i he
        subst he
        exact rising_cons.mpr ⟨hj, ht⟩
      · rename_i hne
        exact rising_cons.mpr ⟨forall_put hj (Nat.lt_of_le_of_ne (Nat.le_of_not_lt hk) (fun e => hne e.symm)), ih ht⟩

theorem rising_filter {p : Nat × α → Bool} {t : Table α} (h : rising t = true) : rising (t.filter p) = true := by
  induction t with
  | nil => rfl
  | cons x t ih =>
    obtain ⟨j, w⟩ := x
    obtain ⟨hj, ht⟩ := rising_cons.mp h
    rw [List.filter_cons]
    split
    · exact rising_cons.mpr ⟨fun e he => hj e (List.mem_of_mem_filter he), ih ht⟩
    · exact ih ht

theorem rising_drop {k : Nat} {t : Table α} (h : rising t = true) : rising (drop k t) = true := rising_filter h

theorem rising_set [DecidableEq α] {d : α} {k : Nat} {v : α} {t : Table α} (h : rising t = true) :
    rising (set d k v t) = true := by
  unfold set
  split
  · exact rising_drop h
  · exact rising_put h

theorem rising_map {β : Type} {t : Table α} (f : Nat × α → β) (h : rising t = true) :
    rising (t.map fun e => (e.1, f e)) = true := by
  induction t with
  | nil => rfl
  | cons x t ih =>
    obtain ⟨j, w⟩ := x
    obtain ⟨hj, ht⟩ := rising_cons.mp h
    refine rising_cons.mpr ⟨fun e he => ?_, ih ht⟩
    obtain ⟨y, hy, rfl⟩ := List.mem_map.mp he
    exact hj y hy

/-- In a rising table the record under a key is the only one with that key. -/
theorem look_of_mem {t : Table α} (h : rising t = true) {k : Nat} {v : α} (hm : (k, v) ∈ t) : look t k = some v := by
  induction t with
  | nil => cases hm
  | cons x t ih =>
    obtain ⟨j, w⟩ := x
    obtain ⟨hj, ht⟩ := rising_cons.mp h
    rcases List.mem_cons.mp hm with he | he
    · cases he
      simp [look]
    · have hne : j ≠ k := Nat.ne_of_lt (hj _ he)
      simp [look, hne, ih ht he]

/-- Putting a record under a key that has one keeps the number of records. -/
theorem length_put_of_look {t : Table α} (h : rising t = true) {k : Nat} {w : α} (hl : look t k = some w) (v : α) :
    (put k v t).length = t.length := by
  induction t with
  | nil => cases hl
  | cons x t ih =>
    obtain ⟨j, u⟩ := x
    obtain ⟨hj, ht⟩ := rising_cons.mp h
    simp only [look] at hl
    by_cases he : j = k
    · subst he
      simp [put]
    · rw [if_neg he] at hl
      have hk : ¬ k < j := fun hlt => absurd (hj _ (mem_of_look hl)) (Nat.not_lt.mpr (Nat.le_of_lt hlt))
      have hne : k ≠ j := fun e => he e.symm
      simp [put, hk, hne, ih ht hl]

theorem length_put_le (k : Nat) (v : α) (t : Table α) : (put k v t).length ≤ t.length + 1 := by
  induction t with
  | nil => simp [put]
  | cons x t ih =>
    obtain ⟨j, u⟩ := x
    unfold put
    split
    · simp
    · split
      · simp
      · simpa using ih

/-- The number of records with a property, after a record has been put under a key. -/
theorem countP_put {t : Table α} (h : rising t = true) (p : Nat × α → Bool) (k : Nat) (v : α) :
    (put k v t).countP p + (match look t k with | some w => (if p (k, w) then 1 else 0) | none => 0) =
      t.countP p + (if p (k, v) then 1 else 0) := by
  induction t with
  | nil => simp [put, look, List.countP_cons]
  | cons x t ih =>
    obtain ⟨j, u⟩ := x
    obtain ⟨hj, ht⟩ := rising_cons.mp h
    by_cases hlt : k < j
    · have hnone : look ((j, u) :: t) k = none := by
        apply look_none_of_not_mem
        intro e he
        rcases List.mem_cons.mp he with rfl | he
        · exact fun e => absurd hlt (by omega)
        · exact fun e' => absurd (hj e he) (by omega)
      rw [hnone]
      simp [put, hlt, List.countP_cons]
    · by_cases he : k = j
      · subst he
        simp [put, look, List.countP_cons]
        omega
      · have hne : j ≠ k := fun e => he e.symm
        have ih' := ih ht
        simp only [put, hlt, he, if_false, look, hne, List.countP_cons]
        omega

/-! ### Changing every record -/

theorem get_change_aux [DecidableEq α] (d : α) (f : α → α) (t u : Table α) (k : Nat) :
    get d (u.foldr (fun e rest => set d e.1 (f (get d t e.1)) rest) []) k =
      if (∃ e ∈ u, e.1 = k) then f (get d t k) else d := by
  induction u with
  | nil => simp [get]
  | cons x u ih =>
    simp only [List.foldr_cons, get_set, ih]
    by_cases hx : k = x.1
    · subst hx
      simp
    · have hx' : x.1 ≠ k := fun e => hx e.symm
      have hiff : (∃ e ∈ x :: u, e.1 = k) ↔ ∃ e ∈ u, e.1 = k := by simp [hx']
      simp only [if_neg hx, hiff]

theorem get_change [DecidableEq α] (d : α) (f : α → α) (hf : f d = d) (t : Table α) (k : Nat) :
    get d (change d f t) k = f (get d t k) := by
  unfold change
  rw [get_change_aux]
  split
  · rfl
  · rename_i hno
    have : look t k = none := look_none_of_not_mem fun e he hk => hno ⟨e, he, hk⟩
    simp [get, this, hf]

theorem rising_change [DecidableEq α] (d : α) (f : α → α) (t : Table α) : rising (change d f t) = true := by
  have h : ∀ u : Table α, rising (u.foldr (fun e rest => set d e.1 (f (get d t e.1)) rest) []) = true := by
    intro u
    induction u with
    | nil => rfl
    | cons x u ih => exact rising_set ih
  exact h t

end Sys2Proof.Table
end

