-- ==== Sys2Proof/Laws/State.lean ====
section
/-! SUPPORT. What each field of the state is after each update of a block, what each accessor reads then, and what a record reads
after a record has been changed. -/

namespace Sys2Proof.Machine

/-! ### modLoop -/

@[simp] theorem modLoop_loop (f : Loop → Loop) (s : State) : (s.modLoop f).loop = f s.loop := rfl
@[simp] theorem modLoop_booth (f : Loop → Loop) (s : State) : (s.modLoop f).booth = s.booth := rfl
@[simp] theorem modLoop_switch (f : Loop → Loop) (s : State) : (s.modLoop f).switch = s.switch := rfl
@[simp] theorem modLoop_air (f : Loop → Loop) (s : State) : (s.modLoop f).air = s.air := rfl
@[simp] theorem modLoop_hire (f : Loop → Loop) (s : State) : (s.modLoop f).hire = s.hire := rfl
@[simp] theorem modLoop_acct (f : Loop → Loop) (s : State) : (s.modLoop f).acct = s.acct := rfl
@[simp] theorem modLoop_time (f : Loop → Loop) (s : State) : (s.modLoop f).time = s.time := rfl
@[simp] theorem modLoop_serv (f : Loop → Loop) (s : State) : (s.modLoop f).serv = s.serv := rfl
@[simp] theorem modLoop_supply (f : Loop → Loop) (s : State) : (s.modLoop f).supply = s.supply := rfl
@[simp] theorem modLoop_pending (f : Loop → Loop) (s : State) : (s.modLoop f).pending = s.pending := rfl

/-! ### modBoothControl -/

@[simp] theorem modBoothControl_loop (f : BoothControl → BoothControl) (s : State) : (s.modBoothControl f).loop = s.loop := rfl
@[simp] theorem modBoothControl_booth (f : BoothControl → BoothControl) (s : State) : (s.modBoothControl f).booth = f s.booth := rfl
@[simp] theorem modBoothControl_switch (f : BoothControl → BoothControl) (s : State) : (s.modBoothControl f).switch = s.switch := rfl
@[simp] theorem modBoothControl_air (f : BoothControl → BoothControl) (s : State) : (s.modBoothControl f).air = s.air := rfl
@[simp] theorem modBoothControl_hire (f : BoothControl → BoothControl) (s : State) : (s.modBoothControl f).hire = s.hire := rfl
@[simp] theorem modBoothControl_acct (f : BoothControl → BoothControl) (s : State) : (s.modBoothControl f).acct = s.acct := rfl
@[simp] theorem modBoothControl_time (f : BoothControl → BoothControl) (s : State) : (s.modBoothControl f).time = s.time := rfl
@[simp] theorem modBoothControl_serv (f : BoothControl → BoothControl) (s : State) : (s.modBoothControl f).serv = s.serv := rfl
@[simp] theorem modBoothControl_supply (f : BoothControl → BoothControl) (s : State) : (s.modBoothControl f).supply = s.supply := rfl
@[simp] theorem modBoothControl_pending (f : BoothControl → BoothControl) (s : State) : (s.modBoothControl f).pending = s.pending := rfl

/-! ### modSwitch -/

@[simp] theorem modSwitch_loop (f : ChannelSwitch → ChannelSwitch) (s : State) : (s.modSwitch f).loop = s.loop := rfl
@[simp] theorem modSwitch_booth (f : ChannelSwitch → ChannelSwitch) (s : State) : (s.modSwitch f).booth = s.booth := rfl
@[simp] theorem modSwitch_switch (f : ChannelSwitch → ChannelSwitch) (s : State) : (s.modSwitch f).switch = f s.switch := rfl
@[simp] theorem modSwitch_air (f : ChannelSwitch → ChannelSwitch) (s : State) : (s.modSwitch f).air = s.air := rfl
@[simp] theorem modSwitch_hire (f : ChannelSwitch → ChannelSwitch) (s : State) : (s.modSwitch f).hire = s.hire := rfl
@[simp] theorem modSwitch_acct (f : ChannelSwitch → ChannelSwitch) (s : State) : (s.modSwitch f).acct = s.acct := rfl
@[simp] theorem modSwitch_time (f : ChannelSwitch → ChannelSwitch) (s : State) : (s.modSwitch f).time = s.time := rfl
@[simp] theorem modSwitch_serv (f : ChannelSwitch → ChannelSwitch) (s : State) : (s.modSwitch f).serv = s.serv := rfl
@[simp] theorem modSwitch_supply (f : ChannelSwitch → ChannelSwitch) (s : State) : (s.modSwitch f).supply = s.supply := rfl
@[simp] theorem modSwitch_pending (f : ChannelSwitch → ChannelSwitch) (s : State) : (s.modSwitch f).pending = s.pending := rfl

/-! ### modAir -/

@[simp] theorem modAir_loop (f : Air → Air) (s : State) : (s.modAir f).loop = s.loop := rfl
@[simp] theorem modAir_booth (f : Air → Air) (s : State) : (s.modAir f).booth = s.booth := rfl
@[simp] theorem modAir_switch (f : Air → Air) (s : State) : (s.modAir f).switch = s.switch := rfl
@[simp] theorem modAir_air (f : Air → Air) (s : State) : (s.modAir f).air = f s.air := rfl
@[simp] theorem modAir_hire (f : Air → Air) (s : State) : (s.modAir f).hire = s.hire := rfl
@[simp] theorem modAir_acct (f : Air → Air) (s : State) : (s.modAir f).acct = s.acct := rfl
@[simp] theorem modAir_time (f : Air → Air) (s : State) : (s.modAir f).time = s.time := rfl
@[simp] theorem modAir_serv (f : Air → Air) (s : State) : (s.modAir f).serv = s.serv := rfl
@[simp] theorem modAir_supply (f : Air → Air) (s : State) : (s.modAir f).supply = s.supply := rfl
@[simp] theorem modAir_pending (f : Air → Air) (s : State) : (s.modAir f).pending = s.pending := rfl

/-! ### modHire -/

@[simp] theorem modHire_loop (f : Hire → Hire) (s : State) : (s.modHire f).loop = s.loop := rfl
@[simp] theorem modHire_booth (f : Hire → Hire) (s : State) : (s.modHire f).booth = s.booth := rfl
@[simp] theorem modHire_switch (f : Hire → Hire) (s : State) : (s.modHire f).switch = s.switch := rfl
@[simp] theorem modHire_air (f : Hire → Hire) (s : State) : (s.modHire f).air = s.air := rfl
@[simp] theorem modHire_hire (f : Hire → Hire) (s : State) : (s.modHire f).hire = f s.hire := rfl
@[simp] theorem modHire_acct (f : Hire → Hire) (s : State) : (s.modHire f).acct = s.acct := rfl
@[simp] theorem modHire_time (f : Hire → Hire) (s : State) : (s.modHire f).time = s.time := rfl
@[simp] theorem modHire_serv (f : Hire → Hire) (s : State) : (s.modHire f).serv = s.serv := rfl
@[simp] theorem modHire_supply (f : Hire → Hire) (s : State) : (s.modHire f).supply = s.supply := rfl
@[simp] theorem modHire_pending (f : Hire → Hire) (s : State) : (s.modHire f).pending = s.pending := rfl

/-! ### modAcct -/

@[simp] theorem modAcct_loop (f : Accounting → Accounting) (s : State) : (s.modAcct f).loop = s.loop := rfl
@[simp] theorem modAcct_booth (f : Accounting → Accounting) (s : State) : (s.modAcct f).booth = s.booth := rfl
@[simp] theorem modAcct_switch (f : Accounting → Accounting) (s : State) : (s.modAcct f).switch = s.switch := rfl
@[simp] theorem modAcct_air (f : Accounting → Accounting) (s : State) : (s.modAcct f).air = s.air := rfl
@[simp] theorem modAcct_hire (f : Accounting → Accounting) (s : State) : (s.modAcct f).hire = s.hire := rfl
@[simp] theorem modAcct_acct (f : Accounting → Accounting) (s : State) : (s.modAcct f).acct = f s.acct := rfl
@[simp] theorem modAcct_time (f : Accounting → Accounting) (s : State) : (s.modAcct f).time = s.time := rfl
@[simp] theorem modAcct_serv (f : Accounting → Accounting) (s : State) : (s.modAcct f).serv = s.serv := rfl
@[simp] theorem modAcct_supply (f : Accounting → Accounting) (s : State) : (s.modAcct f).supply = s.supply := rfl
@[simp] theorem modAcct_pending (f : Accounting → Accounting) (s : State) : (s.modAcct f).pending = s.pending := rfl

/-! ### modTime -/

@[simp] theorem modTime_loop (f : TimeBase → TimeBase) (s : State) : (s.modTime f).loop = s.loop := rfl
@[simp] theorem modTime_booth (f : TimeBase → TimeBase) (s : State) : (s.modTime f).booth = s.booth := rfl
@[simp] theorem modTime_switch (f : TimeBase → TimeBase) (s : State) : (s.modTime f).switch = s.switch := rfl
@[simp] theorem modTime_air (f : TimeBase → TimeBase) (s : State) : (s.modTime f).air = s.air := rfl
@[simp] theorem modTime_hire (f : TimeBase → TimeBase) (s : State) : (s.modTime f).hire = s.hire := rfl
@[simp] theorem modTime_acct (f : TimeBase → TimeBase) (s : State) : (s.modTime f).acct = s.acct := rfl
@[simp] theorem modTime_time (f : TimeBase → TimeBase) (s : State) : (s.modTime f).time = f s.time := rfl
@[simp] theorem modTime_serv (f : TimeBase → TimeBase) (s : State) : (s.modTime f).serv = s.serv := rfl
@[simp] theorem modTime_supply (f : TimeBase → TimeBase) (s : State) : (s.modTime f).supply = s.supply := rfl
@[simp] theorem modTime_pending (f : TimeBase → TimeBase) (s : State) : (s.modTime f).pending = s.pending := rfl

/-! ### modServ -/

@[simp] theorem modServ_loop (f : Service → Service) (s : State) : (s.modServ f).loop = s.loop := rfl
@[simp] theorem modServ_booth (f : Service → Service) (s : State) : (s.modServ f).booth = s.booth := rfl
@[simp] theorem modServ_switch (f : Service → Service) (s : State) : (s.modServ f).switch = s.switch := rfl
@[simp] theorem modServ_air (f : Service → Service) (s : State) : (s.modServ f).air = s.air := rfl
@[simp] theorem modServ_hire (f : Service → Service) (s : State) : (s.modServ f).hire = s.hire := rfl
@[simp] theorem modServ_acct (f : Service → Service) (s : State) : (s.modServ f).acct = s.acct := rfl
@[simp] theorem modServ_time (f : Service → Service) (s : State) : (s.modServ f).time = s.time := rfl
@[simp] theorem modServ_serv (f : Service → Service) (s : State) : (s.modServ f).serv = f s.serv := rfl
@[simp] theorem modServ_supply (f : Service → Service) (s : State) : (s.modServ f).supply = s.supply := rfl
@[simp] theorem modServ_pending (f : Service → Service) (s : State) : (s.modServ f).pending = s.pending := rfl

/-! ### modSupply -/

@[simp] theorem modSupply_loop (f : Supply → Supply) (s : State) : (s.modSupply f).loop = s.loop := rfl
@[simp] theorem modSupply_booth (f : Supply → Supply) (s : State) : (s.modSupply f).booth = s.booth := rfl
@[simp] theorem modSupply_switch (f : Supply → Supply) (s : State) : (s.modSupply f).switch = s.switch := rfl
@[simp] theorem modSupply_air (f : Supply → Supply) (s : State) : (s.modSupply f).air = s.air := rfl
@[simp] theorem modSupply_hire (f : Supply → Supply) (s : State) : (s.modSupply f).hire = s.hire := rfl
@[simp] theorem modSupply_acct (f : Supply → Supply) (s : State) : (s.modSupply f).acct = s.acct := rfl
@[simp] theorem modSupply_time (f : Supply → Supply) (s : State) : (s.modSupply f).time = s.time := rfl
@[simp] theorem modSupply_serv (f : Supply → Supply) (s : State) : (s.modSupply f).serv = s.serv := rfl
@[simp] theorem modSupply_supply (f : Supply → Supply) (s : State) : (s.modSupply f).supply = f s.supply := rfl
@[simp] theorem modSupply_pending (f : Supply → Supply) (s : State) : (s.modSupply f).pending = s.pending := rfl

/-! ### withPending -/

@[simp] theorem withPending_loop (q : List Instr) (s : State) : (s.withPending q).loop = s.loop := rfl
@[simp] theorem withPending_booth (q : List Instr) (s : State) : (s.withPending q).booth = s.booth := rfl
@[simp] theorem withPending_switch (q : List Instr) (s : State) : (s.withPending q).switch = s.switch := rfl
@[simp] theorem withPending_air (q : List Instr) (s : State) : (s.withPending q).air = s.air := rfl
@[simp] theorem withPending_hire (q : List Instr) (s : State) : (s.withPending q).hire = s.hire := rfl
@[simp] theorem withPending_acct (q : List Instr) (s : State) : (s.withPending q).acct = s.acct := rfl
@[simp] theorem withPending_time (q : List Instr) (s : State) : (s.withPending q).time = s.time := rfl
@[simp] theorem withPending_serv (q : List Instr) (s : State) : (s.withPending q).serv = s.serv := rfl
@[simp] theorem withPending_supply (q : List Instr) (s : State) : (s.withPending q).supply = s.supply := rfl
@[simp] theorem withPending_pending (q : List Instr) (s : State) : (s.withPending q).pending = q := rfl

/-! ### Accessors of a block that an update does not touch -/

@[simp] theorem modBoothControl_slotState (f : BoothControl → BoothControl) (s : State) (n : Nat) : (s.modBoothControl f).slotState n = s.slotState n := rfl
@[simp] theorem modSwitch_slotState (f : ChannelSwitch → ChannelSwitch) (s : State) (n : Nat) : (s.modSwitch f).slotState n = s.slotState n := rfl
@[simp] theorem modAir_slotState (f : Air → Air) (s : State) (n : Nat) : (s.modAir f).slotState n = s.slotState n := rfl
@[simp] theorem modHire_slotState (f : Hire → Hire) (s : State) (n : Nat) : (s.modHire f).slotState n = s.slotState n := rfl
@[simp] theorem modAcct_slotState (f : Accounting → Accounting) (s : State) (n : Nat) : (s.modAcct f).slotState n = s.slotState n := rfl
@[simp] theorem modTime_slotState (f : TimeBase → TimeBase) (s : State) (n : Nat) : (s.modTime f).slotState n = s.slotState n := rfl
@[simp] theorem modServ_slotState (f : Service → Service) (s : State) (n : Nat) : (s.modServ f).slotState n = s.slotState n := rfl
@[simp] theorem modSupply_slotState (f : Supply → Supply) (s : State) (n : Nat) : (s.modSupply f).slotState n = s.slotState n := rfl

@[simp] theorem modLoop_console (f : Loop → Loop) (s : State) (n : Nat) : (s.modLoop f).console n = s.console n := rfl
@[simp] theorem modSwitch_console (f : ChannelSwitch → ChannelSwitch) (s : State) (n : Nat) : (s.modSwitch f).console n = s.console n := rfl
@[simp] theorem modAir_console (f : Air → Air) (s : State) (n : Nat) : (s.modAir f).console n = s.console n := rfl
@[simp] theorem modHire_console (f : Hire → Hire) (s : State) (n : Nat) : (s.modHire f).console n = s.console n := rfl
@[simp] theorem modAcct_console (f : Accounting → Accounting) (s : State) (n : Nat) : (s.modAcct f).console n = s.console n := rfl
@[simp] theorem modTime_console (f : TimeBase → TimeBase) (s : State) (n : Nat) : (s.modTime f).console n = s.console n := rfl
@[simp] theorem modServ_console (f : Service → Service) (s : State) (n : Nat) : (s.modServ f).console n = s.console n := rfl
@[simp] theorem modSupply_console (f : Supply → Supply) (s : State) (n : Nat) : (s.modSupply f).console n = s.console n := rfl

@[simp] theorem modLoop_boothRec (f : Loop → Loop) (s : State) (n : Nat) : (s.modLoop f).boothRec n = s.boothRec n := rfl
@[simp] theorem modSwitch_boothRec (f : ChannelSwitch → ChannelSwitch) (s : State) (n : Nat) : (s.modSwitch f).boothRec n = s.boothRec n := rfl
@[simp] theorem modAir_boothRec (f : Air → Air) (s : State) (n : Nat) : (s.modAir f).boothRec n = s.boothRec n := rfl
@[simp] theorem modHire_boothRec (f : Hire → Hire) (s : State) (n : Nat) : (s.modHire f).boothRec n = s.boothRec n := rfl
@[simp] theorem modAcct_boothRec (f : Accounting → Accounting) (s : State) (n : Nat) : (s.modAcct f).boothRec n = s.boothRec n := rfl
@[simp] theorem modTime_boothRec (f : TimeBase → TimeBase) (s : State) (n : Nat) : (s.modTime f).boothRec n = s.boothRec n := rfl
@[simp] theorem modServ_boothRec (f : Service → Service) (s : State) (n : Nat) : (s.modServ f).boothRec n = s.boothRec n := rfl
@[simp] theorem modSupply_boothRec (f : Supply → Supply) (s : State) (n : Nat) : (s.modSupply f).boothRec n = s.boothRec n := rfl

@[simp] theorem modLoop_relay (f : Loop → Loop) (s : State) (n : Nat) : (s.modLoop f).relay n = s.relay n := rfl
@[simp] theorem modSwitch_relay (f : ChannelSwitch → ChannelSwitch) (s : State) (n : Nat) : (s.modSwitch f).relay n = s.relay n := rfl
@[simp] theorem modAir_relay (f : Air → Air) (s : State) (n : Nat) : (s.modAir f).relay n = s.relay n := rfl
@[simp] theorem modHire_relay (f : Hire → Hire) (s : State) (n : Nat) : (s.modHire f).relay n = s.relay n := rfl
@[simp] theorem modAcct_relay (f : Accounting → Accounting) (s : State) (n : Nat) : (s.modAcct f).relay n = s.relay n := rfl
@[simp] theorem modTime_relay (f : TimeBase → TimeBase) (s : State) (n : Nat) : (s.modTime f).relay n = s.relay n := rfl
@[simp] theorem modServ_relay (f : Service → Service) (s : State) (n : Nat) : (s.modServ f).relay n = s.relay n := rfl
@[simp] theorem modSupply_relay (f : Supply → Supply) (s : State) (n : Nat) : (s.modSupply f).relay n = s.relay n := rfl

@[simp] theorem modLoop_chan (f : Loop → Loop) (s : State) (n : Nat) : (s.modLoop f).chan n = s.chan n := rfl
@[simp] theorem modBoothControl_chan (f : BoothControl → BoothControl) (s : State) (n : Nat) : (s.modBoothControl f).chan n = s.chan n := rfl
@[simp] theorem modAir_chan (f : Air → Air) (s : State) (n : Nat) : (s.modAir f).chan n = s.chan n := rfl
@[simp] theorem modHire_chan (f : Hire → Hire) (s : State) (n : Nat) : (s.modHire f).chan n = s.chan n := rfl
@[simp] theorem modAcct_chan (f : Accounting → Accounting) (s : State) (n : Nat) : (s.modAcct f).chan n = s.chan n := rfl
@[simp] theorem modTime_chan (f : TimeBase → TimeBase) (s : State) (n : Nat) : (s.modTime f).chan n = s.chan n := rfl
@[simp] theorem modServ_chan (f : Service → Service) (s : State) (n : Nat) : (s.modServ f).chan n = s.chan n := rfl
@[simp] theorem modSupply_chan (f : Supply → Supply) (s : State) (n : Nat) : (s.modSupply f).chan n = s.chan n := rfl

@[simp] theorem modLoop_receiverBySerial (f : Loop → Loop) (s : State) (n : Nat) : (s.modLoop f).receiverBySerial n = s.receiverBySerial n := rfl
@[simp] theorem modBoothControl_receiverBySerial (f : BoothControl → BoothControl) (s : State) (n : Nat) : (s.modBoothControl f).receiverBySerial n = s.receiverBySerial n := rfl
@[simp] theorem modSwitch_receiverBySerial (f : ChannelSwitch → ChannelSwitch) (s : State) (n : Nat) : (s.modSwitch f).receiverBySerial n = s.receiverBySerial n := rfl
@[simp] theorem modAir_receiverBySerial (f : Air → Air) (s : State) (n : Nat) : (s.modAir f).receiverBySerial n = s.receiverBySerial n := rfl
@[simp] theorem modAcct_receiverBySerial (f : Accounting → Accounting) (s : State) (n : Nat) : (s.modAcct f).receiverBySerial n = s.receiverBySerial n := rfl
@[simp] theorem modTime_receiverBySerial (f : TimeBase → TimeBase) (s : State) (n : Nat) : (s.modTime f).receiverBySerial n = s.receiverBySerial n := rfl
@[simp] theorem modServ_receiverBySerial (f : Service → Service) (s : State) (n : Nat) : (s.modServ f).receiverBySerial n = s.receiverBySerial n := rfl
@[simp] theorem modSupply_receiverBySerial (f : Supply → Supply) (s : State) (n : Nat) : (s.modSupply f).receiverBySerial n = s.receiverBySerial n := rfl

@[simp] theorem modLoop_tariff (f : Loop → Loop) (s : State) (n : Nat) : (s.modLoop f).tariff n = s.tariff n := rfl
@[simp] theorem modBoothControl_tariff (f : BoothControl → BoothControl) (s : State) (n : Nat) : (s.modBoothControl f).tariff n = s.tariff n := rfl
@[simp] theorem modSwitch_tariff (f : ChannelSwitch → ChannelSwitch) (s : State) (n : Nat) : (s.modSwitch f).tariff n = s.tariff n := rfl
@[simp] theorem modAir_tariff (f : Air → Air) (s : State) (n : Nat) : (s.modAir f).tariff n = s.tariff n := rfl
@[simp] theorem modHire_tariff (f : Hire → Hire) (s : State) (n : Nat) : (s.modHire f).tariff n = s.tariff n := rfl
@[simp] theorem modTime_tariff (f : TimeBase → TimeBase) (s : State) (n : Nat) : (s.modTime f).tariff n = s.tariff n := rfl
@[simp] theorem modServ_tariff (f : Service → Service) (s : State) (n : Nat) : (s.modServ f).tariff n = s.tariff n := rfl
@[simp] theorem modSupply_tariff (f : Supply → Supply) (s : State) (n : Nat) : (s.modSupply f).tariff n = s.tariff n := rfl

@[simp] theorem modLoop_accountByNumber (f : Loop → Loop) (s : State) (n : Nat) : (s.modLoop f).accountByNumber n = s.accountByNumber n := rfl
@[simp] theorem modBoothControl_accountByNumber (f : BoothControl → BoothControl) (s : State) (n : Nat) : (s.modBoothControl f).accountByNumber n = s.accountByNumber n := rfl
@[simp] theorem modSwitch_accountByNumber (f : ChannelSwitch → ChannelSwitch) (s : State) (n : Nat) : (s.modSwitch f).accountByNumber n = s.accountByNumber n := rfl
@[simp] theorem modAir_accountByNumber (f : Air → Air) (s : State) (n : Nat) : (s.modAir f).accountByNumber n = s.accountByNumber n := rfl
@[simp] theorem modHire_accountByNumber (f : Hire → Hire) (s : State) (n : Nat) : (s.modHire f).accountByNumber n = s.accountByNumber n := rfl
@[simp] theorem modTime_accountByNumber (f : TimeBase → TimeBase) (s : State) (n : Nat) : (s.modTime f).accountByNumber n = s.accountByNumber n := rfl
@[simp] theorem modServ_accountByNumber (f : Service → Service) (s : State) (n : Nat) : (s.modServ f).accountByNumber n = s.accountByNumber n := rfl
@[simp] theorem modSupply_accountByNumber (f : Supply → Supply) (s : State) (n : Nat) : (s.modSupply f).accountByNumber n = s.accountByNumber n := rfl

@[simp] theorem modLoop_now (f : Loop → Loop) (s : State) : (s.modLoop f).now = s.now := rfl
@[simp] theorem modBoothControl_now (f : BoothControl → BoothControl) (s : State) : (s.modBoothControl f).now = s.now := rfl
@[simp] theorem modSwitch_now (f : ChannelSwitch → ChannelSwitch) (s : State) : (s.modSwitch f).now = s.now := rfl
@[simp] theorem modAir_now (f : Air → Air) (s : State) : (s.modAir f).now = s.now := rfl
@[simp] theorem modHire_now (f : Hire → Hire) (s : State) : (s.modHire f).now = s.now := rfl
@[simp] theorem modAcct_now (f : Accounting → Accounting) (s : State) : (s.modAcct f).now = s.now := rfl
@[simp] theorem modServ_now (f : Service → Service) (s : State) : (s.modServ f).now = s.now := rfl
@[simp] theorem modSupply_now (f : Supply → Supply) (s : State) : (s.modSupply f).now = s.now := rfl

@[simp] theorem modLoop_flagged (f : Loop → Loop) (s : State) (g : NoticeFlag) : (s.modLoop f).flagged g = s.flagged g := rfl
@[simp] theorem modBoothControl_flagged (f : BoothControl → BoothControl) (s : State) (g : NoticeFlag) : (s.modBoothControl f).flagged g = s.flagged g := rfl
@[simp] theorem modSwitch_flagged (f : ChannelSwitch → ChannelSwitch) (s : State) (g : NoticeFlag) : (s.modSwitch f).flagged g = s.flagged g := rfl
@[simp] theorem modAir_flagged (f : Air → Air) (s : State) (g : NoticeFlag) : (s.modAir f).flagged g = s.flagged g := rfl
@[simp] theorem modHire_flagged (f : Hire → Hire) (s : State) (g : NoticeFlag) : (s.modHire f).flagged g = s.flagged g := rfl
@[simp] theorem modAcct_flagged (f : Accounting → Accounting) (s : State) (g : NoticeFlag) : (s.modAcct f).flagged g = s.flagged g := rfl
@[simp] theorem modTime_flagged (f : TimeBase → TimeBase) (s : State) (g : NoticeFlag) : (s.modTime f).flagged g = s.flagged g := rfl
@[simp] theorem modSupply_flagged (f : Supply → Supply) (s : State) (g : NoticeFlag) : (s.modSupply f).flagged g = s.flagged g := rfl

@[simp] theorem modLoop_mode (f : Loop → Loop) (s : State) : (s.modLoop f).mode = s.mode := rfl
@[simp] theorem modBoothControl_mode (f : BoothControl → BoothControl) (s : State) : (s.modBoothControl f).mode = s.mode := rfl
@[simp] theorem modSwitch_mode (f : ChannelSwitch → ChannelSwitch) (s : State) : (s.modSwitch f).mode = s.mode := rfl
@[simp] theorem modAir_mode (f : Air → Air) (s : State) : (s.modAir f).mode = s.mode := rfl
@[simp] theorem modHire_mode (f : Hire → Hire) (s : State) : (s.modHire f).mode = s.mode := rfl
@[simp] theorem modAcct_mode (f : Accounting → Accounting) (s : State) : (s.modAcct f).mode = s.mode := rfl
@[simp] theorem modTime_mode (f : TimeBase → TimeBase) (s : State) : (s.modTime f).mode = s.mode := rfl
@[simp] theorem modServ_mode (f : Service → Service) (s : State) : (s.modServ f).mode = s.mode := rfl

@[simp] theorem modLoop_params (f : Loop → Loop) (s : State) : (s.modLoop f).params = s.params := rfl
@[simp] theorem modBoothControl_params (f : BoothControl → BoothControl) (s : State) : (s.modBoothControl f).params = s.params := rfl
@[simp] theorem modSwitch_params (f : ChannelSwitch → ChannelSwitch) (s : State) : (s.modSwitch f).params = s.params := rfl
@[simp] theorem modAir_params (f : Air → Air) (s : State) : (s.modAir f).params = s.params := rfl
@[simp] theorem modHire_params (f : Hire → Hire) (s : State) : (s.modHire f).params = s.params := rfl
@[simp] theorem modAcct_params (f : Accounting → Accounting) (s : State) : (s.modAcct f).params = s.params := rfl
@[simp] theorem modTime_params (f : TimeBase → TimeBase) (s : State) : (s.modTime f).params = s.params := rfl
@[simp] theorem modServ_params (f : Service → Service) (s : State) : (s.modServ f).params = s.params := rfl

/-! ### Records -/

theorem slotState_modSlot (s : State) (n k : Nat) (f : SlotState → SlotState) :
    (s.modSlot n f).slotState k = if k = n then f (s.slotState n) else s.slotState k := Table.get_set _ _ _ _ _

theorem console_modConsole (s : State) (n k : Nat) (f : Console → Console) :
    (s.modConsole n f).console k = if k = n then f (s.console n) else s.console k := Table.get_set _ _ _ _ _

theorem boothRec_modBooth (s : State) (n k : Nat) (f : Booth → Booth) :
    (s.modBooth n f).boothRec k = if k = n then f (s.boothRec n) else s.boothRec k := Table.get_set _ _ _ _ _

theorem chan_modChan (s : State) (n k : Nat) (f : Channel → Channel) :
    (s.modChan n f).chan k = if k = n then f (s.chan n) else s.chan k := Table.get_set _ _ _ _ _

@[simp] theorem slotState_modSlot_self (s : State) (n : Nat) (f : SlotState → SlotState) :
    (s.modSlot n f).slotState n = f (s.slotState n) := by simp [slotState_modSlot]

@[simp] theorem console_modConsole_self (s : State) (n : Nat) (f : Console → Console) :
    (s.modConsole n f).console n = f (s.console n) := by simp [console_modConsole]

@[simp] theorem boothRec_modBooth_self (s : State) (n : Nat) (f : Booth → Booth) :
    (s.modBooth n f).boothRec n = f (s.boothRec n) := by simp [boothRec_modBooth]

@[simp] theorem chan_modChan_self (s : State) (n : Nat) (f : Channel → Channel) :
    (s.modChan n f).chan n = f (s.chan n) := by simp [chan_modChan]

@[simp] theorem boothRec_modConsole (s : State) (n k : Nat) (f : Console → Console) :
    (s.modConsole n f).boothRec k = s.boothRec k := rfl

@[simp] theorem console_modBooth (s : State) (n k : Nat) (f : Booth → Booth) : (s.modBooth n f).console k = s.console k :=
  rfl

/-- What a fold of steps keeps, if every step keeps it. -/
theorem foldl_keeps {β γ : Type} (g : State → γ) (f : State → β → State) (h : ∀ t b, g (f t b) = g t) (l : List β)
    (s : State) : g (l.foldl f s) = g s := by
  induction l generalizing s with
  | nil => rfl
  | cons b l ih => rw [List.foldl_cons, ih, h]

/-- The same where the steps carry a value beside the state. -/
theorem foldl_keeps_fst {β γ δ : Type} (g : State → γ) (f : State × δ → β → State × δ)
    (h : ∀ t b, g (f t b).1 = g t.1) (l : List β) (s : State × δ) : g (l.foldl f s).1 = g s.1 := by
  induction l generalizing s with
  | nil => rfl
  | cons b l ih => rw [List.foldl_cons, ih, h]

/-- An invariant of every step of a fold holds after it. -/
theorem foldl_invariant {β : Type} (P : State → Prop) (f : State → β → State) (h : ∀ t b, P t → P (f t b)) (l : List β)
    (s : State) (hs : P s) : P (l.foldl f s) := by
  induction l generalizing s with
  | nil => exact hs
  | cons b l ih => exact ih _ (h s b hs)

/-! ### The same change to every record of a list -/

/-- Each slot of the list is changed once, the others not at all. -/
theorem slotState_foldl_modSlot (f : SlotState → SlotState) (l : List Nat) (distinct : l.Nodup) (s : State) (k : Nat) :
    (l.foldl (fun t n => t.modSlot n f) s).slotState k = if k ∈ l then f (s.slotState k) else s.slotState k := by
  induction l generalizing s with
  | nil => rfl
  | cons n l ih =>
    rw [List.nodup_cons] at distinct
    rw [List.foldl_cons, ih distinct.2, slotState_modSlot]
    by_cases e : k = n
    · subst e
      simp [distinct.1]
    · simp [e]

/-- Nothing but the slot records changes. -/
theorem foldl_modSlot_eq (f : SlotState → SlotState) (l : List Nat) (s : State) :
    l.foldl (fun t n => t.modSlot n f) s =
      (s.modLoop fun x => { x with slots := (l.foldl (fun t n => t.modSlot n f) s).loop.slots }) := by
  induction l generalizing s with
  | nil => rfl
  | cons n l ih =>
    rw [List.foldl_cons, ih]
    rfl

/-- Each console of the list is changed once, the others not at all. -/
theorem console_foldl_modConsole (f : Console → Console) (l : List Nat) (distinct : l.Nodup) (s : State) (k : Nat) :
    (l.foldl (fun t n => t.modConsole n f) s).console k = if k ∈ l then f (s.console k) else s.console k := by
  induction l generalizing s with
  | nil => rfl
  | cons n l ih =>
    rw [List.nodup_cons] at distinct
    rw [List.foldl_cons, ih distinct.2, console_modConsole]
    by_cases e : k = n
    · subst e
      simp [distinct.1]
    · simp [e]

/-- Nothing but the console records changes. -/
theorem foldl_modConsole_eq (f : Console → Console) (l : List Nat) (s : State) :
    l.foldl (fun t n => t.modConsole n f) s =
      (s.modBoothControl fun x => { x with consoles := (l.foldl (fun t n => t.modConsole n f) s).booth.consoles }) := by
  induction l generalizing s with
  | nil => rfl
  | cons n l ih =>
    rw [List.foldl_cons, ih]
    rfl

/-- Each booth of the list is changed once, the others not at all. -/
theorem boothRec_foldl_modBooth (f : Booth → Booth) (l : List Nat) (distinct : l.Nodup) (s : State) (k : Nat) :
    (l.foldl (fun t n => t.modBooth n f) s).boothRec k = if k ∈ l then f (s.boothRec k) else s.boothRec k := by
  induction l generalizing s with
  | nil => rfl
  | cons n l ih =>
    rw [List.nodup_cons] at distinct
    rw [List.foldl_cons, ih distinct.2, boothRec_modBooth]
    by_cases e : k = n
    · subst e
      simp [distinct.1]
    · simp [e]

/-- Nothing but the booth records changes. -/
theorem foldl_modBooth_eq (f : Booth → Booth) (l : List Nat) (s : State) :
    l.foldl (fun t n => t.modBooth n f) s =
      (s.modBoothControl fun x => { x with booths := (l.foldl (fun t n => t.modBooth n f) s).booth.booths }) := by
  induction l generalizing s with
  | nil => rfl
  | cons n l ih =>
    rw [List.foldl_cons, ih]
    rfl

/-- Each channel of the list is changed once, the others not at all. -/
theorem chan_foldl_modChan (f : Channel → Channel) (l : List Nat) (distinct : l.Nodup) (s : State) (k : Nat) :
    (l.foldl (fun t n => t.modChan n f) s).chan k = if k ∈ l then f (s.chan k) else s.chan k := by
  induction l generalizing s with
  | nil => rfl
  | cons n l ih =>
    rw [List.nodup_cons] at distinct
    rw [List.foldl_cons, ih distinct.2, chan_modChan]
    by_cases e : k = n
    · subst e
      simp [distinct.1]
    · simp [e]

/-- Nothing but the channel records changes. -/
theorem foldl_modChan_eq (f : Channel → Channel) (l : List Nat) (s : State) :
    l.foldl (fun t n => t.modChan n f) s =
      (s.modSwitch fun x => { x with channels := (l.foldl (fun t n => t.modChan n f) s).switch.channels }) := by
  induction l generalizing s with
  | nil => rfl
  | cons n l ih =>
    rw [List.foldl_cons, ih]
    rfl

/-! ### The state after reset -/

/-- Reset is a cold start with no low indication. -/
theorem reset_eq_coldStart (s : State) : coldStart false s = State.reset.withPending s.pending := rfl

end Sys2Proof.Machine
end

