-- ==== Sys2Proof/Laws/Frames.lean ====
section
/-! SUPPORT. Frames: for each shared operation, the blocks it leaves as they are. Each theorem gives one rewriting rule a block. -/

namespace Sys2Proof.Machine

set_option linter.unusedTactic false
set_option linter.unreachableTactic false
set_option linter.unusedSimpArgs false

@[simp] theorem modSlot_frame (s : State) (n : Nat) (f : SlotState → SlotState) :
    (s.modSlot n f).booth = s.booth ∧ (s.modSlot n f).switch = s.switch ∧ (s.modSlot n f).air = s.air ∧
    (s.modSlot n f).hire = s.hire ∧ (s.modSlot n f).acct = s.acct ∧ (s.modSlot n f).time = s.time ∧
    (s.modSlot n f).serv = s.serv ∧ (s.modSlot n f).supply = s.supply ∧ (s.modSlot n f).pending = s.pending := by
  refine ⟨?_, ?_, ?_, ?_, ?_, ?_, ?_, ?_, ?_⟩ <;> (unfold State.modSlot; try dsimp only) <;> (repeat' split) <;> simp

@[simp] theorem modConsole_frame (s : State) (n : Nat) (f : Console → Console) :
    (s.modConsole n f).loop = s.loop ∧ (s.modConsole n f).switch = s.switch ∧ (s.modConsole n f).air = s.air ∧
    (s.modConsole n f).hire = s.hire ∧ (s.modConsole n f).acct = s.acct ∧ (s.modConsole n f).time = s.time ∧
    (s.modConsole n f).serv = s.serv ∧ (s.modConsole n f).supply = s.supply ∧ (s.modConsole n f).pending = s.pending := by
  refine ⟨?_, ?_, ?_, ?_, ?_, ?_, ?_, ?_, ?_⟩ <;> (unfold State.modConsole; try dsimp only) <;> (repeat' split) <;> simp

@[simp] theorem modBooth_frame (s : State) (n : Nat) (f : Booth → Booth) :
    (s.modBooth n f).loop = s.loop ∧ (s.modBooth n f).switch = s.switch ∧ (s.modBooth n f).air = s.air ∧
    (s.modBooth n f).hire = s.hire ∧ (s.modBooth n f).acct = s.acct ∧ (s.modBooth n f).time = s.time ∧
    (s.modBooth n f).serv = s.serv ∧ (s.modBooth n f).supply = s.supply ∧ (s.modBooth n f).pending = s.pending := by
  refine ⟨?_, ?_, ?_, ?_, ?_, ?_, ?_, ?_, ?_⟩ <;> (unfold State.modBooth; try dsimp only) <;> (repeat' split) <;> simp

@[simp] theorem modChan_frame (s : State) (n : Nat) (f : Channel → Channel) :
    (s.modChan n f).loop = s.loop ∧ (s.modChan n f).booth = s.booth ∧ (s.modChan n f).air = s.air ∧
    (s.modChan n f).hire = s.hire ∧ (s.modChan n f).acct = s.acct ∧ (s.modChan n f).time = s.time ∧
    (s.modChan n f).serv = s.serv ∧ (s.modChan n f).supply = s.supply ∧ (s.modChan n f).pending = s.pending := by
  refine ⟨?_, ?_, ?_, ?_, ?_, ?_, ?_, ?_, ?_⟩ <;> (unfold State.modChan; try dsimp only) <;> (repeat' split) <;> simp

@[simp] theorem writeAccount_frame (s : State) (n : Nat) (a : Account) :
    (s.writeAccount n a).loop = s.loop ∧ (s.writeAccount n a).booth = s.booth ∧ (s.writeAccount n a).switch = s.switch ∧
    (s.writeAccount n a).air = s.air ∧ (s.writeAccount n a).hire = s.hire ∧ (s.writeAccount n a).time = s.time ∧
    (s.writeAccount n a).serv = s.serv ∧ (s.writeAccount n a).supply = s.supply ∧
    (s.writeAccount n a).pending = s.pending := by
  refine ⟨?_, ?_, ?_, ?_, ?_, ?_, ?_, ?_, ?_⟩ <;> (unfold State.writeAccount; try dsimp only) <;> (repeat' split) <;> simp

@[simp] theorem adjustListeners_frame (s : State) (a b : Option Nat) :
    (adjustListeners a b s).loop = s.loop ∧ (adjustListeners a b s).booth = s.booth ∧ (adjustListeners a b s).air = s.air ∧
    (adjustListeners a b s).hire = s.hire ∧ (adjustListeners a b s).acct = s.acct ∧ (adjustListeners a b s).time = s.time ∧
    (adjustListeners a b s).serv = s.serv ∧ (adjustListeners a b s).supply = s.supply ∧
    (adjustListeners a b s).pending = s.pending := by
  refine ⟨?_, ?_, ?_, ?_, ?_, ?_, ?_, ?_, ?_⟩ <;> (unfold adjustListeners; try dsimp only) <;> (repeat' split) <;> simp

@[simp] theorem writeReceiver_frame (s : State) (n : Nat) (r : Receiver) :
    (writeReceiver n r s).loop = s.loop ∧ (writeReceiver n r s).booth = s.booth ∧ (writeReceiver n r s).air = s.air ∧
    (writeReceiver n r s).acct = s.acct ∧ (writeReceiver n r s).time = s.time ∧ (writeReceiver n r s).serv = s.serv ∧
    (writeReceiver n r s).supply = s.supply ∧ (writeReceiver n r s).pending = s.pending := by
  refine ⟨?_, ?_, ?_, ?_, ?_, ?_, ?_, ?_⟩ <;> (unfold writeReceiver; try dsimp only) <;> (repeat' split) <;> simp

@[simp] theorem queueNote_frame (s : State) (n : AirNote) :
    (queueNote n s).loop = s.loop ∧ (queueNote n s).booth = s.booth ∧ (queueNote n s).switch = s.switch ∧
    (queueNote n s).hire = s.hire ∧ (queueNote n s).acct = s.acct ∧ (queueNote n s).time = s.time ∧
    (queueNote n s).serv = s.serv ∧ (queueNote n s).supply = s.supply ∧ (queueNote n s).pending = s.pending := by
  refine ⟨?_, ?_, ?_, ?_, ?_, ?_, ?_, ?_, ?_⟩ <;> (unfold queueNote; try dsimp only) <;> (repeat' split) <;> simp

@[simp] theorem queueReply_frame (s : State) (d t : Nat) (b : List Field) :
    (queueReply d t b s).loop = s.loop ∧ (queueReply d t b s).booth = s.booth ∧ (queueReply d t b s).switch = s.switch ∧
    (queueReply d t b s).air = s.air ∧ (queueReply d t b s).hire = s.hire ∧ (queueReply d t b s).acct = s.acct ∧
    (queueReply d t b s).time = s.time ∧ (queueReply d t b s).supply = s.supply ∧
    (queueReply d t b s).pending = s.pending := by
  refine ⟨?_, ?_, ?_, ?_, ?_, ?_, ?_, ?_, ?_⟩ <;> (unfold queueReply; try dsimp only) <;> (repeat' split) <;> simp

@[simp] theorem queueNotice_frame (s : State) (d : Nat) (b : List Field) :
    (queueNotice d b s).loop = s.loop ∧ (queueNotice d b s).booth = s.booth ∧ (queueNotice d b s).switch = s.switch ∧
    (queueNotice d b s).air = s.air ∧ (queueNotice d b s).hire = s.hire ∧ (queueNotice d b s).acct = s.acct ∧
    (queueNotice d b s).time = s.time ∧ (queueNotice d b s).supply = s.supply ∧
    (queueNotice d b s).pending = s.pending := by
  refine ⟨?_, ?_, ?_, ?_, ?_, ?_, ?_, ?_, ?_⟩ <;> (unfold queueNotice; try dsimp only) <;> (repeat' split) <;> simp

@[simp] theorem setFlag_frame (s : State) (f : NoticeFlag) :
    (setFlag f s).loop = s.loop ∧ (setFlag f s).booth = s.booth ∧ (setFlag f s).switch = s.switch ∧
    (setFlag f s).air = s.air ∧ (setFlag f s).hire = s.hire ∧ (setFlag f s).acct = s.acct ∧ (setFlag f s).time = s.time ∧
    (setFlag f s).supply = s.supply ∧ (setFlag f s).pending = s.pending := by
  refine ⟨?_, ?_, ?_, ?_, ?_, ?_, ?_, ?_, ?_⟩ <;> (unfold setFlag; try dsimp only) <;> (repeat' split) <;>
    simp [foldl_keeps State.loop, foldl_keeps State.booth, foldl_keeps State.switch, foldl_keeps State.air,
      foldl_keeps State.hire, foldl_keeps State.acct, foldl_keeps State.time, foldl_keeps State.supply,
      foldl_keeps State.pending]

@[simp] theorem countServ_frame (s : State) (f : ServiceCounters → ServiceCounters) :
    (countServ f s).loop = s.loop ∧ (countServ f s).booth = s.booth ∧ (countServ f s).switch = s.switch ∧
    (countServ f s).air = s.air ∧ (countServ f s).hire = s.hire ∧ (countServ f s).acct = s.acct ∧
    (countServ f s).time = s.time ∧ (countServ f s).supply = s.supply ∧ (countServ f s).pending = s.pending := by
  refine ⟨?_, ?_, ?_, ?_, ?_, ?_, ?_, ?_, ?_⟩ <;> (unfold countServ; try dsimp only) <;> (repeat' split) <;> simp

@[simp] theorem messageReceived_frame (s : State) :
    (messageReceived s).loop = s.loop ∧ (messageReceived s).booth = s.booth ∧ (messageReceived s).switch = s.switch ∧
    (messageReceived s).air = s.air ∧ (messageReceived s).hire = s.hire ∧ (messageReceived s).acct = s.acct ∧
    (messageReceived s).time = s.time ∧ (messageReceived s).supply = s.supply ∧
    (messageReceived s).pending = s.pending := by
  refine ⟨?_, ?_, ?_, ?_, ?_, ?_, ?_, ?_, ?_⟩ <;> (unfold messageReceived; try dsimp only) <;> (repeat' split) <;> simp

@[simp] theorem sourceUnknown_frame (s : State) :
    (sourceUnknown s).loop = s.loop ∧ (sourceUnknown s).booth = s.booth ∧ (sourceUnknown s).switch = s.switch ∧
    (sourceUnknown s).air = s.air ∧ (sourceUnknown s).hire = s.hire ∧ (sourceUnknown s).acct = s.acct ∧
    (sourceUnknown s).time = s.time ∧ (sourceUnknown s).supply = s.supply ∧ (sourceUnknown s).pending = s.pending := by
  refine ⟨?_, ?_, ?_, ?_, ?_, ?_, ?_, ?_, ?_⟩ <;> (unfold sourceUnknown; try dsimp only) <;> (repeat' split) <;> simp

@[simp] theorem refuseRole_frame (s : State) (h : Header) :
    (refuseRole h s).loop = s.loop ∧ (refuseRole h s).booth = s.booth ∧ (refuseRole h s).switch = s.switch ∧
    (refuseRole h s).air = s.air ∧ (refuseRole h s).hire = s.hire ∧ (refuseRole h s).acct = s.acct ∧
    (refuseRole h s).time = s.time ∧ (refuseRole h s).supply = s.supply ∧ (refuseRole h s).pending = s.pending := by
  refine ⟨?_, ?_, ?_, ?_, ?_, ?_, ?_, ?_, ?_⟩ <;> (unfold refuseRole; try dsimp only) <;> (repeat' split) <;> simp

@[simp] theorem refuseMalformed_frame (s : State) (h : Header) :
    (refuseMalformed h s).loop = s.loop ∧ (refuseMalformed h s).booth = s.booth ∧ (refuseMalformed h s).switch = s.switch ∧
    (refuseMalformed h s).air = s.air ∧ (refuseMalformed h s).hire = s.hire ∧ (refuseMalformed h s).acct = s.acct ∧
    (refuseMalformed h s).time = s.time ∧ (refuseMalformed h s).supply = s.supply ∧
    (refuseMalformed h s).pending = s.pending := by
  refine ⟨?_, ?_, ?_, ?_, ?_, ?_, ?_, ?_, ?_⟩ <;> (unfold refuseMalformed; try dsimp only) <;> (repeat' split) <;> simp

@[simp] theorem takeOwnership_frame (s : State) (c b : Nat) :
    (takeOwnership c b s).loop = s.loop ∧ (takeOwnership c b s).booth = s.booth ∧ (takeOwnership c b s).air = s.air ∧
    (takeOwnership c b s).hire = s.hire ∧ (takeOwnership c b s).acct = s.acct ∧ (takeOwnership c b s).time = s.time ∧
    (takeOwnership c b s).serv = s.serv ∧ (takeOwnership c b s).supply = s.supply ∧
    (takeOwnership c b s).pending = s.pending := by
  refine ⟨?_, ?_, ?_, ?_, ?_, ?_, ?_, ?_, ?_⟩ <;> (unfold takeOwnership; try dsimp only) <;> (repeat' split) <;> simp

@[simp] theorem enterFallback_frame (s : State) (c : Nat) :
    (enterFallback c s).loop = s.loop ∧ (enterFallback c s).booth = s.booth ∧ (enterFallback c s).air = s.air ∧
    (enterFallback c s).hire = s.hire ∧ (enterFallback c s).acct = s.acct ∧ (enterFallback c s).time = s.time ∧
    (enterFallback c s).supply = s.supply ∧ (enterFallback c s).pending = s.pending := by
  refine ⟨?_, ?_, ?_, ?_, ?_, ?_, ?_, ?_⟩ <;> (unfold enterFallback; try dsimp only) <;> (repeat' split) <;> simp

@[simp] theorem release_frame (s : State) (c b : Nat) :
    (release c b s).loop = s.loop ∧ (release c b s).booth = s.booth ∧ (release c b s).air = s.air ∧
    (release c b s).hire = s.hire ∧ (release c b s).acct = s.acct ∧ (release c b s).time = s.time ∧
    (release c b s).supply = s.supply ∧ (release c b s).pending = s.pending := by
  refine ⟨?_, ?_, ?_, ?_, ?_, ?_, ?_, ?_⟩ <;> (unfold release; try dsimp only) <;> (repeat' split) <;> simp

@[simp] theorem appendBlock_frame (s : State) (c : Nat) (x : SpeechBlock) :
    (appendBlock c x s).loop = s.loop ∧ (appendBlock c x s).booth = s.booth ∧ (appendBlock c x s).air = s.air ∧
    (appendBlock c x s).hire = s.hire ∧ (appendBlock c x s).acct = s.acct ∧ (appendBlock c x s).time = s.time ∧
    (appendBlock c x s).serv = s.serv ∧ (appendBlock c x s).supply = s.supply ∧
    (appendBlock c x s).pending = s.pending := by
  refine ⟨?_, ?_, ?_, ?_, ?_, ?_, ?_, ?_, ?_⟩ <;> (unfold appendBlock; try dsimp only) <;> (repeat' split) <;> simp

@[simp] theorem floorArrival_frame (s : State) (x : SpeechBlock) :
    (floorArrival x s).loop = s.loop ∧ (floorArrival x s).booth = s.booth ∧ (floorArrival x s).air = s.air ∧
    (floorArrival x s).hire = s.hire ∧ (floorArrival x s).acct = s.acct ∧ (floorArrival x s).time = s.time ∧
    (floorArrival x s).serv = s.serv ∧ (floorArrival x s).supply = s.supply ∧ (floorArrival x s).pending = s.pending := by
  refine ⟨?_, ?_, ?_, ?_, ?_, ?_, ?_, ?_, ?_⟩ <;> (unfold floorArrival; try dsimp only) <;> (repeat' split) <;> simp

@[simp] theorem takeFloorBlock_frame (s : State) :
    (takeFloorBlock s).loop = s.loop ∧ (takeFloorBlock s).air = s.air ∧ (takeFloorBlock s).hire = s.hire ∧
    (takeFloorBlock s).acct = s.acct ∧ (takeFloorBlock s).time = s.time ∧ (takeFloorBlock s).serv = s.serv ∧
    (takeFloorBlock s).supply = s.supply ∧ (takeFloorBlock s).pending = s.pending := by
  refine ⟨?_, ?_, ?_, ?_, ?_, ?_, ?_, ?_⟩ <;> (unfold takeFloorBlock; try dsimp only) <;> (repeat' split) <;> simp

@[simp] theorem takeResolution_frame (s : State) :
    (takeResolution s).loop = s.loop ∧ (takeResolution s).hire = s.hire ∧ (takeResolution s).acct = s.acct ∧
    (takeResolution s).time = s.time ∧ (takeResolution s).serv = s.serv ∧ (takeResolution s).supply = s.supply ∧
    (takeResolution s).pending = s.pending := by
  refine ⟨?_, ?_, ?_, ?_, ?_, ?_, ?_⟩ <;> (unfold takeResolution; try dsimp only) <;> (repeat' split) <;>
    simp [foldl_keeps State.loop, foldl_keeps State.hire, foldl_keeps State.acct, foldl_keeps State.time,
      foldl_keeps State.serv, foldl_keeps State.supply, foldl_keeps State.pending]

@[simp] theorem takeChannelMinutes_frame (s : State) :
    (takeChannelMinutes s).loop = s.loop ∧ (takeChannelMinutes s).booth = s.booth ∧ (takeChannelMinutes s).air = s.air ∧
    (takeChannelMinutes s).hire = s.hire ∧ (takeChannelMinutes s).acct = s.acct ∧ (takeChannelMinutes s).time = s.time ∧
    (takeChannelMinutes s).serv = s.serv ∧ (takeChannelMinutes s).supply = s.supply ∧
    (takeChannelMinutes s).pending = s.pending := by
  refine ⟨?_, ?_, ?_, ?_, ?_, ?_, ?_, ?_, ?_⟩ <;> (unfold takeChannelMinutes; try dsimp only) <;> (repeat' split) <;>
    simp [foldl_keeps State.loop, foldl_keeps State.booth, foldl_keeps State.air, foldl_keeps State.hire,
      foldl_keeps State.acct, foldl_keeps State.time, foldl_keeps State.serv, foldl_keeps State.supply,
      foldl_keeps State.pending]

@[simp] theorem countDuty_frame (s : State) (f : DutyCounters → DutyCounters) :
    (countDuty f s).loop = s.loop ∧ (countDuty f s).booth = s.booth ∧ (countDuty f s).switch = s.switch ∧
    (countDuty f s).air = s.air ∧ (countDuty f s).hire = s.hire ∧ (countDuty f s).time = s.time ∧
    (countDuty f s).serv = s.serv ∧ (countDuty f s).supply = s.supply ∧ (countDuty f s).pending = s.pending := by
  refine ⟨?_, ?_, ?_, ?_, ?_, ?_, ?_, ?_, ?_⟩ <;> (unfold countDuty; try dsimp only) <;> (repeat' split) <;> simp

@[simp] theorem appendEntry_frame (s : State) (e : DutyEntry) :
    (appendEntry e s).loop = s.loop ∧ (appendEntry e s).booth = s.booth ∧ (appendEntry e s).switch = s.switch ∧
    (appendEntry e s).air = s.air ∧ (appendEntry e s).hire = s.hire ∧ (appendEntry e s).time = s.time ∧
    (appendEntry e s).serv = s.serv ∧ (appendEntry e s).supply = s.supply ∧ (appendEntry e s).pending = s.pending := by
  refine ⟨?_, ?_, ?_, ?_, ?_, ?_, ?_, ?_, ?_⟩ <;> (unfold appendEntry; try dsimp only) <;> (repeat' split) <;> simp

@[simp] theorem spellUnlogged_frame (s : State) (b : Nat) :
    (spellUnlogged b s).loop = s.loop ∧ (spellUnlogged b s).switch = s.switch ∧ (spellUnlogged b s).air = s.air ∧
    (spellUnlogged b s).hire = s.hire ∧ (spellUnlogged b s).time = s.time ∧ (spellUnlogged b s).supply = s.supply ∧
    (spellUnlogged b s).pending = s.pending := by
  refine ⟨?_, ?_, ?_, ?_, ?_, ?_, ?_⟩ <;> (unfold spellUnlogged; try dsimp only) <;> (repeat' split) <;> simp

@[simp] theorem dutyOpen_frame (s : State) (n b c : Nat) :
    (dutyOpen n b c s).loop = s.loop ∧ (dutyOpen n b c s).switch = s.switch ∧ (dutyOpen n b c s).air = s.air ∧
    (dutyOpen n b c s).hire = s.hire ∧ (dutyOpen n b c s).time = s.time ∧ (dutyOpen n b c s).supply = s.supply ∧
    (dutyOpen n b c s).pending = s.pending := by
  refine ⟨?_, ?_, ?_, ?_, ?_, ?_, ?_⟩ <;> (unfold dutyOpen; try dsimp only) <;> (repeat' split) <;> simp

@[simp] theorem completeEntries_frame (s : State) (p : DutyEntry → Bool) (r : EndReason) (c : Clock) :
    (completeEntries p r c s).loop = s.loop ∧ (completeEntries p r c s).booth = s.booth ∧
    (completeEntries p r c s).switch = s.switch ∧ (completeEntries p r c s).air = s.air ∧
    (completeEntries p r c s).hire = s.hire ∧ (completeEntries p r c s).time = s.time ∧
    (completeEntries p r c s).serv = s.serv ∧ (completeEntries p r c s).supply = s.supply ∧
    (completeEntries p r c s).pending = s.pending := by
  refine ⟨?_, ?_, ?_, ?_, ?_, ?_, ?_, ?_, ?_⟩ <;> (unfold completeEntries; try dsimp only) <;> (repeat' split) <;> simp

@[simp] theorem dutyClose_frame (s : State) (n : Nat) (r : EndReason) :
    (dutyClose n r s).loop = s.loop ∧ (dutyClose n r s).booth = s.booth ∧ (dutyClose n r s).switch = s.switch ∧
    (dutyClose n r s).air = s.air ∧ (dutyClose n r s).hire = s.hire ∧ (dutyClose n r s).time = s.time ∧
    (dutyClose n r s).serv = s.serv ∧ (dutyClose n r s).supply = s.supply ∧ (dutyClose n r s).pending = s.pending := by
  refine ⟨?_, ?_, ?_, ?_, ?_, ?_, ?_, ?_, ?_⟩ <;> (unfold dutyClose; try dsimp only) <;> (repeat' split) <;> simp

@[simp] theorem takeDuties_frame (s : State) :
    (takeDuties s).loop = s.loop ∧ (takeDuties s).booth = s.booth ∧ (takeDuties s).switch = s.switch ∧
    (takeDuties s).air = s.air ∧ (takeDuties s).hire = s.hire ∧ (takeDuties s).time = s.time ∧
    (takeDuties s).serv = s.serv ∧ (takeDuties s).supply = s.supply ∧ (takeDuties s).pending = s.pending := by
  refine ⟨?_, ?_, ?_, ?_, ?_, ?_, ?_, ?_, ?_⟩ <;> (unfold takeDuties; try dsimp only) <;> (repeat' split) <;> simp

@[simp] theorem showLamp_frame (s : State) (n : Nat) (c : LampCode) :
    (showLamp n c s).loop = s.loop ∧ (showLamp n c s).switch = s.switch ∧ (showLamp n c s).air = s.air ∧
    (showLamp n c s).hire = s.hire ∧ (showLamp n c s).acct = s.acct ∧ (showLamp n c s).time = s.time ∧
    (showLamp n c s).serv = s.serv ∧ (showLamp n c s).supply = s.supply ∧ (showLamp n c s).pending = s.pending := by
  refine ⟨?_, ?_, ?_, ?_, ?_, ?_, ?_, ?_, ?_⟩ <;> (unfold showLamp; try dsimp only) <;> (repeat' split) <;> simp

@[simp] theorem clearLamp_frame (s : State) (n : Nat) :
    (clearLamp n s).loop = s.loop ∧ (clearLamp n s).switch = s.switch ∧ (clearLamp n s).air = s.air ∧
    (clearLamp n s).hire = s.hire ∧ (clearLamp n s).acct = s.acct ∧ (clearLamp n s).time = s.time ∧
    (clearLamp n s).serv = s.serv ∧ (clearLamp n s).supply = s.supply ∧ (clearLamp n s).pending = s.pending := by
  refine ⟨?_, ?_, ?_, ?_, ?_, ?_, ?_, ?_, ?_⟩ <;> (unfold clearLamp; try dsimp only) <;> (repeat' split) <;> simp

@[simp] theorem displayTick_frame (s : State) (n : Nat) :
    (displayTick n s).loop = s.loop ∧ (displayTick n s).switch = s.switch ∧ (displayTick n s).air = s.air ∧
    (displayTick n s).hire = s.hire ∧ (displayTick n s).acct = s.acct ∧ (displayTick n s).time = s.time ∧
    (displayTick n s).serv = s.serv ∧ (displayTick n s).supply = s.supply ∧ (displayTick n s).pending = s.pending := by
  refine ⟨?_, ?_, ?_, ?_, ?_, ?_, ?_, ?_, ?_⟩ <;> (unfold displayTick; try dsimp only) <;> (repeat' split) <;> simp

@[simp] theorem takeDisplayEnds_frame (s : State) :
    (takeDisplayEnds s).loop = s.loop ∧ (takeDisplayEnds s).switch = s.switch ∧ (takeDisplayEnds s).air = s.air ∧
    (takeDisplayEnds s).hire = s.hire ∧ (takeDisplayEnds s).acct = s.acct ∧ (takeDisplayEnds s).time = s.time ∧
    (takeDisplayEnds s).serv = s.serv ∧ (takeDisplayEnds s).supply = s.supply ∧
    (takeDisplayEnds s).pending = s.pending := by
  refine ⟨?_, ?_, ?_, ?_, ?_, ?_, ?_, ?_, ?_⟩ <;> (unfold takeDisplayEnds; try dsimp only) <;> (repeat' split) <;>
    simp [foldl_keeps State.loop, foldl_keeps State.switch, foldl_keeps State.air, foldl_keeps State.hire,
      foldl_keeps State.acct, foldl_keeps State.time, foldl_keeps State.serv, foldl_keeps State.supply,
      foldl_keeps State.pending]

@[simp] theorem openSpell_frame (s : State) (n b : Nat) :
    (openSpell n b s).loop = s.loop ∧ (openSpell n b s).switch = s.switch ∧ (openSpell n b s).air = s.air ∧
    (openSpell n b s).hire = s.hire ∧ (openSpell n b s).time = s.time ∧ (openSpell n b s).supply = s.supply ∧
    (openSpell n b s).pending = s.pending := by
  refine ⟨?_, ?_, ?_, ?_, ?_, ?_, ?_⟩ <;> (unfold openSpell; try dsimp only) <;> (repeat' split) <;> simp

@[simp] theorem goLive_frame (s : State) (n b : Nat) :
    (goLive n b s).loop = s.loop ∧ (goLive n b s).switch = s.switch ∧ (goLive n b s).air = s.air ∧
    (goLive n b s).hire = s.hire ∧ (goLive n b s).time = s.time ∧ (goLive n b s).supply = s.supply ∧
    (goLive n b s).pending = s.pending := by
  refine ⟨?_, ?_, ?_, ?_, ?_, ?_, ?_⟩ <;> (unfold goLive; try dsimp only) <;> (repeat' split) <;> simp

@[simp] theorem changeLive_frame (s : State) (n d b : Nat) (r : EndReason) :
    (changeLive n d b r s).loop = s.loop ∧ (changeLive n d b r s).switch = s.switch ∧ (changeLive n d b r s).air = s.air ∧
    (changeLive n d b r s).hire = s.hire ∧ (changeLive n d b r s).time = s.time ∧
    (changeLive n d b r s).supply = s.supply ∧ (changeLive n d b r s).pending = s.pending := by
  refine ⟨?_, ?_, ?_, ?_, ?_, ?_, ?_⟩ <;> (unfold changeLive; try dsimp only) <;> (repeat' split) <;> simp

@[simp] theorem releaseSelected_frame (s : State) (b : Nat) :
    (releaseSelected b s).loop = s.loop ∧ (releaseSelected b s).booth = s.booth ∧ (releaseSelected b s).air = s.air ∧
    (releaseSelected b s).hire = s.hire ∧ (releaseSelected b s).acct = s.acct ∧ (releaseSelected b s).time = s.time ∧
    (releaseSelected b s).supply = s.supply ∧ (releaseSelected b s).pending = s.pending := by
  refine ⟨?_, ?_, ?_, ?_, ?_, ?_, ?_, ?_⟩ <;> (unfold releaseSelected; try dsimp only) <;> (repeat' split) <;> simp

@[simp] theorem goSilent_frame (s : State) (b : Nat) (r : EndReason) :
    (goSilent b r s).loop = s.loop ∧ (goSilent b r s).air = s.air ∧ (goSilent b r s).hire = s.hire ∧
    (goSilent b r s).time = s.time ∧ (goSilent b r s).supply = s.supply ∧ (goSilent b r s).pending = s.pending := by
  refine ⟨?_, ?_, ?_, ?_, ?_, ?_⟩ <;> (unfold goSilent; try dsimp only) <;> (repeat' split) <;> simp

@[simp] theorem dropOffer_frame (s : State) (b : Nat) :
    (dropOffer b s).loop = s.loop ∧ (dropOffer b s).switch = s.switch ∧ (dropOffer b s).air = s.air ∧
    (dropOffer b s).hire = s.hire ∧ (dropOffer b s).acct = s.acct ∧ (dropOffer b s).time = s.time ∧
    (dropOffer b s).serv = s.serv ∧ (dropOffer b s).supply = s.supply ∧ (dropOffer b s).pending = s.pending := by
  refine ⟨?_, ?_, ?_, ?_, ?_, ?_, ?_, ?_, ?_⟩ <;> (unfold dropOffer; try dsimp only) <;> (repeat' split) <;> simp

@[simp] theorem consoleGone_frame (s : State) (n : Nat) :
    (consoleGone n s).loop = s.loop ∧ (consoleGone n s).air = s.air ∧ (consoleGone n s).hire = s.hire ∧
    (consoleGone n s).time = s.time ∧ (consoleGone n s).supply = s.supply ∧ (consoleGone n s).pending = s.pending := by
  refine ⟨?_, ?_, ?_, ?_, ?_, ?_⟩ <;> (unfold consoleGone; try dsimp only) <;> (repeat' split) <;> simp

@[simp] theorem setSource_frame (s : State) (b : Nat) (x : RelaySource) :
    (setSource b x s).loop = s.loop ∧ (setSource b x s).switch = s.switch ∧ (setSource b x s).air = s.air ∧
    (setSource b x s).hire = s.hire ∧ (setSource b x s).acct = s.acct ∧ (setSource b x s).time = s.time ∧
    (setSource b x s).serv = s.serv ∧ (setSource b x s).supply = s.supply ∧ (setSource b x s).pending = s.pending := by
  refine ⟨?_, ?_, ?_, ?_, ?_, ?_, ?_, ?_, ?_⟩ <;> (unfold setSource; try dsimp only) <;> (repeat' split) <;> simp

@[simp] theorem latchCall_frame (s : State) (b : Nat) :
    (latchCall b s).loop = s.loop ∧ (latchCall b s).switch = s.switch ∧ (latchCall b s).air = s.air ∧
    (latchCall b s).hire = s.hire ∧ (latchCall b s).acct = s.acct ∧ (latchCall b s).time = s.time ∧
    (latchCall b s).supply = s.supply ∧ (latchCall b s).pending = s.pending := by
  refine ⟨?_, ?_, ?_, ?_, ?_, ?_, ?_, ?_⟩ <;> (unfold latchCall; try dsimp only) <;> (repeat' split) <;> simp

@[simp] theorem recordLevels_frame (s : State) (n : Nat) (x y : Bool) :
    (recordLevels n x y s).loop = s.loop ∧ (recordLevels n x y s).switch = s.switch ∧ (recordLevels n x y s).air = s.air ∧
    (recordLevels n x y s).hire = s.hire ∧ (recordLevels n x y s).acct = s.acct ∧ (recordLevels n x y s).time = s.time ∧
    (recordLevels n x y s).supply = s.supply ∧ (recordLevels n x y s).pending = s.pending := by
  refine ⟨?_, ?_, ?_, ?_, ?_, ?_, ?_, ?_⟩ <;> (unfold recordLevels; try dsimp only) <;> (repeat' split) <;> simp

@[simp] theorem keyTake_frame (s : State) (n b : Nat) :
    (keyTake n b s).loop = s.loop ∧ (keyTake n b s).switch = s.switch ∧ (keyTake n b s).air = s.air ∧
    (keyTake n b s).hire = s.hire ∧ (keyTake n b s).time = s.time ∧ (keyTake n b s).supply = s.supply ∧
    (keyTake n b s).pending = s.pending := by
  refine ⟨?_, ?_, ?_, ?_, ?_, ?_, ?_⟩ <;> (unfold keyTake; try dsimp only) <;> (repeat' split) <;> simp

@[simp] theorem keyMicOn_frame (s : State) (n b : Nat) :
    (keyMicOn n b s).loop = s.loop ∧ (keyMicOn n b s).air = s.air ∧ (keyMicOn n b s).hire = s.hire ∧
    (keyMicOn n b s).time = s.time ∧ (keyMicOn n b s).supply = s.supply ∧ (keyMicOn n b s).pending = s.pending := by
  refine ⟨?_, ?_, ?_, ?_, ?_, ?_⟩ <;> (unfold keyMicOn; try dsimp only) <;> (repeat' split) <;> simp

@[simp] theorem keyHandover_frame (s : State) (n b : Nat) (x : HandoverTarget) :
    (keyHandover n b x s).loop = s.loop ∧ (keyHandover n b x s).switch = s.switch ∧ (keyHandover n b x s).air = s.air ∧
    (keyHandover n b x s).hire = s.hire ∧ (keyHandover n b x s).acct = s.acct ∧ (keyHandover n b x s).time = s.time ∧
    (keyHandover n b x s).serv = s.serv ∧ (keyHandover n b x s).supply = s.supply ∧
    (keyHandover n b x s).pending = s.pending := by
  refine ⟨?_, ?_, ?_, ?_, ?_, ?_, ?_, ?_, ?_⟩ <;> (unfold keyHandover; try dsimp only) <;> (repeat' split) <;> simp

@[simp] theorem keyMicOff_frame (s : State) (n b : Nat) :
    (keyMicOff n b s).loop = s.loop ∧ (keyMicOff n b s).air = s.air ∧ (keyMicOff n b s).hire = s.hire ∧
    (keyMicOff n b s).time = s.time ∧ (keyMicOff n b s).supply = s.supply ∧ (keyMicOff n b s).pending = s.pending := by
  refine ⟨?_, ?_, ?_, ?_, ?_, ?_⟩ <;> (unfold keyMicOff; try dsimp only) <;> (repeat' split) <;> simp

@[simp] theorem switchOutput_frame (s : State) (n b : Nat) (o : Output) (c : Nat) :
    (switchOutput n b o c s).loop = s.loop ∧ (switchOutput n b o c s).air = s.air ∧
    (switchOutput n b o c s).hire = s.hire ∧ (switchOutput n b o c s).time = s.time ∧
    (switchOutput n b o c s).supply = s.supply ∧ (switchOutput n b o c s).pending = s.pending := by
  refine ⟨?_, ?_, ?_, ?_, ?_, ?_⟩ <;> (unfold switchOutput; try dsimp only) <;> (repeat' split) <;> simp

@[simp] theorem keyOutput_frame (s : State) (n b : Nat) (o : Output) :
    (keyOutput n b o s).loop = s.loop ∧ (keyOutput n b o s).air = s.air ∧ (keyOutput n b o s).hire = s.hire ∧
    (keyOutput n b o s).time = s.time ∧ (keyOutput n b o s).supply = s.supply ∧
    (keyOutput n b o s).pending = s.pending := by
  refine ⟨?_, ?_, ?_, ?_, ?_, ?_⟩ <;> (unfold keyOutput; try dsimp only) <;> (repeat' split) <;> simp

@[simp] theorem keyRelay_frame (s : State) (n b : Nat) (x : RelaySource) :
    (keyRelay n b x s).loop = s.loop ∧ (keyRelay n b x s).switch = s.switch ∧ (keyRelay n b x s).air = s.air ∧
    (keyRelay n b x s).hire = s.hire ∧ (keyRelay n b x s).acct = s.acct ∧ (keyRelay n b x s).time = s.time ∧
    (keyRelay n b x s).serv = s.serv ∧ (keyRelay n b x s).supply = s.supply ∧ (keyRelay n b x s).pending = s.pending := by
  refine ⟨?_, ?_, ?_, ?_, ?_, ?_, ?_, ?_, ?_⟩ <;> (unfold keyRelay; try dsimp only) <;> (repeat' split) <;> simp

@[simp] theorem carryOutKey_frame (s : State) (n b : Nat) (k : KeyEvent) :
    (carryOutKey n b k s).loop = s.loop ∧ (carryOutKey n b k s).air = s.air ∧ (carryOutKey n b k s).hire = s.hire ∧
    (carryOutKey n b k s).time = s.time ∧ (carryOutKey n b k s).supply = s.supply ∧
    (carryOutKey n b k s).pending = s.pending := by
  refine ⟨?_, ?_, ?_, ?_, ?_, ?_⟩ <;> (unfold carryOutKey; try dsimp only) <;> (repeat' split) <;> simp

@[simp] theorem takeKey_frame (s : State) (n : Nat) (k : KeyEvent) :
    (takeKey n k s).loop = s.loop ∧ (takeKey n k s).air = s.air ∧ (takeKey n k s).hire = s.hire ∧
    (takeKey n k s).time = s.time ∧ (takeKey n k s).supply = s.supply ∧ (takeKey n k s).pending = s.pending := by
  refine ⟨?_, ?_, ?_, ?_, ?_, ?_⟩ <;> (unfold takeKey; try dsimp only) <;> (repeat' split) <;> simp

@[simp] theorem expireOffer_frame (s : State) (b : Nat) :
    (expireOffer b s).loop = s.loop ∧ (expireOffer b s).switch = s.switch ∧ (expireOffer b s).air = s.air ∧
    (expireOffer b s).hire = s.hire ∧ (expireOffer b s).acct = s.acct ∧ (expireOffer b s).time = s.time ∧
    (expireOffer b s).serv = s.serv ∧ (expireOffer b s).supply = s.supply ∧ (expireOffer b s).pending = s.pending := by
  refine ⟨?_, ?_, ?_, ?_, ?_, ?_, ?_, ?_, ?_⟩ <;> (unfold expireOffer; try dsimp only) <;> (repeat' split) <;> simp

@[simp] theorem offerSecond_frame (s : State) (b : Nat) :
    (offerSecond b s).loop = s.loop ∧ (offerSecond b s).switch = s.switch ∧ (offerSecond b s).air = s.air ∧
    (offerSecond b s).hire = s.hire ∧ (offerSecond b s).acct = s.acct ∧ (offerSecond b s).time = s.time ∧
    (offerSecond b s).serv = s.serv ∧ (offerSecond b s).supply = s.supply ∧ (offerSecond b s).pending = s.pending := by
  refine ⟨?_, ?_, ?_, ?_, ?_, ?_, ?_, ?_, ?_⟩ <;> (unfold offerSecond; try dsimp only) <;> (repeat' split) <;> simp

@[simp] theorem takeOffers_frame (s : State) :
    (takeOffers s).loop = s.loop ∧ (takeOffers s).switch = s.switch ∧ (takeOffers s).air = s.air ∧
    (takeOffers s).hire = s.hire ∧ (takeOffers s).acct = s.acct ∧ (takeOffers s).time = s.time ∧
    (takeOffers s).serv = s.serv ∧ (takeOffers s).supply = s.supply ∧ (takeOffers s).pending = s.pending := by
  refine ⟨?_, ?_, ?_, ?_, ?_, ?_, ?_, ?_, ?_⟩ <;> (unfold takeOffers; try dsimp only) <;> (repeat' split) <;>
    simp [foldl_keeps State.loop, foldl_keeps State.switch, foldl_keeps State.air, foldl_keeps State.hire,
      foldl_keeps State.acct, foldl_keeps State.time, foldl_keeps State.serv, foldl_keeps State.supply,
      foldl_keeps State.pending]

@[simp] theorem turnMinute_frame (s : State) (b : Nat) :
    (turnMinute b s).loop = s.loop ∧ (turnMinute b s).switch = s.switch ∧ (turnMinute b s).air = s.air ∧
    (turnMinute b s).hire = s.hire ∧ (turnMinute b s).acct = s.acct ∧ (turnMinute b s).time = s.time ∧
    (turnMinute b s).supply = s.supply ∧ (turnMinute b s).pending = s.pending := by
  refine ⟨?_, ?_, ?_, ?_, ?_, ?_, ?_, ?_⟩ <;> (unfold turnMinute; try dsimp only) <;> (repeat' split) <;> simp

@[simp] theorem liveMinute_frame (s : State) (b : Nat) :
    (liveMinute b s).loop = s.loop ∧ (liveMinute b s).switch = s.switch ∧ (liveMinute b s).air = s.air ∧
    (liveMinute b s).hire = s.hire ∧ (liveMinute b s).acct = s.acct ∧ (liveMinute b s).time = s.time ∧
    (liveMinute b s).serv = s.serv ∧ (liveMinute b s).supply = s.supply ∧ (liveMinute b s).pending = s.pending := by
  refine ⟨?_, ?_, ?_, ?_, ?_, ?_, ?_, ?_, ?_⟩ <;> (unfold liveMinute; try dsimp only) <;> (repeat' split) <;> simp

@[simp] theorem takeTurns_frame (s : State) :
    (takeTurns s).loop = s.loop ∧ (takeTurns s).switch = s.switch ∧ (takeTurns s).air = s.air ∧
    (takeTurns s).hire = s.hire ∧ (takeTurns s).acct = s.acct ∧ (takeTurns s).time = s.time ∧
    (takeTurns s).supply = s.supply ∧ (takeTurns s).pending = s.pending := by
  refine ⟨?_, ?_, ?_, ?_, ?_, ?_, ?_, ?_⟩ <;> (unfold takeTurns; try dsimp only) <;> (repeat' split) <;>
    simp [foldl_keeps State.loop, foldl_keeps State.switch, foldl_keeps State.air, foldl_keeps State.hire,
      foldl_keeps State.acct, foldl_keeps State.time, foldl_keeps State.supply, foldl_keeps State.pending]

@[simp] theorem takeSpeech_frame (s : State) (u : Nat → Upstream) (b : Nat) :
    (takeSpeech u b s).loop = s.loop ∧ (takeSpeech u b s).air = s.air ∧ (takeSpeech u b s).hire = s.hire ∧
    (takeSpeech u b s).acct = s.acct ∧ (takeSpeech u b s).time = s.time ∧ (takeSpeech u b s).serv = s.serv ∧
    (takeSpeech u b s).supply = s.supply ∧ (takeSpeech u b s).pending = s.pending := by
  refine ⟨?_, ?_, ?_, ?_, ?_, ?_, ?_, ?_⟩ <;> (unfold takeSpeech; try dsimp only) <;> (repeat' split) <;> simp

@[simp] theorem countLoop_frame (s : State) (f : LoopCounters → LoopCounters) :
    (countLoop f s).booth = s.booth ∧ (countLoop f s).switch = s.switch ∧ (countLoop f s).air = s.air ∧
    (countLoop f s).hire = s.hire ∧ (countLoop f s).acct = s.acct ∧ (countLoop f s).time = s.time ∧
    (countLoop f s).serv = s.serv ∧ (countLoop f s).supply = s.supply ∧ (countLoop f s).pending = s.pending := by
  refine ⟨?_, ?_, ?_, ?_, ?_, ?_, ?_, ?_, ?_⟩ <;> (unfold countLoop; try dsimp only) <;> (repeat' split) <;> simp

@[simp] theorem goAbsent_frame (s : State) (n : Nat) :
    (goAbsent n s).air = s.air ∧ (goAbsent n s).hire = s.hire ∧ (goAbsent n s).time = s.time ∧
    (goAbsent n s).supply = s.supply ∧ (goAbsent n s).pending = s.pending := by
  refine ⟨?_, ?_, ?_, ?_, ?_⟩ <;> (unfold goAbsent; try dsimp only) <;> (repeat' split) <;> simp

@[simp] theorem missFrame_frame (s : State) (n : Nat) :
    (missFrame n s).air = s.air ∧ (missFrame n s).hire = s.hire ∧ (missFrame n s).time = s.time ∧
    (missFrame n s).supply = s.supply ∧ (missFrame n s).pending = s.pending := by
  refine ⟨?_, ?_, ?_, ?_, ?_⟩ <;> (unfold missFrame; try dsimp only) <;> (repeat' split) <;> simp

@[simp] theorem loseFrame_frame (s : State) :
    (loseFrame s).air = s.air ∧ (loseFrame s).hire = s.hire ∧ (loseFrame s).time = s.time ∧
    (loseFrame s).supply = s.supply ∧ (loseFrame s).pending = s.pending := by
  refine ⟨?_, ?_, ?_, ?_, ?_⟩ <;> (unfold loseFrame; try dsimp only) <;> (repeat' split) <;>
    simp [foldl_keeps State.air, foldl_keeps State.hire, foldl_keeps State.time, foldl_keeps State.supply,
      foldl_keeps State.pending]

@[simp] theorem hearConsole_frame (s : State) (n : Nat) :
    (hearConsole n s).booth = s.booth ∧ (hearConsole n s).switch = s.switch ∧ (hearConsole n s).air = s.air ∧
    (hearConsole n s).hire = s.hire ∧ (hearConsole n s).acct = s.acct ∧ (hearConsole n s).time = s.time ∧
    (hearConsole n s).serv = s.serv ∧ (hearConsole n s).supply = s.supply ∧ (hearConsole n s).pending = s.pending := by
  refine ⟨?_, ?_, ?_, ?_, ?_, ?_, ?_, ?_, ?_⟩ <;> (unfold hearConsole; try dsimp only) <;> (repeat' split) <;> simp

@[simp] theorem countError_frame (s : State) (n : Nat) :
    (countError n s).booth = s.booth ∧ (countError n s).switch = s.switch ∧ (countError n s).air = s.air ∧
    (countError n s).hire = s.hire ∧ (countError n s).acct = s.acct ∧ (countError n s).time = s.time ∧
    (countError n s).serv = s.serv ∧ (countError n s).supply = s.supply ∧ (countError n s).pending = s.pending := by
  refine ⟨?_, ?_, ?_, ?_, ?_, ?_, ?_, ?_, ?_⟩ <;> (unfold countError; try dsimp only) <;> (repeat' split) <;> simp

@[simp] theorem countDeparture_frame (s : State) :
    (countDeparture s).booth = s.booth ∧ (countDeparture s).switch = s.switch ∧ (countDeparture s).air = s.air ∧
    (countDeparture s).hire = s.hire ∧ (countDeparture s).acct = s.acct ∧ (countDeparture s).time = s.time ∧
    (countDeparture s).supply = s.supply ∧ (countDeparture s).pending = s.pending := by
  refine ⟨?_, ?_, ?_, ?_, ?_, ?_, ?_, ?_⟩ <;> (unfold countDeparture; try dsimp only) <;> (repeat' split) <;> simp

@[simp] theorem countGoodReturn_frame (s : State) :
    (countGoodReturn s).booth = s.booth ∧ (countGoodReturn s).switch = s.switch ∧ (countGoodReturn s).air = s.air ∧
    (countGoodReturn s).hire = s.hire ∧ (countGoodReturn s).acct = s.acct ∧ (countGoodReturn s).time = s.time ∧
    (countGoodReturn s).serv = s.serv ∧ (countGoodReturn s).supply = s.supply ∧
    (countGoodReturn s).pending = s.pending := by
  refine ⟨?_, ?_, ?_, ?_, ?_, ?_, ?_, ?_, ?_⟩ <;> (unfold countGoodReturn; try dsimp only) <;> (repeat' split) <;> simp

@[simp] theorem giveUpOldest_frame (s : State) :
    (giveUpOldest s).air = s.air ∧ (giveUpOldest s).hire = s.hire ∧ (giveUpOldest s).time = s.time ∧
    (giveUpOldest s).supply = s.supply ∧ (giveUpOldest s).pending = s.pending := by
  refine ⟨?_, ?_, ?_, ?_, ?_⟩ <;> (unfold giveUpOldest; try dsimp only) <;> (repeat' split) <;> simp

@[simp] theorem sendFrame_frame (s : State) :
    (sendFrame s).booth = s.booth ∧ (sendFrame s).switch = s.switch ∧ (sendFrame s).air = s.air ∧
    (sendFrame s).hire = s.hire ∧ (sendFrame s).acct = s.acct ∧ (sendFrame s).time = s.time ∧ (sendFrame s).serv = s.serv ∧
    (sendFrame s).supply = s.supply ∧ (sendFrame s).pending = s.pending := by
  refine ⟨?_, ?_, ?_, ?_, ?_, ?_, ?_, ?_, ?_⟩ <;> (unfold sendFrame; try dsimp only) <;> (repeat' split) <;> simp

@[simp] theorem takeDeparture_frame (s : State) :
    (takeDeparture s).air = s.air ∧ (takeDeparture s).hire = s.hire ∧ (takeDeparture s).time = s.time ∧
    (takeDeparture s).supply = s.supply ∧ (takeDeparture s).pending = s.pending := by
  refine ⟨?_, ?_, ?_, ?_, ?_⟩ <;> (unfold takeDeparture; try dsimp only) <;> (repeat' split) <;> simp

@[simp] theorem readSlot_frame (s : State) (n : Nat) (u : Upstream) :
    (readSlot n u s).air = s.air ∧ (readSlot n u s).hire = s.hire ∧ (readSlot n u s).time = s.time ∧
    (readSlot n u s).supply = s.supply ∧ (readSlot n u s).pending = s.pending := by
  refine ⟨?_, ?_, ?_, ?_, ?_⟩ <;> (unfold readSlot; try dsimp only) <;> (repeat' split) <;> simp

@[simp] theorem handKey_frame (s : State) (n : Nat) (x : Nat × Nat) :
    (handKey n s x).air = s.air ∧ (handKey n s x).hire = s.hire ∧ (handKey n s x).time = s.time ∧
    (handKey n s x).supply = s.supply ∧ (handKey n s x).pending = s.pending := by
  refine ⟨?_, ?_, ?_, ?_, ?_⟩ <;> (unfold handKey; try dsimp only) <;> (repeat' split) <;> simp

@[simp] theorem takeLevels_frame (s : State) (f : LoopReturn) (n : Nat) :
    (takeLevels f s n).loop = s.loop ∧ (takeLevels f s n).switch = s.switch ∧ (takeLevels f s n).air = s.air ∧
    (takeLevels f s n).hire = s.hire ∧ (takeLevels f s n).acct = s.acct ∧ (takeLevels f s n).time = s.time ∧
    (takeLevels f s n).supply = s.supply ∧ (takeLevels f s n).pending = s.pending := by
  refine ⟨?_, ?_, ?_, ?_, ?_, ?_, ?_, ?_⟩ <;> (unfold takeLevels; try dsimp only) <;> (repeat' split) <;> simp

@[simp] theorem takeKeys_frame (s : State) (f : LoopReturn) (n : Nat) :
    (takeKeys f s n).air = s.air ∧ (takeKeys f s n).hire = s.hire ∧ (takeKeys f s n).time = s.time ∧
    (takeKeys f s n).supply = s.supply ∧ (takeKeys f s n).pending = s.pending := by
  refine ⟨?_, ?_, ?_, ?_, ?_⟩ <;> (unfold takeKeys; try dsimp only) <;> (repeat' split) <;>
    simp [foldl_keeps State.air, foldl_keeps State.hire, foldl_keeps State.time, foldl_keeps State.supply,
      foldl_keeps State.pending]

@[simp] theorem loseFrames_frame (s : State) (n : Nat) :
    (loseFrames n s).air = s.air ∧ (loseFrames n s).hire = s.hire ∧ (loseFrames n s).time = s.time ∧
    (loseFrames n s).supply = s.supply ∧ (loseFrames n s).pending = s.pending := by
  induction n with
  | zero => simp [loseFrames, Nat.repeat]
  | succ n ih => simpa [loseFrames, Nat.repeat] using ih

@[simp] theorem takeEntry_frame (s : State) (q : Nat) :
    (takeEntry q s).air = s.air ∧ (takeEntry q s).hire = s.hire ∧ (takeEntry q s).time = s.time ∧
    (takeEntry q s).supply = s.supply ∧ (takeEntry q s).pending = s.pending := by
  refine ⟨?_, ?_, ?_, ?_, ?_⟩ <;> (unfold takeEntry; try dsimp only) <;> (repeat' split) <;> simp

@[simp] theorem handOn_frame (s : State) (f : LoopReturn) :
    (handOn f s).air = s.air ∧ (handOn f s).hire = s.hire ∧ (handOn f s).time = s.time ∧ (handOn f s).supply = s.supply ∧
    (handOn f s).pending = s.pending := by
  refine ⟨?_, ?_, ?_, ?_, ?_⟩ <;> (unfold handOn; try dsimp only) <;> (repeat' split) <;>
    simp [foldl_keeps State.air, foldl_keeps State.hire, foldl_keeps State.time, foldl_keeps State.supply,
      foldl_keeps State.pending]

@[simp] theorem loopReturn_frame (s : State) (f : LoopReturn) :
    (loopReturn f s).air = s.air ∧ (loopReturn f s).hire = s.hire ∧ (loopReturn f s).time = s.time ∧
    (loopReturn f s).supply = s.supply ∧ (loopReturn f s).pending = s.pending := by
  refine ⟨?_, ?_, ?_, ?_, ?_⟩ <;> (unfold loopReturn; try dsimp only) <;> (repeat' split) <;> simp

@[simp] theorem countAir_frame (s : State) (f : AirCounters → AirCounters) :
    (countAir f s).loop = s.loop ∧ (countAir f s).booth = s.booth ∧ (countAir f s).switch = s.switch ∧
    (countAir f s).hire = s.hire ∧ (countAir f s).acct = s.acct ∧ (countAir f s).time = s.time ∧
    (countAir f s).serv = s.serv ∧ (countAir f s).supply = s.supply ∧ (countAir f s).pending = s.pending := by
  refine ⟨?_, ?_, ?_, ?_, ?_, ?_, ?_, ?_, ?_⟩ <;> (unfold countAir; try dsimp only) <;> (repeat' split) <;> simp

@[simp] theorem grantNote_frame (s : State) (n c : Nat) :
    (grantNote n c s).loop = s.loop ∧ (grantNote n c s).booth = s.booth ∧ (grantNote n c s).switch = s.switch ∧
    (grantNote n c s).hire = s.hire ∧ (grantNote n c s).acct = s.acct ∧ (grantNote n c s).time = s.time ∧
    (grantNote n c s).serv = s.serv ∧ (grantNote n c s).supply = s.supply ∧ (grantNote n c s).pending = s.pending := by
  refine ⟨?_, ?_, ?_, ?_, ?_, ?_, ?_, ?_, ?_⟩ <;> (unfold grantNote; try dsimp only) <;> (repeat' split) <;> simp

@[simp] theorem denyNote_frame (s : State) (n c : Nat) :
    (denyNote n c s).loop = s.loop ∧ (denyNote n c s).booth = s.booth ∧ (denyNote n c s).switch = s.switch ∧
    (denyNote n c s).hire = s.hire ∧ (denyNote n c s).acct = s.acct ∧ (denyNote n c s).time = s.time ∧
    (denyNote n c s).serv = s.serv ∧ (denyNote n c s).supply = s.supply ∧ (denyNote n c s).pending = s.pending := by
  refine ⟨?_, ?_, ?_, ?_, ?_, ?_, ?_, ?_, ?_⟩ <;> (unfold denyNote; try dsimp only) <;> (repeat' split) <;> simp

@[simp] theorem judge_frame (s : State) (n : Nat) (r : Receiver) (a c : Nat) (x : Bool) :
    (judge n r a c x s).loop = s.loop ∧ (judge n r a c x s).booth = s.booth ∧ (judge n r a c x s).acct = s.acct ∧
    (judge n r a c x s).time = s.time ∧ (judge n r a c x s).serv = s.serv ∧ (judge n r a c x s).supply = s.supply ∧
    (judge n r a c x s).pending = s.pending := by
  refine ⟨?_, ?_, ?_, ?_, ?_, ?_, ?_⟩ <;> (unfold judge; try dsimp only) <;> (repeat' split) <;> simp

@[simp] theorem unknownReport_frame (s : State) (p : AirReport) :
    (unknownReport p s).loop = s.loop ∧ (unknownReport p s).booth = s.booth ∧ (unknownReport p s).switch = s.switch ∧
    (unknownReport p s).hire = s.hire ∧ (unknownReport p s).acct = s.acct ∧ (unknownReport p s).time = s.time ∧
    (unknownReport p s).supply = s.supply ∧ (unknownReport p s).pending = s.pending := by
  refine ⟨?_, ?_, ?_, ?_, ?_, ?_, ?_, ?_⟩ <;> (unfold unknownReport; try dsimp only) <;> (repeat' split) <;> simp

@[simp] theorem duplicateReport_frame (s : State) (n : Nat) (r : Receiver) (p : AirReport) :
    (duplicateReport n r p s).loop = s.loop ∧ (duplicateReport n r p s).booth = s.booth ∧
    (duplicateReport n r p s).acct = s.acct ∧ (duplicateReport n r p s).time = s.time ∧
    (duplicateReport n r p s).serv = s.serv ∧ (duplicateReport n r p s).supply = s.supply ∧
    (duplicateReport n r p s).pending = s.pending := by
  refine ⟨?_, ?_, ?_, ?_, ?_, ?_, ?_⟩ <;> (unfold duplicateReport; try dsimp only) <;> (repeat' split) <;> simp

@[simp] theorem acceptReport_frame (s : State) (n : Nat) (r : Receiver) (p : AirReport) :
    (acceptReport n r p s).loop = s.loop ∧ (acceptReport n r p s).booth = s.booth ∧ (acceptReport n r p s).acct = s.acct ∧
    (acceptReport n r p s).time = s.time ∧ (acceptReport n r p s).supply = s.supply ∧
    (acceptReport n r p s).pending = s.pending := by
  refine ⟨?_, ?_, ?_, ?_, ?_, ?_⟩ <;> (unfold acceptReport; try dsimp only) <;> (repeat' split) <;> simp

@[simp] theorem takeReport_frame (s : State) (p : AirReport) :
    (takeReport p s).loop = s.loop ∧ (takeReport p s).booth = s.booth ∧ (takeReport p s).acct = s.acct ∧
    (takeReport p s).time = s.time ∧ (takeReport p s).supply = s.supply ∧ (takeReport p s).pending = s.pending := by
  refine ⟨?_, ?_, ?_, ?_, ?_, ?_⟩ <;> (unfold takeReport; try dsimp only) <;> (repeat' split) <;> simp

@[simp] theorem rangeSecond_frame (s : State) (n : Nat) :
    (rangeSecond s n).loop = s.loop ∧ (rangeSecond s n).booth = s.booth ∧ (rangeSecond s n).acct = s.acct ∧
    (rangeSecond s n).time = s.time ∧ (rangeSecond s n).serv = s.serv ∧ (rangeSecond s n).supply = s.supply ∧
    (rangeSecond s n).pending = s.pending := by
  refine ⟨?_, ?_, ?_, ?_, ?_, ?_, ?_⟩ <;> (unfold rangeSecond; try dsimp only) <;> (repeat' split) <;> simp

@[simp] theorem takeNotes_frame (s : State) :
    (takeNotes s).loop = s.loop ∧ (takeNotes s).booth = s.booth ∧ (takeNotes s).switch = s.switch ∧
    (takeNotes s).hire = s.hire ∧ (takeNotes s).acct = s.acct ∧ (takeNotes s).time = s.time ∧ (takeNotes s).serv = s.serv ∧
    (takeNotes s).supply = s.supply ∧ (takeNotes s).pending = s.pending := by
  refine ⟨?_, ?_, ?_, ?_, ?_, ?_, ?_, ?_, ?_⟩ <;> (unfold takeNotes; try dsimp only) <;> (repeat' split) <;> simp

@[simp] theorem countAcct_frame (s : State) (f : AccountingCounters → AccountingCounters) :
    (countAcct f s).loop = s.loop ∧ (countAcct f s).booth = s.booth ∧ (countAcct f s).switch = s.switch ∧
    (countAcct f s).air = s.air ∧ (countAcct f s).hire = s.hire ∧ (countAcct f s).time = s.time ∧
    (countAcct f s).serv = s.serv ∧ (countAcct f s).supply = s.supply ∧ (countAcct f s).pending = s.pending := by
  refine ⟨?_, ?_, ?_, ?_, ?_, ?_, ?_, ?_, ?_⟩ <;> (unfold countAcct; try dsimp only) <;> (repeat' split) <;> simp

@[simp] theorem openLoan_frame (s : State) (a : Nat) :
    (openLoan a s).loop = s.loop ∧ (openLoan a s).booth = s.booth ∧ (openLoan a s).switch = s.switch ∧
    (openLoan a s).air = s.air ∧ (openLoan a s).hire = s.hire ∧ (openLoan a s).time = s.time ∧
    (openLoan a s).serv = s.serv ∧ (openLoan a s).supply = s.supply ∧ (openLoan a s).pending = s.pending := by
  refine ⟨?_, ?_, ?_, ?_, ?_, ?_, ?_, ?_, ?_⟩ <;> (unfold openLoan; try dsimp only) <;> (repeat' split) <;> simp

@[simp] theorem endLoan_frame (s : State) (a : Nat) :
    (endLoan a s).loop = s.loop ∧ (endLoan a s).booth = s.booth ∧ (endLoan a s).switch = s.switch ∧
    (endLoan a s).air = s.air ∧ (endLoan a s).hire = s.hire ∧ (endLoan a s).time = s.time ∧ (endLoan a s).serv = s.serv ∧
    (endLoan a s).supply = s.supply ∧ (endLoan a s).pending = s.pending := by
  refine ⟨?_, ?_, ?_, ?_, ?_, ?_, ?_, ?_, ?_⟩ <;> (unfold endLoan; try dsimp only) <;> (repeat' split) <;> simp

@[simp] theorem applyStatement_frame (s : State) (x : Statement) :
    (applyStatement x s).loop = s.loop ∧ (applyStatement x s).booth = s.booth ∧ (applyStatement x s).switch = s.switch ∧
    (applyStatement x s).air = s.air ∧ (applyStatement x s).hire = s.hire ∧ (applyStatement x s).time = s.time ∧
    (applyStatement x s).supply = s.supply ∧ (applyStatement x s).pending = s.pending := by
  refine ⟨?_, ?_, ?_, ?_, ?_, ?_, ?_, ?_⟩ <;> (unfold applyStatement; try dsimp only) <;> (repeat' split) <;> simp

@[simp] theorem flagQueue_frame (s : State) :
    (flagQueue s).loop = s.loop ∧ (flagQueue s).booth = s.booth ∧ (flagQueue s).switch = s.switch ∧
    (flagQueue s).air = s.air ∧ (flagQueue s).hire = s.hire ∧ (flagQueue s).acct = s.acct ∧ (flagQueue s).time = s.time ∧
    (flagQueue s).supply = s.supply ∧ (flagQueue s).pending = s.pending := by
  refine ⟨?_, ?_, ?_, ?_, ?_, ?_, ?_, ?_, ?_⟩ <;> (unfold flagQueue; try dsimp only) <;> (repeat' split) <;> simp

@[simp] theorem postStatement_frame (s : State) (x : Statement) :
    (postStatement x s).loop = s.loop ∧ (postStatement x s).booth = s.booth ∧ (postStatement x s).switch = s.switch ∧
    (postStatement x s).air = s.air ∧ (postStatement x s).hire = s.hire ∧ (postStatement x s).time = s.time ∧
    (postStatement x s).supply = s.supply ∧ (postStatement x s).pending = s.pending := by
  refine ⟨?_, ?_, ?_, ?_, ?_, ?_, ?_, ?_⟩ <;> (unfold postStatement; try dsimp only) <;> (repeat' split) <;> simp

@[simp] theorem postPending_frame (s : State) (n : Nat) :
    (postPending n s).loop = s.loop ∧ (postPending n s).booth = s.booth ∧ (postPending n s).air = s.air ∧
    (postPending n s).time = s.time ∧ (postPending n s).supply = s.supply ∧ (postPending n s).pending = s.pending := by
  refine ⟨?_, ?_, ?_, ?_, ?_, ?_⟩ <;> (unfold postPending; try dsimp only) <;> (repeat' split) <;> simp

@[simp] theorem countHire_frame (s : State) (f : HireCounters → HireCounters) :
    (countHire f s).loop = s.loop ∧ (countHire f s).booth = s.booth ∧ (countHire f s).switch = s.switch ∧
    (countHire f s).air = s.air ∧ (countHire f s).acct = s.acct ∧ (countHire f s).time = s.time ∧
    (countHire f s).serv = s.serv ∧ (countHire f s).supply = s.supply ∧ (countHire f s).pending = s.pending := by
  refine ⟨?_, ?_, ?_, ?_, ?_, ?_, ?_, ?_, ?_⟩ <;> (unfold countHire; try dsimp only) <;> (repeat' split) <;> simp

@[simp] theorem issueReceiver_frame (s : State) (n : Nat) (r : Receiver) (a : Nat) :
    (issueReceiver n r a s).loop = s.loop ∧ (issueReceiver n r a s).booth = s.booth ∧ (issueReceiver n r a s).air = s.air ∧
    (issueReceiver n r a s).time = s.time ∧ (issueReceiver n r a s).serv = s.serv ∧
    (issueReceiver n r a s).supply = s.supply ∧ (issueReceiver n r a s).pending = s.pending := by
  refine ⟨?_, ?_, ?_, ?_, ?_, ?_, ?_⟩ <;> (unfold issueReceiver; try dsimp only) <;> (repeat' split) <;> simp

@[simp] theorem makePending_frame (s : State) (n : Nat) (r : Receiver) (k : StatementKind) (a : Nat) :
    (makePending n r k a s).loop = s.loop ∧ (makePending n r k a s).booth = s.booth ∧ (makePending n r k a s).air = s.air ∧
    (makePending n r k a s).time = s.time ∧ (makePending n r k a s).serv = s.serv ∧
    (makePending n r k a s).supply = s.supply ∧ (makePending n r k a s).pending = s.pending := by
  refine ⟨?_, ?_, ?_, ?_, ?_, ?_, ?_⟩ <;> (unfold makePending; try dsimp only) <;> (repeat' split) <;> simp

@[simp] theorem settleClosure_frame (s : State) (n : Nat) (r : Receiver) (l : Loan) (k : StatementKind) :
    (settleClosure n r l k s).loop = s.loop ∧ (settleClosure n r l k s).booth = s.booth ∧
    (settleClosure n r l k s).air = s.air ∧ (settleClosure n r l k s).time = s.time ∧
    (settleClosure n r l k s).supply = s.supply ∧ (settleClosure n r l k s).pending = s.pending := by
  refine ⟨?_, ?_, ?_, ?_, ?_, ?_⟩ <;> (unfold settleClosure; try dsimp only) <;> (repeat' split) <;> simp

@[simp] theorem closeReturned_frame (s : State) (n : Nat) (r : Receiver) (l : Loan) :
    (closeReturned n r l s).loop = s.loop ∧ (closeReturned n r l s).booth = s.booth ∧ (closeReturned n r l s).air = s.air ∧
    (closeReturned n r l s).time = s.time ∧ (closeReturned n r l s).supply = s.supply ∧
    (closeReturned n r l s).pending = s.pending := by
  refine ⟨?_, ?_, ?_, ?_, ?_, ?_⟩ <;> (unfold closeReturned; try dsimp only) <;> (repeat' split) <;> simp

@[simp] theorem closeLost_frame (s : State) (n : Nat) (r : Receiver) (l : Loan) :
    (closeLost n r l s).loop = s.loop ∧ (closeLost n r l s).booth = s.booth ∧ (closeLost n r l s).air = s.air ∧
    (closeLost n r l s).time = s.time ∧ (closeLost n r l s).supply = s.supply ∧
    (closeLost n r l s).pending = s.pending := by
  refine ⟨?_, ?_, ?_, ?_, ?_, ?_⟩ <;> (unfold closeLost; try dsimp only) <;> (repeat' split) <;> simp

@[simp] theorem recover_frame (s : State) (n : Nat) (r : Receiver) (l : Loan) :
    (recover n r l s).loop = s.loop ∧ (recover n r l s).booth = s.booth ∧ (recover n r l s).air = s.air ∧
    (recover n r l s).time = s.time ∧ (recover n r l s).supply = s.supply ∧ (recover n r l s).pending = s.pending := by
  refine ⟨?_, ?_, ?_, ?_, ?_, ?_⟩ <;> (unfold recover; try dsimp only) <;> (repeat' split) <;> simp

@[simp] theorem clearPosition_frame (s : State) (n : Nat) (p : Nat × Nat) :
    (clearPosition n p s).loop = s.loop ∧ (clearPosition n p s).booth = s.booth ∧ (clearPosition n p s).air = s.air ∧
    (clearPosition n p s).acct = s.acct ∧ (clearPosition n p s).time = s.time ∧ (clearPosition n p s).serv = s.serv ∧
    (clearPosition n p s).supply = s.supply ∧ (clearPosition n p s).pending = s.pending := by
  refine ⟨?_, ?_, ?_, ?_, ?_, ?_, ?_, ?_⟩ <;> (unfold clearPosition; try dsimp only) <;> (repeat' split) <;> simp

@[simp] theorem dock_frame (s : State) (a b c n : Nat) (r : Receiver) :
    (dock a b c n r s).loop = s.loop ∧ (dock a b c n r s).booth = s.booth ∧ (dock a b c n r s).air = s.air ∧
    (dock a b c n r s).time = s.time ∧ (dock a b c n r s).supply = s.supply ∧ (dock a b c n r s).pending = s.pending := by
  refine ⟨?_, ?_, ?_, ?_, ?_, ?_⟩ <;> (unfold dock; try dsimp only) <;> (repeat' split) <;> simp

@[simp] theorem undock_frame (s : State) (n : Nat) (r : Receiver) :
    (undock n r s).loop = s.loop ∧ (undock n r s).booth = s.booth ∧ (undock n r s).air = s.air ∧
    (undock n r s).acct = s.acct ∧ (undock n r s).time = s.time ∧ (undock n r s).serv = s.serv ∧
    (undock n r s).supply = s.supply ∧ (undock n r s).pending = s.pending := by
  refine ⟨?_, ?_, ?_, ?_, ?_, ?_, ?_, ?_⟩ <;> (unfold undock; try dsimp only) <;> (repeat' split) <;> simp

@[simp] theorem cellLevel_frame (s : State) (a n : Nat) (r : Receiver) :
    (cellLevel a n r s).loop = s.loop ∧ (cellLevel a n r s).booth = s.booth ∧ (cellLevel a n r s).air = s.air ∧
    (cellLevel a n r s).acct = s.acct ∧ (cellLevel a n r s).time = s.time ∧ (cellLevel a n r s).serv = s.serv ∧
    (cellLevel a n r s).supply = s.supply ∧ (cellLevel a n r s).pending = s.pending := by
  refine ⟨?_, ?_, ?_, ?_, ?_, ?_, ?_, ?_⟩ <;> (unfold cellLevel; try dsimp only) <;> (repeat' split) <;> simp

@[simp] theorem takeReturnBy_frame (s : State) :
    (takeReturnBy s).loop = s.loop ∧ (takeReturnBy s).booth = s.booth ∧ (takeReturnBy s).switch = s.switch ∧
    (takeReturnBy s).air = s.air ∧ (takeReturnBy s).acct = s.acct ∧ (takeReturnBy s).time = s.time ∧
    (takeReturnBy s).serv = s.serv ∧ (takeReturnBy s).supply = s.supply ∧ (takeReturnBy s).pending = s.pending := by
  refine ⟨?_, ?_, ?_, ?_, ?_, ?_, ?_, ?_, ?_⟩ <;> (unfold takeReturnBy; try dsimp only) <;> (repeat' split) <;> simp

@[simp] theorem takeLoans_frame (s : State) :
    (takeLoans s).loop = s.loop ∧ (takeLoans s).booth = s.booth ∧ (takeLoans s).switch = s.switch ∧
    (takeLoans s).air = s.air ∧ (takeLoans s).acct = s.acct ∧ (takeLoans s).time = s.time ∧ (takeLoans s).serv = s.serv ∧
    (takeLoans s).supply = s.supply ∧ (takeLoans s).pending = s.pending := by
  refine ⟨?_, ?_, ?_, ?_, ?_, ?_, ?_, ?_, ?_⟩ <;> (unfold takeLoans; try dsimp only) <;> (repeat' split) <;> simp

@[simp] theorem countBatch_frame (s : State) (f : BatchCounters → BatchCounters) :
    (countBatch f s).loop = s.loop ∧ (countBatch f s).booth = s.booth ∧ (countBatch f s).switch = s.switch ∧
    (countBatch f s).air = s.air ∧ (countBatch f s).acct = s.acct ∧ (countBatch f s).time = s.time ∧
    (countBatch f s).serv = s.serv ∧ (countBatch f s).supply = s.supply ∧ (countBatch f s).pending = s.pending := by
  refine ⟨?_, ?_, ?_, ?_, ?_, ?_, ?_, ?_, ?_⟩ <;> (unfold countBatch; try dsimp only) <;> (repeat' split) <;> simp

@[simp] theorem writeBatch_frame (s : State) (n : Nat) (b : Batch) :
    (writeBatch n b s).loop = s.loop ∧ (writeBatch n b s).booth = s.booth ∧ (writeBatch n b s).switch = s.switch ∧
    (writeBatch n b s).air = s.air ∧ (writeBatch n b s).acct = s.acct ∧ (writeBatch n b s).time = s.time ∧
    (writeBatch n b s).serv = s.serv ∧ (writeBatch n b s).supply = s.supply ∧ (writeBatch n b s).pending = s.pending := by
  refine ⟨?_, ?_, ?_, ?_, ?_, ?_, ?_, ?_, ?_⟩ <;> (unfold writeBatch; try dsimp only) <;> (repeat' split) <;> simp

@[simp] theorem dropBatch_frame (s : State) (n : Nat) :
    (dropBatch n s).loop = s.loop ∧ (dropBatch n s).booth = s.booth ∧ (dropBatch n s).switch = s.switch ∧
    (dropBatch n s).air = s.air ∧ (dropBatch n s).acct = s.acct ∧ (dropBatch n s).time = s.time ∧
    (dropBatch n s).serv = s.serv ∧ (dropBatch n s).supply = s.supply ∧ (dropBatch n s).pending = s.pending := by
  refine ⟨?_, ?_, ?_, ?_, ?_, ?_, ?_, ?_, ?_⟩ <;> (unfold dropBatch; try dsimp only) <;> (repeat' split) <;> simp

@[simp] theorem freeReceiver_frame (s : State) (n : Nat) :
    (freeReceiver s n).loop = s.loop ∧ (freeReceiver s n).booth = s.booth ∧ (freeReceiver s n).air = s.air ∧
    (freeReceiver s n).acct = s.acct ∧ (freeReceiver s n).time = s.time ∧ (freeReceiver s n).serv = s.serv ∧
    (freeReceiver s n).supply = s.supply ∧ (freeReceiver s n).pending = s.pending := by
  refine ⟨?_, ?_, ?_, ?_, ?_, ?_, ?_, ?_⟩ <;> (unfold freeReceiver; try dsimp only) <;> (repeat' split) <;> simp

@[simp] theorem releaseBatch_frame (s : State) (n : Nat) (b : Batch) :
    (releaseBatch n b s).loop = s.loop ∧ (releaseBatch n b s).booth = s.booth ∧ (releaseBatch n b s).air = s.air ∧
    (releaseBatch n b s).acct = s.acct ∧ (releaseBatch n b s).time = s.time ∧ (releaseBatch n b s).serv = s.serv ∧
    (releaseBatch n b s).supply = s.supply ∧ (releaseBatch n b s).pending = s.pending := by
  refine ⟨?_, ?_, ?_, ?_, ?_, ?_, ?_, ?_⟩ <;> (unfold releaseBatch; try dsimp only) <;> (repeat' split) <;>
    simp [foldl_keeps State.loop, foldl_keeps State.booth, foldl_keeps State.air, foldl_keeps State.acct,
      foldl_keeps State.time, foldl_keeps State.serv, foldl_keeps State.supply, foldl_keeps State.pending]

@[simp] theorem batchSecond_frame (s : State) (n : Nat) :
    (batchSecond s n).loop = s.loop ∧ (batchSecond s n).booth = s.booth ∧ (batchSecond s n).air = s.air ∧
    (batchSecond s n).acct = s.acct ∧ (batchSecond s n).time = s.time ∧ (batchSecond s n).serv = s.serv ∧
    (batchSecond s n).supply = s.supply ∧ (batchSecond s n).pending = s.pending := by
  refine ⟨?_, ?_, ?_, ?_, ?_, ?_, ?_, ?_⟩ <;> (unfold batchSecond; try dsimp only) <;> (repeat' split) <;> simp

@[simp] theorem abandonBatch_frame (s : State) (n : Nat) :
    (abandonBatch s n).loop = s.loop ∧ (abandonBatch s n).booth = s.booth ∧ (abandonBatch s n).air = s.air ∧
    (abandonBatch s n).acct = s.acct ∧ (abandonBatch s n).time = s.time ∧ (abandonBatch s n).serv = s.serv ∧
    (abandonBatch s n).supply = s.supply ∧ (abandonBatch s n).pending = s.pending := by
  refine ⟨?_, ?_, ?_, ?_, ?_, ?_, ?_, ?_⟩ <;> (unfold abandonBatch; try dsimp only) <;> (repeat' split) <;> simp

@[simp] theorem takeRanges_frame (s : State) :
    (takeRanges s).loop = s.loop ∧ (takeRanges s).booth = s.booth ∧ (takeRanges s).acct = s.acct ∧
    (takeRanges s).time = s.time ∧ (takeRanges s).serv = s.serv ∧ (takeRanges s).supply = s.supply ∧
    (takeRanges s).pending = s.pending := by
  refine ⟨?_, ?_, ?_, ?_, ?_, ?_, ?_⟩ <;> (unfold takeRanges; try dsimp only) <;> (repeat' split) <;>
    simp [foldl_keeps State.loop, foldl_keeps State.booth, foldl_keeps State.acct, foldl_keeps State.time,
      foldl_keeps State.serv, foldl_keeps State.supply, foldl_keeps State.pending]

@[simp] theorem countClock_frame (s : State) (f : ClockCounters → ClockCounters) :
    (countClock f s).loop = s.loop ∧ (countClock f s).booth = s.booth ∧ (countClock f s).switch = s.switch ∧
    (countClock f s).air = s.air ∧ (countClock f s).hire = s.hire ∧ (countClock f s).acct = s.acct ∧
    (countClock f s).serv = s.serv ∧ (countClock f s).supply = s.supply ∧ (countClock f s).pending = s.pending := by
  refine ⟨?_, ?_, ?_, ?_, ?_, ?_, ?_, ?_, ?_⟩ <;> (unfold countClock; try dsimp only) <;> (repeat' split) <;> simp

@[simp] theorem advanceClock_frame (s : State) :
    (advanceClock s).loop = s.loop ∧ (advanceClock s).booth = s.booth ∧ (advanceClock s).switch = s.switch ∧
    (advanceClock s).air = s.air ∧ (advanceClock s).hire = s.hire ∧ (advanceClock s).acct = s.acct ∧
    (advanceClock s).serv = s.serv ∧ (advanceClock s).supply = s.supply ∧ (advanceClock s).pending = s.pending := by
  refine ⟨?_, ?_, ?_, ?_, ?_, ?_, ?_, ?_, ?_⟩ <;> (unfold advanceClock; try dsimp only) <;> (repeat' split) <;> simp

@[simp] theorem modAlarm_frame (s : State) (x : AlarmName) (f : Alarm → Alarm) :
    (modAlarm x f s).loop = s.loop ∧ (modAlarm x f s).booth = s.booth ∧ (modAlarm x f s).switch = s.switch ∧
    (modAlarm x f s).air = s.air ∧ (modAlarm x f s).hire = s.hire ∧ (modAlarm x f s).acct = s.acct ∧
    (modAlarm x f s).serv = s.serv ∧ (modAlarm x f s).supply = s.supply ∧ (modAlarm x f s).pending = s.pending := by
  refine ⟨?_, ?_, ?_, ?_, ?_, ?_, ?_, ?_, ?_⟩ <;> (unfold modAlarm; try dsimp only) <;> (repeat' split) <;> simp

@[simp] theorem recordMatch_frame (s : State) (x : AlarmName) :
    (recordMatch x s).loop = s.loop ∧ (recordMatch x s).booth = s.booth ∧ (recordMatch x s).switch = s.switch ∧
    (recordMatch x s).air = s.air ∧ (recordMatch x s).hire = s.hire ∧ (recordMatch x s).acct = s.acct ∧
    (recordMatch x s).supply = s.supply ∧ (recordMatch x s).pending = s.pending := by
  refine ⟨?_, ?_, ?_, ?_, ?_, ?_, ?_, ?_⟩ <;> (unfold recordMatch; try dsimp only) <;> (repeat' split) <;> simp

@[simp] theorem changeMode_frame (s : State) (m : Mode) :
    (changeMode m s).loop = s.loop ∧ (changeMode m s).booth = s.booth ∧ (changeMode m s).switch = s.switch ∧
    (changeMode m s).air = s.air ∧ (changeMode m s).hire = s.hire ∧ (changeMode m s).acct = s.acct ∧
    (changeMode m s).time = s.time ∧ (changeMode m s).serv = s.serv ∧ (changeMode m s).pending = s.pending := by
  refine ⟨?_, ?_, ?_, ?_, ?_, ?_, ?_, ?_, ?_⟩ <;> (unfold changeMode; try dsimp only) <;> (repeat' split) <;> simp

@[simp] theorem takeSessionClose_frame (s : State) :
    (takeSessionClose s).loop = s.loop ∧ (takeSessionClose s).booth = s.booth ∧ (takeSessionClose s).switch = s.switch ∧
    (takeSessionClose s).air = s.air ∧ (takeSessionClose s).hire = s.hire ∧ (takeSessionClose s).acct = s.acct ∧
    (takeSessionClose s).time = s.time ∧ (takeSessionClose s).serv = s.serv ∧
    (takeSessionClose s).pending = s.pending := by
  refine ⟨?_, ?_, ?_, ?_, ?_, ?_, ?_, ?_, ?_⟩ <;> (unfold takeSessionClose; try dsimp only) <;> (repeat' split) <;> simp

@[simp] theorem backupAlarm_frame (s : State) (x : AlarmName) :
    (backupAlarm s x).loop = s.loop ∧ (backupAlarm s x).booth = s.booth ∧ (backupAlarm s x).switch = s.switch ∧
    (backupAlarm s x).air = s.air ∧ (backupAlarm s x).hire = s.hire ∧ (backupAlarm s x).acct = s.acct ∧
    (backupAlarm s x).serv = s.serv ∧ (backupAlarm s x).supply = s.supply ∧ (backupAlarm s x).pending = s.pending := by
  refine ⟨?_, ?_, ?_, ?_, ?_, ?_, ?_, ?_, ?_⟩ <;> (unfold backupAlarm; try dsimp only) <;> (repeat' split) <;> simp

@[simp] theorem backupSecond_frame (s : State) :
    (backupSecond s).loop = s.loop ∧ (backupSecond s).booth = s.booth ∧ (backupSecond s).switch = s.switch ∧
    (backupSecond s).air = s.air ∧ (backupSecond s).hire = s.hire ∧ (backupSecond s).acct = s.acct ∧
    (backupSecond s).serv = s.serv ∧ (backupSecond s).supply = s.supply ∧ (backupSecond s).pending = s.pending := by
  refine ⟨?_, ?_, ?_, ?_, ?_, ?_, ?_, ?_, ?_⟩ <;> (unfold backupSecond; try dsimp only) <;> (repeat' split) <;>
    simp [foldl_keeps State.loop, foldl_keeps State.booth, foldl_keeps State.switch, foldl_keeps State.air,
      foldl_keeps State.hire, foldl_keeps State.acct, foldl_keeps State.serv, foldl_keeps State.supply,
      foldl_keeps State.pending]

@[simp] theorem countMode_frame (s : State) (f : ModeCounters → ModeCounters) :
    (countMode f s).loop = s.loop ∧ (countMode f s).booth = s.booth ∧ (countMode f s).switch = s.switch ∧
    (countMode f s).air = s.air ∧ (countMode f s).hire = s.hire ∧ (countMode f s).acct = s.acct ∧
    (countMode f s).time = s.time ∧ (countMode f s).serv = s.serv ∧ (countMode f s).pending = s.pending := by
  refine ⟨?_, ?_, ?_, ?_, ?_, ?_, ?_, ?_, ?_⟩ <;> (unfold countMode; try dsimp only) <;> (repeat' split) <;> simp

@[simp] theorem emptyFloor_frame (s : State) :
    (emptyFloor s).loop = s.loop ∧ (emptyFloor s).booth = s.booth ∧ (emptyFloor s).air = s.air ∧
    (emptyFloor s).hire = s.hire ∧ (emptyFloor s).acct = s.acct ∧ (emptyFloor s).time = s.time ∧
    (emptyFloor s).serv = s.serv ∧ (emptyFloor s).supply = s.supply ∧ (emptyFloor s).pending = s.pending := by
  refine ⟨?_, ?_, ?_, ?_, ?_, ?_, ?_, ?_, ?_⟩ <;> (unfold emptyFloor; try dsimp only) <;> (repeat' split) <;> simp

@[simp] theorem silenceAll_frame (s : State) :
    (silenceAll s).loop = s.loop ∧ (silenceAll s).air = s.air ∧ (silenceAll s).hire = s.hire ∧
    (silenceAll s).time = s.time ∧ (silenceAll s).supply = s.supply ∧ (silenceAll s).pending = s.pending := by
  refine ⟨?_, ?_, ?_, ?_, ?_, ?_⟩ <;> (unfold silenceAll; try dsimp only) <;> (repeat' split) <;>
    simp [foldl_keeps State.loop, foldl_keeps State.air, foldl_keeps State.hire, foldl_keeps State.time,
      foldl_keeps State.supply, foldl_keeps State.pending]

@[simp] theorem abandonBatches_frame (s : State) :
    (abandonBatches s).loop = s.loop ∧ (abandonBatches s).booth = s.booth ∧ (abandonBatches s).air = s.air ∧
    (abandonBatches s).acct = s.acct ∧ (abandonBatches s).time = s.time ∧ (abandonBatches s).serv = s.serv ∧
    (abandonBatches s).supply = s.supply ∧ (abandonBatches s).pending = s.pending := by
  refine ⟨?_, ?_, ?_, ?_, ?_, ?_, ?_, ?_⟩ <;> (unfold abandonBatches; try dsimp only) <;> (repeat' split) <;>
    simp [foldl_keeps State.loop, foldl_keeps State.booth, foldl_keeps State.air, foldl_keeps State.acct,
      foldl_keeps State.time, foldl_keeps State.serv, foldl_keeps State.supply, foldl_keeps State.pending]

@[simp] theorem enterSetup_frame (s : State) :
    (enterSetup s).loop = s.loop ∧ (enterSetup s).air = s.air ∧ (enterSetup s).time = s.time ∧
    (enterSetup s).pending = s.pending := by
  refine ⟨?_, ?_, ?_, ?_⟩ <;> (unfold enterSetup; try dsimp only) <;> (repeat' split) <;> simp

@[simp] theorem takeBackup_frame (s : State) (x : Bool) :
    (takeBackup x s).loop = s.loop ∧ (takeBackup x s).booth = s.booth ∧ (takeBackup x s).switch = s.switch ∧
    (takeBackup x s).air = s.air ∧ (takeBackup x s).hire = s.hire ∧ (takeBackup x s).acct = s.acct ∧
    (takeBackup x s).time = s.time ∧ (takeBackup x s).pending = s.pending := by
  refine ⟨?_, ?_, ?_, ?_, ?_, ?_, ?_, ?_⟩ <;> (unfold takeBackup; try dsimp only) <;> (repeat' split) <;> simp

@[simp] theorem flagMatched_frame (s : State) (x : AlarmName) :
    (flagMatched s x).loop = s.loop ∧ (flagMatched s x).booth = s.booth ∧ (flagMatched s x).switch = s.switch ∧
    (flagMatched s x).air = s.air ∧ (flagMatched s x).hire = s.hire ∧ (flagMatched s x).acct = s.acct ∧
    (flagMatched s x).time = s.time ∧ (flagMatched s x).supply = s.supply ∧ (flagMatched s x).pending = s.pending := by
  refine ⟨?_, ?_, ?_, ?_, ?_, ?_, ?_, ?_, ?_⟩ <;> (unfold flagMatched; try dsimp only) <;> (repeat' split) <;> simp

@[simp] theorem applyPending_frame (s : State) :
    (applyPending s).loop = s.loop ∧ (applyPending s).booth = s.booth ∧ (applyPending s).switch = s.switch ∧
    (applyPending s).air = s.air ∧ (applyPending s).acct = s.acct ∧ (applyPending s).serv = s.serv ∧
    (applyPending s).supply = s.supply ∧ (applyPending s).pending = s.pending := by
  refine ⟨?_, ?_, ?_, ?_, ?_, ?_, ?_, ?_⟩ <;> (unfold applyPending; try dsimp only) <;> (repeat' split) <;> simp

@[simp] theorem discardPending_frame (s : State) :
    (discardPending s).loop = s.loop ∧ (discardPending s).booth = s.booth ∧ (discardPending s).switch = s.switch ∧
    (discardPending s).air = s.air ∧ (discardPending s).hire = s.hire ∧ (discardPending s).acct = s.acct ∧
    (discardPending s).serv = s.serv ∧ (discardPending s).supply = s.supply ∧ (discardPending s).pending = s.pending := by
  refine ⟨?_, ?_, ?_, ?_, ?_, ?_, ?_, ?_, ?_⟩ <;> (unfold discardPending; try dsimp only) <;> (repeat' split) <;> simp

@[simp] theorem recordStart_frame (s : State) (k : StartKind) :
    (recordStart k s).loop = s.loop ∧ (recordStart k s).booth = s.booth ∧ (recordStart k s).switch = s.switch ∧
    (recordStart k s).air = s.air ∧ (recordStart k s).hire = s.hire ∧ (recordStart k s).acct = s.acct ∧
    (recordStart k s).time = s.time ∧ (recordStart k s).serv = s.serv ∧ (recordStart k s).pending = s.pending := by
  refine ⟨?_, ?_, ?_, ?_, ?_, ?_, ?_, ?_, ?_⟩ <;> (unfold recordStart; try dsimp only) <;> (repeat' split) <;> simp

@[simp] theorem mainsLoss_frame (s : State) :
    (mainsLoss s).loop = s.loop ∧ (mainsLoss s).booth = s.booth ∧ (mainsLoss s).switch = s.switch ∧
    (mainsLoss s).air = s.air ∧ (mainsLoss s).hire = s.hire ∧ (mainsLoss s).acct = s.acct ∧ (mainsLoss s).time = s.time ∧
    (mainsLoss s).serv = s.serv ∧ (mainsLoss s).pending = s.pending := by
  refine ⟨?_, ?_, ?_, ?_, ?_, ?_, ?_, ?_, ?_⟩ <;> (unfold mainsLoss; try dsimp only) <;> (repeat' split) <;> simp

@[simp] theorem sendHead_frame (s : State) :
    (sendHead s).loop = s.loop ∧ (sendHead s).booth = s.booth ∧ (sendHead s).switch = s.switch ∧ (sendHead s).air = s.air ∧
    (sendHead s).hire = s.hire ∧ (sendHead s).acct = s.acct ∧ (sendHead s).time = s.time ∧ (sendHead s).supply = s.supply ∧
    (sendHead s).pending = s.pending := by
  refine ⟨?_, ?_, ?_, ?_, ?_, ?_, ?_, ?_, ?_⟩ <;> (unfold sendHead; try dsimp only) <;> (repeat' split) <;> simp

@[simp] theorem turnOff_frame (s : State) (c : Nat) :
    (turnOff c s).loop = s.loop ∧ (turnOff c s).booth = s.booth ∧ (turnOff c s).air = s.air ∧ (turnOff c s).hire = s.hire ∧
    (turnOff c s).acct = s.acct ∧ (turnOff c s).time = s.time ∧ (turnOff c s).serv = s.serv ∧
    (turnOff c s).supply = s.supply ∧ (turnOff c s).pending = s.pending := by
  refine ⟨?_, ?_, ?_, ?_, ?_, ?_, ?_, ?_, ?_⟩ <;> (unfold turnOff; try dsimp only) <;> (repeat' split) <;> simp

@[simp] theorem followConfigured_frame (s : State) (a b : Bool) (n : Nat) :
    (followConfigured a b n s).booth = s.booth ∧ (followConfigured a b n s).switch = s.switch ∧
    (followConfigured a b n s).air = s.air ∧ (followConfigured a b n s).hire = s.hire ∧
    (followConfigured a b n s).acct = s.acct ∧ (followConfigured a b n s).time = s.time ∧
    (followConfigured a b n s).serv = s.serv ∧ (followConfigured a b n s).supply = s.supply ∧
    (followConfigured a b n s).pending = s.pending := by
  refine ⟨?_, ?_, ?_, ?_, ?_, ?_, ?_, ?_, ?_⟩ <;> (unfold followConfigured; try dsimp only) <;> (repeat' split) <;> simp

end Sys2Proof.Machine
end

