-- ==== Sys2Proof/Laws/Port.lean ====
section
/-! SUPPORT. What the service port, the outbound queue, the notice flags and the block queues do, once each, for the proofs to cite
instead of unfolding them. -/

namespace Sys2Proof.Machine

/-! ### Events and mains (R184) -/

theorem whileMains_present (event : State → State) {s : State} (h : s.supply.mainsLost = false) :
    whileMains event s = event s := by
  simp [whileMains, h]

theorem whileMains_lost (event : State → State) {s : State} (h : s.supply.mainsLost = true) : whileMains event s = s := by
  simp [whileMains, h]

/-! ### Messages that are taken and messages that are lost (R184, R198) -/

theorem messageLost_none {s : State} (hm : s.supply.mainsLost = false) (hl : s.serv.toLose = 0) : messageLost s = none := by
  simp [messageLost, hm, hl]

theorem messageLost_mains {s : State} (hm : s.supply.mainsLost = true) : messageLost s = some s := by simp [messageLost, hm]

theorem messageLost_waiting {s : State} {n : Nat} (hm : s.supply.mainsLost = false) (hl : s.serv.toLose = n + 1) :
    messageLost s = some { s with serv := { s.serv with toLose := n } } := by
  simp [messageLost, hm, hl, State.modServ]

theorem takeMessage_taken (take : State → State) {s : State} (hm : s.supply.mainsLost = false) (hl : s.serv.toLose = 0) :
    takeMessage take s = take s := by
  simp [takeMessage, messageLost_none hm hl]

theorem takeMessage_mains (take : State → State) {s : State} (hm : s.supply.mainsLost = true) : takeMessage take s = s := by
  simp [takeMessage, messageLost_mains hm]

theorem takeMessage_waiting (take : State → State) {s : State} {n : Nat} (hm : s.supply.mainsLost = false)
    (hl : s.serv.toLose = n + 1) : takeMessage take s = { s with serv := { s.serv with toLose := n } } := by
  simp [takeMessage, messageLost_waiting hm hl]

/-- A message at the service port is taken, or leaves everything but the count of lost messages as it was. -/
theorem takeMessage_cases (take : State → State) (s : State) :
    takeMessage take s = take s ∨ ∃ n, takeMessage take s = { s with serv := { s.serv with toLose := n } } := by
  unfold takeMessage messageLost State.modServ
  split
  · exact .inr ⟨s.serv.toLose, rfl⟩
  · split
    · exact .inl rfl
    · exact .inr ⟨_, rfl⟩

/-! ### Requests (R189, R191, R192) -/

theorem whenAdmitted_of_admitted {may : Role → Bool} {h : Header} {s : State} (ha : admitted may h s) (act : State → State) :
    whenAdmitted h may true act s = act (messageReceived s) := by
  obtain ⟨_, _, hm⟩ := ha
  unfold whenAdmitted
  split
  · rename_i he
    simp [he] at hm
  · rename_i e he
    simp only [he, Option.any_some] at hm
    simp [hm]

/-- A request that is admitted is counted, ruled by its owner and answered. -/
theorem serve_of_admitted {may : Role → Bool} {h : Header} {s : State} (ha : admitted may h s)
    (owner : State → State × Answer) :
    serve h may true owner s = replied h (owner (taken s)).2 (owner (taken s)).1 := by
  rw [serve, takeMessage_taken _ ha.1 ha.2.1, takeRequest, whenAdmitted_of_admitted ha]
  rfl

theorem serveRack_of_fromRack {h : Header} {s : State} (ha : fromRack h s) (owner : State → State) :
    serveRack h owner s =
      owner (countServ (fun c => { c with rackPassed := bump c.rackPassed }) (messageReceived s)) := by
  obtain ⟨hm, hl, he⟩ := ha
  obtain ⟨e, he, hr⟩ := Option.map_eq_some_iff.mp he
  simp [serveRack, takeMessage_taken _ hm hl, he, hr]

/-! ### A request in the hands of its owner changes only the service counters before it is ruled -/

@[simp] theorem taken_loop (s : State) : (taken s).loop = s.loop := rfl
@[simp] theorem taken_booth (s : State) : (taken s).booth = s.booth := rfl
@[simp] theorem taken_switch (s : State) : (taken s).switch = s.switch := rfl
@[simp] theorem taken_air (s : State) : (taken s).air = s.air := rfl
@[simp] theorem taken_hire (s : State) : (taken s).hire = s.hire := rfl
@[simp] theorem taken_acct (s : State) : (taken s).acct = s.acct := rfl
@[simp] theorem taken_time (s : State) : (taken s).time = s.time := rfl
@[simp] theorem taken_supply (s : State) : (taken s).supply = s.supply := rfl
@[simp] theorem taken_pending (s : State) : (taken s).pending = s.pending := rfl
@[simp] theorem taken_stations (s : State) : (taken s).serv.stations = s.serv.stations := rfl
@[simp] theorem taken_outbound (s : State) : (taken s).serv.outbound = s.serv.outbound := rfl
@[simp] theorem taken_toLose (s : State) : (taken s).serv.toLose = s.serv.toLose := rfl
@[simp] theorem taken_flags (s : State) : (taken s).serv.flags = s.serv.flags := rfl
@[simp] theorem taken_slotState (s : State) (n : Nat) : (taken s).slotState n = s.slotState n := rfl
@[simp] theorem taken_console (s : State) (n : Nat) : (taken s).console n = s.console n := rfl
@[simp] theorem taken_boothRec (s : State) (n : Nat) : (taken s).boothRec n = s.boothRec n := rfl
@[simp] theorem taken_chan (s : State) (n : Nat) : (taken s).chan n = s.chan n := rfl
@[simp] theorem taken_tariff (s : State) (n : Nat) : (taken s).tariff n = s.tariff n := rfl
@[simp] theorem taken_receiverBySerial (s : State) (n : Nat) : (taken s).receiverBySerial n = s.receiverBySerial n := rfl
@[simp] theorem taken_accountByNumber (s : State) (n : Nat) : (taken s).accountByNumber n = s.accountByNumber n := rfl
@[simp] theorem taken_now (s : State) : (taken s).now = s.now := rfl
@[simp] theorem taken_mode (s : State) : (taken s).mode = s.mode := rfl
@[simp] theorem taken_params (s : State) : (taken s).params = s.params := rfl
@[simp] theorem taken_flagged (s : State) (f : NoticeFlag) : (taken s).flagged f = s.flagged f := rfl

@[simp] theorem rackTaken_receiverBySerial (s : State) (n : Nat) : (rackTaken s).receiverBySerial n = s.receiverBySerial n := rfl
@[simp] theorem rackTaken_acct (s : State) : (rackTaken s).acct = s.acct := rfl
@[simp] theorem rackTaken_now (s : State) : (rackTaken s).now = s.now := rfl

/-! ### The outbound queue (R193) -/

theorem queueReply_room (dest tag : Nat) (body : List Field) {s : State} (h : s.serv.outbound.length < 32) :
    queueReply dest tag body s =
      { s with serv := { s.serv with outbound := s.serv.outbound ++ [⟨dest, .reply, tag, body⟩] } } := by
  simp [queueReply, State.modServ, h]

theorem queueReply_full (dest tag : Nat) (body : List Field) {s : State} (h : 32 ≤ s.serv.outbound.length) :
    queueReply dest tag body s =
      { s with serv :=
        { s.serv with counters := { s.serv.counters with repliesDropped := bump s.serv.counters.repliesDropped } } } := by
  simp [queueReply, State.modServ, Nat.not_lt.mpr h]

@[simp] theorem queueReply_flags (dest tag : Nat) (body : List Field) (s : State) :
    (queueReply dest tag body s).serv.flags = s.serv.flags := by
  unfold queueReply State.modServ
  dsimp only
  split <;> rfl

@[simp] theorem queueNotice_flags (dest : Nat) (body : List Field) (s : State) :
    (queueNotice dest body s).serv.flags = s.serv.flags := by
  unfold queueNotice State.modServ
  dsimp only
  split <;> rfl

@[simp] theorem queueReply_toLose (dest tag : Nat) (body : List Field) (s : State) :
    (queueReply dest tag body s).serv.toLose = s.serv.toLose := by
  unfold queueReply State.modServ
  dsimp only
  split <;> rfl

@[simp] theorem queueNotice_toLose (dest : Nat) (body : List Field) (s : State) :
    (queueNotice dest body s).serv.toLose = s.serv.toLose := by
  unfold queueNotice State.modServ
  dsimp only
  split <;> rfl

theorem queueReply_length (dest tag : Nat) (body : List Field) {s : State} (h : s.serv.outbound.length ≤ 32) :
    (queueReply dest tag body s).serv.outbound.length ≤ 32 := by
  unfold queueReply State.modServ
  dsimp only
  split
  · simp only [List.length_append, List.length_singleton]
    simp only [Config.outbound] at *
    omega
  · exact h

theorem queueNotice_length (dest : Nat) (body : List Field) {s : State} (h : s.serv.outbound.length ≤ 32) :
    (queueNotice dest body s).serv.outbound.length ≤ 32 := by
  unfold queueNotice State.modServ
  dsimp only
  split
  · simp only [List.length_append, List.length_singleton]
    simp only [Config.outbound] at *
    omega
  · exact h

/-- Each message of the outbound queue stays in its place when a NOTICE is queued, and a queued one comes last. -/
theorem queueNotice_room (dest : Nat) (body : List Field) {s : State} (h : s.serv.outbound.length < 32) :
    (queueNotice dest body s).serv.outbound = s.serv.outbound ++ [⟨dest, .notice, 0, body⟩] := by
  simp [queueNotice, State.modServ, h]

/-! ### Notice flags (R195) -/

theorem flagSet_contains (has : NoticeFlag → Bool) (f : NoticeFlag) : (flagSet has).contains f = has f := by
  have hall : ∀ g : NoticeFlag, g ∈ NoticeFlag.all := by
    intro g
    cases g <;> decide
  rw [Bool.eq_iff_iff]
  simp [flagSet, hall]

theorem notices_flags (body : State → List Field) (stations : List Nat) (s : State) :
    (stations.foldl (fun t n => queueNotice n (body t) t) s).serv.flags = s.serv.flags := by
  induction stations generalizing s with
  | nil => rfl
  | cons n rest ih => simp [List.foldl_cons, ih]

theorem notices_length (body : State → List Field) (stations : List Nat) {s : State} (h : s.serv.outbound.length ≤ 32) :
    (stations.foldl (fun t n => queueNotice n (body t) t) s).serv.outbound.length ≤ 32 := by
  induction stations generalizing s with
  | nil => exact h
  | cons n rest ih => exact ih (queueNotice_length n (body s) h)

/-- After a flag has been set, it is set and the others are as they were. -/
theorem flagged_setFlag (f g : NoticeFlag) (s : State) : (setFlag f s).flagged g = (decide (g = f) || s.flagged g) := by
  unfold setFlag State.flagged
  split
  · rename_i h
    by_cases hg : g = f
    · subst hg
      rw [h]
      simp
    · simp [hg]
  · rw [notices_flags]
    simp only [modServ_serv]
    exact flagSet_contains (fun x => decide (x = f) || s.serv.flags.contains x) g

@[simp] theorem flagged_setFlag_self (f : NoticeFlag) (s : State) : (setFlag f s).flagged f = true := by
  simp [flagged_setFlag]

/-- Setting a flag leaves the count of messages to lose as it is. -/
@[simp] theorem setFlag_toLose (f : NoticeFlag) (s : State) : (setFlag f s).serv.toLose = s.serv.toLose := by
  have queued : ∀ (body : State → List Field) (stations : List Nat) (t : State),
      (stations.foldl (fun t n => queueNotice n (body t) t) t).serv.toLose = t.serv.toLose := by
    intro body stations
    induction stations with
    | nil => intro t; rfl
    | cons n rest ih => intro t; rw [List.foldl_cons, ih, queueNotice_toLose]
  unfold setFlag
  split
  · rfl
  · rw [queued]
    rfl

theorem setFlag_of_set {f : NoticeFlag} {s : State} (h : s.flagged f = true) : setFlag f s = s := by
  unfold State.flagged at h
  unfold setFlag
  rw [if_pos h]

theorem repeat_bump_succ (k x : Nat) : Nat.repeat bump (k + 1) x = Nat.repeat bump k (bump x) := by
  induction k generalizing x with
  | zero => rfl
  | succ k ih =>
    rw [Nat.repeat, ih]
    rfl

/-- Notices to a list of stations: as many as the outbound queue has room for are queued and counted, the rest dropped and counted (R193,
R195). -/
theorem foldl_queueNotice_eq (body : List Field) (stations : List Nat) (s : State) :
    stations.foldl (fun t n => queueNotice n body t) s =
      (let notices : List Message := stations.map fun n => ⟨n, .notice, 0, body⟩
       let fits := min notices.length (32 - s.serv.outbound.length)
       { s with serv :=
         { s.serv with
           outbound := s.serv.outbound ++ notices.take fits
           counters :=
             { s.serv.counters with
               noticesQueued := Nat.repeat bump fits s.serv.counters.noticesQueued
               noticesDropped := Nat.repeat bump (notices.length - fits) s.serv.counters.noticesDropped } } }) := by
  induction stations generalizing s with
  | nil => simp [Nat.repeat]
  | cons n l ih =>
    rw [List.foldl_cons, ih]
    by_cases h : s.serv.outbound.length < 32
    · have e : min (l.length + 1) (32 - s.serv.outbound.length) = min l.length (32 - (s.serv.outbound.length + 1)) + 1 := by
        omega
      simp [queueNotice, State.modServ, Config.outbound, h, e, repeat_bump_succ]
    · have e : 32 - s.serv.outbound.length = 0 := by omega
      simp [queueNotice, State.modServ, Config.outbound, h, e, repeat_bump_succ, Nat.repeat]

/-- Every NOTICE of one setting carries the clock at the setting (R195). -/
theorem foldl_notices_now (text : Field) (stations : List Nat) (s : State) :
    stations.foldl (fun t n => queueNotice n [text, .clock t.now] t) s =
      stations.foldl (fun t n => queueNotice n [text, .clock s.now] t) s := by
  induction stations generalizing s with
  | nil => rfl
  | cons n l ih =>
    rw [List.foldl_cons, List.foldl_cons, ih]
    rfl

theorem setFlag_length (f : NoticeFlag) {s : State} (h : s.serv.outbound.length ≤ 32) :
    (setFlag f s).serv.outbound.length ≤ 32 := by
  unfold setFlag
  split
  · exact h
  · exact notices_length _ _ h

/-! ### Block queues and air notes (R12, R13, R81) -/

theorem pushBlock_length {q : List SpeechBlock} (x : SpeechBlock) (h : q.length ≤ 4) : (pushBlock q x).1.length ≤ 4 := by
  unfold pushBlock
  split
  · simp only [List.length_append, List.length_drop, List.length_singleton]
    omega
  · simp only [List.length_append, List.length_singleton]
    simp only [Config.blockQueue] at *
    omega

theorem queueNote_length (n : AirNote) {s : State} (h : s.air.notes.length ≤ 64) :
    (queueNote n s).air.notes.length ≤ 64 := by
  unfold queueNote State.modAir
  dsimp only
  split
  · simp only [List.length_append, List.length_singleton]
    simp only [Config.notes] at *
    omega
  · exact h

theorem queueNote_room (n : AirNote) {s : State} (h : s.air.notes.length < 64) :
    (queueNote n s).air.notes = s.air.notes ++ [n] := by
  simp [queueNote, State.modAir, h]

end Sys2Proof.Machine
end

