-- ==== Sys2Proof/Tests/Slice0.lean ====
section
/-! SUPPORT. The model's own tests: terms that the well-formedness check refuses, words and figures of the manual's formats and worked
examples, single steps, and for every statement with hypotheses a state and operands that meet them. -/

open Sys2Proof Sys2Proof.Machine

namespace Sys2Proof.Tests

set_option Elab.async false

/-! ### Small states -/

/-- A station of each role: 1 CONTROL, 2 MONITOR, 3 DESK, 4 RACK. -/
def fourStations : Table Station := [(1, ⟨.control, []⟩), (2, ⟨.monitor, []⟩), (3, ⟨.desk, []⟩), (4, ⟨.rack, []⟩)]

/-- After a cold start, with four stations and nothing queued. -/
def hall : State := { State.reset with serv := { stations := fourStations } }

def inMode (m : Mode) (s : State) : State := { s with supply := { s.supply with mode := m } }

def lost (s : State) : State := { s with supply := { s.supply with mainsLost := true } }

def atClock (c : Clock) (s : State) : State := { s with time := { s.time with clock := c, valid := true } }

def noon : Clock := ⟨2031, 5, 14, 12, 0, 0⟩

/-- Consoles 1 to 3 on the seats of booth 1, console 4 in booth 2, console 5 without a booth; booth 1 LIVE on channel 1 with its turn's
last minute running, booth 2 SILENT with channel 3; channels 1 to 4 enabled, 3 muted and 4 restricted. -/
def floorHall : State :=
  inMode .rehearsal { hall with
    booth :=
      { consoles :=
          [(1, { configured := true, booth := some 1, seat := some 1 }), (2, { configured := true, booth := some 1, seat := some 2 }),
           (3, { configured := true, booth := some 1, seat := some 3 }), (4, { configured := true, booth := some 2, seat := some 1 }),
           (5, { configured := true })]
        booths :=
          [(1, { aChannel := some 1, bChannel := some 2, floor := .live 1, turn := some 1 }), (2, { aChannel := some 3 })] }
    loop :=
      { slots := [(1, { presence := .present, missedRun := 15 }), (2, { presence := .present }), (3, { presence := .absent }),
                  (4, { presence := .present }), (5, { presence := .present })] }
    switch :=
      { channels :=
          [(0, floorChannel), (1, { enabled := true, owner := some 1, queue := [silence], listeners := 1 }), (2, { enabled := true }),
           (3, { enabled := true, policy := .silence }), (4, { enabled := true, restricted := true })] }
    acct := { duty := [{ slot := 1, booth := 1, channel := 1, start := clockEpoch, startMinute := 0 }] } }

def loanOf (number : Nat) : Loan := { number := number, account := 7, cls := 3, issueClock := clockEpoch, issueMinute := 0 }

/-- The tariff of the worked example "figures at closure". -/
def exampleTariff : Tariff := ⟨true, 45, 30, 200, 20, 1000⟩

/-- Receivers 100 to 106 in the seven states, account 7 with one channel, an open batch of station 3, in SESSION. -/
def hireHall : State :=
  inMode .session { hall with
    hire :=
      { receivers :=
          [(1, { serial := 100, battery := some 4 }),
           (2, { serial := 101, state := .issued, loan := some (loanOf 1), range := .inRange, lastHeard := some 29
                 lastCounter := some 3, channel := some 4 }),
           (3, { serial := 102, state := .overdue, loan := some (loanOf 2) }),
           (4, { serial := 103, state := .lost, loan := some (loanOf 3) }),
           (5, { serial := 104, state := .held, batch := some 3 }), (6, { serial := 105, state := .withdrawn }),
           (7, { serial := 106, state := .returnPending, loan := some (loanOf 4), pend := some ⟨.returned, clockEpoch, 9⟩ })]
        pendingList := [7]
        batches := [(3, { account := 7, items := [104], itemCount := 1, lastItem := 19 })] }
    acct :=
      { tariffs := [(3, exampleTariff)]
        accounts := [(1, { number := 7, cls := 3, loanLimit := 9, access := [4], openLoans := 2 })]
        nextLoan := 5 }
    switch := { channels := [(0, floorChannel), (4, { enabled := true, restricted := true, listeners := 1 })] } }

/-- The hire hall with receiver 101 last heard a second ago. -/
def heardOne : State :=
  hireHall.modHire fun h =>
    let heard : Receiver :=
      { serial := 101, state := .issued, loan := some (loanOf 1), range := .inRange, lastHeard := some 1, lastCounter := some 3 }
    { h with receivers := Table.put 2 heard h.receivers }

/-- The hire hall with another batch of station 3. -/
def batchHall (b : Batch) : State := hireHall.modHire fun h => { h with batches := [(3, b)] }

/-- The message of a command from a station. -/
def fromStation (n : Nat) : Header := ⟨n, 7⟩

/-- The state after a command. -/
def after (c : Instr) (s : State) : State :=
  match exec c s with
  | .next t => t
  | _ => s

/-- A frame of its full length with sequence number 15 and every slot 0. -/
def goodFrame : List Byte := withCheck (15 :: List.replicate 9864 0)

theorem goodFrame_arrives :
    goodFrame.length = 9867 ∧ checkAgrees goodFrame = true ∧ numberAt goodFrame 0 1 = 15 := by
  refine ⟨by rw [goodFrame, withCheck_length, List.length_cons, List.length_replicate], checkAgrees_withCheck _, ?_⟩
  rw [goodFrame, withCheck, numberAt_append_left _ _ (by rw [List.length_cons, List.length_replicate]; decide)]
  rfl

/-- Of two check values at most one agrees. -/
theorem wrongCheck (body : List Byte) : ∃ tail, tail.length = 2 ∧ checkAgrees (body ++ tail) = false := by
  by_cases h : (crc16 body).toNat = 0
  · exact ⟨[0, 1], rfl, by rw [checkAgrees_append _ _ rfl, h]; decide⟩
  · exact ⟨[0, 0], rfl, by rw [checkAgrees_append _ _ rfl]; exact decide_eq_false fun e => h e.symm⟩

/-- A report of a serial at radiator 1: HEARTBEAT, counter 3, channel 48, battery 5, link 7. -/
def reportOn (serial : Nat) : List Byte := withCheck (1 :: natBytes 3 serial ++ [0x13, 48, 0x75])

/-- The body of the last message queued. -/
def lastBody (s : State) : List Field := (s.serv.outbound.getLast?.map (·.body)).getD []

/-! ### Ill-formed commands are refused by the check -/

def badHeader : Header := ⟨256, 0⟩
def big : Nat := 2 ^ 32

theorem test_ill_events :
    [Instr.blockTick [.clock, .clock], .displayEnd 0, .displayEnd 73, .secondTick [.offers, .offers], .offerExpiry 0,
     .offerExpiry 25, .outOfRange 16777216, .batchTimeout 0, .batchTimeout 255, .minuteTick [.loans, .loans], .turnDue 0,
     .turnDue 25, .consoleAbsent 0, .consoleAbsent 73, .mainsReturn ⟨true, true, false, 500⟩,
     .messageDropped (List.replicate 2058 0)].all (fun c => !c.wellFormed) = true := by decide +kernel

/-- Every message with a source station, or a tag, that its bytes cannot hold. -/
theorem test_ill_headers :
    [fun h => Instr.docked h 0 1 0, (.undocked · 0 1), (.cell · 0 0), (.loadConsole · 1 true none none), (.readConsole · 1),
     (.loadBooth · 1 none none none 0 none), (.readBooth · 1), (.loadChannel · 1 ⟨'A', 'A', 'A'⟩ true none), (.readChannel · 1),
     (.clearStamp · 1), (.enableChannel · 1), (.disableChannel · 1 true), (.forceSilent · 1), (.setRelay · 1 .floor), .fetchCalls,
     .readLoop, .readAir, (.enrol · 1), (.withdraw · 1), (.reinstate · 1), (.deleteReceiver · 1), (.issue · 1 1),
     (.returnReceiver · 1), (.declareLost · 1), (.find · 1), (.readReceiver · (.slot 1)), .readHire,
     (.batchItem · 1 none false false), (.readBatch · 1), (.loadTariff · 0 15 0 0 0 0), (.readTariff · 0),
     (.accountLoad · 1 0 1 []), (.suspend · 1), (.resume · 1), (.close · 1), (.clearBalance · 1 0), (.readAccount · (.number 1)),
     .readStatements, (.releaseStatements · 0 none), .readAccounting, .readDuty, (.releaseDuty · 0), .cutDuty, .clearDutyTotals,
     (.setClock · noon), (.loadAlarm · none 1 true 0 true 0 true), (.clearAlarm · none), .readClock, (.setMode · none),
     (.loadParameters · 4 1 10 0 none 1), .readParameters, .restart, .readSupply, (.loadStation · 1 .desk),
     (.setNoticeMask · 1 []), (.readStation · 1), .readNotices, (.clearNotices · []), (.readCounters · none),
     (.clearCounters · none)].all
      (fun f => !(f badHeader).wellFormed && !(f ⟨1, 65536⟩).wellFormed && (f ⟨255, 65535⟩).wellFormed) = true := by
  decide +kernel

theorem test_ill_numbers_speech :
    [fun h => Instr.docked h big 1 0, (.docked · 0 big 0), (.docked · 0 1 big), (.undocked · big 1), (.undocked · 0 big),
     (.cell · big 0), (.cell · 0 big), (.loadConsole · big true none none), (.loadConsole · 1 true (some big) none),
     (.loadConsole · 1 true none (some big)), (.readConsole · big), (.loadBooth · big none none none 0 none),
     (.loadBooth · 1 (some big) none none 0 none), (.loadBooth · 1 none (some big) none 0 none),
     (.loadBooth · 1 none none none big none), (.readBooth · big), (.loadChannel · big ⟨'A', 'A', 'A'⟩ true none),
     (.loadChannel · 1 ⟨'Ā', 'A', 'A'⟩ true none), (.loadChannel · 1 ⟨'A', 'Ā', 'A'⟩ true none),
     (.loadChannel · 1 ⟨'A', 'A', 'Ā'⟩ true none), (.readChannel · big), (.clearStamp · big), (.enableChannel · big),
     (.disableChannel · big true), (.forceSilent · big), (.setRelay · big .floor), (.setRelay · 1 (.booth big))].all
      (fun f => !(f (fromStation 1)).wellFormed) = true := by decide +kernel

theorem test_ill_numbers_hire :
    [fun h => Instr.enrol h big, (.withdraw · big), (.reinstate · big), (.deleteReceiver · big), (.issue · big 1), (.issue · 1 big),
     (.returnReceiver · big), (.declareLost · big), (.find · big), (.readReceiver · (.slot big)), (.readReceiver · (.number big)),
     (.batchItem · big none false false), (.batchItem · 1 (some big) false false), (.readBatch · big),
     (.loadTariff · big 15 0 0 0 0), (.loadTariff · 0 big 0 0 0 0), (.loadTariff · 0 15 big 0 0 0), (.loadTariff · 0 15 0 big 0 0),
     (.loadTariff · 0 15 0 0 big 0), (.loadTariff · 0 15 0 0 0 big), (.readTariff · big), (.accountLoad · big 0 1 []),
     (.accountLoad · 1 big 1 []), (.accountLoad · 1 0 big []), (.accountLoad · 1 0 1 [big]),
     (.accountLoad · 1 0 1 (List.replicate 256 1)), (.suspend · big), (.resume · big), (.close · big), (.clearBalance · big 0),
     (.clearBalance · 1 big), (.readAccount · (.number big)), (.readAccount · (.slot big)), (.releaseStatements · big none),
     (.releaseStatements · 0 (some (none, big))), (.releaseDuty · big)].all
      (fun f => !(f (fromStation 1)).wellFormed) = true := by decide +kernel

theorem test_ill_numbers_part :
    [fun h => Instr.setClock h { noon with year := 65536 }, (.setClock · { noon with month := 256 }),
     (.setClock · { noon with day := 256 }), (.setClock · { noon with hour := 256 }), (.setClock · { noon with minute := 256 }),
     (.setClock · { noon with second := 256 }), (.loadAlarm · none big true 0 true 0 true), (.loadAlarm · none 1 true big true 0 true),
     (.loadAlarm · none 1 true 0 true big true), (.loadParameters · big 1 10 0 none 1), (.loadParameters · 4 big 10 0 none 1),
     (.loadParameters · 4 1 big 0 none 1), (.loadParameters · 4 1 10 big none 1), (.loadParameters · 4 1 10 0 none big),
     (.loadStation · big .desk), (.loadStation · 1 (.control (List.replicate 256 none))),
     (.loadStation · 1 (.monitor (List.replicate 256 none))), (.setNoticeMask · big []),
     (.setNoticeMask · 1 (List.replicate 256 none)), (.readStation · big), (.clearNotices · (List.replicate 256 none))].all
      (fun f => !(f (fromStation 1)).wellFormed) = true := by decide +kernel

/-! ### Formats (12_formats.md) -/

/-- The check value of the nine digits 1 to 9 is 29B1h for the generator, start and bit order of R199. -/
theorem test_check_value : crc16 [0x31, 0x32, 0x33, 0x34, 0x35, 0x36, 0x37, 0x38, 0x39] = 0x29B1#16 := by decide +kernel

theorem test_frame_length : (slotBytes {}).length = 137 ∧ 1 + 72 * 137 + 2 = frameLength := by decide +kernel

/-- Bits 0 to 8 of the lamps, in order. -/
theorem test_lamp_bits :
    lampBits { micLive := true, boothLive := true } = 3 ∧ lampBits { offerToYou := true } = 4 ∧
      lampBits { offerPending := true } = 8 ∧ lampBits { turnDue := true } = 16 ∧ lampBits { relayFallback := true } = 32 ∧
      lampBits { outputB := true } = 64 ∧ lampBits { callPending := true } = 128 ∧ lampBits { setup := true } = 256 := by
  decide

/-- Marks 2Bh: SEEN, COPIED, CALL and two key events, MIC_ON and HANDOVER to seat 2. -/
theorem test_upstream_marks :
    let u := upstreamOfBytes ([0x2B, 1, 0, 3, 2] ++ List.replicate 64 0)
    u.seen = true ∧ u.copied = true ∧ u.cough = false ∧ u.call = true ∧
      (carriedKeys u).map readKey = [some .micOn, some (.handover (.seat 2))] := by decide +kernel

/-- A report's bytes: radiator 8, serial 010203h, counter 5 and kind SELECT, channel 48, battery 9 and link 12. -/
theorem test_report_bytes :
    reportOfBytes (withCheck [8, 1, 2, 3, 0x25, 48, 0xC9]) = ⟨true, 8, 0x010203, 5, 2, 48, 9, 12⟩ := by decide +kernel

/-- A frame of another length and a report whose check value does not agree are counted as bad and nothing else; one whose check value
agrees is heard (R53, R68, R199; log 24). -/
theorem test_check_values :
    after (.loopReturn [0, 0, 0]) floorHall =
        floorHall.modLoop (fun l => { l with counters := { l.counters with bad := 1 } }) ∧
      after (.receiverReport [1, 0, 0, 101, 0x13, 48, 0x75, 0, 0]) hireHall =
        hireHall.modAir (fun a => { a with counters := { a.counters with reports := 1, bad := 1 } }) ∧
      ((after (.receiverReport (reportOn 101)) hireHall).receiverBySerial 101).map (·.2.battery) = some (some 5) := by
  decide +kernel

/-- The note DENY to serial 010203h for channel 4, and an air block's head. -/
theorem test_air_bytes :
    noteBytes ⟨0x010203, .deny, 4⟩ = [1, 2, 3, 2, 4] ∧
      (airBlockBytes ⟨5, .muted, true, ⟨'E', 'N', '1'⟩, silence⟩).take 6 = [5, 3, 1, 0x45, 0x4E, 0x31] := by decide +kernel

/-- A NOTICE to station 2: its head, its flag and its clock value. -/
theorem test_notice_bytes :
    (messageBytes ⟨2, .notice, 0, [.name "CALL", .clock noon]⟩).take 19 =
      [2, 0, 3, 0, 0, 0, 12, 4, 0x43, 0x41, 0x4C, 0x4C, 0x07, 0xEF, 5, 14, 12, 0, 0] := by decide +kernel

/-- A READ LOOP written out byte by byte is taken as READ LOOP. -/
theorem test_read_loop_bytes :
    spell (.readLoop (fromStation 1)) =
      some (withCheck [0, 1, 1, 0, 7, 0, 10, 4, 0x52, 0x45, 0x41, 0x44, 4, 0x4C, 0x4F, 0x4F, 0x50]) := by decide +kernel

theorem test_read_loop_message :
    after (.messageDropped (withCheck [0, 1, 1, 0, 7, 0, 10, 4, 0x52, 0x45, 0x41, 0x44, 4, 0x4C, 0x4F, 0x4F, 0x50])) hall =
      after (.readLoop (fromStation 1)) hall := by decide +kernel

/-! ### Single steps and worked examples -/

/-- Frames in the ring: with 7 departures since the last good return the eighth breaks the loop (03, "the ring is cut"). -/
theorem test_eighth_departure :
    let s := after (.blockTick []) { hall with loop := { sinceGood := 7, outstanding := [1, 2, 3, 4, 5, 6, 7], nextSequence := 8 } }
    s.loop.status = .broken ∧ s.loop.outstanding.length = 8 ∧ s.flagged .loopBroken = true := by decide +kernel

/-- The 24th departure loses the sixteenth frame: console 1 goes ABSENT, booth 1 SILENT, its duty entry is completed (same example). -/
theorem test_ring_cut_console_absent :
    let s := after (.blockTick []) { floorHall with loop :=
      { floorHall.loop with sinceGood := 8, status := .broken, outstanding := [0, 1, 2, 3, 4, 5, 6, 7], nextSequence := 8 } }
    (s.slotState 1).presence = .absent ∧ (s.boothRec 1).floor = .silent ∧ (s.chan 1).owner = none ∧
      s.flagged .liveLost = true ∧ s.acct.duty.map (·.reason) = [some .absent] := by decide +kernel

/-- Booths 6, 11, 14, 17 and 20 of the example "a relay refused for depth". -/
def relayHall : State :=
  { hall with booth := { booths :=
    [(11, { relay := .booth 6 }), (14, { relay := .booth 11 }), (17, { relay := .booth 14 })] } }

theorem test_relay_example :
    relayRefusal relayHall 20 (.booth 17) = some .relayDepth ∧ relayRefusal relayHall 6 (.booth 20) = some .relayDepth ∧
      relayRefusal relayHall 6 (.booth 17) = some .relayCycle ∧ relayRefusal relayHall 11 (.booth 11) = some .relayCycle ∧
      relayRefusal relayHall 14 .floor = none ∧ relayRefusal (setSource 14 .floor relayHall) 20 (.booth 17) = none := by
  decide +kernel

/-- The table of the example "figures at closure". -/
theorem test_figures_at_closure :
    [amountOf exampleTariff .returned 0 0, amountOf exampleTariff .returned 44 0, amountOf exampleTariff .returned 45 0,
     amountOf exampleTariff .returned 46 0, amountOf exampleTariff .returned 400 0, amountOf exampleTariff .returned 400 50,
     amountOf exampleTariff .lost 130 0, amountOf exampleTariff .recovered 0 0] = [0, 30, 30, 60, 200, 240, 1090, 1000] := by
  decide

/-- A minute tick at the return-by time makes the ISSUED receiver OVERDUE (09, "a return-by time"). -/
theorem test_return_by_minute :
    let s := after (.secondTick []) { atClock ⟨2031, 5, 14, 17, 29, 59⟩ hireHall with time :=
      { clock := ⟨2031, 5, 14, 17, 29, 59⟩, valid := true, sessionMinute := 812005
        returnBy := { hour := 17, hourOn := true, minute := 30, minuteOn := true } } }
    s.now = ⟨2031, 5, 14, 17, 30, 0⟩ ∧ s.time.sessionMinute = 812006 ∧ s.time.returnBy.matched = true ∧
      (Table.look s.hire.receivers 2).map (·.state) = some .overdue ∧ s.flagged .returnBy = true := by decide +kernel

/-- A TAKEOVER: the live console changes, the channel stays owned, one duty entry closes and one opens (R29). -/
theorem test_takeover :
    let s := takeKey 2 .micOn (floorHall.modBooth 1 fun x => { x with interlock := .takeover })
    (s.boothRec 1).floor = .live 2 ∧ (s.chan 1).owner = some 1 ∧ (s.boothRec 1).turn = some 30 ∧
      s.acct.duty.map (fun e => (e.slot, e.reason)) = [(1, some .takeover), (2, none)] := by decide +kernel

/-- The output switch claims channel 2 before it releases channel 1 (R35). -/
theorem test_output_switch :
    let s := takeKey 1 .outputB floorHall
    (s.chan 2).owner = some 1 ∧ (s.chan 1).owner = none ∧ (s.boothRec 1).output = .b ∧
      s.flagged .channelFallback = true := by decide +kernel

/-- Coughing live console: silence goes to the channel and into the latest output block (R12). -/
theorem test_cough_block :
    let s := takeSpeech (fun _ => { seen := true, cough := true, speech := 7#512 }) 1 floorHall
    (s.chan 1).queue = [silence, silence] ∧ (s.boothRec 1).latest = some silence := by decide +kernel

/-- SUSPEND revokes the restricted channel of receiver 101 (04, "grant, deny and revoke"). -/
theorem test_suspend_revokes :
    let s := after (.suspend (fromStation 1) 7) hireHall
    (Table.look s.hire.receivers 2).map (·.channel) = some (some 0) ∧ (s.chan 4).listeners = 0 ∧
      s.air.notes = [⟨101, .revoke, 4⟩] ∧ lastBody s = [.name "ACCEPTED", .num 1] := by decide +kernel

/-- With room in the queue RELEASE STATEMENTS 0 posts the pending return of receiver 106 (R145). -/
theorem test_release_posts_pending :
    let s := after (.releaseStatements (fromStation 1) 0 none) hireHall
    s.hire.pendingList = [] ∧ s.acct.statements.length = 1 ∧
      (Table.look s.hire.receivers 7).map (·.state) = some .available ∧
      lastBody s = [.name "ACCEPTED", .num 0, .num 1, .num 1] := by decide +kernel

/-- DOCKED returns a loan: the receiver is AVAILABLE at its rack slot and a statement is posted (R94, R101). -/
theorem test_docked_returns :
    let s := after (.docked (fromStation 4) 101 32 15) hireHall
    (Table.look s.hire.receivers 2).map (fun r => (r.state, r.rack, r.battery)) = some (.available, some (4, 32), some 15) ∧
      s.acct.statements.map (·.loan) = [1] ∧ s.serv.outbound = [] := by decide +kernel

/-- The final item issues the held receiver with the next loan number (R118). -/
theorem test_final_item :
    let s := after (.batchItem (fromStation 3) 7 none false false) hireHall
    s.hire.batches = [] ∧ (Table.look s.hire.receivers 5).map (·.state) = some .issued ∧
      lastBody s = [.name "ACCEPTED", .count 1, .num 104, .num 5] := by decide +kernel

/-- Entry to SETUP silences booth 1 and completes its duty entry with the reason MODE (R48, R179). -/
theorem test_entry_to_setup :
    let s := after (.setMode (fromStation 1) (some .setup)) floorHall
    s.mode = .setup ∧ (s.boothRec 1).floor = .silent ∧ s.acct.duty.map (·.reason) = [some .mode] ∧
      lastBody s = [.name "ACCEPTED", .name "REHEARSAL", .name "SETUP", .num 1, .num 0] := by decide +kernel

/-- A power return: SETUP, the booth SILENT, the entry completed with POWER at the loss stamp (R185, R159). -/
theorem test_power_return :
    let s := after (.mainsReturn ⟨true, true, false, 0⟩) { lost floorHall with supply :=
      { floorHall.supply with mainsLost := true, lossStamp := some noon } }
    s.mode = .setup ∧ (s.boothRec 1).floor = .silent ∧ s.acct.duty.map (fun e => (e.stop, e.reason)) = [(some noon, some .power)] ∧
      s.flagged .mainsReturn = true ∧ s.supply.mainsLost = false := by decide +kernel

/-- A failed retention check is a cold start (R183, R186). -/
theorem test_retention_lost : after (.mainsReturn ⟨true, false, false, 3⟩) (lost floorHall) = State.reset := by decide +kernel

def losing (n : Nat) (s : State) : State := { s with serv := { s.serv with toLose := n } }

/-- RESTART leaves two messages waiting in the queue to be lost, up to the loss of mains, and one that is lost has no effect (R198). -/
theorem test_restart_loses_waiting :
    let waiting := [Instr.readLoop (fromStation 1), .outboundSend, .undocked (fromStation 4) 0 1, .mainsLoss, .readAir (fromStation 1)]
    (after (.restart (fromStation 1)) (hall.withPending waiting)).serv.toLose = 2 ∧
      after (.readLoop (fromStation 1)) (losing 1 hall) = hall := by decide +kernel

/-- A live console that goes ABSENT: LIVE_LOST is noticed before CHANNEL_FALLBACK (R37; log 31). -/
theorem test_live_lost_first :
    (consoleGone 1 floorHall).serv.outbound.map (fun m => (m.dest, m.body.head?)) =
      [(1, some (.name "LIVE_LOST")), (2, some (.name "LIVE_LOST")), (1, some (.name "CHANNEL_FALLBACK")),
       (2, some (.name "CHANNEL_FALLBACK"))] := by decide +kernel

/-- A clock that rolls into a leap day, and past the last year (R163). -/
theorem test_calendar :
    nextSecond ⟨2028, 2, 28, 23, 59, 59⟩ = some ⟨2028, 2, 29, 0, 0, 0⟩ ∧
      nextSecond ⟨2027, 2, 28, 23, 59, 59⟩ = some ⟨2027, 3, 1, 0, 0, 0⟩ ∧ nextSecond ⟨2099, 12, 31, 23, 59, 59⟩ = none := by
  decide

/-- A notice goes to CONTROL and MONITOR, not to DESK or RACK, and once (R195). -/
theorem test_notices_once :
    let s := setFlag .call (setFlag .call hall)
    s.serv.outbound.map (·.dest) = [1, 2] ∧ s.serv.counters.noticesQueued = 2 := by decide +kernel

/-- No word of the table spells a command, and withFetchWord leaves the state as it is (log 3). -/
theorem test_no_words : decodeTableWord 8 0 = none ∧ hall.withFetchWord 8 0 = hall := by decide +kernel

/-! ### States and operands that meet the hypotheses of the statements, clause by clause -/

/-- The queue of two commands, and an empty one. -/
theorem test_meets_StepTakesTheFront :
    (hall.withPending [.mainsLoss, .outboundSend]).pending = [.mainsLoss, .outboundSend] ∧ hall.pending = [] := ⟨rfl, rfl⟩

def atPhase (n : Nat) (s : State) : State := { s with time := { s.time with phase := n } }

/-- A second before noon, phase 499, with RETURN_BY set for noon. -/
def beforeNoon : State :=
  { floorHall with time :=
    { clock := ⟨2031, 5, 14, 11, 59, 59⟩, valid := true, phase := 499, returnBy := { hour := 12, hourOn := true } } }

theorem test_meets_TicksTakeInTheOrderNamed :
    (hall.supply.mainsLost = false ∧ (atPhase 498 hall).time.phase + 1 < 500) ∧
      (beforeNoon.supply.mainsLost = false ∧ beforeNoon.time.phase + 1 = 500 ∧ ¬beforeNoon.now.second < 59) ∧
      (atClock ⟨2031, 1, 1, 0, 0, 58⟩ hall).now.second < 59 ∧ alarmMatches .returnBy hall = false ∧
      alarmMatches .returnBy (advanceClock beforeNoon) = true ∧ alarmMatches .sessionClose (advanceClock beforeNoon) = false := by
  decide +kernel

/-- A 500th tick that is also a second and a minute tick: clock, session minutes, the alarm's match, the turn that falls due (R162 to
R164, R170, R40). -/
theorem test_minute_in_a_block_tick :
    let s := after (.blockTick [.clock, .turns]) beforeNoon
    s.time.phase = 0 ∧ s.now = noon ∧ s.time.sessionMinute = 1 ∧ s.time.returnBy.lastMatch = some noon ∧
      (s.boothRec 1).turn = some 0 ∧ s.flagged .turnDue = true ∧ s.loop.outstanding = [0] := by decide +kernel

theorem test_meets_EveryFiveHundredthTickIsASecond :
    (atPhase 0 hall).time.phase < Config.ticksPerSecond ∧ (atPhase 499 hall).time.phase < Config.ticksPerSecond ∧
      (atPhase 499 hall).supply.mainsLost = false := by decide

/-- Slots 6, 5 and 4, relay from the floor, from a booth on the air and from a SILENT one, and a full list of frames. -/
theorem test_meets_DepartureSendsOneFrame :
    let relayed (k : Nat) := floorHall.modBooth 2 fun x => { x with relay := .booth k }
    (floorHall.console 6).configured = false ∧ ((floorHall.console 5).configured = true ∧ (floorHall.console 5).booth = none) ∧
      ((floorHall.console 4).configured = true ∧ (floorHall.console 4).booth = some 2) ∧ (floorHall.boothRec 2).relay = .floor ∧
      (((relayed 1).boothRec 2).relay = .booth 1 ∧ ((relayed 1).boothRec 1).floor ≠ .silent) ∧
      (((relayed 24).boothRec 2).relay = .booth 24 ∧ ((relayed 24).boothRec 24).floor = .silent) := by decide +kernel

/-- Channels 1, 2, 3 and 48 of the floor hall, and channel 1 without its block. -/
theorem test_meets_ChannelsAreResolvedByTheTable :
    isChannel 1 = true ∧ isChannel 48 = true ∧ hall.mode = .setup ∧ floorHall.mode ≠ .setup ∧
      floorHall.switch.floorQueue = [] ∧
      (floorHall.chan 48).enabled = false ∧
      ((floorHall.chan 1).enabled = true ∧ (floorHall.chan 1).owner = some 1 ∧ (floorHall.chan 1).queue = [silence]) ∧
      ((floorHall.modChan 1 fun x => { x with queue := [] }).chan 1).queue = [] ∧
      ((floorHall.chan 2).enabled = true ∧ (floorHall.chan 2).owner = none ∧ (floorHall.chan 2).policy = .floor) ∧
      ((floorHall.chan 3).enabled = true ∧ (floorHall.chan 3).owner = none ∧ (floorHall.chan 3).policy = .silence) := by
  decide +kernel

def withNotes (n : Nat) (s : State) : State := { s with air := { s.air with notes := List.replicate n ⟨1, .deny, 1⟩ } }

theorem test_meets_AirNotesAreQueuedAndSent :
    (withNotes 63 hall).air.notes.length < 64 ∧ 64 ≤ (withNotes 64 hall).air.notes.length := by decide

theorem test_meets_ChannelMinutesCount : hall.mode = .setup ∧ floorHall.mode ≠ .setup ∧ (0 : Nat) ≤ 48 ∧ (48 : Nat) ≤ 48 := by
  decide

theorem test_meets_LoanMinutesAccrue :
    (∃ r, Table.look hireHall.hire.receivers 2 = some r ∧ r.state = .issued ∧ r.loan = some (loanOf 1)) ∧
      (∃ r, Table.look hireHall.hire.receivers 3 = some r ∧ r.state = .overdue ∧ r.loan = some (loanOf 2)) ∧
      ∃ r, Table.look hireHall.hire.receivers 4 = some r ∧ r.state ≠ .issued ∧ r.state ≠ .overdue :=
  ⟨⟨_, rfl, rfl, rfl⟩, ⟨_, rfl, rfl, rfl⟩, _, rfl, by decide, by decide⟩

theorem test_meets_TurnsAndDutyMinutesCount :
    isBooth 1 = true ∧ isBooth 24 = true ∧ (floorHall.boothRec 1).onAir = true ∧ (floorHall.boothRec 1).turn = some 1 ∧
      (floorHall.boothRec 24).onAir = false := by decide +kernel

/-- The floor hall with booth 1's floor in another state. -/
def onFloor (f : FloorState) : State := floorHall.modBooth 1 fun x => { x with floor := f }

theorem test_meets_OffersTurnsAndDisplaysEnd :
    floorHall.supply.mainsLost = false ∧
      ((floorHall.modConsole 72 fun c => { c with displayEnd := some 0 }).console 72).displayEnd = some 0 ∧
      ((onFloor (.offered 1 .any 1)).boothRec 1).floor = .offered 1 .any 1 ∧
      ((floorHall.boothRec 1).onAir = true ∧ (floorHall.boothRec 1).turn = some 1) ∧
      ((onFloor (.offered 1 .any 2)).boothRec 1).floor = .offered 1 .any (0 + 2) ∧ (floorHall.boothRec 2).floor = .silent := by
  decide +kernel

/-- Displays with none, one and no tick to come, a number that is no slot, and an offer with a second to spare. -/
theorem test_meets_OffersTurnsAndDisplaysEnd_ticks :
    let showing (k : Nat) := floorHall.modConsole 72 fun c => { c with lamp := some .noOffer, displayEnd := some k }
    isSlot 72 = true ∧ isSlot 73 = false ∧ (floorHall.console 72).displayEnd = none ∧
      ((showing 1).console 72).displayEnd = some (0 + 1) ∧ ((showing 0).console 72).displayEnd = some 0 ∧
      ((onFloor (.offered 1 .any 2)).boothRec 1).floor = .offered 1 .any 2 ∧ (2 : Nat) ≤ 2 ∧
      ((takeDisplayEnds (takeDisplayEnds (showing 1))).console 72).lamp = none := by decide +kernel

theorem test_meets_RangesBatchesConsolesAndTheLoopTimeOut :
    (∃ r, hireHall.receiverBySerial 101 = some (2, r) ∧ Table.look hireHall.hire.receivers 2 = some r ∧ r.range = .inRange ∧
      r.lastHeard = some 29 ∧ hireHall.params.silenceLimit ≤ min (29 + 1) 65535) ∧
    (∃ b, Table.look hireHall.hire.batches 3 = some b ∧ 20 ≤ b.lastItem + 1) ∧
    ((floorHall.slotState 1).presence = .present ∧
      floorHall.params.absenceLimit ≤ min ((floorHall.slotState 1).missedRun + 1) 250) ∧
    (hall.loop.status = .running ∧ 7 ≤ ({ hall with loop := { sinceGood := 7 } } : State).loop.sinceGood) :=
  ⟨⟨_, rfl, rfl, rfl, rfl, by decide⟩, ⟨_, rfl, by decide⟩, ⟨rfl, by decide +kernel⟩, rfl, by decide⟩

/-- Consoles that are gone: without a booth, in a SILENT booth, live, beside a live one, offered the floor, and beside an offer to
another; a receiver never heard, one second from the silence limit and due; a batch one second from its timeout. -/
theorem test_meets_RangesBatchesConsolesAndTheLoopTimeOut_gone :
    ((floorHall.console 5).booth = none ∧ (floorHall.console 4).booth = some 2 ∧ (floorHall.boothRec 2).floor = .silent ∧
      (floorHall.console 1).booth = some 1 ∧ FloorState.console (floorHall.boothRec 1).floor = some 1 ∧
      (floorHall.console 2).booth = some 1 ∧ (floorHall.boothRec 1).floor = .live 1 ∧
      ((onFloor (.offered 1 (.slot 2) 5)).boothRec 1).floor = .offered 1 (.slot 2) 5 ∧
      ((onFloor (.offered 1 .any 5)).boothRec 1).floor = .offered 1 .any 5) ∧
    (∃ r, Table.look hireHall.hire.receivers 1 = some r ∧ r.lastHeard = none) ∧
    (∃ r, Table.look heardOne.hire.receivers 2 = some r ∧ r.lastHeard = some 1 ∧ r.range = .inRange ∧
      min (1 + 1) 65535 < heardOne.params.silenceLimit) ∧
    (∃ r, Table.look hireHall.hire.receivers 2 = some r ∧ r.lastHeard = some 29 ∧ r.range = .inRange ∧
      hireHall.params.silenceLimit ≤ min (29 + 1) 65535) ∧
    ∃ b, Table.look (batchHall { account := 7, lastItem := 18 }).hire.batches 3 = some b ∧ b.lastItem + 1 < 20 :=
  ⟨by decide +kernel, ⟨_, rfl, rfl⟩, ⟨_, rfl, rfl, rfl, by decide⟩, ⟨_, rfl, rfl, rfl, by decide⟩, _, rfl, by decide⟩

def armed : Alarm := { hour := 12, hourOn := true }

/-- A second of the backup cell that rolls the seconds over into a match. -/
theorem test_meets_AlarmsMatchAndTakeEffect_backup :
    let s := lost { hall with time := { clock := ⟨2031, 5, 14, 11, 59, 59⟩, valid := true, returnBy := armed } }
    s.supply.mainsLost = true ∧ 59 ≤ s.now.second ∧ alarmMatches .returnBy (advanceClock s) = true ∧
      alarmMatches .sessionClose (advanceClock s) = false := by decide +kernel

theorem test_meets_AlarmsMatchAndTakeEffect :
    let s : State := { hall with time := { clock := noon, valid := true, returnBy := armed, sessionClose := armed } }
    s.supply.mainsLost = false ∧ alarmMatches .returnBy s = true ∧ alarmMatches .sessionClose s = true := by decide

def withFrames (l : List Nat) (s : State) : State := { s with loop := { s.loop with outstanding := l } }

theorem test_meets_GoodReturnIsHandedOnInOrder :
    (goodFrame.length = 9867 ∧ checkAgrees goodFrame = true ∧
        numberAt goodFrame 0 1 ∈ (withFrames [14, 15] floorHall).loop.outstanding) ∧
      (FloorState.console (floorHall.boothRec 1).floor = some 1 ∧ (floorHall.boothRec 1).selected = some 1) ∧
      (floorHall.slotState 3).presence = .absent ∧ (floorHall.slotState 2).presence = .present ∧
      min ((floorHall.slotState 2).missedRun + 1) 250 < floorHall.params.absenceLimit ∧
      ((floorHall.slotState 1).presence = .present ∧
        floorHall.params.absenceLimit ≤ min ((floorHall.slotState 1).missedRun + 1) 250) ∧
      (floorHall.slotState 72).presence = .unconfigured :=
  ⟨⟨goodFrame_arrives.1, goodFrame_arrives.2.1, by rw [goodFrame_arrives.2.2]; decide⟩, by decide +kernel⟩

/-- Levels of a slot that is not SEEN, of a console without a booth, and of a console that calls in a booth of each call mode, with the
latch clear and set. -/
theorem test_meets_GoodReturnIsHandedOnInOrder_levels :
    let calling : LoopReturn := ⟨15, true, [(1, { seen := true, call := true }), (5, { seen := true })]⟩
    let holding (latch : Bool) := floorHall.modBooth 1 fun x => { x with callMode := .hold, callLatch := latch }
    (upstreamOf calling 2).seen = false ∧ (upstreamOf calling 1).seen = true ∧ (upstreamOf calling 1).call = true ∧
      (upstreamOf calling 5).call = false ∧ (floorHall.slotState 5).presence ≠ .unconfigured ∧
      (floorHall.console 5).booth = none ∧ (floorHall.console 1).booth = some 1 ∧ (floorHall.boothRec 1).callMode = .edge ∧
      ((holding false).boothRec 1).callMode = .hold ∧ ((holding false).boothRec 1).callLatch = false ∧
      ((holding true).boothRec 1).callLatch = true := by decide +kernel

/-- A frame of another length, one with a wrong check value, one whose sequence number is not listed; a report for each ground on which
a report is bad, at the edges of their ranges. -/
theorem test_meets_BadFramesAndReportsAreOnlyCounted :
    hall.supply.mainsLost = false ∧ hall.serv.toLose = 0 ∧ ([] : List Byte).length ≠ 9867 ∧
      (∃ l : List Byte, l.length = 9867 ∧ checkAgrees l = false) ∧
      (goodFrame.length = 9867 ∧ checkAgrees goodFrame = true ∧ numberAt goodFrame 0 1 ∉ hall.loop.outstanding) ∧
      (withCheck [1]).length ≠ 9 ∧ checkAgrees [1, 0, 0, 101, 0x13, 48, 0x75, 0, 0] = false ∧
      ([[0, 0, 0, 101, 0x13, 48, 0], [9, 0, 0, 101, 0x13, 48, 0]].map fun l => numberAt (withCheck l) 0 1) = [0, 9] ∧
      ([[8, 0, 0, 101, 0x03, 48, 0], [8, 0, 0, 101, 0x33, 48, 0]].map fun l => numberAt (withCheck l) 4 1 / 16 % 4) = [0, 3] ∧
      numberAt (withCheck [8, 0, 0, 101, 0x13, 49, 0]) 5 1 = 49 := by
  refine ⟨rfl, rfl, by decide, ?_, ⟨goodFrame_arrives.1, goodFrame_arrives.2.1, by decide +kernel⟩, by decide +kernel⟩
  obtain ⟨tail, length, wrong⟩ := wrongCheck (15 :: List.replicate 9864 0)
  exact ⟨_, by rw [List.length_append, List.length_cons, List.length_replicate, length], wrong⟩

/-- Slots without a configured console and not SEEN, with two key events and with more, and bytes that make no key event. -/
theorem test_meets_KeyEventsAreReadByCountCodeAndArgument :
    let carrying (count : Nat) : LoopReturn := ⟨0, true, [(1, { seen := true, keyCount := count })]⟩
    isSlot 1 = true ∧ isSlot 72 = true ∧ (floorHall.slotState 1).presence ≠ .unconfigured ∧
      (floorHall.slotState 72).presence = .unconfigured ∧ (upstreamOf (carrying 2) 2).seen = false ∧
      ((upstreamOf (carrying 2) 1).seen = true ∧ (upstreamOf (carrying 2) 1).keyCount ≤ 2) ∧
      (upstreamOf (carrying 3) 1).keyCount = 3 ∧ readKey (3, 4) = none ∧ readKey (7, 25) = none ∧ readKey (9, 0) = none ∧
      readKey (0, 0) = none ∧ readKey (1, 1) = none ∧ readKey (7, 24) = some (.relay (.booth 24)) := by decide +kernel

/-- MIC_ON from console 2 or 4: booth 2 without a channel, with its channel off, engaged or free; booth 1 LIVE and OFFERED. -/
theorem test_meets_MicOnByTheFloorState :
    (floorHall.console 2).booth = some 1 ∧ (floorHall.console 4).booth = some 2 ∧ (inMode .setup floorHall).mode = .setup ∧
      (floorHall.boothRec 2).floor = .silent ∧
      ((floorHall.modBooth 2 fun x => { x with aChannel := none }).boothRec 2).selected = none ∧
      (floorHall.boothRec 2).selected = some 3 ∧ ((floorHall.modChan 3 fun x => { x with enabled := false }).chan 3).enabled = false ∧
      ((floorHall.modChan 3 fun x => { x with owner := some 1 }).chan 3).owner.isSome = true ∧
      ((floorHall.chan 3).enabled = true ∧ (floorHall.chan 3).owner = none) ∧
      ((floorHall.boothRec 1).floor = .live 1 ∧ (floorHall.boothRec 1).interlock = .refuse ∧
        (floorHall.boothRec 1).selected = some 1) ∧
      ((onFloor (.offered 1 .any 1)).boothRec 1).floor = .offered 1 .any 1 := by decide +kernel

theorem onlySlot3 (P : Nat → Bool) (h : ((upTo 72).all fun j => !P j || j == 3) = true) :
    ∀ j, isSlot j = true → P j = true → j = 3 := by
  intro j hj hp
  have hm : j ∈ upTo 72 := by
    simp only [isSlot, within, Bool.and_eq_true, decide_eq_true_eq] at hj
    simp only [upTo, List.mem_range'_1]
    simp only [Config.slots] at hj
    omega
  have := List.all_eq_true.mp h j hm
  simpa [hp] using this

theorem test_meets_TakeHandoverAndMicOff :
    ((onFloor (.offered 1 (.slot 2) 1)).boothRec 1).floor = .offered 1 (.slot 2) 1 ∧
      ((onFloor .silent).boothRec 1).floor = .silent ∧ FloorState.console (floorHall.boothRec 1).floor ≠ some 2 ∧
      FloorState.console (floorHall.boothRec 1).floor = some 1 ∧
      ((floorHall.console 2).configured = true ∧ (floorHall.console 2).booth = some 1 ∧ (floorHall.console 2).seat = some 2 ∧
        (floorHall.slotState 2).presence = .present) ∧
      (∀ j, isSlot j = true →
        ((floorHall.console j).configured && decide ((floorHall.console j).booth = some 1) &&
          decide ((floorHall.console j).seat = some 3)) = true → j = 3) ∧
      (floorHall.slotState 3).presence ≠ .present :=
  ⟨by decide +kernel, by decide +kernel, by decide +kernel, by decide +kernel, by decide +kernel,
    onlySlot3 _ (by decide +kernel), by decide +kernel⟩

theorem test_meets_OutputRelayAndCallKeys :
    (floorHall.boothRec 2).bChannel = none ∧ (floorHall.boothRec 1).bChannel = some 2 ∧ (floorHall.boothRec 1).output ≠ .b ∧
      (floorHall.boothRec 1).output = .a ∧ ((onFloor .silent).boothRec 1).floor = .silent ∧
      ((floorHall.chan 2).enabled = true ∧ (floorHall.chan 2).owner = none) ∧
      ((floorHall.modChan 2 fun x => { x with enabled := false }).chan 2).enabled = false ∧
      ((floorHall.modChan 2 fun x => { x with owner := some 24 }).chan 2).owner.isSome = true ∧
      relayRefusal floorHall 1 (.booth 24) = none ∧ relayRefusal floorHall 1 (.booth 1) = some .relayCycle ∧
      ((floorHall.modBooth 1 fun x => { x with callLatch := true }).boothRec 1).callLatch = true ∧
      (floorHall.boothRec 1).callLatch = false ∧ (floorHall.console 5).booth = none := by decide +kernel

theorem test_meets_ForcedSilence :
    (floorHall.boothRec 2).floor = .silent ∧ FloorState.console (floorHall.boothRec 1).floor = some 1 ∧
      (floorHall.boothRec 1).selected = some 1 ∧ (floorHall.chan 1).owner = some 1 := by decide +kernel

/-- The floor hall with 256 duty entries. -/
def fullDuty : State := floorHall.modAcct fun u => { u with duty := u.duty ++ List.replicate 255 (newEntry 2 1 1 false hall) }

/-- A queue with room and without, a console with its OPEN entry, and one without. -/
theorem test_meets_DutyEntriesAreOpenedAndClosed :
    floorHall.acct.duty.length < 256 ∧ 256 ≤ fullDuty.acct.duty.length ∧
      (∃ e, floorHall.acct.duty = [] ++ e :: [] ∧ e.slot = 1 ∧ e.status = .opened ∧
        ∀ d ∈ ([] : List DutyEntry) ++ [], d.slot = 1 → d.status = .complete) ∧
      (∀ e ∈ floorHall.acct.duty, e.slot = 2 → e.status = .complete) ∧
      floorHall.acct.dutyCounters.completed ≤ 4294967295 :=
  ⟨by decide, by decide +kernel, ⟨_, rfl, rfl, rfl, by decide⟩, by decide, by decide⟩

theorem test_meets_ClaimsAreRuledAtTheChannel :
    (floorHall.chan 48).enabled = false ∧ ((floorHall.chan 2).enabled = true ∧ (floorHall.chan 2).owner = none) ∧
      ((floorHall.chan 1).enabled = true ∧ (floorHall.chan 1).owner = some 1) := by decide +kernel

theorem test_meets_ReleaseStampsOutsideSetup :
    (floorHall.chan 1).owner ≠ some 2 ∧ (floorHall.chan 1).owner = some 1 ∧ (inMode .setup floorHall).mode = .setup ∧
      floorHall.mode ≠ .setup ∧ (floorHall.chan 1).enabled = true ∧ 0 < (floorHall.chan 1).listeners ∧
      ((floorHall.modChan 1 fun x => { x with listeners := 0 }).chan 1).listeners = 0 := by decide +kernel

def withFloor (n : Nat) (s : State) : State := { s with switch := { s.switch with floorQueue := List.replicate n silence } }

theorem test_meets_FloorBlocksAreQueuedAndTaken :
    hall.supply.mainsLost = false ∧ (withFloor 3 hall).switch.floorQueue.length < 4 ∧
      4 ≤ (withFloor 4 hall).switch.floorQueue.length := by decide +kernel

theorem test_meets_ChannelsAreEnabledAndDisabled :
    admitted controlOnly (fromStation 1) floorHall ∧ isChannel 0 = false ∧ isChannel 49 = false ∧
      (isChannel 1 = true ∧ (floorHall.chan 1).enabled = true) ∧ (isChannel 48 = true ∧ (floorHall.chan 48).enabled = false) ∧
      ((floorHall.chan 2).enabled = true ∧ (floorHall.chan 2).owner = none) ∧ (floorHall.chan 1).owner = some 1 := by
  decide +kernel

/-- A report of an unknown serial, a repeated one, and ones accepted for receivers that are not on loan, LOST, and on loan. -/
theorem test_meets_ReportsAreUnknownDuplicateOrAccepted :
    [16777215, 100, 101, 103].all (fun n =>
        decide ((reportOn n).length = 9) && checkAgrees (reportOn n) &&
          decide (reportOfBytes (reportOn n) = ⟨true, 1, n, 3, 1, 48, 5, 7⟩)) = true ∧
      hireHall.receiverBySerial 16777215 = none ∧
      (∃ r, heardOne.receiverBySerial 101 = some (2, r) ∧ r.lastCounter = some 3 ∧ r.lastHeard = some 1) ∧
      (∃ r, hireHall.receiverBySerial 100 = some (1, r) ∧ r.lastCounter ≠ some 3 ∧ r.onLoan = false ∧ r.state ≠ .lost) ∧
      (∃ r, hireHall.receiverBySerial 103 = some (4, r) ∧ r.lastCounter ≠ some 3 ∧ r.state = .lost) ∧
      ∃ r, hireHall.receiverBySerial 101 = some (2, r) ∧ r.lastHeard = some 29 ∧ r.onLoan = true ∧ r.loan = some (loanOf 1) :=
  ⟨by decide +kernel, by decide +kernel, ⟨_, rfl, rfl, rfl⟩, ⟨_, rfl, by decide, by decide, by decide⟩,
    ⟨_, rfl, by decide, rfl⟩, _, rfl, rfl, by decide, rfl⟩

theorem test_meets_LanguageChoiceAndRevocation :
    (hireHall.chan 4).restricted = true ∧ (hireHall.chan 1).restricted = false ∧ (hireHall.chan 0).restricted = false ∧
      hireHall.air.notes.length ≤ 64 ∧
      (∃ a, hireHall.accountByNumber 7 = some (1, a) ∧ a.state = .opened ∧ 4 ∈ a.access ∧ 5 ∉ a.access) ∧
      Table.rising hireHall.hire.receivers = true ∧
      (∃ r, Table.look hireHall.hire.receivers 2 = some r ∧ r.onLoan = true ∧ r.loan = some (loanOf 1) ∧ r.channel = some 4) ∧
      hireHall.accountByNumber 8 = none ∧ ∃ r, Table.look hireHall.hire.receivers 1 = some r ∧ r.onLoan = false :=
  ⟨by decide +kernel, by decide +kernel, by decide +kernel, by decide, ⟨_, rfl, rfl, by decide, by decide⟩, by decide +kernel, ⟨_, rfl, by decide, rfl, rfl⟩,
    by decide +kernel, _, rfl, by decide⟩

def withOutbound (n : Nat) (s : State) : State :=
  { s with serv := { s.serv with outbound := List.replicate n ⟨1, .reply, 0, []⟩ } }

theorem test_meets_RequestsAreAdmittedAndAnswered :
    Table.look hall.serv.stations 5 = none ∧ Table.look hall.serv.stations 3 = some ⟨.desk, []⟩ ∧ controlOnly .desk = false ∧
      controlDesk .desk = true ∧ (withOutbound 31 hall).serv.outbound.length < 32 ∧
      32 ≤ (withOutbound 32 hall).serv.outbound.length ∧ (withOutbound 1 hall).serv.outbound = ⟨1, .reply, 0, []⟩ :: [] ∧
      hall.serv.outbound = [] ∧ hall.serv.toLose = 0 ∧ (losing 1 hall).serv.toLose = 0 + 1 := by decide +kernel

/-- Stations outside each of the four groups of requests. -/
theorem test_meets_RequestsOutsideTheRoleAreRefused :
    hall.supply.mainsLost = false ∧ hall.serv.toLose = 0 ∧
      Table.look hall.serv.stations (fromStation 1).station = some ⟨.control, []⟩ ∧
      Table.look hall.serv.stations (fromStation 2).station = some ⟨.monitor, []⟩ ∧
      Table.look hall.serv.stations (fromStation 4).station = some ⟨.rack, []⟩ ∧ Role.monitor ≠ .control ∧
      (Role.rack ≠ .control ∧ Role.rack ≠ .monitor ∧ Role.rack ≠ .desk) ∧ Role.control ≠ .rack := by decide +kernel

/-- Runs of bytes that each test stops: a length one short, a wrong check value, another destination, an unknown source, a reply and a
notice. -/
theorem test_meets_MessagesAreDroppedByTheTests :
    numberAt [0, 1, 1, 0, 7, 0, 0, 0] 5 2 + 9 ≠ 8 ∧ checkAgrees [0, 1, 1, 0, 7, 0, 0, 0, 0] = false ∧
      [withCheck [1, 1, 1, 0, 7, 0, 0], withCheck [0, 254, 1, 0, 7, 0, 0], withCheck [0, 1, 2, 0, 7, 0, 0],
        withCheck [0, 1, 3, 0, 7, 0, 0]].all messageSound = true ∧
      hall.serv.toLose = 0 ∧ (losing 3 hall).serv.toLose = 2 + 1 := by decide +kernel

theorem test_meets_MessagesSpellTheirCommands :
    (Instr.docked (fromStation 4) 4294967295 32 15).wellFormed = true ∧
      (spell (.docked (fromStation 4) 4294967295 32 15)).isSome = true ∧
      (spell (.loadConsole (fromStation 1) 72 true (some 24) none)).isSome = true ∧ spell .mainsLoss = none ∧
      isMessage .mainsLoss = false ∧ spell (.messageDropped []) = none := by decide +kernel

theorem test_meets_ReadsChangeNothing :
    admitted controlMonitor (fromStation 2) hireHall ∧ admitted controlDesk (fromStation 3) hireHall ∧ isBooth 24 = true ∧
      isSlot 72 = true ∧ isSerial 100 = true ∧ (hireHall.receiverBySerial 100).isSome = true ∧
      (Table.look hireHall.hire.receivers 7).isSome = true ∧ isAccount 7 = true ∧ (hireHall.accountByNumber 7).isSome = true ∧
      (Table.look hireHall.acct.accounts 1).isSome = true ∧ isStation 3 = true ∧
      (Table.look hireHall.hire.batches 3).isSome = true ∧ (Table.look hireHall.serv.stations 3).isSome = true ∧
      admitted controlMonitor (fromStation 2) floorHall ∧ floorHall.acct.duty.map (·.status) = [.opened] ∧
      hireHall.acct.duty = [] := by
  decide +kernel

/-- Booth 17 of the relay example, three booths from the floor, and booth 6, which has the floor as its source. -/
theorem test_meets_ReadsChangeNothing_depth :
    let feeds : RelaySource → RelaySource
      | .floor => .floor
      | .booth k => (relayHall.boothRec k).relay
    isBooth 17 = true ∧ (3 : Nat) ≤ 24 ∧ Nat.repeat feeds 3 (relayHall.boothRec 17).relay = .floor ∧
      (∀ k, k < 3 → Nat.repeat feeds k (relayHall.boothRec 17).relay ≠ .floor) ∧
      Nat.repeat feeds 0 (relayHall.boothRec 6).relay = .floor := by decide +kernel

/-- Keys just out of range and keys without an entry; a MONITOR's entry and a RACK's. -/
theorem test_meets_ReadsChangeNothing_refused :
    [isBooth 0, isBooth 25, isSlot 73, isStation 255, isSerial 16777216, isAccount 0, isAccount 65536].all (fun b => !b) = true ∧
      Table.look hireHall.serv.stations 254 = none ∧ Table.look hireHall.hire.batches 4 = none ∧
      hireHall.receiverBySerial 16777215 = none ∧ Table.look hireHall.hire.receivers 2048 = none ∧
      hireHall.accountByNumber 65535 = none ∧ Table.look hireHall.acct.accounts 256 = none ∧
      Table.look hireHall.serv.stations 2 = some ⟨.monitor, []⟩ ∧ Table.look hireHall.serv.stations 4 = some ⟨.rack, []⟩ := by
  decide +kernel

theorem test_meets_TablesAreLoadedInSetupOnly :
    admitted controlOnly (fromStation 1) hall ∧ hall.mode = .setup ∧ admitted controlOnly (fromStation 1) floorHall ∧
      floorHall.mode ≠ .setup ∧ isSlot 72 = true ∧ isBooth 24 = true ∧ isChannel 48 = true ∧ isStation 254 = true ∧
      isLabel ⟨'-', '9', 'Z'⟩ = true ∧ (entryMask (.control (List.replicate 17 none))).length ≤ 17 ∧
      (upTo 72).all (fun k => !(hall.console k).configured) = true := by decide +kernel

/-- A seat that another console holds, and fields and keys just out of their ranges. -/
theorem test_meets_TablesAreLoadedInSetupOnly_refused :
    let s := inMode .setup floorHall
    admitted controlOnly (fromStation 1) s ∧ s.mode = .setup ∧
      ((s.console 2).configured = true ∧ (s.console 2).booth = some 1 ∧ (s.console 2).seat = some 2 ∧ (2 : Nat) ≠ 1) ∧
      [isBooth 0, isBooth 25, isSlot 0, isSlot 73, isChannel 49, isLabel ⟨'a', 'A', 'A'⟩].all (fun b => !b) = true ∧
      Option.all isChannel (some 0) = false ∧ Option.all isChannel none = true := by decide +kernel

theorem test_meets_StationTable :
    admitted controlOnly (fromStation 1) hall ∧ isStation 254 = true ∧ hall.serv.stations.length < 32 ∧
      (Table.look hall.serv.stations 2).isSome = true ∧ ((1, ⟨.control, []⟩) ∈ hall.serv.stations ∧ (1 : Nat) ≠ 2) ∧
      (∀ e ∈ hall.serv.stations, ¬(e.1 ≠ 1 ∧ e.2.role = .control)) ∧ [NoticeFlag.call, .liveLost].Nodup ∧
      Table.look hall.serv.stations 2 = some ⟨.monitor, []⟩ := by decide +kernel

/-- A full table, a station that is not listed, masks with a name that is none, a flag twice and 18 names. -/
theorem test_meets_StationTable_refused :
    let full : State := { hall with serv := { stations := (List.range 32).map fun n => (n + 1, ⟨.control, []⟩) } }
    admitted controlOnly (fromStation 1) full ∧ 32 ≤ full.serv.stations.length ∧ Table.look full.serv.stations 33 = none ∧
      isStation 33 = true ∧ isStation 0 = false ∧ isStation 255 = false ∧
      (none ∈ [some NoticeFlag.call, none] ∧ [some NoticeFlag.call, none].length ≤ 17) ∧ ¬[NoticeFlag.call, .call].Nodup ∧
      17 < (List.replicate 18 (some NoticeFlag.call)).length ∧ Table.look hall.serv.stations 3 = some ⟨.desk, []⟩ := by
  decide +kernel

theorem test_meets_BoothRequests :
    admitted controlOnly (fromStation 1) floorHall ∧ admitted controlMonitor (fromStation 2) floorHall ∧ isBooth 24 = true ∧
      FloorState.console (floorHall.boothRec 1).floor = some 1 ∧ (floorHall.boothRec 24).floor = .silent ∧
      isSource .floor = true ∧ isSource (.booth 24) = true ∧ relayRefusal relayHall 14 .floor = none ∧
      relayRefusal relayHall 11 (.booth 11) = some .relayCycle ∧ relayRefusal relayHall 20 (.booth 17) = some .relayDepth ∧
      depthsFit relayHall.relay = true ∧ isBooth 6 = true ∧ relayRefusal relayHall 6 (.booth 17) = some .relayCycle ∧
      relayRefusal relayHall 6 (.booth 24) = some .relayDepth ∧ relayRefusal relayHall 24 (.booth 14) = none ∧
      isBooth 25 = false ∧ isSource (.booth 25) = false ∧
      (relayHall.boothRec 6).relay ≠ .booth 11 ∧ (relayHall.boothRec 11).relay = .booth 6 := by
  decide +kernel

theorem test_meets_TheReceiverTable :
    admitted controlOnly (fromStation 1) hireHall ∧ (hireHall.receiverBySerial 106).isSome = true ∧
      hireHall.receiverBySerial 16777215 = none ∧ hireHall.hire.receivers.length < 2048 ∧
      Table.rising hireHall.hire.receivers = true ∧ (∀ e ∈ hireHall.hire.receivers, 1 ≤ e.1) ∧
      [100, 101, 102, 103, 104, 105, 106].map (fun n => (hireHall.receiverBySerial n).map (·.2.state)) =
        [some .available, some .issued, some .overdue, some .lost, some .held, some .withdrawn, some .returnPending] := by
  decide +kernel

/-- A receiver table with n receivers. -/
def enrolled (n : Nat) (s : State) : State :=
  s.modHire fun h => { h with receivers := (List.range n).map fun k => (k + 1, { serial := k }) }

theorem enrolled_length (n : Nat) : (enrolled n hall).hire.receivers.length = n :=
  (List.length_map ..).trans List.length_range

theorem test_meets_TheReceiverTable_full : 2048 ≤ (enrolled 2048 hall).hire.receivers.length := by rw [enrolled_length]

theorem test_meets_ReceiverWritesAdjustListeners :
    ∃ r, Table.look hireHall.hire.receivers 2 = some r ∧ r.listening = some 4 ∧
      ({ r with channel := some 5 } : Receiver).listening = some 5 ∧ ({ r with channel := none } : Receiver).listening = none ∧
      ∃ q, Table.look hireHall.hire.receivers 1 = some q ∧ q.listening = none :=
  ⟨_, rfl, by decide, by decide, by decide, _, rfl, by decide⟩

theorem test_meets_IssueOpensALoan :
    admitted controlDesk (fromStation 3) hireHall ∧ hireHall.mode ≠ .setup ∧
      (∃ r, hireHall.receiverBySerial 100 = some (1, r) ∧ r.state = .available ∧ r.battery = some 4 ∧
        hireHall.params.issueThreshold ≤ 4) ∧
      ∃ a, hireHall.accountByNumber 7 = some (1, a) ∧ a.state = .opened ∧ a.openLoans ≠ a.loanLimit :=
  ⟨by decide +kernel, by decide, ⟨_, rfl, rfl, rfl, by decide⟩, _, rfl, rfl, by decide⟩

/-- The hire hall with another account 7. -/
def withAccount (a : Account) : State := hireHall.writeAccount 1 a

/-- Receivers that ISSUE, RETURN and DECLARE LOST are refused for; a low battery; account 7 SUSPENDED and at its limit. -/
theorem test_meets_IssueOpensALoan_refused :
    let account (state : AccountState) : Account :=
      { number := 7, cls := 3, state := state, loanLimit := 2, access := [], openLoans := 2 }
    let low : State := { hireHall with supply := { hireHall.supply with params := { issueThreshold := 5 } } }
    (admitted controlDesk (fromStation 3) (inMode .setup hireHall) ∧ (inMode .setup hireHall).mode = .setup) ∧
      hireHall.receiverBySerial 16777215 = none ∧
      [100, 101, 102, 103, 104, 105, 106].map (fun n => (hireHall.receiverBySerial n).map (·.2.state)) =
        [some .available, some .issued, some .overdue, some .lost, some .held, some .withdrawn, some .returnPending] ∧
      ((low.receiverBySerial 100).map (·.2.battery) = some (some 4) ∧ 4 < low.params.issueThreshold) ∧
      hireHall.accountByNumber 65535 = none ∧
      ((withAccount (account .suspended)).accountByNumber 7).map (·.2.state) = some .suspended ∧
      (∃ a, (withAccount (account .opened)).accountByNumber 7 = some (1, a) ∧ a.state = .opened ∧ a.openLoans = a.loanLimit) :=
  ⟨by decide +kernel, by decide +kernel, by decide +kernel, by decide +kernel, by decide +kernel, by decide +kernel, _, rfl, rfl, rfl⟩

def withStatements (n : Nat) (s : State) : State :=
  s.modAcct fun u => { u with statements := List.replicate n (statementOf .returned (loanOf 9) 99 clockEpoch 0) }

theorem statementsOf (n : Nat) : (withStatements n hireHall).acct.statements.length = n := List.length_replicate ..

theorem test_meets_LoansAreClosed :
    admitted controlDesk (fromStation 3) hireHall ∧
      (∃ r, hireHall.receiverBySerial 101 = some (2, r) ∧ r.onLoan = true ∧ r.loan = some (loanOf 1)) ∧
      (hireHall.accountByNumber (loanOf 1).account).isSome = true ∧ (withStatements 511 hireHall).acct.statements.length < 512 ∧
      512 ≤ (withStatements 512 hireHall).acct.statements.length :=
  ⟨by decide +kernel, ⟨_, rfl, by decide, rfl⟩, by decide +kernel, by rw [statementsOf]; decide, by rw [statementsOf]⟩

theorem test_meets_RackMessages :
    fromRack (fromStation 4) hireHall ∧ (1 : Nat) ≤ 32 ∧
      (∃ r, hireHall.receiverBySerial 100 = some (1, r) ∧ r.onLoan = false ∧ r.state = .available) ∧
      (∃ r, hireHall.receiverBySerial 101 = some (2, r) ∧ r.onLoan = true ∧ r.loan = some (loanOf 1) ∧ r.state ≠ .available) ∧
      ∃ r, hireHall.receiverBySerial 103 = some (4, r) ∧ r.state = .lost ∧ r.loan = some (loanOf 3) :=
  ⟨by decide +kernel, by decide, ⟨_, rfl, by decide, rfl⟩, ⟨_, rfl, by decide, rfl, by decide⟩, _, rfl, rfl, rfl⟩

/-- A malformed message at each end of its fields, an unknown serial, a rack slot that receiver 100 holds, and a statement queue with
room and without. -/
theorem test_meets_RackMessages_others :
    let r : Receiver := { serial := 100, rack := some (4, 32) }
    let s := hireHall.modHire fun h => { h with receivers := Table.put 1 r h.receivers }
    ((0 : Nat) < 1 ∧ 32 < (33 : Nat) ∧ 15 < (16 : Nat) ∧ 16777215 < (16777216 : Nat)) ∧
      hireHall.receiverBySerial 16777215 = none ∧ (∀ e ∈ hireHall.hire.receivers, e.1 ≠ 2 → e.2.rack ≠ some (4, 32)) ∧
      ((1, r) ∈ s.hire.receivers ∧ (∀ e ∈ s.hire.receivers, e.1 ≠ 2 → e.2.rack = some (4, 32) → e = (1, r))) ∧
      (hireHall.accountByNumber (loanOf 1).account).isSome = true ∧
      (withStatements 511 hireHall).acct.statements.length < 512 ∧ 512 ≤ (withStatements 512 hireHall).acct.statements.length :=
  ⟨by decide, by decide +kernel, by decide +kernel, by decide +kernel, by decide +kernel, by rw [statementsOf]; decide,
    by rw [statementsOf]⟩

/-- Station 1 without a batch where four are open, a FAILED batch, a batch of 32 items, and a batch of an unknown account. -/
theorem test_meets_BatchItems_refused :
    (Table.look hireHall.hire.batches 1 = none ∧
      4 ≤ (hireHall.modHire fun h => { h with batches := [3, 5, 6, 254].map fun n => (n, { account := 7 }) }).hire.batches.length) ∧
    (∃ b, Table.look (batchHall { account := 7, state := .failed, failure := some (.held, 2) }).hire.batches 3 = some b ∧
      b.state = .failed ∧ b.failure = some (.held, 2)) ∧
    (∃ b, Table.look hireHall.hire.batches 3 = some b ∧ b.state = .opened ∧ b.account ≠ 8) ∧
    (∃ b, Table.look (batchHall { account := 7, items := List.range 32 }).hire.batches 3 = some b ∧ 100 ∉ b.items ∧
      32 ≤ b.items.length) ∧
    ∃ b, Table.look (batchHall { account := 8 }).hire.batches 3 = some b ∧ b.state = .opened ∧ b.account = 8 ∧
      hireHall.accountByNumber 8 = none :=
  ⟨by decide +kernel, ⟨_, rfl, rfl, rfl⟩, ⟨_, rfl, rfl, by decide⟩, ⟨_, rfl, by decide, by decide⟩, _, rfl, rfl, rfl,
    by decide +kernel⟩

/-- A receiver in each state that an item cannot hold, a battery below the threshold, a SUSPENDED account, and one at its limit. -/
theorem test_meets_BatchItems_receivers :
    let s := batchHall { account := 7 }
    let account (state : AccountState) (limit : Nat) : Account :=
      { number := 7, cls := 3, state := state, loanLimit := limit, access := [], openLoans := 2 }
    [101, 102, 103, 104, 105, 106].map (fun n => (s.receiverBySerial n).map (·.2.state)) =
        [some .issued, some .overdue, some .lost, some .held, some .withdrawn, some .returnPending] ∧
      (s.receiverBySerial 100).map (·.2.battery) = some (some 4) ∧
      4 < ({ s with supply := { s.supply with params := { issueThreshold := 5 } } } : State).params.issueThreshold ∧
      ((hireHall.writeAccount 1 (account .suspended 9)).accountByNumber 7).map (·.2.state) = some .suspended ∧
      ((hireHall.writeAccount 1 (account .opened 2)).accountByNumber 7).map (·.2.state) = some .opened ∧ (2 : Nat) < 2 + 1 := by
  decide +kernel

/-- An item in SETUP, a batch that an item opens, and an ABORT of a serial that is not in the list. -/
theorem test_meets_BatchItems_checks :
    (inMode .setup hireHall).mode = .setup ∧
      admitted controlDesk (fromStation 3) (inMode .setup hireHall) ∧
      (Table.look hireHall.hire.batches 1 = none ∧ hireHall.hire.batches.length < 4) ∧
      ∃ b, Table.look hireHall.hire.batches 3 = some b ∧ b.state = .opened ∧ b.account = 7 ∧ 16777215 ∉ b.items :=
  ⟨by decide +kernel, by decide +kernel, by decide, _, rfl, rfl, rfl, by decide⟩

theorem test_meets_BatchItems :
    admitted controlDesk (fromStation 3) hireHall ∧ admitted controlDesk (fromStation 1) hireHall ∧ hireHall.mode ≠ .setup ∧
      Table.look hireHall.hire.batches 1 = none ∧ hireHall.hire.batches.length < 4 ∧
      (∃ b, Table.look hireHall.hire.batches 3 = some b ∧ b.state = .opened ∧ b.account = 7 ∧ 104 ∈ b.items ∧ 100 ∉ b.items ∧
        b.items.length < 32 ∧ 2 + (b.items.length + 1) ≤ 9) ∧
      (∃ r, hireHall.receiverBySerial 104 = some (5, r)) ∧ hireHall.receiverBySerial 999 = none ∧
      (∃ r, hireHall.receiverBySerial 100 = some (1, r) ∧ r.state = .available ∧ r.battery = some 4) ∧
      ∃ a, hireHall.accountByNumber 7 = some (1, a) ∧ a.state = .opened ∧ a.openLoans = 2 ∧ a.loanLimit = 9 :=
  ⟨by decide +kernel, by decide +kernel, by decide, rfl, by decide, ⟨_, rfl, rfl, rfl, by decide, by decide, by decide, by decide⟩,
    ⟨_, rfl⟩, by decide +kernel, ⟨_, rfl, rfl, rfl⟩, _, rfl, rfl, rfl, rfl⟩

theorem test_meets_PostingAppliesTheAmount :
    512 ≤ (withStatements 511 hireHall).acct.statements.length + 1 ∧
      hireHall.params.highWater ≤ (withStatements 447 hireHall).acct.statements.length + 1 ∧
      hireHall.accountByNumber 8 = none ∧ (hireHall.accountByNumber 7).isSome = true ∧
      StatementKind.lost ≠ .recovered ∧ 16777215 < 0 + (16777216 : Nat) :=
  ⟨by rw [statementsOf], by rw [statementsOf]; decide, by decide +kernel, by decide +kernel, by decide, by decide⟩

/-- Account 7 without loans or debts. -/
def closable : State :=
  { hireHall with
    hire := {}
    acct := { hireHall.acct with accounts := [(1, { number := 7, cls := 3, loanLimit := 9, access := [4] })] } }

theorem test_meets_AccountRequests :
    admitted controlOnly (fromStation 1) hireHall ∧ (hireHall.tariff 3).defined = true ∧ hireHall.accountByNumber 65535 = none ∧
      hireHall.acct.accounts.length < 256 ∧ isChannel 4 = true ∧ isChannel 5 = true ∧
      (∃ a, hireHall.accountByNumber 7 = some (1, a) ∧ 1 < a.openLoans ∧ a.openLoans ≤ 2 ∧ (∀ c ∈ a.access, c ∈ [4, 5]) ∧
        4 ∈ a.access ∧ 4 ∉ [5] ∧ a.state = .opened ∧ a.balance ≠ 1) ∧
      (∃ a, closable.accountByNumber 7 = some (1, a) ∧ a.openLoans = 0 ∧ a.balance = 0) ∧ pendingFor closable 7 = 0 ∧
      batchFor closable 7 = false ∧
      ∃ a, (hireHall.writeAccount 1 { number := 7, cls := 3, state := .suspended, loanLimit := 9, access := [] }).accountByNumber 7 =
        some (1, a) ∧ a.state = .suspended :=
  ⟨by decide +kernel, by decide +kernel, by decide +kernel, by decide, by decide, by decide,
    ⟨_, rfl, by decide, by decide, by decide, by decide, by decide, rfl, by decide⟩, ⟨_, rfl, rfl, rfl⟩, by decide +kernel,
    by decide +kernel, _, rfl, rfl⟩

/-- Account 7 owing a pending return, gathering a batch, and in debt, each without open loans; a class that is not defined, a channel named
twice, a full table, and an access list too long. -/
theorem test_meets_AccountRequests_refused :
    let idle (balance : Nat) : Account := { number := 7, cls := 3, loanLimit := 9, access := [4], balance := balance }
    let full := hireHall.modAcct fun u =>
      { u with accounts := (List.range 256).map fun n => (n + 1, { number := n + 1, cls := 3, loanLimit := 9, access := [] }) }
    (∃ e ∈ (withAccount (idle 0)).hire.receivers, e.2.state = .returnPending ∧ ∃ l, e.2.loan = some l ∧ l.account = 7) ∧
      ((withAccount (idle 0)).accountByNumber 7).map (·.2.openLoans) = some 0 ∧
      (∃ e ∈ (withAccount (idle 0)).hire.batches, e.2.account = 7) ∧ (∀ e ∈ closable.hire.receivers, e.2.state ≠ .returnPending) ∧
      ((closable.writeAccount 1 (idle 1)).accountByNumber 7).map (·.2.balance) = some 1 ∧
      (hireHall.tariff 2).defined = false ∧ ¬[4, 4].Nodup ∧ isChannel 0 = false ∧
      (256 ≤ full.acct.accounts.length ∧ full.accountByNumber 65535 = none) ∧ 48 < (List.replicate 49 1).length ∧
      isAccount 0 = false ∧ isAccount 65536 = false :=
  ⟨⟨_, List.mem_of_getElem? (i := 6) rfl, rfl, _, rfl, rfl⟩, by decide +kernel, by decide +kernel, by decide +kernel,
    by decide +kernel, by decide +kernel, by decide, by decide, by decide +kernel, by decide, by decide, by decide⟩

theorem test_meets_RecordsAreReleasedAndCut :
    admitted controlOnly (fromStation 1) hireHall ∧ (withStatements 1 hireHall).acct.statements.length = 1 ∧
      (withStatements 1 hireHall).acct.statements.head?.map (fun st => (st.kind, st.loan)) = some (.returned, 9) ∧
      hall.hire.pendingList = [] ∧
      ((takeKey 2 .micOn (floorHall.modBooth 1 fun x => { x with interlock := .takeover })).acct.duty.takeWhile
        fun e => e.status ≠ .opened).length = 1 ∧
      (upTo 24).all (fun b => !(hall.boothRec b).onAir) = true ∧ FloorState.console (floorHall.boothRec 1).floor = some 1 ∧
      (floorHall.boothRec 1).selected = some 1 ∧ floorHall.acct.duty.length < 256 ∧
      ((Table.look hireHall.hire.receivers 7).bind (·.pend)).isSome = true ∧ hireHall.hire.pendingList = 7 :: [] := by
  decide +kernel

/-- Booth 1 on the air with 256 entries, a SILENT booth, a complete run shorter than the count, and another head than expected. -/
theorem test_meets_RecordsAreReleasedAndCut_full :
    256 ≤ fullDuty.acct.duty.length ∧ FloorState.console (fullDuty.boothRec 1).floor = some 1 ∧
      (fullDuty.boothRec 1).selected = some 1 ∧ (fullDuty.boothRec 2).floor = .silent ∧
      (fullDuty.acct.duty.takeWhile fun e => e.status ≠ .opened).length < 1 ∧
      (∀ st ∈ (withStatements 1 hireHall).acct.statements.head?, some StatementKind.lost ≠ some st.kind ∨ (9 : Nat) ≠ st.loan) ∧
      (withStatements 1 hireHall).acct.statements.length < 2 := by decide +kernel

/-- A pending return with the statement queue full, and with room. -/
theorem test_meets_RecordsAreReleasedAndCut_pendings :
    (512 ≤ (withStatements 512 hireHall).acct.statements.length ∧ (withStatements 512 hireHall).hire.pendingList = [7]) ∧
      (withStatements 511 hireHall).acct.statements.length < 512 ∧ isBooth 0 = false ∧ isBooth 25 = false :=
  ⟨⟨by rw [statementsOf], rfl⟩, by rw [statementsOf]; decide, by decide, by decide⟩

/-- CUT DUTY with 256 entries: booth 1 is marked, counted and named in the reply, and DUTY_FULL is set (R158). -/
theorem test_cut_duty_full :
    let s := after (.cutDuty (fromStation 1)) fullDuty
    s.acct.duty.length = 256 ∧ (s.boothRec 1).unlogged = true ∧ s.flagged .dutyFull = true ∧
      lastBody s = [.name "ACCEPTED", .num 256, .num 0, .count 1, .num 1] := by decide +kernel

theorem test_meets_TheClockKeepsTheCalendar :
    clockFits ⟨2099, 12, 31, 23, 59, 59⟩ = true ∧ clockFits ⟨2000, 2, 29, 0, 0, 0⟩ = true ∧ clockFits ⟨2001, 2, 29, 0, 0, 0⟩ = false ∧
      clockFits ⟨2100, 1, 1, 0, 0, 0⟩ = false ∧ nextSecond ⟨2099, 12, 31, 23, 59, 59⟩ = none ∧
      admitted controlOnly (fromStation 1) hall ∧
      nextSecond (atClock ⟨2099, 12, 31, 23, 59, 59⟩ hall).now = none ∧
      nextSecond (atClock noon hall).now = some { noon with second := 1 } ∧
      [daysIn 2031 1, daysIn 2031 4, daysIn 2028 2, daysIn 2027 2, daysIn 2098 12] = [31, 30, 29, 28, 31] ∧
      ((58 : Nat) < 59 ∧ (22 : Nat) < 23 ∧ 30 < daysIn 2098 12 ∧ daysIn 2098 12 ≤ 31 ∧ (11 : Nat) < 12 ∧ (2098 : Nat) < 2099) := by
  decide +kernel

/-- A hall that passes the commissioning check for SESSION, and one whose clock is INVALID. -/
theorem test_meets_SetMode :
    admitted controlOnly (fromStation 1) hireHall ∧ hireHall.mode = .session ∧
      commissioning (atClock noon hall) .session = none ∧ commissioning hall .session = some (.clockInvalid, 0) ∧
      hall.mode = .setup ∧ floorHall.mode ≠ .setup ∧ (Table.look hireHall.hire.batches 3).isSome = true := by decide +kernel

/-- Entry to SETUP with a batch open: its receiver is AVAILABLE, the batch gone and counted as abandoned (R122). -/
theorem test_entry_to_setup_abandons :
    let s := after (.setMode (fromStation 1) (some .setup)) hireHall
    s.hire.batches = [] ∧ (Table.look s.hire.receivers 5).map (·.state) = some .available ∧
      s.hire.batchCounters.abandoned = 1 ∧ lastBody s = [.name "ACCEPTED", .name "SESSION", .name "SETUP", .num 0, .num 1] := by
  decide +kernel

/-- A check that passes, and one that each item fails with its index. -/
theorem test_meets_CommissioningCheck :
    let booths (l : Table Booth) : State := { hall with booth := { booths := l } }
    Mode.session ≠ .setup ∧ Mode.rehearsal ≠ .setup ∧ commissioning (atClock noon hireHall) .session = none ∧
      commissioning floorHall .rehearsal = some (.consoleBooth, 5) ∧
      commissioning { hall with booth := { consoles := [(1, { configured := true, booth := some 24 })] } } .rehearsal =
        some (.boothChannel, 24) ∧
      commissioning (booths [(1, { aChannel := some 3 }), (9, { aChannel := some 3 })]) .rehearsal = some (.sharedA, 9) ∧
      commissioning (booths [(7, { aChannel := some 3, bChannel := some 3 })]) .rehearsal = some (.bEqualsA, 7) ∧
      commissioning (setSource 20 (.booth 17) relayHall) .session = some (.relayGraph, 20) ∧
      commissioning hall .session = some (.clockInvalid, 0) ∧
      commissioning (atClock noon (hireHall.modAcct fun u => { u with tariffs := [] })) .session = some (.tariffUndefined, 7) := by
  decide +kernel

theorem test_meets_NoticesAreSetOnceAndCleared :
    admitted controlMonitor (fromStation 2) hall ∧ admitted controlOnly (fromStation 1) hall ∧
      [NoticeFlag.call, .backupLow] ≠ [] ∧ [NoticeFlag.call, .backupLow].Nodup ∧ State.reset.flagged .retentionLost = true ∧
      (none ∈ [some NoticeFlag.call, none] ∧ ¬[NoticeFlag.call, .call].Nodup) ∧
      hall.flagged .call = false ∧ (withOutbound 30 hall).serv.outbound.length + (noticeStations .call hall).length ≤ 32 := by
  decide +kernel

/-- Numbers outside the records that a clear names, and an outbound queue with room for one of two notices, and for none. -/
theorem test_meets_NoticesAreSetOnceAndCleared_room :
    (isChannel 0 = false ∧ isChannel 49 = false ∧ (48 : Nat) < 49 ∧ isSlot 0 = false ∧ isSlot 73 = false) ∧
      ((withOutbound 31 hall).flagged .call = false ∧ (noticeStations .call (withOutbound 31 hall)).length = 2 ∧
        32 - (withOutbound 31 hall).serv.outbound.length = 1) ∧
      32 - (withOutbound 32 hall).serv.outbound.length = 0 ∧ Table.rising hall.serv.stations = true := by decide +kernel

/-- With room for one message the notice to station 1 is queued and that to station 2 dropped, and the flag is set (R193, R195). -/
theorem test_notices_without_room :
    let s := setFlag .call (withOutbound 31 hall)
    s.flagged .call = true ∧ s.serv.outbound.length = 32 ∧ (s.serv.outbound.getLast?.map (·.dest)) = some 1 ∧
      s.serv.counters.noticesQueued = 1 ∧ s.serv.counters.noticesDropped = 1 := by decide +kernel

theorem test_meets_MainsLossAndBackup :
    (lost hall).supply.mainsLost = true ∧ Instr.outboundSend ≠ .backupSecond ∧ hall.supply.mainsLost = false ∧
      hall.supply.backupLow = false ∧ ({ hall with supply := { backupLow := true } } : State).supply.backupLow = true ∧
      (lost hall).now.second < 59 := by decide +kernel

theorem test_meets_MainsReturn :
    (lost floorHall).supply.mainsLost = true ∧ (⟨false, true, true, 499⟩ : MainsReturn).cellHeld = false ∧
      (⟨true, false, false, 3⟩ : MainsReturn).domainAgrees = false ∧
      ((⟨true, true, false, 0⟩ : MainsReturn).cellHeld = true ∧ (⟨true, true, false, 0⟩ : MainsReturn).domainAgrees = true) := by
  decide

theorem test_meets_Restart : admitted controlOnly (fromStation 1) floorHall ∧
    ({ hall with time := { returnBy := { matched := true } } } : State).time.returnBy.matched = true := by decide +kernel

/-! ### Invariants: a state that has each, and a step from it -/

theorem chan_hall (c : Nat) : (hall.chan c).listeners = 0 ∧ (hall.chan c).owner = none := by
  unfold State.chan Table.get hall State.reset
  simp only [Table.look]
  split <;> exact ⟨rfl, rfl⟩

theorem test_meets_StepKeepsQueuesFit :
    QueuesFit (hall.withPending [.outboundSend]) ∧ ∃ t, step (hall.withPending [.outboundSend]) = .next t :=
  ⟨by unfold QueuesFit; decide +kernel, _, rfl⟩

theorem test_meets_StepKeepsRelayFits :
    RelayFits (relayHall.withPending [.setRelay (fromStation 1) 14 .floor]) ∧
      ∃ t, step (relayHall.withPending [.setRelay (fromStation 1) 14 .floor]) = .next t :=
  ⟨by unfold RelayFits; decide +kernel, _, rfl⟩

theorem test_meets_StepKeepsClockAndFloorChannel :
    (ClockFits (hall.withPending [.secondTick []]) ∧ FloorChannelFixed (hall.withPending [.secondTick []])) ∧
      ∃ t, step (hall.withPending [.secondTick []]) = .next t :=
  ⟨⟨by unfold ClockFits; decide +kernel, by decide +kernel, fun _ => ⟨rfl, rfl⟩⟩, _, rfl⟩

theorem test_meets_StepKeepsListenersCounted :
    ListenersCounted (hall.withPending [.enrol (fromStation 1) 5]) ∧
      ∃ t, step (hall.withPending [.enrol (fromStation 1) 5]) = .next t :=
  ⟨⟨rfl, fun c => (chan_hall c).1⟩, _, rfl⟩

theorem test_meets_StepKeepsOwnershipAgrees :
    OwnershipAgrees (hall.withPending [.loopBroken]) ∧ ∃ t, step (hall.withPending [.loopBroken]) = .next t := by
  have owner : ∀ c, ((hall.withPending [.loopBroken]).chan c).owner = none := fun c => (chan_hall c).2
  have quiet : ∀ b, ((hall.withPending [.loopBroken]).boothRec b).onAir = false := fun _ => rfl
  have nowhere : ∀ n, ((hall.withPending [.loopBroken]).console n).booth = none := fun _ => rfl
  refine ⟨⟨fun b h => ?_, fun b c h => ?_, fun c h => ?_, fun b h => ?_, fun n b h => ?_, fun _ b => quiet b⟩, _, rfl⟩
  · rw [quiet b] at h
    cases h
  · rw [owner c] at h
    cases h
  · rw [owner c] at h
    cases h
  · rw [quiet b] at h
    cases h
  · rw [nowhere n] at h
    cases h

theorem test_meets_FlagsStaySet :
    State.reset.flagged .retentionLost = true ∧ ∃ t, exec .outboundSend State.reset = .next t := ⟨by decide, _, rfl⟩

end Sys2Proof.Tests
end

