-- ==== Sys2Proof/Proofs/Moves.lean ====
section
/-! SUPPORT. What a step can do, said once: the moves of the part, each one an update of the state that the invariants of the part can tell
apart, and each invariant's proof is then one case per move. -/

namespace Sys2Proof.Machine

/-! ### What the invariants read -/

/-- What the invariants read of a booth record. -/
structure BoothCore where
  aChannel : Option Nat
  bChannel : Option Nat
  output : Output
  onAir : Bool
  relay : RelaySource

def Booth.core (x : Booth) : BoothCore := ⟨x.aChannel, x.bChannel, x.output, x.onAir, x.relay⟩

/-- What the invariants read of the state. -/
structure Seen where
  outstanding : List Nat
  floorQueue : List SpeechBlock
  notes : List AirNote
  statements : List Statement
  duty : List DutyEntry
  outbound : List Message
  channels : Table Channel
  places : Nat → Option Nat
  booths : Nat → BoothCore
  receivers : Table Receiver
  clock : Clock
  mode : Mode

def State.seen (s : State) : Seen where
  outstanding := s.loop.outstanding
  floorQueue := s.switch.floorQueue
  notes := s.air.notes
  statements := s.acct.statements
  duty := s.acct.duty
  outbound := s.serv.outbound
  channels := s.switch.channels
  places n := (s.console n).booth
  booths b := (s.boothRec b).core
  receivers := s.hire.receivers
  clock := s.time.clock
  mode := s.supply.mode

/-- The six lists that stand outside the channel records are within their capacities. -/
def Seen.listsFit (v : Seen) : Prop :=
  v.outstanding.length ≤ Config.outstanding ∧ v.floorQueue.length ≤ Config.blockQueue ∧
    v.notes.length ≤ Config.notes ∧ v.statements.length ≤ Config.statements ∧
    v.duty.length ≤ Config.dutyEntries ∧ v.outbound.length ≤ Config.outbound

/-- The same state of the part but for the six lists. -/
def Seen.withLists (v w : Seen) : Seen :=
  { v with
    outstanding := w.outstanding, floorQueue := w.floorQueue, notes := w.notes, statements := w.statements
    duty := w.duty, outbound := w.outbound }

/-- The fields of channel 0 that R1 fixes. -/
def Channel.isFloor (x : Channel) : Prop :=
  x.enabled = true ∧ x.label = ⟨'F', 'L', 'R'⟩ ∧ x.restricted = false ∧ x.owner = none ∧ x.queue = [] ∧ x.stamp = none ∧
    x.fallbackMinutes = 0 ∧ x.underruns = 0 ∧ x.dropped = 0

/-- A change of a channel record that leaves ownership and listeners alone, does not overfill the queue, and of channel 0 changes no fixed
field unless a booth names channel 0. -/
structure KeepsChannel (s : State) (c : Nat) (f : Channel → Channel) : Prop where
  owner : (f (s.chan c)).owner = (s.chan c).owner
  enabled : (f (s.chan c)).enabled = (s.chan c).enabled
  listeners : (f (s.chan c)).listeners = (s.chan c).listeners
  queue : (s.chan c).queue.length ≤ Config.blockQueue → (f (s.chan c)).queue.length ≤ Config.blockQueue
  floor : c = 0 → (s.chan c).isFloor → (f (s.chan c)).isFloor ∨ ∃ b, (s.boothRec b).selected = some 0

/-! ### Moves -/

/-- The claim of a booth is granted: the channel is its own and it is LIVE (R29). -/
def claimAndLive (slot b c : Nat) (s : State) : State :=
  (takeOwnership c b s).modBooth b fun x => { x with floor := .live slot, turn := loadTurn x.turnLimit }

/-- A booth on the air changes to a channel claimed for it (R35 step 5). -/
def claimAndSwitch (slot b : Nat) (o : Output) (c : Nat) (s : State) : State :=
  (releaseSelected b (takeOwnership c b s)).modBooth b fun x => { x with output := o, floor := .live slot, latest := none }

/-- What a step can do to what the invariants read. -/
inductive Move : State → State → Prop where
  | trans {s t u : State} : Move s t → Move t u → Move s u
  /-- only the six lists change, and none is overfilled -/
  | lists {s t : State} (same : t.seen = s.seen.withLists t.seen) (fits : s.seen.listsFit → t.seen.listsFit) : Move s t
  /-- a frame departs from a list that has had its oldest entry given up when it was full (R50) -/
  | sent {s t : State} (before : Move s t)
      (room : s.loop.outstanding.length ≤ Config.outstanding → t.loop.outstanding.length < Config.outstanding) :
      Move s (sendFrame t)
  | clock {s t : State} (same : t.seen = { s.seen with clock := t.now }) (fits : clockFits s.now = true → clockFits t.now = true) :
      Move s t
  | channel {s : State} (c : Nat) (f : Channel → Channel) (keeps : KeepsChannel s c f) : Move s (s.modChan c f)
  | placed {s : State} (n : Nat) (f : Console → Console) (fits : ∀ x b, (f x).booth = some b → isBooth b = true) :
      Move s (s.modConsole n f)
  | configured {s : State} (b : Nat) (aChannel bChannel : Option Nat) (i : Interlock) (limit : Nat) (m : CallMode)
      (mode : s.mode = .setup) (a : aChannel.all isChannel = true) (b' : bChannel.all isChannel = true) :
      Move s (s.modBooth b fun x => x.configured aChannel bChannel i limit m)
  | output {s : State} (b : Nat) (o : Output) (silent : (s.boothRec b).onAir = false) :
      Move s (s.modBooth b fun x => { x with output := o })
  | source {s : State} (b : Nat) (source : RelaySource) (passes : relayRefusal s b source = none) : Move s (setSource b source s)
  | live {s : State} (slot b c n : Nat) (place : (s.console n).booth = some b) (mode : s.mode ≠ .setup)
      (silent : (s.boothRec b).onAir = false) (selected : (s.boothRec b).selected = some c)
      (granted : claimRefusal (s.chan c) = none) : Move s (claimAndLive slot b c s)
  | switched {s : State} (slot b : Nat) (o : Output) (c : Nat) (onAir : (s.boothRec b).onAir = true)
      (other : (s.boothRec b).output ≠ o) (names : (s.boothRec b).channelOf o = some c)
      (granted : claimRefusal (s.chan c) = none) : Move s (claimAndSwitch slot b o c s)
  | silenced {s : State} (b : Nat) (reason : EndReason) : Move s (goSilent b reason s)
  | turnedOn {s : State} (c : Nat) (fits : isChannel c = true) (off : (s.chan c).enabled = false) :
      Move s (s.modChan c fun x => { x with enabled := true, owner := none, queue := [] })
  | turnedOff {s : State} (c : Nat) (fits : isChannel c = true) (free : (s.chan c).owner = none) : Move s (turnOff c s)
  | forcedOff {s : State} (c b : Nat) (fits : isChannel c = true) (owned : (s.chan c).owner = some b) :
      Move s (turnOff c (goSilent b .channelOff s))
  | mode {s : State} (m : Mode) (air : m ≠ .setup) : Move s (changeMode m s)
  | setup {s : State} : Move s (silenceAll (changeMode .setup s))
  | receiver {s : State} (slot : Nat) (r : Receiver) : Move s (writeReceiver slot r s)
  | receivers {s : State} (f : Receiver → Receiver) (keeps : ∀ r, (f r).listening = r.listening) :
      Move s (s.modHire fun h => { h with receivers := h.receivers.map fun e => (e.1, f e.2) })
  | deleted {s : State} (slot : Nat) (r : Receiver) (record : (slot, r) ∈ s.hire.receivers) (quiet : r.listening = none) :
      Move s (s.modHire fun h => { h with receivers := Table.drop slot h.receivers })
  | started {s : State} : Move s (startValues s)
  | reset {s : State} : Move s (State.reset.withPending s.pending)

namespace Move

variable {s t u : State}

/-- A change of nothing that the invariants read. -/
theorem of_seen (h : t.seen = s.seen) : Move s t := .lists (by rw [h]; rfl) (by rw [h]; exact id)

@[simp] theorem refl (s : State) : Move s s := of_seen rfl

theorem outstanding (h : t.seen = { s.seen with outstanding := t.loop.outstanding })
    (fits : s.loop.outstanding.length ≤ 8 → t.loop.outstanding.length ≤ 8) : Move s t :=
  .lists (by rw [h]; rfl) (by rw [h]; exact fun ⟨a, rest⟩ => ⟨fits a, rest⟩)

theorem floorQueue (h : t.seen = { s.seen with floorQueue := t.switch.floorQueue })
    (fits : s.switch.floorQueue.length ≤ 4 → t.switch.floorQueue.length ≤ 4) : Move s t :=
  .lists (by rw [h]; rfl) (by rw [h]; exact fun ⟨a, b, rest⟩ => ⟨a, fits b, rest⟩)

theorem notes (h : t.seen = { s.seen with notes := t.air.notes })
    (fits : s.air.notes.length ≤ 64 → t.air.notes.length ≤ 64) : Move s t :=
  .lists (by rw [h]; rfl) (by rw [h]; exact fun ⟨a, b, c, rest⟩ => ⟨a, b, fits c, rest⟩)

theorem statements (h : t.seen = { s.seen with statements := t.acct.statements })
    (fits : s.acct.statements.length ≤ 512 → t.acct.statements.length ≤ 512) : Move s t :=
  .lists (by rw [h]; rfl) (by rw [h]; exact fun ⟨a, b, c, d, rest⟩ => ⟨a, b, c, fits d, rest⟩)

theorem duty (h : t.seen = { s.seen with duty := t.acct.duty })
    (fits : s.acct.duty.length ≤ 256 → t.acct.duty.length ≤ 256) : Move s t :=
  .lists (by rw [h]; rfl) (by rw [h]; exact fun ⟨a, b, c, d, e, rest⟩ => ⟨a, b, c, d, fits e, rest⟩)

theorem outbound (h : t.seen = { s.seen with outbound := t.serv.outbound })
    (fits : s.serv.outbound.length ≤ 32 → t.serv.outbound.length ≤ 32) : Move s t :=
  .lists (by rw [h]; rfl) (by rw [h]; exact fun ⟨a, b, c, d, e, f⟩ => ⟨a, b, c, d, e, fits f⟩)

/-- A fold of moves is a move. -/
theorem foldl {β : Type} {f : State → β → State} {l : List β} (h : ∀ t, ∀ b ∈ l, Move t (f t b)) (s : State) :
    Move s (l.foldl f s) := by
  induction l generalizing s with
  | nil => exact refl s
  | cons b l ih =>
    exact (h s b (List.mem_cons_self ..)).trans (ih (fun t c hc => h t c (List.mem_cons_of_mem _ hc)) _)

/-- The same where the steps carry a value beside the state. -/
theorem foldl_fst {β δ : Type} {f : State × δ → β → State × δ} (h : ∀ t b, Move t.1 (f t b).1) (l : List β)
    (s : State × δ) : Move s.1 (l.foldl f s).1 := by
  induction l generalizing s with
  | nil => exact refl _
  | cons b l ih => exact (h s b).trans (ih _)

theorem iterate {f : State → State} (h : ∀ t, Move t (f t)) (n : Nat) (s : State) : Move s (Nat.repeat f n s) := by
  induction n with
  | zero => exact refl s
  | succ n ih => exact ih.trans (h _)

theorem ite {p : Prop} [Decidable p] (ht : p → Move s t) (hu : ¬p → Move s u) : Move s (if p then t else u) := by
  split
  · exact ht ‹_›
  · exact hu ‹_›

end Move

/-! ### Updates of records that the invariants do not read -/

theorem modConsole_moves {f : Console → Console} (n : Nat) (s : State) (hf : ∀ x, (f x).booth = x.booth := by intro; rfl) :
    Move s (s.modConsole n f) := by
  have places : ∀ k, ((s.modConsole n f).console k).booth = (s.console k).booth := by
    intro k
    rw [console_modConsole]
    split <;> simp [*]
  exact .of_seen (by simp [State.seen, places])

theorem modBooth_moves {f : Booth → Booth} (b : Nat) (s : State)
    (hf : (f (s.boothRec b)).core = (s.boothRec b).core := by rfl) : Move s (s.modBooth b f) := by
  have cores : ∀ k, ((s.modBooth b f).boothRec k).core = (s.boothRec k).core := by
    intro k
    rw [boothRec_modBooth]
    split <;> simp [*]
  exact .of_seen (by simp [State.seen, cores])

/-! ### The service port -/

theorem countServ_moves (f : ServiceCounters → ServiceCounters) (s : State) : Move s (countServ f s) := .of_seen rfl

theorem messageReceived_moves (s : State) : Move s (messageReceived s) := .of_seen rfl

theorem queueReply_moves (d t : Nat) (body : List Field) (s : State) : Move s (queueReply d t body s) :=
  .outbound (by simp [State.seen, State.console, State.boothRec]) (queueReply_length d t body)

theorem setFlag_moves (f : NoticeFlag) (s : State) : Move s (setFlag f s) :=
  .outbound (by simp [State.seen, State.console, State.boothRec]) (setFlag_length f)

theorem refuseRole_moves (h : Header) (s : State) : Move s (refuseRole h s) :=
  (countServ_moves _ s).trans (queueReply_moves ..)

theorem refuseMalformed_moves (h : Header) (s : State) : Move s (refuseMalformed h s) :=
  (countServ_moves _ s).trans (queueReply_moves ..)

theorem takeMessage_moves {take : State → State} (h : ∀ s, Move s (take s)) (s : State) : Move s (takeMessage take s) := by
  obtain e | ⟨n, e⟩ := takeMessage_cases take s <;> rw [e]
  · exact h s
  · exact .of_seen rfl

theorem whenAdmitted_moves {act : State → State} (ha : ∀ s, Move s (act s)) (h : Header) (may : Role → Bool) (fits : Bool)
    (s : State) : Move s (whenAdmitted h may fits act s) := by
  refine (messageReceived_moves s).trans ?_
  unfold whenAdmitted
  split
  · exact countServ_moves _ _
  · exact .ite (fun _ => refuseRole_moves ..) fun _ => .ite (fun _ => refuseMalformed_moves ..) fun _ => ha _

/-- A request moves the part as its owner does. -/
theorem serve_moves {owner : State → State × Answer} (ho : ∀ s, Move s (owner s).1) (h : Header) (may : Role → Bool)
    (fits : Bool) (s : State) : Move s (serve h may fits owner s) :=
  takeMessage_moves (whenAdmitted_moves
    (fun s => ((countServ_moves _ s).trans (ho _)).trans (queueReply_moves ..)) h may fits) s

theorem serveRack_moves {owner : State → State} (ho : ∀ s, Move s (owner s)) (h : Header) (s : State) :
    Move s (serveRack h owner s) := by
  refine takeMessage_moves (fun s => (messageReceived_moves s).trans ?_) s
  split
  · exact countServ_moves _ _
  · exact .ite (fun _ => (countServ_moves _ _).trans (ho _)) fun _ => refuseRole_moves ..

theorem whileMains_moves {event : State → State} {s : State} (h : Move s (event s)) : Move s (whileMains event s) :=
  .ite (fun _ => .refl s) fun _ => h

end Sys2Proof.Machine
end

