-- ==== Sys2Proof/Proofs/MovesSpeech.lean ====
section
/-! SUPPORT. Channel switch, booth control and the loop controller move the part. -/

namespace Sys2Proof.Machine

/-! ### Channel switch -/

theorem length_drop_le_of_le {α : Type} (k : Nat) {l : List α} {n : Nat} (h : l.length ≤ n) : (l.drop k).length ≤ n := by
  rw [List.length_drop]
  omega

/-- A change of a channel record from 1 to 48, or of any fields of it that are not fixed. -/
theorem modChan_moves {f : Channel → Channel} {c : Nat} {s : State} (owner : ∀ x, (f x).owner = x.owner)
    (enabled : ∀ x, (f x).enabled = x.enabled) (listeners : ∀ x, (f x).listeners = x.listeners)
    (queue : ∀ x, (f x).queue.length ≤ x.queue.length) (floor : c = 0 → ∀ x : Channel, x.isFloor → (f x).isFloor) :
    Move s (s.modChan c f) :=
  .channel c f ⟨owner _, enabled _, listeners _, (queue _).trans, fun h hx => .inl (floor h _ hx)⟩

theorem ne_zero_of_isChannel {c : Nat} (h : isChannel c = true) : c ≠ 0 := by
  rintro rfl
  cases h

theorem ne_zero_of_mem_upTo {c n : Nat} (h : c ∈ upTo n) : c ≠ 0 := by
  rw [upTo, List.mem_range'_1] at h
  omega

theorem appendBlock_moves {c b : Nat} {s : State} (named : (s.boothRec b).selected = some c) (block : SpeechBlock) :
    Move s (appendBlock c block s) :=
  .channel c _ ⟨rfl, rfl, rfl, pushBlock_length block, fun h _ => .inr ⟨b, h ▸ named⟩⟩

theorem floorArrival_moves (block : SpeechBlock) (s : State) : Move s (floorArrival block s) :=
  .floorQueue rfl (pushBlock_length block)

theorem takeFloorBlock_moves (s : State) : Move s (takeFloorBlock s) :=
  .floorQueue rfl (length_drop_le_of_le 1)

theorem resolved_queue (x : Channel) : (resolved x).queue.length ≤ x.queue.length := by
  unfold resolved
  split
  · split <;> simp [*]
  · exact le_rfl

theorem resolved_keeps (x : Channel) :
    (resolved x).owner = x.owner ∧ (resolved x).enabled = x.enabled ∧ (resolved x).listeners = x.listeners := by
  unfold resolved
  split
  · split <;> simp
  · simp

theorem showBlocks_moves (blocks : List AirBlock) (s : State) :
    Move s (s.modAir fun a => { a with port := { a.port with blocks := blocks } }) := .of_seen rfl

theorem takeResolution_moves (s : State) : Move s (takeResolution s) := by
  refine (takeFloorBlock_moves s).trans ?_
  unfold takeResolution
  dsimp only
  split
  · exact .refl _
  have channels : Move (takeFloorBlock s) ((upTo Config.channels).foldl (fun u c => u.modChan c resolved) (takeFloorBlock s)) :=
    .foldl (fun _ _ hc => modChan_moves (fun x => (resolved_keeps x).1) (fun x => (resolved_keeps x).2.1)
      (fun x => (resolved_keeps x).2.2) resolved_queue fun h => absurd h (ne_zero_of_mem_upTo hc)) _
  exact channels.trans (showBlocks_moves ..)

/-- The minutes of channel 0 leave its fixed fields alone (R18). -/
theorem channelMinute_floor {x : Channel} (h : x.isFloor) : (channelMinute 0 x).isFloor := h

theorem takeChannelMinutes_moves (s : State) : Move s (takeChannelMinutes s) := by
  unfold takeChannelMinutes
  split
  · exact .refl s
  refine .foldl (l := 0 :: upTo Config.channels) (fun t c _ => ?_) s
  refine modChan_moves (fun _ => rfl) (fun _ => rfl) (fun _ => rfl) (fun _ => le_rfl) ?_
  rintro rfl x hx
  exact channelMinute_floor hx

/-! ### The duty queue -/

theorem countDuty_moves (f : DutyCounters → DutyCounters) (s : State) : Move s (countDuty f s) := .of_seen rfl

theorem appendEntry_moves {s : State} (room : s.acct.duty.length < Config.dutyEntries) (e : DutyEntry) :
    Move s (appendEntry e s) :=
  .duty rfl fun _ => by
    show (s.acct.duty ++ [e]).length ≤ 256
    simpa using room

theorem spellUnlogged_moves (b : Nat) (s : State) : Move s (spellUnlogged b s) :=
  ((modBooth_moves ..).trans (countDuty_moves _ _)).trans (setFlag_moves _ _)

theorem dutyOpen_moves (slot b c : Nat) (s : State) : Move s (dutyOpen slot b c s) :=
  .ite (fun room => (appendEntry_moves room _).trans (countDuty_moves _ _)) fun _ => spellUnlogged_moves b s

theorem completeEntries_moves (p : DutyEntry → Bool) (reason : EndReason) (stop : Clock) (s : State) :
    Move s (completeEntries p reason stop s) :=
  .duty rfl fun h => by simpa [completeEntries] using h

theorem dutyClose_moves (slot : Nat) (reason : EndReason) (s : State) : Move s (dutyClose slot reason s) :=
  completeEntries_moves ..

theorem takeDuties_moves (s : State) : Move s (takeDuties s) := .duty rfl fun h => by simpa [takeDuties] using h

theorem releaseDuty_moves (count : Nat) (s : State) : Move s (releaseDuty count s).1 := by
  unfold releaseDuty
  dsimp only
  split
  · exact .refl s
  · split
    · exact .refl s
    · exact .duty rfl (length_drop_le_of_le count)

theorem continueBooth_moves (acc : State × Nat × List Nat) (b : Nat) : Move acc.1 (continueBooth acc b).1 := by
  unfold continueBooth
  dsimp only
  split
  · split
    next room =>
      dsimp only
      exact (appendEntry_moves room _).trans (countDuty_moves ..)
    next => exact spellUnlogged_moves ..
  · exact .refl _

theorem cutDuty_moves (s : State) : Move s (cutDuty s).1 := by
  unfold cutDuty accept
  dsimp only
  exact .trans (.trans (countDuty_moves ..) (completeEntries_moves ..)) (.foldl_fst continueBooth_moves _ (_, 0, []))

theorem clearDutyTotals_moves (s : State) : Move s (clearDutyTotals s).1 := by
  unfold clearDutyTotals accept
  dsimp only
  exact .trans (.foldl (fun _ _ _ => modBooth_moves ..) s) (.foldl (fun _ _ _ => modConsole_moves ..) _)

/-! ### Booth control -/

theorem showLamp_moves (slot : Nat) (code : LampCode) (s : State) : Move s (showLamp slot code s) :=
  modConsole_moves slot s

theorem clearLamp_moves (slot : Nat) (s : State) : Move s (clearLamp slot s) := modConsole_moves slot s

theorem displayTick_moves (slot : Nat) (s : State) : Move s (displayTick slot s) := by
  unfold displayTick
  split
  · exact .refl s
  · exact clearLamp_moves slot s
  · exact modConsole_moves slot s

theorem takeDisplayEnds_moves (s : State) : Move s (takeDisplayEnds s) := .foldl (fun t n _ => displayTick_moves n t) s

theorem openSpell_moves (slot b : Nat) (s : State) : Move s (openSpell slot b s) := by
  unfold openSpell
  split
  · exact dutyOpen_moves ..
  · exact .refl s

/-- A change of the floor state between LIVE and OFFERED. -/
theorem modFloor_moves {f : Booth → Booth} {b : Nat} {s : State} (onAir : (s.boothRec b).onAir = true)
    (a : (f (s.boothRec b)).aChannel = (s.boothRec b).aChannel) (b' : (f (s.boothRec b)).bChannel = (s.boothRec b).bChannel)
    (output : (f (s.boothRec b)).output = (s.boothRec b).output) (relay : (f (s.boothRec b)).relay = (s.boothRec b).relay)
    (stays : (f (s.boothRec b)).onAir = true) : Move s (s.modBooth b f) :=
  modBooth_moves b s (by simp [Booth.core, a, b', output, relay, stays, onAir])

theorem changeLive_moves {b : Nat} {s : State} (onAir : (s.boothRec b).onAir = true) (slot old : Nat) (reason : EndReason) :
    Move s (changeLive slot old b reason s) :=
  ((modFloor_moves onAir rfl rfl rfl rfl rfl).trans (dutyClose_moves ..)).trans (openSpell_moves ..)

theorem onAir_of_live {x : Booth} {slot : Nat} (h : x.floor = .live slot) : x.onAir = true := by
  simp [Booth.onAir, h, FloorState.console]

theorem onAir_of_offered {x : Booth} {slot n : Nat} {target : OfferTarget} (h : x.floor = .offered slot target n) :
    x.onAir = true := by
  simp [Booth.onAir, h, FloorState.console]

theorem onAir_of_console {x : Booth} {slot : Nat} (h : FloorState.console x.floor = some slot) : x.onAir = true := by
  simp [Booth.onAir, h]

theorem silent_of_floor {x : Booth} (h : x.floor = .silent) : x.onAir = false := by
  simp [Booth.onAir, h, FloorState.console]

theorem silent_of_console {x : Booth} (h : FloorState.console x.floor = none) : x.onAir = false := by
  simp [Booth.onAir, h]

theorem dropOffer_moves (b : Nat) (s : State) : Move s (dropOffer b s) := by
  unfold dropOffer
  split
  · exact modFloor_moves (onAir_of_offered ‹_›) rfl rfl rfl rfl rfl
  · exact .refl s

theorem consoleGone_moves (slot : Nat) (s : State) : Move s (consoleGone slot s) := by
  have levels : Move s (s.modConsole slot fun c => { c with cough := false, call := false }) := modConsole_moves ..
  refine levels.trans ?_
  have lost : ∀ b (t : State), Move t (goSilent b .absent (setFlag .liveLost t)) :=
    fun b t => (setFlag_moves _ t).trans (.silenced ..)
  unfold consoleGone
  dsimp only
  split
  · exact .refl _
  · split
    · exact .refl _
    · exact .ite (fun _ => lost ..) fun _ => .refl _
    · exact .ite (fun _ => lost ..) fun _ => .ite (fun _ => dropOffer_moves ..) fun _ => .refl _

theorem latchCall_moves (b : Nat) (s : State) : Move s (latchCall b s) :=
  .ite (fun _ => .refl s) fun _ => (modBooth_moves ..).trans (setFlag_moves ..)

theorem recordLevels_moves (slot : Nat) (cough call : Bool) (s : State) : Move s (recordLevels slot cough call s) := by
  have levels : Move s (s.modConsole slot fun c => { c with cough := cough, call := call }) := modConsole_moves ..
  refine levels.trans ?_
  unfold recordLevels
  dsimp only
  split
  · exact .ite (fun _ => latchCall_moves ..) fun _ => .refl _
  · exact .refl _

theorem keyTake_moves (slot b : Nat) (s : State) : Move s (keyTake slot b s) := by
  unfold keyTake
  split
  · exact .ite (fun _ => .refl s) fun _ =>
      .ite (fun _ => changeLive_moves (onAir_of_offered ‹_›) ..) fun _ => showLamp_moves ..
  · exact showLamp_moves ..

theorem keyMicOn_moves {b n : Nat} {s : State} (place : (s.console n).booth = some b) (slot : Nat) :
    Move s (keyMicOn slot b s) := by
  refine .ite (fun _ => showLamp_moves ..) fun mode => ?_
  split
  next silent =>
    split
    next => exact showLamp_moves ..
    next c selected =>
      split
      next => exact showLamp_moves ..
      next granted => exact (Move.live slot b c n place mode (silent_of_floor silent) selected granted).trans (openSpell_moves ..)
  next d live =>
    refine .ite (fun _ => .refl s) fun _ => ?_
    split
    · exact showLamp_moves ..
    · exact changeLive_moves (onAir_of_live live) ..
  next => exact .ite (fun _ => .refl s) fun _ => keyTake_moves ..

theorem keyHandover_moves (slot b : Nat) (target : HandoverTarget) (s : State) : Move s (keyHandover slot b target s) := by
  refine .ite (fun _ => showLamp_moves ..) fun live => ?_
  split
  · exact showLamp_moves ..
  · exact modFloor_moves (onAir_of_console (not_not.mp live)) rfl rfl rfl rfl rfl

theorem keyMicOff_moves (slot b : Nat) (s : State) : Move s (keyMicOff slot b s) :=
  .ite (fun _ => .silenced ..) fun _ => .refl s

theorem keyOutput_moves (slot b : Nat) (output : Output) (s : State) : Move s (keyOutput slot b output s) := by
  unfold keyOutput
  split
  next => exact showLamp_moves ..
  next c names =>
    refine .ite (fun _ => .refl s) fun other => ?_
    split
    next silent => exact .output b output (silent_of_console silent)
    next onAir =>
      refine .ite (fun _ => showLamp_moves ..) fun _ => ?_
      split
      next => exact showLamp_moves ..
      next granted =>
        exact ((Move.switched slot b output c (onAir_of_console onAir) other names granted).trans
          (dutyClose_moves ..)).trans (openSpell_moves ..)

theorem keyRelay_moves (slot b : Nat) (source : RelaySource) (s : State) : Move s (keyRelay slot b source s) := by
  unfold keyRelay
  split
  · exact showLamp_moves ..
  · exact .source b source ‹_›

theorem carryOutKey_moves {b n : Nat} {s : State} (place : (s.console n).booth = some b) (slot : Nat) (key : KeyEvent) :
    Move s (carryOutKey slot b key s) := by
  cases key with
  | micOn => exact keyMicOn_moves place slot
  | take => exact keyTake_moves ..
  | handover target => exact keyHandover_moves ..
  | micOff => exact keyMicOff_moves ..
  | outputA => exact keyOutput_moves ..
  | outputB => exact keyOutput_moves ..
  | relay source => exact keyRelay_moves ..
  | call => exact latchCall_moves ..

theorem takeKey_moves (slot : Nat) (key : KeyEvent) (s : State) : Move s (takeKey slot key s) := by
  unfold takeKey
  split
  next => exact .refl s
  next b place =>
    refine (clearLamp_moves slot s).trans (carryOutKey_moves (n := slot) ?_ slot key)
    rw [clearLamp, console_modConsole_self]
    exact place

theorem expireOffer_moves (b : Nat) (s : State) : Move s (expireOffer b s) := by
  unfold expireOffer
  split
  · exact (dropOffer_moves b s).trans (showLamp_moves ..)
  · exact .refl s

theorem offerSecond_moves (b : Nat) (s : State) : Move s (offerSecond b s) := by
  unfold offerSecond
  split
  next offered =>
    exact .ite (fun _ => expireOffer_moves b s) fun _ => modFloor_moves (onAir_of_offered offered) rfl rfl rfl rfl rfl
  next => exact .refl s

theorem takeOffers_moves (s : State) : Move s (takeOffers s) := .foldl (fun t b _ => offerSecond_moves b t) s

theorem turnMinute_moves (b : Nat) (s : State) : Move s (turnMinute b s) := by
  refine .ite (fun _ => ?_) fun _ => .refl s
  split
  · exact (modBooth_moves ..).trans (.ite (fun _ => setFlag_moves ..) fun _ => .refl _)
  · exact .refl s

theorem liveMinute_moves (b : Nat) (s : State) : Move s (liveMinute b s) := by
  unfold liveMinute
  split
  · exact .refl s
  · exact (modBooth_moves ..).trans (modConsole_moves ..)

theorem takeTurns_moves (s : State) : Move s (takeTurns s) :=
  .foldl (fun t b _ => (turnMinute_moves b t).trans (liveMinute_moves b _)) s

theorem takeSpeech_moves (slots : Nat → Upstream) (b : Nat) (s : State) : Move s (takeSpeech slots b s) := by
  unfold takeSpeech
  split
  next selected =>
    split
    · exact (appendBlock_moves selected _).trans (modBooth_moves ..)
    · exact .refl s
  next => exact .refl s

theorem fetchCalls_moves (s : State) : Move s (fetchCalls s).1 := .foldl (fun _ _ _ => modBooth_moves _ _) s

/-! ### The loop controller -/

theorem modSlot_moves (n : Nat) (f : SlotState → SlotState) (s : State) : Move s (s.modSlot n f) := .of_seen rfl

theorem countLoop_moves (f : LoopCounters → LoopCounters) (s : State) : Move s (countLoop f s) := .of_seen rfl

theorem goAbsent_moves (slot : Nat) (s : State) : Move s (goAbsent slot s) :=
  ((modSlot_moves _ _ s).trans (setFlag_moves ..)).trans (consoleGone_moves ..)

theorem missFrame_moves (slot : Nat) (s : State) : Move s (missFrame slot s) :=
  .ite (fun _ => (modSlot_moves _ _ s).trans (.ite (fun _ => goAbsent_moves ..) fun _ => .refl _)) fun _ => .refl s

theorem loseFrame_moves (s : State) : Move s (loseFrame s) :=
  (countLoop_moves _ s).trans (.foldl (fun t n _ => missFrame_moves n t) _)

theorem hearConsole_moves (slot : Nat) (s : State) : Move s (hearConsole slot s) := modSlot_moves ..

theorem countError_moves (slot : Nat) (s : State) : Move s (countError slot s) := modSlot_moves ..

theorem countDeparture_moves (s : State) : Move s (countDeparture s) := by
  unfold countDeparture
  dsimp only
  split
  · exact .trans (t := State.modLoop _ (State.modLoop _ s)) (.of_seen rfl) (setFlag_moves ..)
  · exact .of_seen rfl

theorem countGoodReturn_moves (s : State) : Move s (countGoodReturn s) := .of_seen rfl

theorem dropOutstanding_moves (n : Nat) (s : State) :
    Move s (s.modLoop fun l => { l with outstanding := l.outstanding.drop n }) :=
  .outstanding rfl (length_drop_le_of_le n)

theorem giveUpOldest_moves (s : State) : Move s (giveUpOldest s) :=
  .ite (fun _ => (dropOutstanding_moves 1 s).trans (loseFrame_moves _)) fun _ => .refl s

/-- Booth control's answer to an absence leaves the outstanding-frame list alone. -/
theorem missFrame_outstanding (slot : Nat) (s : State) : (missFrame slot s).loop.outstanding = s.loop.outstanding := by
  unfold missFrame
  dsimp only
  split
  · split
    · simp [goAbsent, State.modSlot]
    · rfl
  · rfl

theorem loseFrame_outstanding (s : State) : (loseFrame s).loop.outstanding = s.loop.outstanding := by
  unfold loseFrame
  rw [foldl_keeps (fun t => t.loop.outstanding) _ fun t n => missFrame_outstanding n t]
  rfl

/-- Before a departure the outstanding-frame list has room for the frame (R50 step 1). -/
theorem giveUpOldest_room {s : State} (h : s.loop.outstanding.length ≤ Config.outstanding) :
    (giveUpOldest s).loop.outstanding.length < Config.outstanding := by
  unfold giveUpOldest
  split
  · rw [loseFrame_outstanding, modLoop_loop, List.length_drop]
    simp only [Config.outstanding] at *
    omega
  · omega

theorem takeDeparture_moves (s : State) : Move s (takeDeparture s) :=
  (Move.sent (giveUpOldest_moves s) giveUpOldest_room).trans (countDeparture_moves _)

theorem readSlot_moves (slot : Nat) (u : Upstream) (s : State) : Move s (readSlot slot u s) :=
  .ite
    (fun _ => .ite
      (fun _ => .ite (fun _ => hearConsole_moves ..) fun _ => (hearConsole_moves slot s).trans (countError_moves ..))
      fun _ => missFrame_moves ..)
    fun _ => .ite (fun _ => countLoop_moves ..) fun _ => .refl s

theorem handKey_moves (slot : Nat) (s : State) (bytes : Nat × Nat) : Move s (handKey slot s bytes) := by
  unfold handKey
  split
  · exact takeKey_moves ..
  · exact countError_moves ..

theorem takeLevels_moves (f : LoopReturn) (s : State) (slot : Nat) : Move s (takeLevels f s slot) :=
  .ite (fun _ => recordLevels_moves ..) fun _ => .refl s

theorem takeKeys_moves (f : LoopReturn) (s : State) (slot : Nat) : Move s (takeKeys f s slot) :=
  .ite (fun _ => .ite (fun _ => countError_moves ..) fun _ => .foldl (fun t k _ => handKey_moves slot t k) s)
    fun _ => .refl s

theorem takeEntry_moves (sequence : Nat) (s : State) : Move s (takeEntry sequence s) := by
  unfold takeEntry loseFrames
  dsimp only
  exact .trans (.trans (dropOutstanding_moves _ s) (.iterate loseFrame_moves ..)) (countLoop_moves ..)

theorem handOn_moves (f : LoopReturn) (s : State) : Move s (handOn f s) :=
  ((((Move.foldl (fun t n _ => readSlot_moves n (upstreamOf f n) t) s).trans
    (.foldl (fun t n _ => takeLevels_moves f t n) _)).trans (.foldl (fun t n _ => takeKeys_moves f t n) _)).trans
    (.foldl (fun t b _ => takeSpeech_moves (upstreamOf f) b t) _)).trans (countGoodReturn_moves _)

theorem loopReturn_moves (f : LoopReturn) (s : State) : Move s (loopReturn f s) :=
  .ite (fun _ => countLoop_moves ..) fun _ => .ite (fun _ => countLoop_moves ..) fun _ =>
    (takeEntry_moves f.sequence s).trans (handOn_moves f _)

end Sys2Proof.Machine
end

