-- ==== Sys2Proof/Proofs/MovesBlocks.lean ====
section
/-! SUPPORT. The other blocks move the part. -/

namespace Sys2Proof.Machine

/-! ### Air controller -/

theorem countAir_moves (f : AirCounters → AirCounters) (s : State) : Move s (countAir f s) := .of_seen rfl

theorem queueNote_moves (n : AirNote) (s : State) : Move s (queueNote n s) :=
  .notes (by simp [State.seen, State.console, State.boothRec]) (queueNote_length n)

theorem grantNote_moves (serial c : Nat) (s : State) : Move s (grantNote serial c s) :=
  (countAir_moves _ s).trans (queueNote_moves ..)

theorem denyNote_moves (serial c : Nat) (s : State) : Move s (denyNote serial c s) :=
  (countAir_moves _ s).trans (queueNote_moves ..)

theorem judge_moves (slot : Nat) (r : Receiver) (account c : Nat) (select : Bool) (s : State) :
    Move s (judge slot r account c select s) :=
  .ite (fun _ => .ite (fun _ => grantNote_moves ..) fun _ => .refl s) fun _ =>
    .ite (fun _ => (Move.receiver slot _).trans (.ite (fun _ => grantNote_moves ..) fun _ => .refl _))
      fun _ => denyNote_moves ..

theorem unknownReport_moves (p : AirReport) (s : State) : Move s (unknownReport p s) :=
  .trans (t := State.modAir _ (countAir _ s)) (.of_seen rfl) (setFlag_moves ..)

theorem duplicateReport_moves (slot : Nat) (r : Receiver) (p : AirReport) (s : State) :
    Move s (duplicateReport slot r p s) :=
  (countAir_moves _ s).trans (.receiver ..)

theorem acceptReport_moves (slot : Nat) (r : Receiver) (p : AirReport) (s : State) : Move s (acceptReport slot r p s) := by
  unfold acceptReport
  dsimp only
  split
  · exact .trans (.trans (countAir_moves ..) (.receiver ..)) (judge_moves ..)
  · exact .ite (fun _ => .trans (.trans (countAir_moves ..) (.receiver ..)) (setFlag_moves ..))
      fun _ => .trans (countAir_moves ..) (.receiver ..)

theorem takeReport_moves (p : AirReport) (s : State) : Move s (takeReport p s) := by
  unfold takeReport
  dsimp only
  split
  · exact .trans (countAir_moves ..) (countAir_moves ..)
  · split
    · exact .trans (.trans (countAir_moves ..) (countAir_moves ..)) (unknownReport_moves ..)
    · exact .trans (.trans (countAir_moves ..) (countAir_moves ..))
        (.ite (fun _ => duplicateReport_moves ..) fun _ => acceptReport_moves ..)

theorem rangeSecond_moves (s : State) (slot : Nat) : Move s (rangeSecond s slot) := by
  unfold rangeSecond
  split
  · exact .refl s
  · exact .ite (fun _ => .trans (.receiver ..) (countAir_moves ..)) fun _ => .receiver ..

theorem revokeOne_moves (candidate : Receiver → Bool) (acc : State × Nat) (slot : Nat) :
    Move acc.1 (revokeOne candidate acc slot).1 := by
  unfold revokeOne
  split
  · exact .refl _
  · split
    · split
      · exact .refl _
      · dsimp only
        exact .trans (.trans (.receiver ..) (queueNote_moves ..)) (countAir_moves ..)
    · exact .refl _

theorem revocationPass_moves (candidate : Receiver → Bool) (s : State) : Move s (revocationPass candidate s).1 :=
  .foldl_fst (revokeOne_moves candidate) _ (s, 0)

theorem revokeAccount_moves (account : Nat) (s : State) : Move s (revokeAccount account s).1 := revocationPass_moves ..

theorem revokeChannel_moves (c : Nat) (s : State) : Move s (revokeChannel c s) := revocationPass_moves ..

theorem takeNotes_moves (s : State) : Move s (takeNotes s) := .notes rfl (length_drop_le_of_le 4)

/-! ### Accounting unit -/

theorem countAcct_moves (f : AccountingCounters → AccountingCounters) (s : State) : Move s (countAcct f s) := .of_seen rfl

theorem writeAccount_moves (slot : Nat) (a : Account) (s : State) : Move s (s.writeAccount slot a) := .of_seen rfl

theorem loadTariff_moves (cls a b c d e : Nat) (s : State) : Move s (loadTariff cls a b c d e s).1 := by
  unfold loadTariff
  split
  · exact .refl s
  split
  · exact .refl s
  split
  · exact .refl s
  · exact .of_seen rfl

theorem openLoan_moves (account : Nat) (s : State) : Move s (openLoan account s) := by
  unfold openLoan
  dsimp only
  split
  · exact .of_seen rfl
  · exact .of_seen rfl

theorem endLoan_moves (account : Nat) (s : State) : Move s (endLoan account s) := by
  unfold endLoan
  split
  · exact writeAccount_moves ..
  · exact .refl s

theorem applyStatement_moves (st : Statement) (s : State) : Move s (applyStatement st s) := by
  unfold applyStatement
  split
  · exact countAcct_moves ..
  · exact .trans (writeAccount_moves ..) (.ite (fun _ => .trans (countAcct_moves ..) (setFlag_moves ..)) fun _ => .refl _)

theorem flagQueue_moves (s : State) : Move s (flagQueue s) := by
  have high : Move s (if s.params.highWater ≤ s.acct.statements.length then setFlag .statementsHigh s else s) :=
    .ite (fun _ => setFlag_moves ..) fun _ => .refl s
  exact .ite (fun _ => high.trans (setFlag_moves ..)) fun _ => high

/-- A statement is posted only when the queue has room (R101, R103, R106). -/
theorem postStatement_moves {s : State} (room : statementRoom s = true) (st : Statement) : Move s (postStatement st s) := by
  have append : Move s (s.modAcct fun u => { u with statements := u.statements ++ [st] }) :=
    .statements rfl fun _ => by
      have : s.acct.statements.length < 512 := of_decide_eq_true room
      simpa using this
  exact ((append.trans (applyStatement_moves ..)).trans (flagQueue_moves _)).trans (countAcct_moves ..)

theorem createAccount_moves (account cls limit : Nat) (access : List Nat) (s : State) :
    Move s (createAccount account cls limit access s).1 := by
  unfold createAccount
  split
  · exact .refl s
  · exact .of_seen rfl

theorem changeAccount_moves (slot : Nat) (a : Account) (cls limit : Nat) (access : List Nat) (s : State) :
    Move s (changeAccount slot a cls limit access s).1 := by
  unfold changeAccount
  dsimp only
  split
  · exact .refl s
  · split
    · exact .trans (writeAccount_moves ..) (revokeAccount_moves ..)
    · exact writeAccount_moves ..

theorem accountLoad_moves (account cls limit : Nat) (access : List Nat) (s : State) :
    Move s (accountLoad account cls limit access s).1 := by
  unfold accountLoad
  split
  · exact .refl s
  split
  · exact .refl s
  split
  · exact .refl s
  split
  · exact createAccount_moves ..
  · exact changeAccount_moves ..

theorem atAccount_moves {rule : Nat → Account → State → State × Answer} (h : ∀ slot a s, Move s (rule slot a s).1)
    (account : Nat) (s : State) : Move s (atAccount account rule s).1 := by
  unfold atAccount
  split
  · exact .refl s
  split
  · exact .refl s
  · exact h ..

theorem suspendAccount_moves (account : Nat) (s : State) : Move s (suspendAccount account s).1 := by
  refine atAccount_moves (fun slot a s => ?_) account s
  dsimp only
  split
  · exact .refl s
  · exact .trans (writeAccount_moves ..) (revokeAccount_moves ..)

theorem resumeAccount_moves (account : Nat) (s : State) : Move s (resumeAccount account s).1 :=
  atAccount_moves (fun _ _ s => writeAccount_moves _ _ s) account s

theorem closeAccount_moves (account : Nat) (s : State) : Move s (closeAccount account s).1 := by
  refine atAccount_moves (fun slot a s => ?_) account s
  split
  · exact .refl s
  split
  · exact .refl s
  split
  · exact .refl s
  split
  · exact .refl s
  · exact .of_seen rfl

theorem clearBalance_moves (account expected : Nat) (s : State) : Move s (clearBalance account expected s).1 := by
  unfold clearBalance
  split
  · exact .refl s
  refine atAccount_moves (fun slot a s => ?_) account s
  split
  · exact .refl s
  · exact .of_seen rfl

theorem postPending_moves {s : State} (room : statementRoom s = true) (slot : Nat) : Move s (postPending slot s) := by
  have dropped : Move s (s.modHire fun h => { h with pendingList := h.pendingList.drop 1 }) := .of_seen rfl
  refine dropped.trans ?_
  unfold postPending
  dsimp only
  split
  · exact .refl _
  · split
    · have still : statementRoom (s.modHire fun h => { h with pendingList := h.pendingList.drop 1 }) = true := room
      exact .trans (.trans (postStatement_moves still _) (countAcct_moves ..)) (.receiver ..)
    · exact .refl _

theorem postPendings_moves (l : List Nat) (acc : State × Nat) : Move acc.1 (postPendings l acc).1 := by
  induction l generalizing acc with
  | nil => exact .refl _
  | cons slot rest ih =>
    unfold postPendings
    split
    next room => exact (postPending_moves room slot).trans (ih (postPending slot acc.1, acc.2 + 1))
    next => exact .refl _

theorem releaseStatements_moves (count : Nat) (head : Option (Option StatementKind × Nat)) (s : State) :
    Move s (releaseStatements count head s).1 := by
  unfold releaseStatements
  dsimp only
  split
  · exact .refl s
  split
  · exact .refl s
  have dropped : Move s (countAcct (fun k => { k with released := satAdd k.released count })
      (s.modAcct fun u => { u with statements := u.statements.drop count })) :=
    .statements rfl (length_drop_le_of_le count)
  exact dropped.trans (postPendings_moves _ (_, 0))

/-! ### Hire controller -/

theorem countHire_moves (f : HireCounters → HireCounters) (s : State) : Move s (countHire f s) := .of_seen rfl

theorem enrol_moves (serial : Nat) (s : State) : Move s (enrol serial s).1 := by
  unfold enrol
  split
  · exact .refl s
  split
  · exact .refl s
  split
  · exact .refl s
  · dsimp only [accept]
    exact .trans (.receiver ..) (countHire_moves ..)

/-- The record a serial finds stands in the table under its slot. -/
theorem mem_of_receiverBySerial {s : State} {serial slot : Nat} {r : Receiver}
    (h : s.receiverBySerial serial = some (slot, r)) : (slot, r) ∈ s.hire.receivers :=
  List.mem_of_find?_eq_some h

theorem atReceiver_moves {rule : Nat → Receiver → State → State × Answer}
    (h : ∀ slot r s, (slot, r) ∈ s.hire.receivers → Move s (rule slot r s).1) (serial : Nat) (s : State) :
    Move s (atReceiver serial rule s).1 := by
  unfold atReceiver
  split
  · exact .refl s
  · exact h _ _ _ (mem_of_receiverBySerial ‹_›)

theorem atSerial_moves {rule : Nat → Receiver → State → State × Answer}
    (h : ∀ slot r s, (slot, r) ∈ s.hire.receivers → Move s (rule slot r s).1) (serial : Nat) (s : State) :
    Move s (atSerial serial rule s).1 := by
  unfold atSerial
  split
  · exact .refl s
  · exact atReceiver_moves h serial s

theorem withdraw_moves (serial : Nat) (s : State) : Move s (withdraw serial s).1 := by
  refine atReceiver_moves (fun slot r s _ => ?_) serial s
  split
  · exact .receiver ..
  all_goals exact .refl s

theorem reinstate_moves (serial : Nat) (s : State) : Move s (reinstate serial s).1 := by
  refine atReceiver_moves (fun slot r s _ => ?_) serial s
  split
  · exact .receiver ..
  all_goals exact .refl s

theorem listening_of_not_onLoan {r : Receiver} (h : r.onLoan = false) : r.listening = none := by
  simp [Receiver.listening, h]

theorem deleteReceiver_moves (serial : Nat) (s : State) : Move s (deleteReceiver serial s).1 := by
  refine atReceiver_moves (fun slot r s record => ?_) serial s
  split
  next withdrawn =>
    dsimp only [accept]
    exact .trans (.deleted slot r record (listening_of_not_onLoan (by simp [Receiver.onLoan, withdrawn])))
      (countHire_moves ..)
  all_goals exact .refl s

theorem issueReceiver_moves (slot : Nat) (r : Receiver) (account : Nat) (s : State) :
    Move s (issueReceiver slot r account s) :=
  ((openLoan_moves account s).trans (.receiver ..)).trans (countHire_moves ..)

theorem issue_moves (serial account : Nat) (s : State) : Move s (issue serial account s).1 := by
  have refused : ∀ code, Move s (refuseIssue code s).1 := by
    intro code
    dsimp only [refuseIssue, refuse]
    exact countHire_moves ..
  unfold issue
  split
  · exact refused _
  split
  · exact refused _
  split
  · exact refused _
  · exact refused _
  · split
    · exact refused _
    · exact issueReceiver_moves ..

theorem makePending_moves (slot : Nat) (r : Receiver) (kind : StatementKind) (amount : Nat) (s : State) :
    Move s (makePending slot r kind amount s) := .trans (.receiver ..) (.of_seen rfl)

theorem settleClosure_moves (slot : Nat) (r : Receiver) (loan : Loan) (kind : StatementKind) (s : State) :
    Move s (settleClosure slot r loan kind s) :=
  .ite (fun room => (postStatement_moves room _).trans (.receiver ..)) fun _ => makePending_moves ..

theorem closeReturned_moves (slot : Nat) (r : Receiver) (loan : Loan) (s : State) :
    Move s (closeReturned slot r loan s) :=
  .trans (.trans (.receiver ..) (endLoan_moves ..)) (settleClosure_moves ..)

theorem returnReceiver_moves (serial : Nat) (s : State) : Move s (returnReceiver serial s).1 := by
  refine atSerial_moves (fun slot r s _ => ?_) serial s
  split
  · dsimp only [accept]
    exact .trans (closeReturned_moves ..) (countHire_moves ..)
  · exact .refl s

theorem endLoan_statements (account : Nat) (s : State) : (endLoan account s).acct.statements = s.acct.statements := by
  unfold endLoan
  split <;> rfl

theorem closeLost_moves {s : State} (room : statementRoom s = true) (slot : Nat) (r : Receiver) (loan : Loan) :
    Move s (closeLost slot r loan s) := by
  have still : statementRoom (endLoan loan.account s) = true := by
    unfold statementRoom
    rw [endLoan_statements]
    exact room
  unfold closeLost
  dsimp only
  exact .trans (.trans (.trans (endLoan_moves ..) (postStatement_moves still _)) (.receiver ..)) (countHire_moves ..)

theorem declareLost_moves (serial : Nat) (s : State) : Move s (declareLost serial s).1 := by
  refine atSerial_moves (fun slot r s _ => ?_) serial s
  split
  · split
    · exact closeLost_moves ‹_› ..
    · dsimp only [refuse]
      exact countAcct_moves ..
  · exact .refl s

theorem recover_moves (slot : Nat) (r : Receiver) (loan : Loan) (s : State) : Move s (recover slot r loan s) :=
  (settleClosure_moves ..).trans (countHire_moves ..)

theorem clearPosition_moves (slot : Nat) (position : Nat × Nat) (s : State) : Move s (clearPosition slot position s) := by
  unfold clearPosition
  split
  · exact .refl s
  · exact .trans (.receiver ..) (countHire_moves ..)

theorem dock_moves (station rackSlot battery slot : Nat) (r : Receiver) (s : State) :
    Move s (dock station rackSlot battery slot r s) := by
  have placed : ∀ r', Move s (writeReceiver slot r' (clearPosition slot (station, rackSlot) s)) :=
    fun r' => (clearPosition_moves ..).trans (.receiver slot r')
  unfold dock
  dsimp only
  split
  · exact (placed _).trans (.trans (closeReturned_moves ..) (countHire_moves ..))
  · exact (placed _).trans (.trans (closeReturned_moves ..) (countHire_moves ..))
  · exact (placed _).trans (recover_moves ..)
  · exact placed _

theorem undock_moves (slot : Nat) (r : Receiver) (s : State) : Move s (undock slot r s) :=
  .ite (fun _ => .trans (.receiver ..) (countHire_moves ..)) fun _ => .receiver ..

theorem takeRack_moves {rule : Nat → Receiver → State → State} (h : ∀ slot r s, Move s (rule slot r s)) (fits : Bool)
    (serial : Nat) (s : State) : Move s (takeRack fits serial rule s) := by
  unfold takeRack
  dsimp only
  split
  · exact .trans (countHire_moves ..) (countHire_moves ..)
  split
  · exact .trans (.trans (countHire_moves ..) (countHire_moves ..)) (setFlag_moves ..)
  · exact .trans (countHire_moves ..) (h ..)

theorem madeOverdue_listening (r : Receiver) : r.madeOverdue.listening = r.listening := by
  unfold Receiver.madeOverdue
  split
  next issued => simp [Receiver.listening, Receiver.onLoan, issued]
  next => rfl

theorem takeReturnBy_moves (s : State) : Move s (takeReturnBy s) :=
  (Move.receivers Receiver.madeOverdue madeOverdue_listening).trans (countHire_moves ..)

theorem minute_listening (m : Mode) (r : Receiver) : (Receiver.minute m r).listening = r.listening := by
  unfold Receiver.minute
  split <;> rfl

theorem takeLoans_moves (s : State) : Move s (takeLoans s) := .receivers (Receiver.minute s.mode) (minute_listening s.mode)

/-! ### Issue batches -/

theorem countBatch_moves (f : BatchCounters → BatchCounters) (s : State) : Move s (countBatch f s) := .of_seen rfl

theorem writeBatch_moves (station : Nat) (b : Batch) (s : State) : Move s (writeBatch station b s) := .of_seen rfl

theorem dropBatch_moves (station : Nat) (s : State) : Move s (dropBatch station s) := .of_seen rfl

theorem freeReceiver_moves (s : State) (serial : Nat) : Move s (freeReceiver s serial) := by
  unfold freeReceiver
  split
  · exact .refl s
  · exact .receiver ..

theorem releaseBatch_moves (station : Nat) (b : Batch) (s : State) : Move s (releaseBatch station b s) :=
  (Move.foldl (fun t n _ => freeReceiver_moves t n) s).trans (dropBatch_moves ..)

theorem closeFailed_moves (station : Nat) (b : Batch) (s : State) : Move s (closeFailed station b s).1 := by
  unfold closeFailed
  dsimp only
  exact .trans (releaseBatch_moves ..) (countBatch_moves ..)

theorem failBatch_moves (station : Nat) (b : Batch) (code : RefusalCode) (final : Bool) (s : State) :
    Move s (failBatch station b code final s).1 := by
  unfold failBatch
  dsimp only
  split
  · exact .trans (.trans (writeBatch_moves ..) (countBatch_moves ..)) (closeFailed_moves ..)
  · dsimp only
    exact .trans (writeBatch_moves ..) (countBatch_moves ..)

theorem issueItem_moves (account : Nat) (acc : State × List (Nat × Nat)) (serial : Nat) :
    Move acc.1 (issueItem account acc serial).1 := by
  unfold issueItem
  split
  · exact .refl _
  · exact issueReceiver_moves ..

theorem finalStep_moves (station : Nat) (b : Batch) (s : State) : Move s (finalStep station b s).1 := by
  unfold finalStep
  split
  · exact failBatch_moves ..
  · dsimp only
    exact .trans (.trans (.foldl_fst (issueItem_moves b.account) b.items (s, [])) (dropBatch_moves ..))
      (countBatch_moves ..)

theorem settleItem_moves (station : Nat) (b : Batch) (final : Bool) (s : State) :
    Move s (settleItem station b final s).1 := by
  unfold settleItem
  split
  · exact finalStep_moves ..
  · exact .refl s

theorem abortItem_moves (station : Nat) (b : Batch) (serial : Nat) (s : State) :
    Move s (abortItem station b serial s).1 := by
  unfold abortItem
  dsimp only
  split
  · dsimp only
    exact .trans (.trans (freeReceiver_moves ..) (writeBatch_moves ..)) (countBatch_moves ..)
  · exact .refl s

theorem holdItem_moves (station : Nat) (b : Batch) (slot : Nat) (r : Receiver) (final : Bool) (s : State) :
    Move s (holdItem station b slot r final s).1 :=
  .trans (.trans (.trans (.receiver ..) (writeBatch_moves ..)) (countBatch_moves ..)) (settleItem_moves ..)

theorem addItem_moves (station : Nat) (b : Batch) (serial : Nat) (final : Bool) (s : State) :
    Move s (addItem station b serial final s).1 := by
  unfold addItem
  split
  · exact settleItem_moves ..
  split
  · exact failBatch_moves ..
  split
  · exact failBatch_moves ..
  · exact failBatch_moves ..
  · split
    · exact failBatch_moves ..
    · exact holdItem_moves ..

theorem openTakes_moves (station account : Nat) (serial : Option Nat) (more abort : Bool) (b : Batch) (s : State) :
    Move s (openTakes station account serial more abort b s).1 := by
  unfold openTakes
  split
  · exact failBatch_moves ..
  split
  · exact settleItem_moves ..
  · split
    · exact abortItem_moves ..
    · exact addItem_moves ..

theorem batchTakes_moves (station account : Nat) (serial : Option Nat) (more abort : Bool) (b : Batch) (s : State) :
    Move s (batchTakes station account serial more abort b s).1 := by
  refine (writeBatch_moves station b.numbered s).trans ?_
  unfold batchTakes
  dsimp only
  split
  · exact openTakes_moves ..
  · unfold failedTakes
    split
    · exact .refl _
    · exact closeFailed_moves ..

theorem openBatch_moves (station account : Nat) (serial : Option Nat) (more abort : Bool) (s : State) :
    Move s (openBatch station account serial more abort s).1 := by
  unfold openBatch
  split
  · exact .refl s
  split
  · exact .refl s
  split
  · dsimp only [refuse]
    exact countBatch_moves ..
  · exact .trans (countBatch_moves ..) (batchTakes_moves ..)

theorem batchItem_moves (station account : Nat) (serial : Option Nat) (more abort : Bool) (s : State) :
    Move s (batchItem station account serial more abort s).1 := by
  unfold batchItem
  split
  · exact .refl s
  split
  · exact openBatch_moves ..
  · exact batchTakes_moves ..

theorem batchSecond_moves (s : State) (station : Nat) : Move s (batchSecond s station) := by
  unfold batchSecond
  split
  · exact .refl s
  · exact .ite (fun _ => .trans (releaseBatch_moves ..) (countBatch_moves ..)) fun _ => writeBatch_moves ..

theorem abandonBatch_moves (s : State) (station : Nat) : Move s (abandonBatch s station) := by
  unfold abandonBatch
  split
  · exact .refl s
  · exact .trans (releaseBatch_moves ..) (countBatch_moves ..)

theorem abandonBatches_moves (s : State) : Move s (abandonBatches s) := .foldl (fun t n _ => abandonBatch_moves t n) s

theorem takeRanges_moves (s : State) : Move s (takeRanges s) :=
  (Move.foldl (fun t n _ => rangeSecond_moves t n) s).trans (.foldl (fun t n _ => batchSecond_moves t n) _)

/-! ### Channel, console and booth requests -/

theorem atChannel_moves {rule : State → State × Answer} {channel : Nat}
    (h : ∀ s, isChannel channel = true → Move s (rule s).1) (s : State) : Move s (atChannel channel rule s).1 := by
  unfold atChannel
  split
  · exact .refl s
  next fits => exact h s (by simpa using fits)

theorem loadChannel_moves (channel : Nat) (label : Label) (restricted : Bool) (policy : Option Fallback) (s : State) :
    Move s (loadChannel channel label restricted policy s).1 := by
  unfold loadChannel
  split
  · exact .refl s
  next fits =>
    have hc : channel ≠ 0 := ne_zero_of_isChannel (by simpa using fits)
    split
    · exact .refl s
    split
    next p _ =>
      have loaded : Move s (s.modChan channel fun x => { x with label := label, restricted := restricted, policy := p }) :=
        modChan_moves (fun _ => rfl) (fun _ => rfl) (fun _ => rfl) (fun _ => le_rfl) fun h => absurd h hc
      exact loaded.trans (.ite (fun _ => revokeChannel_moves ..) fun _ => .refl _)
    next => exact .refl s

theorem clearStamp_moves (channel : Nat) (s : State) : Move s (clearStamp channel s).1 :=
  atChannel_moves (fun s fits => modChan_moves (f := fun x => { x with stamp := none }) (s := s) (fun _ => rfl)
    (fun _ => rfl) (fun _ => rfl) (fun _ => le_rfl) fun h => absurd h (ne_zero_of_isChannel fits)) s

theorem enableChannel_moves (channel : Nat) (s : State) : Move s (enableChannel channel s).1 := by
  refine atChannel_moves (fun s fits => ?_) s
  split
  · exact .refl s
  next off => exact .turnedOn channel fits (by simpa using off)

theorem disableChannel_moves (channel : Nat) (force : Bool) (s : State) : Move s (disableChannel channel force s).1 := by
  refine atChannel_moves (fun s fits => ?_) s
  split
  · exact .refl s
  split
  next free => exact .turnedOff channel fits free
  next b owned =>
    split
    · exact .forcedOff channel b fits owned
    · exact .refl s

theorem followConfigured_moves (was is : Bool) (slot : Nat) (s : State) : Move s (followConfigured was is slot s) := by
  unfold followConfigured
  split
  · exact modSlot_moves ..
  · exact modSlot_moves ..
  · exact .refl s

theorem booth_of_placeFits {booth seat : Option Nat} (h : placeFits booth seat = true) (b : Nat) (hb : booth = some b) :
    isBooth b = true := by
  subst hb
  cases seat with
  | none => cases h
  | some n => exact (Bool.and_eq_true_iff.mp h).1

theorem loadConsole_moves (slot : Nat) (configured : Bool) (booth seat : Option Nat) (s : State) :
    Move s (loadConsole slot configured booth seat s).1 := by
  unfold loadConsole
  split
  · exact .refl s
  split
  · exact .refl s
  split
  · exact .refl s
  next fits =>
    split
    · exact .refl s
    · exact .trans (.placed slot _ fun _ b => booth_of_placeFits (by simpa using fits) b) (followConfigured_moves ..)

theorem loadBooth_moves (booth : Nat) (aChannel bChannel : Option Nat) (interlock : Option Interlock) (turnLimit : Nat)
    (callMode : Option CallMode) (s : State) :
    Move s (loadBooth booth aChannel bChannel interlock turnLimit callMode s).1 := by
  unfold loadBooth
  split
  · exact .refl s
  split
  · exact .refl s
  next mode =>
    split
    next fits =>
      obtain ⟨channels, _⟩ := Bool.and_eq_true_iff.mp fits
      obtain ⟨a, b⟩ := Bool.and_eq_true_iff.mp channels
      exact .configured booth aChannel bChannel _ turnLimit _ (not_not.mp mode) a b
    next => exact .refl s

theorem forceSilent_moves (booth : Nat) (s : State) : Move s (forceSilent booth s).1 := by
  unfold forceSilent
  split
  · exact .refl s
  · exact .silenced ..

theorem setRelay_moves (booth : Nat) (source : RelaySource) (s : State) : Move s (setRelay booth source s).1 := by
  unfold setRelay
  split
  · exact .refl s
  split
  · exact .refl s
  · exact .source booth source ‹_›

/-! ### Time base and ticks -/

theorem countClock_moves (f : ClockCounters → ClockCounters) (s : State) : Move s (countClock f s) := .of_seen rfl

theorem nextDay_fits {c d : Clock} (h : clockFits c = true) (hd : nextDay c = some d) : clockFits d = true := by
  simp only [clockFits, within, Bool.and_eq_true, decide_eq_true_eq] at h
  have month31 : ∀ y, daysIn y 1 = 31 := fun _ => rfl
  have first : ∀ y m, 1 ≤ daysIn y m := fun y m => by
    unfold daysIn
    split
    · split <;> omega
    · split <;> omega
  unfold nextDay at hd
  split at hd
  · cases hd
    simp only [clockFits, within, Bool.and_eq_true, decide_eq_true_eq]
    omega
  split at hd
  · cases hd
    simp only [clockFits, within, Bool.and_eq_true, decide_eq_true_eq]
    have := first c.year (c.month + 1)
    omega
  split at hd
  · cases hd
    simp only [clockFits, within, Bool.and_eq_true, decide_eq_true_eq, month31]
    omega
  · cases hd

theorem nextSecond_fits {c d : Clock} (h : clockFits c = true) (hd : nextSecond c = some d) : clockFits d = true := by
  have parts := h
  simp only [clockFits, within, Bool.and_eq_true, decide_eq_true_eq] at parts
  unfold nextSecond at hd
  split at hd
  · cases hd
    simp only [clockFits, within, Bool.and_eq_true, decide_eq_true_eq]
    omega
  split at hd
  · cases hd
    simp only [clockFits, within, Bool.and_eq_true, decide_eq_true_eq]
    omega
  split at hd
  · cases hd
    simp only [clockFits, within, Bool.and_eq_true, decide_eq_true_eq]
    omega
  · refine nextDay_fits ?_ hd
    simp only [clockFits, within, Bool.and_eq_true, decide_eq_true_eq]
    omega

theorem advanceClock_moves (s : State) : Move s (advanceClock s) := by
  refine .clock rfl fun h => ?_
  show clockFits (advanceClock s).time.clock = true
  unfold advanceClock
  rw [modTime_time]
  split
  · exact nextSecond_fits h ‹_›
  · rfl

theorem modAlarm_moves (name : AlarmName) (f : Alarm → Alarm) (s : State) : Move s (modAlarm name f s) := by
  cases name <;> exact .of_seen rfl

theorem recordMatch_moves (name : AlarmName) (s : State) : Move s (recordMatch name s) :=
  .trans (.trans (modAlarm_moves ..) (setFlag_moves ..)) (countClock_moves ..)

theorem evaluateAlarm_moves (acc : State × List Taking) (name : AlarmName) : Move acc.1 (evaluateAlarm acc name).1 := by
  unfold evaluateAlarm
  split
  · exact recordMatch_moves ..
  · exact .refl _

theorem evaluateAlarms_moves (s : State) : Move s (evaluateAlarms s).1 := .foldl_fst evaluateAlarm_moves _ (s, [])

theorem takeSessionClose_moves (s : State) : Move s (takeSessionClose s) :=
  .ite (fun _ => .mode .rehearsal (by decide)) fun _ => .refl s

theorem takeEffect_moves (name : AlarmName) (s : State) : Move s (takeEffect name s) := by
  cases name with
  | returnBy => exact takeReturnBy_moves s
  | sessionClose => exact takeSessionClose_moves s

theorem backupAlarm_moves (s : State) (name : AlarmName) : Move s (backupAlarm s name) :=
  .ite (fun _ => .trans (modAlarm_moves ..) (countClock_moves ..)) fun _ => .refl s

theorem backupSecond_moves (s : State) : Move s (backupSecond s) := by
  have ticked : Move s (advanceClock (s.modTime fun b => { b with phase := 0 })) :=
    .trans (t := s.modTime _) (.of_seen rfl) (advanceClock_moves _)
  exact .ite (fun _ => ticked.trans (.foldl (fun t n _ => backupAlarm_moves t n) _)) fun _ => ticked

theorem backupCount_moves (ticks : Nat) (s : State) : Move s (backupCount ticks s) :=
  .trans (.iterate backupSecond_moves _ s) (.of_seen rfl)

theorem setClock_moves (value : Clock) (s : State) : Move s (setClock value s).1 := by
  unfold setClock
  split
  · exact .refl s
  next fits =>
    refine .clock rfl fun _ => ?_
    show clockFits value = true
    simpa using fits

theorem loadAlarm_moves (alarm : Option AlarmName) (day : Nat) (dayOn : Bool) (hour : Nat) (hourOn : Bool) (minute : Nat)
    (minuteOn : Bool) (s : State) : Move s (loadAlarm alarm day dayOn hour hourOn minute minuteOn s).1 := by
  unfold loadAlarm
  split
  · exact .refl s
  split
  · exact .refl s
  · dsimp only [accept]
    exact modAlarm_moves ..

theorem clearAlarm_moves (alarm : Option AlarmName) (s : State) : Move s (clearAlarm alarm s).1 := by
  unfold clearAlarm
  split
  · exact .refl s
  · dsimp only [accept]
    exact modAlarm_moves ..

theorem issueMinute_moves (s : State) : Move s (issueMinute s).1 := by
  unfold issueMinute
  exact .trans (t := s.modTime _) (.of_seen rfl) (evaluateAlarms_moves _)

theorem takeClock_moves (s : State) : Move s (takeClock s).1 := by
  unfold takeClock
  split
  · exact (advanceClock_moves s).trans (issueMinute_moves _)
  · exact advanceClock_moves s

theorem takeOne_moves (t : Taking) (s : State) : Move s (takeOne t s).1 := by
  cases t <;> dsimp only [takeOne]
  case departure => exact takeDeparture_moves s
  case resolution => exact takeResolution_moves s
  case notes => exact takeNotes_moves s
  case displayEnds => exact takeDisplayEnds_moves s
  case clock => exact takeClock_moves s
  case offers => exact takeOffers_moves s
  case ranges => exact takeRanges_moves s
  case channelMinutes => exact takeChannelMinutes_moves s
  case turns => exact takeTurns_moves s
  case loans => exact takeLoans_moves s
  case duties => exact takeDuties_moves s
  case returnByEffect => exact takeReturnBy_moves s
  case sessionCloseEffect => exact takeSessionClose_moves s

theorem runTakings_moves (order : List Taking) (n : Nat) (due : List Taking) (s : State) :
    Move s (runTakings order n due s) := by
  induction n generalizing due s with
  | zero => exact .refl s
  | succ n ih =>
    unfold runTakings
    split
    · exact .refl s
    · exact (takeOne_moves ..).trans (ih ..)

/-! ### Mode and supply control -/

theorem countMode_moves (f : ModeCounters → ModeCounters) (s : State) : Move s (countMode f s) := .of_seen rfl

theorem emptyFloor_moves (s : State) : Move s (emptyFloor s) := .floorQueue rfl fun _ => Nat.zero_le 4

theorem enterSetup_moves (s : State) : Move s (enterSetup s) :=
  (Move.setup.trans (emptyFloor_moves _)).trans (abandonBatches_moves _)

theorem setMode_moves (mode : Option Mode) (s : State) : Move s (setMode mode s).1 := by
  unfold setMode
  split
  · exact .refl s
  split
  · exact .refl s
  split
  · dsimp only [accept]
    exact enterSetup_moves s
  next air =>
    split
    · dsimp only [accept]
      exact .mode _ air
    split
    · dsimp only
      exact countMode_moves ..
    · dsimp only [accept]
      exact .mode _ air

theorem loadParameters_moves (a o l i : Nat) (stampMode : Option StampMode) (high : Nat) (s : State) :
    Move s (loadParameters a o l i stampMode high s).1 := by
  unfold loadParameters
  split
  · exact .refl s
  split
  · exact .of_seen rfl
  · exact .refl s

theorem flagMatched_moves (s : State) (name : AlarmName) : Move s (flagMatched s name) :=
  .ite (fun _ => setFlag_moves ..) fun _ => .refl s

theorem flagMatchedAlarms_moves (s : State) : Move s (flagMatchedAlarms s) := .foldl (fun t n _ => flagMatched_moves t n) s

theorem takeBackup_moves (low : Bool) (s : State) : Move s (takeBackup low s) :=
  .ite (fun _ => .trans (t := countMode _ (s.modSupply _)) (.of_seen rfl) (setFlag_moves ..)) fun _ =>
    .ite (fun _ => .refl s) fun _ => .of_seen rfl

theorem recordStart_moves (kind : StartKind) (s : State) : Move s (recordStart kind s) := .of_seen rfl

theorem applyPending_moves (s : State) : Move s (applyPending s) :=
  .ite (fun _ => .trans (.trans (modAlarm_moves ..) (countClock_moves ..)) (takeReturnBy_moves _)) fun _ => .refl s

theorem discardPending_moves (s : State) : Move s (discardPending s) :=
  .ite (fun _ => .trans (modAlarm_moves ..) (countClock_moves ..)) fun _ => .refl s

theorem powerReturn_moves (low : Bool) (s : State) : Move s (powerReturn low s) := by
  refine .trans ?_ (recordStart_moves ..)
  refine .trans ?_ (takeBackup_moves ..)
  refine .trans ?_ (flagMatchedAlarms_moves _)
  refine .trans ?_ (setFlag_moves ..)
  refine .trans ?_ (discardPending_moves _)
  refine .trans ?_ (applyPending_moves _)
  exact .trans .started (completeEntries_moves ..)

theorem coldStart_moves (low : Bool) (s : State) : Move s (coldStart low s) := Move.reset.trans (takeBackup_moves ..)

theorem mainsReturn_moves (event : MainsReturn) (s : State) : Move s (mainsReturn event s) :=
  (backupCount_moves ..).trans (.ite (fun _ => powerReturn_moves ..) fun _ => coldStart_moves ..)

theorem restartPart_moves (h : Header) (s : State) : Move s (restartPart h s) := by
  refine .trans ?_ (recordStart_moves ..)
  refine .trans ?_ (takeBackup_moves ..)
  refine .trans ?_ (flagMatchedAlarms_moves _)
  refine .trans ?_ (queueReply_moves ..)
  have lost : ∀ t, Move t (loseWaiting t) := fun _ => .of_seen rfl
  exact ((completeEntries_moves ..).trans .started).trans (lost _)

/-! ### Service controller -/

theorem writeStation_moves (station : Nat) (e : Station) (s : State) : Move s (writeStation station e s) := .of_seen rfl

theorem loadStation_moves (station : Nat) (entry : StationEntry) (s : State) : Move s (loadStation station entry s).1 := by
  unfold loadStation
  split
  · exact .refl s
  split
  · exact .refl s
  split
  · exact .refl s
  · exact .refl s
  · split
    · exact .refl s
    split
    · unfold removeStation
      split
      · exact .refl s
      split
      · exact .refl s
      · exact .of_seen rfl
    · unfold placeRole
      split
      · exact .refl s
      split
      · exact .refl s
      · exact writeStation_moves ..

theorem setNoticeMask_moves (station : Nat) (mask : List (Option NoticeFlag)) (s : State) :
    Move s (setNoticeMask station mask s).1 := by
  unfold setNoticeMask
  split
  · exact .refl s
  split
  · exact .refl s
  split
  · exact .refl s
  split
  · exact .refl s
  · split
    · exact writeStation_moves ..
    · exact .refl s

theorem clearNotices_moves (flags : List (Option NoticeFlag)) (s : State) : Move s (clearNotices flags s).1 := by
  unfold clearNotices
  split
  · exact .refl s
  split
  · exact .refl s
  · exact .of_seen rfl

theorem zeroGroup_moves (g : CounterGroup) (s : State) : Move s (zeroGroup g s) := by
  have floor : ∀ t : State, Move t (t.modSwitch fun w => { w with floorUnderruns := 0, floorDropped := 0 }) :=
    fun _ => .of_seen rfl
  cases g <;> dsimp only [zeroGroup]
  case consoles => exact .foldl (fun t n _ => modSlot_moves n _ t) s
  case channels =>
    refine .trans (.foldl (fun t c hc => ?_) s) (floor _)
    refine modChan_moves (fun _ => rfl) (fun _ => rfl) (fun _ => rfl) (fun _ => le_rfl) ?_
    exact fun h => absurd h (ne_zero_of_mem_upTo hc)
  case channelMinutes =>
    refine .foldl (fun t c _ => ?_) s
    refine modChan_moves (fun _ => rfl) (fun _ => rfl) (fun _ => rfl) (fun _ => le_rfl) ?_
    rintro rfl x ⟨enabled, label, restricted, owner, queue, stamp, _, rest⟩
    exact ⟨enabled, label, restricted, owner, queue, stamp, rfl, rest⟩
  all_goals exact .of_seen rfl

theorem clearCounters_moves (group : Option CounterGroup) (s : State) : Move s (clearCounters group s).1 := by
  unfold clearCounters
  split
  · exact .refl s
  · exact zeroGroup_moves ..

theorem sendHead_moves (s : State) : Move s (sendHead s) := by
  unfold sendHead State.modServ
  dsimp only
  split
  · exact .refl s
  next rest e => exact .outbound rfl fun h => by rw [e] at h; exact (Nat.le_succ _).trans h

/-! ### Requests that change nothing at their owner -/

theorem readTariff_moves (cls : Nat) (s : State) : Move s (readTariff cls s).1 := by
  unfold readTariff
  split <;> exact .refl s

theorem readAccount_moves (key : RecordKey) (s : State) : Move s (readAccount key s).1 := by
  cases key with
  | number n => exact atAccount_moves (fun _ _ s => .refl s) n s
  | slot n =>
    unfold readAccount
    dsimp only
    split
    · exact .refl s
    · split <;> exact .refl s

theorem readReceiver_moves (key : RecordKey) (s : State) : Move s (readReceiver key s).1 := by
  cases key with
  | number n => exact atSerial_moves (fun _ _ s _ => .refl s) n s
  | slot n =>
    unfold readReceiver
    dsimp only
    split
    · exact .refl s
    · split <;> exact .refl s

theorem readBatch_moves (station : Nat) (s : State) : Move s (readBatch station s).1 := by
  unfold readBatch
  split
  · exact .refl s
  · split <;> exact .refl s

theorem readChannel_moves (c : Nat) (s : State) : Move s (readChannel c s).1 := by
  unfold readChannel
  split <;> exact .refl s

theorem readConsole_moves (slot : Nat) (s : State) : Move s (readConsole slot s).1 := by
  unfold readConsole
  split <;> exact .refl s

theorem readBooth_moves (b : Nat) (s : State) : Move s (readBooth b s).1 := by
  unfold readBooth
  split <;> exact .refl s

theorem readStation_moves (station : Nat) (s : State) : Move s (readStation station s).1 := by
  unfold readStation
  split
  · exact .refl s
  · split <;> exact .refl s

theorem readCounters_moves (group : Option CounterGroup) (s : State) : Move s (readCounters group s).1 := by
  unfold readCounters
  split <;> exact .refl s

theorem findReceiver_moves (serial : Nat) (s : State) : Move s (findReceiver serial s).1 :=
  atSerial_moves (fun _ _ s _ => .refl s) serial s

end Sys2Proof.Machine
end

