-- ==== Sys2Proof/Proofs/MovesCommands.lean ====
section
/-! SUPPORT. Every command moves the part, from its operands or from the bytes of a message; so does every step. -/

namespace Sys2Proof.Machine

/-- The outcome is a next state that a move leads to. -/
def MovesTo (s : State) (o : Host.Outcome State Fault Refusal) : Prop := ∃ t, o = .next t ∧ Move s t

theorem MovesTo.next {s t : State} (h : Move s t) : MovesTo s (.next t) := ⟨t, rfl, h⟩

theorem MovesTo.move {s t : State} (h : MovesTo s (.next t)) : Move s t := by
  obtain ⟨_, ⟨⟩, moves⟩ := h
  exact moves

theorem serve_movesTo {owner : State → State × Answer} (ho : ∀ s, Move s (owner s).1) (h : Header) (may : Role → Bool)
    (fits : Bool) (s : State) : MovesTo s (.next (serve h may fits owner s)) := .next (serve_moves ho h may fits s)

/-- A request that its owner answers without a change. -/
theorem read_movesTo {owner : State → State × Answer} (ho : ∀ s, (owner s).1 = s) (h : Header) (may : Role → Bool)
    (fits : Bool) (s : State) : MovesTo s (.next (serve h may fits owner s)) :=
  serve_movesTo (fun s => (ho s).symm ▸ .refl s) h may fits s

/-- An event of the ports and the supply. -/
theorem event_movesTo {event : State → State} (h : ∀ s, Move s (event s)) (s : State) :
    MovesTo s (.next (whileMains event s)) := .next (whileMains_moves (h s))

/-- Every command but a run of bytes at the service port. -/
theorem exec_movesTo_of_command {c : Instr} (hc : ∀ bytes, c ≠ .messageDropped bytes) (s : State) :
    MovesTo s (exec c s) := by
  cases c with
  | messageDropped bytes => exact absurd rfl (hc bytes)
  | blockTick order => exact event_movesTo (fun _ => .trans (t := startTick _) (.of_seen rfl) (runTakings_moves ..)) s
  | displayEnd slot => exact event_movesTo (fun _ => .ite (fun _ => displayTick_moves ..) fun _ => .refl _) s
  | secondTick order => exact event_movesTo (fun _ => runTakings_moves ..) s
  | offerExpiry booth => exact event_movesTo (fun _ => .ite (fun _ => offerSecond_moves ..) fun _ => .refl _) s
  | outOfRange serial =>
    refine event_movesTo (fun s => ?_) s
    split
    · exact .ite (fun _ => rangeSecond_moves ..) fun _ => .refl _
    · exact .refl _
  | batchTimeout station =>
    refine event_movesTo (fun s => ?_) s
    split
    · exact .ite (fun _ => batchSecond_moves ..) fun _ => .refl _
    · exact .refl _
  | minuteTick order => exact event_movesTo (fun s => (issueMinute_moves s).trans (runTakings_moves ..)) s
  | turnDue booth => exact event_movesTo (fun _ => .ite (fun _ => turnMinute_moves ..) fun _ => .refl _) s
  | alarmMatch alarm =>
    exact event_movesTo (fun s => .ite (fun _ => (recordMatch_moves alarm s).trans (takeEffect_moves ..)) fun _ => .refl _) s
  | returnByEffect => exact event_movesTo takeReturnBy_moves s
  | sessionCloseEffect => exact event_movesTo takeSessionClose_moves s
  | loopReturn frame => exact event_movesTo (loopReturn_moves _) s
  | consoleAbsent slot => exact event_movesTo (fun _ => .ite (fun _ => missFrame_moves ..) fun _ => .refl _) s
  | loopBroken => exact event_movesTo (fun _ => .ite (fun _ => countDeparture_moves _) fun _ => .refl _) s
  | floorBlockArrival block => exact event_movesTo (floorArrival_moves block) s
  | receiverReport report => exact event_movesTo (takeReport_moves _) s
  | docked h serial rackSlot battery => exact .next (serveRack_moves (takeRack_moves (fun _ _ _ => dock_moves ..) _ serial) h s)
  | undocked h serial rackSlot => exact .next (serveRack_moves (takeRack_moves undock_moves _ serial) h s)
  | cell h serial battery => exact .next (serveRack_moves (takeRack_moves (fun _ _ _ => .receiver ..) _ serial) h s)
  | outboundSend => exact event_movesTo sendHead_moves s
  | loadConsole h slot configured booth seat => exact serve_movesTo (fun _ => loadConsole_moves ..) ..
  | readConsole h slot => exact serve_movesTo (readConsole_moves slot) ..
  | loadBooth h booth a b interlock limit mode => exact serve_movesTo (fun _ => loadBooth_moves ..) ..
  | readBooth h booth => exact serve_movesTo (readBooth_moves booth) ..
  | loadChannel h channel label restricted policy => exact serve_movesTo (fun _ => loadChannel_moves ..) ..
  | readChannel h channel => exact serve_movesTo (readChannel_moves channel) ..
  | clearStamp h channel => exact serve_movesTo (clearStamp_moves channel) ..
  | enableChannel h channel => exact serve_movesTo (enableChannel_moves channel) ..
  | disableChannel h channel force => exact serve_movesTo (disableChannel_moves channel force) ..
  | forceSilent h booth => exact serve_movesTo (forceSilent_moves booth) ..
  | setRelay h booth source => exact serve_movesTo (setRelay_moves booth source) ..
  | fetchCalls h => exact serve_movesTo fetchCalls_moves ..
  | readLoop h => exact read_movesTo (fun _ => rfl) ..
  | readAir h => exact read_movesTo (fun _ => rfl) ..
  | enrol h serial => exact serve_movesTo (enrol_moves serial) ..
  | withdraw h serial => exact serve_movesTo (withdraw_moves serial) ..
  | reinstate h serial => exact serve_movesTo (reinstate_moves serial) ..
  | deleteReceiver h serial => exact serve_movesTo (deleteReceiver_moves serial) ..
  | issue h serial account => exact serve_movesTo (issue_moves serial account) ..
  | returnReceiver h serial => exact serve_movesTo (returnReceiver_moves serial) ..
  | declareLost h serial => exact serve_movesTo (declareLost_moves serial) ..
  | find h serial => exact serve_movesTo (findReceiver_moves serial) ..
  | readReceiver h key => exact serve_movesTo (readReceiver_moves key) ..
  | readHire h => exact read_movesTo (fun _ => rfl) ..
  | batchItem h account serial more abort => exact serve_movesTo (fun _ => batchItem_moves ..) ..
  | readBatch h station => exact serve_movesTo (readBatch_moves station) ..
  | loadTariff h cls len rate cap overdue lost => exact serve_movesTo (fun _ => loadTariff_moves ..) ..
  | readTariff h cls => exact serve_movesTo (readTariff_moves cls) ..
  | accountLoad h account cls limit access => exact serve_movesTo (fun _ => accountLoad_moves ..) ..
  | suspend h account => exact serve_movesTo (suspendAccount_moves account) ..
  | resume h account => exact serve_movesTo (resumeAccount_moves account) ..
  | close h account => exact serve_movesTo (closeAccount_moves account) ..
  | clearBalance h account expected => exact serve_movesTo (clearBalance_moves account expected) ..
  | readAccount h key => exact serve_movesTo (readAccount_moves key) ..
  | readStatements h => exact read_movesTo (fun _ => rfl) ..
  | releaseStatements h count head => exact serve_movesTo (releaseStatements_moves count head) ..
  | readAccounting h => exact read_movesTo (fun _ => rfl) ..
  | readDuty h => exact read_movesTo (fun _ => rfl) ..
  | releaseDuty h count => exact serve_movesTo (releaseDuty_moves count) ..
  | cutDuty h => exact serve_movesTo cutDuty_moves ..
  | clearDutyTotals h => exact serve_movesTo clearDutyTotals_moves ..
  | setClock h value => exact serve_movesTo (setClock_moves value) ..
  | loadAlarm h alarm day dayOn hour hourOn minute minuteOn => exact serve_movesTo (fun _ => loadAlarm_moves ..) ..
  | clearAlarm h alarm => exact serve_movesTo (clearAlarm_moves alarm) ..
  | readClock h => exact read_movesTo (fun _ => rfl) ..
  | setMode h mode => exact serve_movesTo (setMode_moves mode) ..
  | loadParameters h absence offer silent threshold stamps high => exact serve_movesTo (fun _ => loadParameters_moves ..) ..
  | readParameters h => exact read_movesTo (fun _ => rfl) ..
  | restart h => exact .next (takeMessage_moves (whenAdmitted_moves (restartPart_moves h) h controlOnly true) s)
  | readSupply h => exact read_movesTo (fun _ => rfl) ..
  | loadStation h station entry => exact serve_movesTo (loadStation_moves station entry) ..
  | setNoticeMask h station mask => exact serve_movesTo (setNoticeMask_moves station mask) ..
  | readStation h station => exact serve_movesTo (readStation_moves station) ..
  | readNotices h => exact read_movesTo (fun _ => rfl) ..
  | clearNotices h flags => exact serve_movesTo (clearNotices_moves flags) ..
  | readCounters h group => exact serve_movesTo (readCounters_moves group) ..
  | clearCounters h group => exact serve_movesTo (clearCounters_moves group) ..
  | mainsLoss => exact event_movesTo (event := mainsLoss) (fun _ => .of_seen rfl) s
  | backupSecond => exact .next (.ite (fun _ => backupSecond_moves s) fun _ => .refl s)
  | mainsReturn event => exact .next (.ite (fun _ => mainsReturn_moves event s) fun _ => .refl s)
  | backupLowIndication low => exact event_movesTo (takeBackup_moves low) s

/-! ### Messages by their bytes -/

/-- What a body is read as moves the part. -/
def Act.Moves (act : Act) : Prop := ∀ h s, MovesTo s (act h s)

/-- Whatever is read of a body moves the part. -/
def Reads (r : Reader Act) : Prop := ∀ body act rest, r body = some (act, rest) → act.Moves

/-- A command, its operands read. -/
theorem reads_command (c : Header → Instr)
    (hc : ∀ h bytes, c h ≠ .messageDropped bytes := by rintro _ _ ⟨⟩) :
    Reads (pure fun h => exec (c h)) := by
  rintro body act rest ⟨⟩ h s
  exact exec_movesTo_of_command (hc h) s

theorem reads_none : Reads fun _ => none := by
  rintro body act rest ⟨⟩

theorem reads_bind {α : Type} {x : Reader α} {f : α → Reader Act} (hf : ∀ v, Reads (f v)) : Reads (x >>= f) := by
  intro body act rest e
  obtain ⟨⟨v, body'⟩, _, e⟩ := Option.bind_eq_some_iff.mp e
  exact hf v body' act rest e

theorem reads_ite {p : Prop} [Decidable p] {x y : Reader Act} (hx : Reads x) (hy : Reads y) : Reads (if p then x else y) := by
  split
  · exact hx
  · exact hy

theorem reads_oneNum (c : Header → Nat → Instr)
    (hc : ∀ h n bytes, c h n ≠ .messageDropped bytes := by rintro _ _ _ ⟨⟩) :
    Reads (oneNum fun h n => exec (c h n)) := reads_bind fun n => reads_command _ fun h => hc h n

theorem reads_oneKey (c : Header → RecordKey → Instr)
    (hc : ∀ h n bytes, c h n ≠ .messageDropped bytes := by rintro _ _ _ ⟨⟩) :
    Reads (oneKey fun h n => exec (c h n)) := reads_bind fun n => reads_command _ fun h => hc h n

theorem mem_of_byName {α : Type} {entries : List (String × α)} {name : List Byte} {v : α}
    (h : byName entries name = some v) : ∃ text, (text, v) ∈ entries := by
  obtain ⟨e, found, rfl⟩ := Option.map_eq_some_iff.mp h
  exact ⟨e.1, List.mem_of_find?_eq_some found⟩

theorem reads_oneTable {tables : List (String × Reader Act)} (ht : ∀ e ∈ tables, Reads e.2) : Reads (oneTable tables) := by
  refine reads_bind fun name => ?_
  split
  next found =>
    obtain ⟨text, mem⟩ := mem_of_byName found
    exact ht _ mem
  next => exact reads_none

theorem loadTables_read : ∀ e ∈ loadTables, Reads e.2 := by
  simp only [loadTables, List.forall_mem_cons]
  exact ⟨reads_bind fun slot => reads_bind fun configured => reads_bind fun booth => reads_bind fun seat =>
      reads_command fun h => .loadConsole h slot configured booth seat,
    reads_bind fun booth => reads_bind fun a => reads_bind fun b => reads_bind fun i => reads_bind fun n => reads_bind fun m =>
      reads_command fun h => .loadBooth h booth a b i n m,
    reads_bind fun c => reads_bind fun l => reads_bind fun r => reads_bind fun p =>
      reads_command fun h => .loadChannel h c l r p,
    reads_bind fun c => reads_bind fun l => reads_bind fun r => reads_bind fun k => reads_bind fun o => reads_bind fun t =>
      reads_command fun h => .loadTariff h c l r k o t,
    reads_bind fun a => reads_bind fun c => reads_bind fun l => reads_bind fun access =>
      reads_command fun h => .accountLoad h a c l access,
    reads_bind fun a => reads_bind fun d => reads_bind fun d' => reads_bind fun h => reads_bind fun h' => reads_bind fun m =>
      reads_bind fun m' => reads_command fun hdr => .loadAlarm hdr a d d' h h' m m',
    reads_bind fun n => reads_bind fun e => reads_command fun h => .loadStation h n e,
    reads_bind fun a => reads_bind fun o => reads_bind fun l => reads_bind fun t => reads_bind fun m => reads_bind fun w =>
      reads_command fun h => .loadParameters h a o l t m w, List.forall_mem_nil _⟩

theorem readTables_read : ∀ e ∈ readTables, Reads e.2 := by
  simp only [readTables, List.forall_mem_cons]
  exact ⟨reads_oneNum .readConsole, reads_oneNum .readBooth, reads_oneNum .readChannel, reads_oneNum .readTariff,
    reads_oneKey .readAccount, reads_oneKey .readReceiver, reads_oneNum .readBatch, reads_oneNum .readStation,
    reads_command .readParameters, reads_command .readLoop, reads_command .readAir, reads_command .readHire,
    reads_command .readAccounting, reads_command .readClock, reads_command .readSupply, List.forall_mem_nil _⟩

theorem speechRequests_read : ∀ e ∈ speechRequests, Reads e.2.read := by
  simp only [speechRequests, List.forall_mem_cons]
  exact ⟨reads_oneTable loadTables_read, reads_oneTable readTables_read, reads_oneNum .clearStamp,
    reads_oneNum .enableChannel,
    reads_bind fun c => reads_bind fun force => reads_command fun h => .disableChannel h c force,
    reads_oneNum .forceSilent, reads_bind fun b => reads_bind fun source => reads_command fun h => .setRelay h b source,
    reads_command .fetchCalls, reads_command .readDuty, reads_oneNum .releaseDuty, reads_command .cutDuty,
    reads_command .clearDutyTotals, List.forall_mem_nil _⟩

theorem hireRequests_read : ∀ e ∈ hireRequests, Reads e.2.read := by
  simp only [hireRequests, List.forall_mem_cons]
  exact ⟨reads_oneNum .enrol, reads_oneNum .withdraw, reads_oneNum .reinstate, reads_oneNum .deleteReceiver,
    reads_bind fun serial => reads_bind fun account => reads_command fun h => .issue h serial account,
    reads_oneNum .returnReceiver, reads_oneNum .declareLost, reads_oneNum .find, reads_oneKey .readReceiver,
    reads_bind fun account => reads_bind fun serial => reads_bind fun more => reads_bind fun abort =>
      reads_command fun h => .batchItem h account serial more abort, List.forall_mem_nil _⟩

theorem accountRequests_read : ∀ e ∈ accountRequests, Reads e.2.read := by
  simp only [accountRequests, List.forall_mem_cons]
  exact ⟨reads_bind fun a => reads_bind fun c => reads_bind fun l => reads_bind fun access =>
      reads_command fun h => .accountLoad h a c l access,
    reads_oneNum .suspend, reads_oneNum .resume, reads_oneNum .close,
    reads_bind fun account => reads_bind fun expected => reads_command fun h => .clearBalance h account expected,
    reads_oneKey .readAccount, reads_command .readStatements,
    reads_bind fun count => reads_bind fun head => reads_command fun h => .releaseStatements h count head, List.forall_mem_nil _⟩

theorem partRequests_read : ∀ e ∈ partRequests, Reads e.2.read := by
  simp only [partRequests, List.forall_mem_cons]
  exact ⟨reads_bind fun value => reads_command fun h => .setClock h value,
    reads_bind fun alarm => reads_command fun h => .clearAlarm h alarm,
    reads_bind fun mode => reads_command fun h => .setMode h mode, reads_command .restart,
    reads_bind fun station => reads_bind fun mask => reads_command fun h => .setNoticeMask h station mask,
    reads_command .readNotices, reads_bind fun flags => reads_command fun h => .clearNotices h flags,
    reads_bind fun group => reads_command fun h => .readCounters h group,
    reads_bind fun group => reads_command fun h => .clearCounters h group, List.forall_mem_nil _⟩

theorem requests_read : ∀ e ∈ requests, Reads e.2.read := by
  simp only [requests, List.forall_mem_append]
  exact ⟨⟨⟨speechRequests_read, hireRequests_read⟩, accountRequests_read⟩, partRequests_read⟩

theorem rackBody_reads : Reads rackBody :=
  reads_bind fun _ => reads_bind fun serial =>
    reads_ite (reads_bind fun slot => reads_bind fun battery => reads_command fun h => .docked h serial slot battery)
      (reads_ite (reads_bind fun slot => reads_command fun h => .undocked h serial slot)
        (reads_ite (reads_bind fun battery => reads_command fun h => .cell h serial battery) reads_none))

theorem moves_of_readWhole {r : Reader Act} (hr : Reads r) {body : List Byte} {act : Act} (h : readWhole r body = some act) :
    act.Moves := by
  unfold readWhole at h
  split at h
  next e => cases h; exact hr _ _ _ e
  next => cases h

theorem takeRequestBody_movesTo (h : Header) (role : Role) (body : List Byte) (s : State) :
    MovesTo s (takeRequestBody h role body s) := by
  have malformed : MovesTo s (.next (refuseMalformed h (messageReceived s))) :=
    .next ((messageReceived_moves s).trans (refuseMalformed_moves ..))
  unfold takeRequestBody
  split
  · exact malformed
  split
  · exact malformed
  next request found =>
    split
    · exact .next ((messageReceived_moves s).trans (refuseRole_moves ..))
    split
    · exact malformed
    next act read =>
      obtain ⟨text, mem⟩ := mem_of_byName found
      exact moves_of_readWhole (requests_read _ mem) read h s

theorem takeRackBody_movesTo (h : Header) (body : List Byte) (s : State) : MovesTo s (takeRackBody h body s) := by
  unfold takeRackBody
  split
  next act read => exact moves_of_readWhole rackBody_reads read h s
  next => exact .next (serveRack_moves (takeRack_moves (fun _ _ s => .refl s) false 0) h s)

theorem takeKind_movesTo (kind : Nat) (h : Header) (role : Role) (body : List Byte) (s : State) :
    MovesTo s (takeKind kind h role body s) := by
  have counted : ∀ f, MovesTo s (.next (countServ f (messageReceived s))) :=
    fun f => .next ((messageReceived_moves s).trans (countServ_moves ..))
  unfold takeKind
  split
  · exact takeRequestBody_movesTo ..
  · exact counted _
  · exact counted _
  · exact takeRackBody_movesTo ..
  · exact .next (messageReceived_moves s)

theorem takeBytes_movesTo (bytes : List Byte) (s : State) : MovesTo s (takeBytes bytes s) := by
  have counted : ∀ f, MovesTo s (.next (countServ f (messageReceived s))) :=
    fun f => .next ((messageReceived_moves s).trans (countServ_moves ..))
  unfold takeBytes
  split
  · exact counted _
  split
  · exact counted _
  split
  · exact counted _
  · exact takeKind_movesTo ..

/-! ### Every step -/

theorem exec_movesTo (c : Instr) (s : State) : MovesTo s (exec c s) := by
  by_cases hc : ∃ bytes, c = .messageDropped bytes
  · obtain ⟨bytes, rfl⟩ := hc
    show MovesTo s (execMessageDropped bytes s)
    unfold execMessageDropped messageLost
    split
    next lost =>
      split at lost
      · cases lost; exact .next (.refl s)
      split at lost
      · cases lost
      · cases lost; exact .next (.of_seen rfl)
    next => exact takeBytes_movesTo bytes s
  · exact exec_movesTo_of_command (fun bytes e => hc ⟨bytes, e⟩) s

/-- A step to a next state is a move. -/
theorem step_moves {s t : State} (h : step s = .next t) : Move s t := by
  unfold step at h
  split at h
  · cases h; exact .refl s
  next c rest _ =>
    have taken : Move s (s.withPending rest) := .of_seen rfl
    exact taken.trans ((h ▸ exec_movesTo c _ : MovesTo (s.withPending rest) (.next t)).move)

end Sys2Proof.Machine
end

