-- ==== Sys2Proof/Proofs/Rules.lean ====
section
/-! SUPPORT. Rules for the operations that the moves are made of: what each leaves of channels, booths and consoles. -/

namespace Sys2Proof.Machine

/-! ### Setting a flag and closing a duty entry leave every record alone -/

@[simp] theorem setFlag_chan (f : NoticeFlag) (s : State) (c : Nat) : (setFlag f s).chan c = s.chan c := by
  simp [State.chan]

@[simp] theorem setFlag_boothRec (f : NoticeFlag) (s : State) (b : Nat) : (setFlag f s).boothRec b = s.boothRec b := by
  simp [State.boothRec]

@[simp] theorem setFlag_console (f : NoticeFlag) (s : State) (n : Nat) : (setFlag f s).console n = s.console n := by
  simp [State.console]

@[simp] theorem setFlag_slotState (f : NoticeFlag) (s : State) (n : Nat) : (setFlag f s).slotState n = s.slotState n := by
  simp [State.slotState]

@[simp] theorem setFlag_now (f : NoticeFlag) (s : State) : (setFlag f s).now = s.now := by simp [State.now]

@[simp] theorem setFlag_mode (f : NoticeFlag) (s : State) : (setFlag f s).mode = s.mode := by simp [State.mode]

@[simp] theorem setFlag_params (f : NoticeFlag) (s : State) : (setFlag f s).params = s.params := by simp [State.params]

@[simp] theorem dutyClose_chan (n : Nat) (r : EndReason) (s : State) (c : Nat) : (dutyClose n r s).chan c = s.chan c := rfl

@[simp] theorem dutyClose_boothRec (n : Nat) (r : EndReason) (s : State) (b : Nat) :
    (dutyClose n r s).boothRec b = s.boothRec b := rfl

@[simp] theorem modBooth_chan (b : Nat) (f : Booth → Booth) (s : State) (c : Nat) : (s.modBooth b f).chan c = s.chan c := rfl

@[simp] theorem modChan_boothRec (c : Nat) (f : Channel → Channel) (s : State) (b : Nat) :
    (s.modChan c f).boothRec b = s.boothRec b := rfl

@[simp] theorem modChan_console (c : Nat) (f : Channel → Channel) (s : State) (n : Nat) :
    (s.modChan c f).console n = s.console n := rfl

@[simp] theorem modChan_mode (c : Nat) (f : Channel → Channel) (s : State) : (s.modChan c f).mode = s.mode := rfl

@[simp] theorem changeMode_chan (m : Mode) (s : State) (c : Nat) : (changeMode m s).chan c = s.chan c := rfl

@[simp] theorem changeMode_boothRec (m : Mode) (s : State) (b : Nat) : (changeMode m s).boothRec b = s.boothRec b := rfl

/-! ### Release (R7, R8) -/

/-- What a channel record is after its owner's release; the stamp is written outside SETUP when the channel is enabled. -/
def releasedChannel (s : State) (x : Channel) : Channel :=
  { x with
    owner := none
    queue := []
    stamp := if s.mode ≠ .setup ∧ x.enabled = true then stampAt s.params.stampMode s.now x.stamp else x.stamp }

theorem release_of_not_owner {c b : Nat} {s : State} (h : (s.chan c).owner ≠ some b) : release c b s = s := if_neg h

theorem enterFallback_chan (c d : Nat) (s : State) :
    (enterFallback c s).chan d =
      if d = c then { s.chan c with stamp := stampAt s.params.stampMode s.now (s.chan c).stamp } else s.chan d := by
  unfold enterFallback
  dsimp only
  split
  · rw [setFlag_chan, chan_modChan]
  · rw [chan_modChan]

theorem release_chan {c b : Nat} {s : State} (h : (s.chan c).owner = some b) (d : Nat) :
    (release c b s).chan d = if d = c then releasedChannel s (s.chan c) else s.chan d := by
  unfold release
  dsimp only
  rw [if_pos h]
  split
  next inFallback =>
    rw [Bool.and_eq_true, decide_eq_true_eq, chan_modChan_self] at inFallback
    have air : s.mode ≠ .setup ∧ (s.chan c).enabled = true := inFallback
    rw [enterFallback_chan]
    by_cases e : d = c
    · simp [e, releasedChannel, air]
      rfl
    · simp [e, chan_modChan]
  next quiet =>
    rw [Bool.and_eq_true, decide_eq_true_eq, chan_modChan_self] at quiet
    have still : ¬(s.mode ≠ .setup ∧ (s.chan c).enabled = true) := quiet
    rw [chan_modChan]
    simp [releasedChannel, still]

@[simp] theorem release_boothRec (c b k : Nat) (s : State) : (release c b s).boothRec k = s.boothRec k := by
  simp [State.boothRec]

@[simp] theorem release_console (c b n : Nat) (s : State) : (release c b s).console n = s.console n := by
  simp [State.console]

@[simp] theorem releaseSelected_boothRec (b k : Nat) (s : State) : (releaseSelected b s).boothRec k = s.boothRec k := by
  simp [State.boothRec]

@[simp] theorem releaseSelected_console (b n : Nat) (s : State) : (releaseSelected b s).console n = s.console n := by
  simp [State.console]

theorem releaseSelected_of_selected {b c : Nat} {s : State} (h : (s.boothRec b).selected = some c) :
    releaseSelected b s = release c b s := by
  simp [releaseSelected, h]

/-- A release changes at most the channel that the booth owns and has selected. -/
theorem releaseSelected_chan (b d : Nat) (s : State) :
    (releaseSelected b s).chan d =
      if (s.boothRec b).selected = some d ∧ (s.chan d).owner = some b then releasedChannel s (s.chan d) else s.chan d := by
  unfold releaseSelected
  split
  next c selected =>
    by_cases owned : (s.chan c).owner = some b
    · rw [release_chan owned]
      by_cases e : d = c
      · simp [e, selected, owned]
      · have : c ≠ d := fun h => e h.symm
        simp [e, selected, this]
    · rw [release_of_not_owner owned]
      split
      next h =>
        obtain ⟨sel, own⟩ := h
        rw [selected] at sel
        cases sel
        exact absurd own owned
      next => rfl
  next none => simp [none]

/-! ### A booth falls silent (R36) -/

theorem goSilent_of_silent {b : Nat} {s : State} (h : (s.boothRec b).onAir = false) (reason : EndReason) :
    goSilent b reason s = s := by
  have : FloorState.console (s.boothRec b).floor = none := by simpa [Booth.onAir] using h
  simp [goSilent, this]

theorem goSilent_of_console {b slot : Nat} {s : State} (h : FloorState.console (s.boothRec b).floor = some slot)
    (reason : EndReason) :
    goSilent b reason s = (dutyClose slot reason (releaseSelected b s)).modBooth b Booth.silenced := by
  simp [goSilent, h]

theorem console_of_onAir {x : Booth} (h : x.onAir = true) : ∃ slot, FloorState.console x.floor = some slot :=
  Option.isSome_iff_exists.mp h

/-- A forced silence either finds the booth SILENT and changes nothing, or releases, closes and silences. -/
theorem goSilent_cases (b : Nat) (reason : EndReason) (s : State) :
    ((s.boothRec b).onAir = false ∧ goSilent b reason s = s) ∨
      ∃ slot, FloorState.console (s.boothRec b).floor = some slot ∧
        goSilent b reason s = (dutyClose slot reason (releaseSelected b s)).modBooth b Booth.silenced := by
  cases h : (s.boothRec b).onAir with
  | false => exact .inl ⟨rfl, goSilent_of_silent h reason⟩
  | true =>
    obtain ⟨slot, console⟩ := console_of_onAir h
    exact .inr ⟨slot, console, goSilent_of_console console reason⟩

@[simp] theorem goSilent_console (b n : Nat) (reason : EndReason) (s : State) :
    (goSilent b reason s).console n = s.console n := by
  obtain ⟨_, e⟩ | ⟨slot, _, e⟩ := goSilent_cases b reason s
  · rw [e]
  · rw [e, console_modBooth]
    exact releaseSelected_console b n s

theorem goSilent_chan (b d : Nat) (reason : EndReason) (s : State) :
    (goSilent b reason s).chan d =
      if (s.boothRec b).onAir = true ∧ (s.boothRec b).selected = some d ∧ (s.chan d).owner = some b then
        releasedChannel s (s.chan d)
      else s.chan d := by
  obtain ⟨silent, e⟩ | ⟨slot, console, e⟩ := goSilent_cases b reason s
  · simp [e, silent]
  · rw [e, modBooth_chan, dutyClose_chan, releaseSelected_chan]
    simp [onAir_of_console console]

theorem goSilent_boothRec_ne {b k : Nat} (h : k ≠ b) (reason : EndReason) (s : State) :
    (goSilent b reason s).boothRec k = s.boothRec k := by
  obtain ⟨_, e⟩ | ⟨slot, _, e⟩ := goSilent_cases b reason s
  · rw [e]
  · simp [e, boothRec_modBooth, h]

/-- A booth that has fallen silent is off the air and keeps its configuration. -/
theorem goSilent_core (b : Nat) (reason : EndReason) (s : State) :
    ((goSilent b reason s).boothRec b).core = { (s.boothRec b).core with onAir := false } := by
  obtain ⟨silent, e⟩ | ⟨slot, _, e⟩ := goSilent_cases b reason s
  · simp [e, Booth.core, silent]
  · rw [e, boothRec_modBooth_self, dutyClose_boothRec, releaseSelected_boothRec]
    rfl

theorem goSilent_onAir (b k : Nat) (reason : EndReason) (s : State) :
    ((goSilent b reason s).boothRec k).onAir = (decide (k ≠ b) && (s.boothRec k).onAir) := by
  by_cases e : k = b
  · subst e
    have off : ((goSilent k reason s).boothRec k).onAir = false := congrArg BoothCore.onAir (goSilent_core k reason s)
    simp [off]
  · rw [goSilent_boothRec_ne e]
    simp [e]

/-- The selected output channel as the invariants read it. -/
def BoothCore.selected (x : BoothCore) : Option Nat :=
  match x.output with
  | .a => x.aChannel
  | .b => x.bChannel

theorem goSilent_selected (b k : Nat) (reason : EndReason) (s : State) :
    ((goSilent b reason s).boothRec k).selected = (s.boothRec k).selected := by
  by_cases e : k = b
  · subst e
    exact congrArg BoothCore.selected (goSilent_core k reason s)
  · rw [goSilent_boothRec_ne e]

theorem goSilent_aChannel (b k : Nat) (reason : EndReason) (s : State) :
    ((goSilent b reason s).boothRec k).aChannel = (s.boothRec k).aChannel := by
  by_cases e : k = b
  · subst e
    exact congrArg BoothCore.aChannel (goSilent_core k reason s)
  · rw [goSilent_boothRec_ne e]

theorem goSilent_bChannel (b k : Nat) (reason : EndReason) (s : State) :
    ((goSilent b reason s).boothRec k).bChannel = (s.boothRec k).bChannel := by
  by_cases e : k = b
  · subst e
    exact congrArg BoothCore.bChannel (goSilent_core k reason s)
  · rw [goSilent_boothRec_ne e]

/-! ### A claim granted (R5) -/

theorem takeOwnership_chan (c b d : Nat) (s : State) :
    (takeOwnership c b s).chan d = if d = c then { s.chan c with owner := some b } else s.chan d := chan_modChan ..

@[simp] theorem takeOwnership_boothRec (c b k : Nat) (s : State) : (takeOwnership c b s).boothRec k = s.boothRec k := rfl

theorem claimRefusal_none {x : Channel} : claimRefusal x = none ↔ x.enabled = true ∧ x.owner = none := by
  unfold claimRefusal
  cases x.enabled <;> cases x.owner <;> simp

/-! ### Listener adjustments (R75) -/

/-- A listener count less one for the channel that a receiver listened to, and one more for the channel that it listens to. -/
def adjusted (before after : Option Nat) (c n : Nat) : Nat :=
  if before = after then n
  else if before = some c then n - 1
  else if after = some c then n + 1
  else n

theorem adjustListeners_chan (before after : Option Nat) (c : Nat) (s : State) :
    (adjustListeners before after s).chan c = { s.chan c with listeners := adjusted before after c (s.chan c).listeners } := by
  cases before with
  | none =>
    cases after with
    | none => simp [adjustListeners, adjusted]
    | some d =>
      by_cases e : c = d
      · simp [adjustListeners, adjusted, e]
      · have : d ≠ c := fun h => e h.symm
        simp [adjustListeners, adjusted, chan_modChan, e, this]
  | some b =>
    cases after with
    | none =>
      by_cases e : c = b
      · simp [adjustListeners, adjusted, e]
      · have : b ≠ c := fun h => e h.symm
        simp [adjustListeners, adjusted, chan_modChan, e, this]
    | some d =>
      by_cases same : b = d
      · simp [adjustListeners, adjusted, same]
      · by_cases e : c = d
        · subst e
          simp [adjustListeners, adjusted, chan_modChan, same, Ne.symm same]
        · by_cases e' : c = b
          · subst e'
            simp [adjustListeners, adjusted, chan_modChan, e]
          · simp [adjustListeners, adjusted, chan_modChan, same, e, e', Ne.symm e, Ne.symm e']

theorem adjustListeners_same (o : Option Nat) (s : State) : adjustListeners o o s = s := by
  cases o <;> simp [adjustListeners]

theorem writeReceiver_chan (slot : Nat) (r : Receiver) (c : Nat) (s : State) :
    (writeReceiver slot r s).chan c =
      { s.chan c with
        listeners :=
          adjusted ((Table.look s.hire.receivers slot).bind Receiver.listening) r.listening c (s.chan c).listeners } :=
  adjustListeners_chan ..

@[simp] theorem writeReceiver_receivers (slot : Nat) (r : Receiver) (s : State) :
    (writeReceiver slot r s).hire = { s.hire with receivers := Table.put slot r s.hire.receivers } := by
  simp [writeReceiver]

/-! ### The values at a start (R20, R49) -/

theorem startValues_chan (c : Nat) (s : State) : (startValues s).chan c = (s.chan c).started :=
  Table.get_change _ _ rfl _ _

theorem startValues_boothRec (b : Nat) (s : State) : (startValues s).boothRec b = (s.boothRec b).started :=
  Table.get_change _ _ rfl _ _

theorem startValues_console (n : Nat) (s : State) : (startValues s).console n = (s.console n).started :=
  Table.get_change _ _ rfl _ _

theorem startValues_slotState (n : Nat) (s : State) : (startValues s).slotState n = (s.slotState n).started :=
  Table.get_change _ _ rfl _ _

theorem reset_chan {c : Nat} (h : c ≠ 0) : State.reset.chan c = {} := by
  have : (0 : Nat) ≠ c := fun e => h e.symm
  simp [State.chan, State.reset, Table.get, Table.look, this]

end Sys2Proof.Machine
end

