-- ==== Sys2Proof/Proofs/Invariants.lean ====
section
/-! SUPPORT. Each invariant is kept by every move, so by every step. -/

namespace Sys2Proof.Machine

/-- The records that the invariants read stand as they were. -/
structure SameRecords (s t : State) : Prop where
  channels : t.switch.channels = s.switch.channels
  places : ∀ n, (t.console n).booth = (s.console n).booth
  booths : ∀ b, (t.boothRec b).core = (s.boothRec b).core
  receivers : t.hire.receivers = s.hire.receivers
  mode : t.mode = s.mode

theorem SameRecords.of_lists {s t : State} (h : t.seen = s.seen.withLists t.seen) : SameRecords s t where
  channels := congrArg Seen.channels h
  places n := congrFun (congrArg Seen.places h) n
  booths b := congrFun (congrArg Seen.booths h) b
  receivers := congrArg Seen.receivers h
  mode := congrArg Seen.mode h

theorem SameRecords.of_clock {s t : State} {c : Clock} (h : t.seen = { s.seen with clock := c }) : SameRecords s t where
  channels := congrArg Seen.channels h
  places n := congrFun (congrArg Seen.places h) n
  booths b := congrFun (congrArg Seen.booths h) b
  receivers := congrArg Seen.receivers h
  mode := congrArg Seen.mode h

theorem SameRecords.sendFrame (s : State) : SameRecords s (sendFrame s) := ⟨rfl, fun _ => rfl, fun _ => rfl, rfl, rfl⟩

namespace SameRecords

variable {s t : State}

theorem chan (h : SameRecords s t) (c : Nat) : t.chan c = s.chan c := by
  unfold State.chan
  rw [h.channels]

theorem onAir (h : SameRecords s t) (b : Nat) : (t.boothRec b).onAir = (s.boothRec b).onAir :=
  congrArg BoothCore.onAir (h.booths b)

theorem selected (h : SameRecords s t) (b : Nat) : (t.boothRec b).selected = (s.boothRec b).selected :=
  congrArg BoothCore.selected (h.booths b)

end SameRecords

/-! ### Queues -/

/-- The block queue of every channel record is within its capacity. -/
def ChannelsFit (s : State) : Prop := ∀ e ∈ s.switch.channels, e.2.queue.length ≤ Config.blockQueue

theorem queuesFit_iff (s : State) : QueuesFit s ↔ s.seen.listsFit ∧ ChannelsFit s :=
  ⟨fun ⟨a, channels, rest⟩ => ⟨⟨a, rest⟩, channels⟩, fun ⟨⟨a, rest⟩, channels⟩ => ⟨a, channels, rest⟩⟩

theorem chan_queue_fits {s : State} (h : ChannelsFit s) (c : Nat) : (s.chan c).queue.length ≤ Config.blockQueue := by
  unfold State.chan Table.get
  cases found : Table.look s.switch.channels c with
  | none => exact Nat.zero_le _
  | some x => exact h _ (Table.mem_of_look found)

theorem modChan_queuesFit {s : State} (h : QueuesFit s) {c : Nat} {f : Channel → Channel}
    (hf : (s.chan c).queue.length ≤ Config.blockQueue → (f (s.chan c)).queue.length ≤ Config.blockQueue) :
    QueuesFit (s.modChan c f) := by
  obtain ⟨loop, channels, rest⟩ := h
  exact ⟨loop, Table.forall_set channels (hf (chan_queue_fits channels c)), rest⟩

theorem setFlag_queuesFit {s : State} (h : QueuesFit s) (f : NoticeFlag) : QueuesFit (setFlag f s) := by
  obtain ⟨loop, channels, floor, notes, statements, duty, outbound⟩ := h
  simp only [QueuesFit, setFlag_frame]
  exact ⟨loop, channels, floor, notes, statements, duty, setFlag_length f outbound⟩

theorem release_queuesFit {s : State} (h : QueuesFit s) (c b : Nat) : QueuesFit (release c b s) := by
  have freed : QueuesFit (s.modChan c fun x => { x with owner := none, queue := [] }) :=
    modChan_queuesFit h fun _ => Nat.zero_le _
  unfold release
  dsimp only
  split
  · split
    · unfold enterFallback
      dsimp only
      split
      · exact setFlag_queuesFit (modChan_queuesFit freed id) _
      · exact modChan_queuesFit freed id
    · exact freed
  · exact h

theorem releaseSelected_queuesFit {s : State} (h : QueuesFit s) (b : Nat) : QueuesFit (releaseSelected b s) := by
  unfold releaseSelected
  split
  · exact release_queuesFit h ..
  · exact h

theorem dutyClose_queuesFit {s : State} (h : QueuesFit s) (slot : Nat) (reason : EndReason) :
    QueuesFit (dutyClose slot reason s) := by
  obtain ⟨loop, channels, floor, notes, statements, duty, outbound⟩ := h
  exact ⟨loop, channels, floor, notes, statements, by simpa [dutyClose, completeEntries] using duty, outbound⟩

theorem goSilent_queuesFit {s : State} (h : QueuesFit s) (b : Nat) (reason : EndReason) : QueuesFit (goSilent b reason s) := by
  obtain ⟨_, e⟩ | ⟨slot, _, e⟩ := goSilent_cases b reason s
  · rw [e]; exact h
  · rw [e]; exact dutyClose_queuesFit (releaseSelected_queuesFit h b) slot reason

theorem takeOwnership_queuesFit {s : State} (h : QueuesFit s) (c b : Nat) : QueuesFit (takeOwnership c b s) :=
  modChan_queuesFit h id

theorem turnOff_queuesFit {s : State} (h : QueuesFit s) (c : Nat) : QueuesFit (turnOff c s) :=
  modChan_queuesFit h fun _ => Nat.zero_le _

theorem writeReceiver_queuesFit {s : State} (h : QueuesFit s) (slot : Nat) (r : Receiver) :
    QueuesFit (writeReceiver slot r s) := by
  have written : QueuesFit (s.modHire fun h => { h with receivers := Table.put slot r h.receivers }) := h
  unfold writeReceiver adjustListeners
  split
  · exact written
  · exact modChan_queuesFit written id
  · exact modChan_queuesFit written id
  · split
    · exact written
    · exact modChan_queuesFit (modChan_queuesFit written id) id

theorem started_channelsFit (s : State) : ChannelsFit (startValues s) := by
  have all : ∀ t u : Table Channel,
      ∀ e ∈ t.foldr (fun e rest => Table.set {} e.1 (Table.get {} u e.1).started rest) [],
        e.2.queue.length ≤ Config.blockQueue := by
    intro t u
    induction t with
    | nil => simp
    | cons e t ih => exact Table.forall_set ih (Nat.zero_le _)
  exact all _ _

theorem queuesFit_reset : QueuesFit State.reset :=
  ⟨by decide, by decide, by decide, by decide, by decide, by decide, by decide⟩

theorem queuesFit_kept {s t : State} (moves : Move s t) (h : QueuesFit s) : QueuesFit t := by
  induction moves with
  | trans _ _ ih ih' => exact ih' (ih h)
  | lists same fits =>
    rw [queuesFit_iff] at h ⊢
    refine ⟨fits h.1, ?_⟩
    unfold ChannelsFit
    rw [(SameRecords.of_lists same).channels]
    exact h.2
  | @sent s t _ room ih =>
    obtain ⟨_, rest⟩ := ih h
    obtain ⟨outstanding, _⟩ := h
    refine ⟨?_, rest⟩
    show (t.loop.outstanding ++ [t.loop.nextSequence]).length ≤ _
    rw [List.length_append]
    exact room outstanding
  | @clock s t same _ =>
    rw [queuesFit_iff] at h ⊢
    rw [same]
    refine ⟨h.1, ?_⟩
    unfold ChannelsFit
    rw [(SameRecords.of_clock same).channels]
    exact h.2
  | channel c f keeps => exact modChan_queuesFit h keeps.queue
  | placed => exact h
  | configured => exact h
  | output => exact h
  | source => exact h
  | live slot b c => exact takeOwnership_queuesFit h c b
  | switched slot b o c => exact releaseSelected_queuesFit (takeOwnership_queuesFit h c b) b
  | silenced b reason => exact goSilent_queuesFit h b reason
  | turnedOn c => exact modChan_queuesFit h fun _ => Nat.zero_le _
  | turnedOff c => exact turnOff_queuesFit h c
  | forcedOff c b => exact turnOff_queuesFit (goSilent_queuesFit h b _) c
  | mode => exact h
  | setup =>
    have changed : ∀ u : State, QueuesFit u → QueuesFit (changeMode .setup u) := fun _ => id
    exact foldl_invariant QueuesFit _ (fun t b ht => goSilent_queuesFit ht b .mode) _ _ (changed _ h)
  | receiver slot r => exact writeReceiver_queuesFit h slot r
  | receivers => exact h
  | deleted => exact h
  | @started s =>
    obtain ⟨_, _, _, _, statements, duty, _⟩ := h
    exact ⟨Nat.zero_le _, started_channelsFit s, Nat.zero_le _, Nat.zero_le _, statements, duty, Nat.zero_le _⟩
  | reset => exact queuesFit_reset

/-! ### The clock -/

theorem clockFits_of_time {s t : State} (e : t.time = s.time) (h : ClockFits s) : ClockFits t := by
  unfold ClockFits State.now
  rw [e]
  exact h

theorem clockFits_reset : ClockFits State.reset := by
  unfold ClockFits
  decide

theorem clockFits_kept {s t : State} (moves : Move s t) (h : ClockFits s) : ClockFits t := by
  induction moves with
  | trans _ _ ih ih' => exact ih' (ih h)
  | @lists s t same =>
    have e : t.now = s.now := congrArg Seen.clock same
    unfold ClockFits
    rw [e]
    exact h
  | sent _ _ ih => exact clockFits_of_time rfl (ih h)
  | clock _ fits => exact fits h
  | channel | placed | configured | output | source | turnedOn | turnedOff | mode | receivers | deleted | started | live =>
    exact clockFits_of_time rfl h
  | switched => exact clockFits_of_time (by simp [claimAndSwitch]) h
  | silenced => exact clockFits_of_time (by simp) h
  | forcedOff => exact clockFits_of_time (by simp) h
  | setup => exact clockFits_of_time (by simp) h
  | receiver => exact clockFits_of_time (by simp) h
  | reset => exact clockFits_reset

/-! ### Channel 0 -/

theorem floorChannelFixed_iff (s : State) :
    FloorChannelFixed s ↔
      (s.chan 0).isFloor ∧
        ∀ b, (s.boothRec b).aChannel.all isChannel = true ∧ (s.boothRec b).bChannel.all isChannel = true := Iff.rfl

/-- A booth that names only channels 1 to 48 has not selected channel 0. -/
theorem selected_isChannel {x : Booth} (h : x.aChannel.all isChannel = true ∧ x.bChannel.all isChannel = true) {c : Nat}
    (selected : x.selected = some c) : isChannel c = true := by
  obtain ⟨a, b⟩ := h
  unfold Booth.selected at selected
  split at selected
  · simpa [selected] using a
  · simpa [selected] using b

theorem channelOf_isChannel {x : Booth} (h : x.aChannel.all isChannel = true ∧ x.bChannel.all isChannel = true) {c : Nat}
    {o : Output} (names : x.channelOf o = some c) : isChannel c = true := by
  obtain ⟨a, b⟩ := h
  cases o with
  | a => simpa [show x.aChannel = some c from names] using a
  | b => simpa [show x.bChannel = some c from names] using b

theorem floorFixed_of_same {s t : State} (h : FloorChannelFixed s) (chan : t.chan 0 = s.chan 0)
    (a : ∀ b, (t.boothRec b).aChannel = (s.boothRec b).aChannel)
    (b' : ∀ b, (t.boothRec b).bChannel = (s.boothRec b).bChannel) : FloorChannelFixed t := by
  rw [floorChannelFixed_iff] at h ⊢
  simpa [chan, a, b'] using h

theorem floorFixed_of_records {s t : State} (h : FloorChannelFixed s) (same : SameRecords s t) : FloorChannelFixed t :=
  floorFixed_of_same h (same.chan 0) (fun b => congrArg BoothCore.aChannel (same.booths b))
    fun b => congrArg BoothCore.bChannel (same.booths b)

/-- A change of a booth that keeps its two channels. -/
theorem floorFixed_modBooth {s : State} (h : FloorChannelFixed s) (b : Nat) {f : Booth → Booth}
    (a : ∀ x, (f x).aChannel = x.aChannel := by intro; rfl) (b' : ∀ x, (f x).bChannel = x.bChannel := by intro; rfl) :
    FloorChannelFixed (s.modBooth b f) := by
  refine floorFixed_of_same h rfl (fun k => ?_) fun k => ?_
  · rw [boothRec_modBooth]
    split <;> simp [*]
  · rw [boothRec_modBooth]
    split <;> simp [*]

/-- A change of a channel from 1 to 48. -/
theorem floorFixed_modChan {s : State} (h : FloorChannelFixed s) {c : Nat} (fits : isChannel c = true) (f : Channel → Channel) :
    FloorChannelFixed (s.modChan c f) :=
  floorFixed_of_same h (by rw [chan_modChan, if_neg (ne_zero_of_isChannel fits).symm]) (fun _ => rfl) fun _ => rfl

/-- Channel 0 has no owner, so no release changes it. -/
theorem goSilent_floorFixed {s : State} (h : FloorChannelFixed s) (b : Nat) (reason : EndReason) :
    FloorChannelFixed (goSilent b reason s) := by
  refine floorFixed_of_same h ?_ (goSilent_aChannel b · reason s) (goSilent_bChannel b · reason s)
  obtain ⟨⟨_, _, _, owner, _⟩, _⟩ := h
  rw [goSilent_chan]
  simp [owner]

theorem releaseSelected_floorFixed {s : State} (h : FloorChannelFixed s) (b : Nat) :
    FloorChannelFixed (releaseSelected b s) := by
  refine floorFixed_of_same h ?_ (fun _ => by simp) fun _ => by simp
  obtain ⟨⟨_, _, _, owner, _⟩, _⟩ := h
  rw [releaseSelected_chan]
  simp [owner]

theorem floorChannelFixed_reset : FloorChannelFixed State.reset := ⟨by decide, fun _ => ⟨rfl, rfl⟩⟩

theorem floorChannelFixed_kept {s t : State} (moves : Move s t) (h : FloorChannelFixed s) : FloorChannelFixed t := by
  induction moves with
  | trans _ _ ih ih' => exact ih' (ih h)
  | lists same => exact floorFixed_of_records h (.of_lists same)
  | sent _ _ ih => exact floorFixed_of_records (ih h) (.sendFrame _)
  | clock same => exact floorFixed_of_records h (.of_clock same)
  | @channel s c f keeps =>
    rw [floorChannelFixed_iff] at h ⊢
    obtain ⟨floor, booths⟩ := h
    refine ⟨?_, booths⟩
    rw [chan_modChan]
    split
    next e =>
      subst e
      obtain kept | ⟨b, selected⟩ := keeps.floor rfl floor
      · exact kept
      · exact absurd rfl (ne_zero_of_isChannel (selected_isChannel (booths b) selected))
    next => exact floor
  | placed | mode | receivers | deleted => exact h
  | @configured s b a b' i limit m _ ha hb =>
    obtain ⟨floor, booths⟩ := h
    refine ⟨floor, fun k => ?_⟩
    rw [boothRec_modBooth]
    split
    · exact ⟨ha, hb⟩
    · exact booths k
  | output | source => exact floorFixed_modBooth h _
  | live slot b c n _ _ _ selected =>
    exact floorFixed_modBooth (floorFixed_modChan h (selected_isChannel (h.2 b) selected) _) _
  | switched slot b o c _ _ names =>
    exact floorFixed_modBooth
      (releaseSelected_floorFixed (floorFixed_modChan h (channelOf_isChannel (h.2 b) names) _) b) _
  | silenced b reason => exact goSilent_floorFixed h b reason
  | turnedOn c fits | turnedOff c fits => exact floorFixed_modChan h fits _
  | forcedOff c b fits => exact floorFixed_modChan (goSilent_floorFixed h b _) fits _
  | setup =>
    have changed : ∀ u : State, FloorChannelFixed u → FloorChannelFixed (changeMode .setup u) := fun _ => id
    exact foldl_invariant FloorChannelFixed _ (fun t b ht => goSilent_floorFixed ht b .mode) _ _ (changed _ h)
  | @receiver s slot r =>
    rw [floorChannelFixed_iff] at h ⊢
    rw [writeReceiver_chan]
    simpa [State.boothRec, Channel.isFloor] using h
  | started =>
    rw [floorChannelFixed_iff] at h ⊢
    obtain ⟨⟨enabled, label, restricted, _, _, stamp, minutes, _⟩, booths⟩ := h
    rw [startValues_chan]
    refine ⟨⟨enabled, label, restricted, rfl, rfl, stamp, minutes, rfl, rfl⟩, fun b => ?_⟩
    rw [startValues_boothRec]
    exact booths b
  | reset => exact floorChannelFixed_reset

/-! ### Listeners -/

theorem listenersCounted_of_same {s t : State} (h : ListenersCounted s)
    (listeners : ∀ c, (t.chan c).listeners = (s.chan c).listeners) (receivers : t.hire.receivers = s.hire.receivers) :
    ListenersCounted t := by
  obtain ⟨rising, counted⟩ := h
  refine ⟨receivers ▸ rising, fun c => ?_⟩
  rw [listeners, receivers]
  exact counted c

theorem listenersCounted_of_records {s t : State} (h : ListenersCounted s) (same : SameRecords s t) : ListenersCounted t :=
  listenersCounted_of_same h (fun c => by rw [same.chan]) same.receivers

theorem listeners_modChan {s : State} {c : Nat} {f : Channel → Channel}
    (hf : (f (s.chan c)).listeners = (s.chan c).listeners) (d : Nat) :
    ((s.modChan c f).chan d).listeners = (s.chan d).listeners := by
  rw [chan_modChan]
  split
  next e => rw [hf, e]
  next => rfl

theorem takeOwnership_listeners (c b : Nat) (s : State) (d : Nat) :
    ((takeOwnership c b s).chan d).listeners = (s.chan d).listeners := listeners_modChan rfl d

theorem goSilent_listeners (b : Nat) (reason : EndReason) (s : State) (c : Nat) :
    ((goSilent b reason s).chan c).listeners = (s.chan c).listeners := by
  rw [goSilent_chan]
  split <;> rfl

theorem releaseSelected_listeners (b : Nat) (s : State) (c : Nat) :
    ((releaseSelected b s).chan c).listeners = (s.chan c).listeners := by
  rw [releaseSelected_chan]
  split <;> rfl

theorem goSilent_listenersCounted {s : State} (h : ListenersCounted s) (b : Nat) (reason : EndReason) :
    ListenersCounted (goSilent b reason s) :=
  listenersCounted_of_same h (goSilent_listeners b reason s) (by simp)

/-- The adjustment sent with the write of a receiver record is the change of the number of listening receivers (R75). -/
theorem countP_put_listening {t : Table Receiver} (rising : Table.rising t = true) (slot : Nat) (r : Receiver) (c : Nat) :
    adjusted ((Table.look t slot).bind Receiver.listening) r.listening c
        (t.countP fun e => decide (e.2.listening = some c)) =
      (Table.put slot r t).countP fun e => decide (e.2.listening = some c) := by
  have counts := Table.countP_put rising (fun e => decide (e.2.listening = some c)) slot r
  unfold adjusted
  cases found : Table.look t slot with
  | none =>
    simp only [found, decide_eq_true_eq, Option.bind_none] at counts ⊢
    by_cases e : r.listening = some c
    · simp [e] at counts ⊢
      omega
    · simp [e] at counts ⊢
      exact counts.symm
  | some w =>
    simp only [found, decide_eq_true_eq, Option.bind_some] at counts ⊢
    by_cases e : w.listening = some c
    · by_cases e' : r.listening = some c
      · simp [e, e'] at counts ⊢
        omega
      · simp [e, e', Ne.symm e'] at counts ⊢
        omega
    · by_cases e' : r.listening = some c
      · simp [e, e'] at counts ⊢
        omega
      · simp [e, e'] at counts ⊢
        omega

theorem writeReceiver_listenersCounted {s : State} (h : ListenersCounted s) (slot : Nat) (r : Receiver) :
    ListenersCounted (writeReceiver slot r s) := by
  obtain ⟨rising, counted⟩ := h
  rw [ListenersCounted, writeReceiver_receivers]
  refine ⟨Table.rising_put rising, fun c => ?_⟩
  rw [writeReceiver_chan]
  dsimp only
  rw [counted]
  exact countP_put_listening rising slot r c

/-- A record that listens to nothing leaves no count behind. -/
theorem countP_drop_listening {t : Table Receiver} (rising : Table.rising t = true) {slot : Nat} {r : Receiver}
    (record : (slot, r) ∈ t) (quiet : r.listening = none) (c : Nat) :
    (Table.drop slot t).countP (fun e => decide (e.2.listening = some c)) =
      t.countP fun e => decide (e.2.listening = some c) := by
  unfold Table.drop
  rw [List.countP_filter]
  refine List.countP_congr fun e he => ?_
  suffices e.2.listening = some c → e.1 ≠ slot by simpa using this
  rintro listens rfl
  have own : Table.look t e.1 = some r := Table.look_of_mem rising record
  have other : Table.look t e.1 = some e.2 := Table.look_of_mem rising he
  rw [own] at other
  cases other
  rw [quiet] at listens
  cases listens

theorem started_listening (r : Receiver) : r.started.listening = none := by
  simp [Receiver.listening, Receiver.started]

theorem listenersCounted_reset : ListenersCounted State.reset := by
  refine ⟨rfl, fun c => ?_⟩
  by_cases e : c = 0
  · subst e; rfl
  · exact congrArg Channel.listeners (reset_chan e)

theorem listenersCounted_kept {s t : State} (moves : Move s t) (h : ListenersCounted s) : ListenersCounted t := by
  induction moves with
  | trans _ _ ih ih' => exact ih' (ih h)
  | lists same => exact listenersCounted_of_records h (.of_lists same)
  | sent _ _ ih => exact listenersCounted_of_records (ih h) (.sendFrame _)
  | clock same => exact listenersCounted_of_records h (.of_clock same)
  | channel c f keeps => exact listenersCounted_of_same h (listeners_modChan keeps.listeners) rfl
  | placed | configured | output | source | mode => exact h
  | live slot b c => exact listenersCounted_of_same h (takeOwnership_listeners c b _) rfl
  | @switched s slot b o c =>
    refine listenersCounted_of_same h (fun d => ?_) (by simp [claimAndSwitch])
    show ((releaseSelected b (takeOwnership c b s)).chan d).listeners = _
    rw [releaseSelected_listeners]
    exact takeOwnership_listeners c b s d
  | silenced b reason => exact goSilent_listenersCounted h b reason
  | turnedOn | turnedOff => exact listenersCounted_of_same h (listeners_modChan rfl) rfl
  | forcedOff c b => exact listenersCounted_of_same (goSilent_listenersCounted h b _) (listeners_modChan rfl) rfl
  | setup =>
    have changed : ∀ u : State, ListenersCounted u → ListenersCounted (changeMode .setup u) := fun _ => id
    exact foldl_invariant ListenersCounted _ (fun t b ht => goSilent_listenersCounted ht b .mode) _ _ (changed _ h)
  | receiver slot r => exact writeReceiver_listenersCounted h slot r
  | @receivers s f keeps =>
    obtain ⟨rising, counted⟩ := h
    refine ⟨Table.rising_map _ rising, fun c => ?_⟩
    show (s.chan c).listeners = _
    rw [counted, modHire_hire, List.countP_map]
    simp [Function.comp_def, keeps]
  | @deleted s slot r record quiet =>
    obtain ⟨rising, counted⟩ := h
    refine ⟨Table.rising_drop rising, fun c => ?_⟩
    show (s.chan c).listeners = _
    rw [counted, modHire_hire, countP_drop_listening rising record quiet]
  | @started s =>
    refine ⟨Table.rising_map _ h.1, fun c => ?_⟩
    rw [startValues_chan]
    show 0 = (s.hire.receivers.map fun e => (e.1, e.2.started)).countP _
    rw [List.countP_map]
    simp [Function.comp_def, started_listening]
  | reset => exact listenersCounted_reset

/-! ### Ownership -/

/-- Booths and channels agree on ownership, in any mode. -/
structure Agrees (s : State) : Prop where
  owns : ∀ b, (s.boothRec b).onAir = true → ∃ c, (s.boothRec b).selected = some c ∧ (s.chan c).owner = some b
  owned : ∀ b c, (s.chan c).owner = some b → (s.boothRec b).onAir = true ∧ (s.boothRec b).selected = some c
  enabled : ∀ c, (s.chan c).owner.isSome = true → (s.chan c).enabled = true
  booths : ∀ b, (s.boothRec b).onAir = true → isBooth b = true
  places : ∀ n b, (s.console n).booth = some b → isBooth b = true

theorem ownershipAgrees_iff (s : State) :
    OwnershipAgrees s ↔ Agrees s ∧ (s.mode = .setup → ∀ b, (s.boothRec b).onAir = false) :=
  ⟨fun ⟨owns, owned, enabled, booths, places, setup⟩ => ⟨⟨owns, owned, enabled, booths, places⟩, setup⟩,
    fun ⟨⟨owns, owned, enabled, booths, places⟩, setup⟩ => ⟨owns, owned, enabled, booths, places, setup⟩⟩

theorem agrees_of_same {s t : State} (h : Agrees s) (owner : ∀ c, (t.chan c).owner = (s.chan c).owner)
    (enabled : ∀ c, (t.chan c).owner.isSome = true → (s.chan c).enabled = true → (t.chan c).enabled = true)
    (onAir : ∀ b, (t.boothRec b).onAir = (s.boothRec b).onAir)
    (selected : ∀ b, (s.boothRec b).onAir = true → (t.boothRec b).selected = (s.boothRec b).selected)
    (places : ∀ n b, (t.console n).booth = some b → isBooth b = true) : Agrees t where
  owns b live := by
    rw [onAir] at live
    obtain ⟨c, sel, own⟩ := h.owns b live
    exact ⟨c, by rw [selected b live, sel], by rw [owner, own]⟩
  owned b c own := by
    rw [owner] at own
    obtain ⟨live, sel⟩ := h.owned b c own
    rw [onAir, selected b live]
    exact ⟨live, sel⟩
  enabled c own := enabled c own (h.enabled c (owner c ▸ own))
  booths b live := h.booths b (onAir b ▸ live)
  places := places

theorem ownershipAgrees_of_same {s t : State} (h : OwnershipAgrees s) (owner : ∀ c, (t.chan c).owner = (s.chan c).owner)
    (enabled : ∀ c, (t.chan c).owner.isSome = true → (s.chan c).enabled = true → (t.chan c).enabled = true)
    (onAir : ∀ b, (t.boothRec b).onAir = (s.boothRec b).onAir)
    (selected : ∀ b, (s.boothRec b).onAir = true → (t.boothRec b).selected = (s.boothRec b).selected)
    (places : ∀ n, (t.console n).booth = (s.console n).booth) (mode : t.mode = s.mode) : OwnershipAgrees t := by
  rw [ownershipAgrees_iff] at h ⊢
  obtain ⟨agrees, setup⟩ := h
  refine ⟨agrees_of_same agrees owner enabled onAir selected fun n b place => agrees.places n b (places n ▸ place), ?_⟩
  intro inSetup b
  rw [onAir]
  exact setup (mode ▸ inSetup) b

theorem ownershipAgrees_of_records {s t : State} (h : OwnershipAgrees s) (same : SameRecords s t) : OwnershipAgrees t :=
  ownershipAgrees_of_same h (fun c => by rw [same.chan]) (fun c _ e => by rw [same.chan, e]) same.onAir
    (fun b _ => same.selected b) same.places same.mode

/-- A booth that falls silent frees the one channel that it owns. -/
theorem goSilent_agrees {s : State} (h : Agrees s) (b : Nat) (reason : EndReason) : Agrees (goSilent b reason s) where
  owns k live := by
    rw [goSilent_onAir, Bool.and_eq_true, decide_eq_true_eq] at live
    obtain ⟨ne, live⟩ := live
    obtain ⟨c, sel, own⟩ := h.owns k live
    refine ⟨c, by rw [goSilent_selected, sel], ?_⟩
    rw [goSilent_chan, if_neg, own]
    rintro ⟨_, _, own'⟩
    rw [own] at own'
    exact ne (Option.some.inj own')
  owned k c own := by
    rw [goSilent_chan] at own
    split at own
    · cases own
    next kept =>
      obtain ⟨live, sel⟩ := h.owned k c own
      have ne : k ≠ b := by
        rintro rfl
        exact kept ⟨live, sel, own⟩
      rw [goSilent_onAir, goSilent_selected]
      simp [ne, live, sel]
  enabled c own := by
    rw [goSilent_chan] at own ⊢
    split at own
    · cases own
    next kept =>
      rw [if_neg kept]
      exact h.enabled c own
  booths k live := by
    rw [goSilent_onAir, Bool.and_eq_true] at live
    exact h.booths k live.2
  places n k place := by
    rw [goSilent_console] at place
    exact h.places n k place

/-- After a booth has fallen silent, the channel that it owned has no owner. -/
theorem goSilent_free {s : State} (h : Agrees s) {b c : Nat} (own : (s.chan c).owner = some b) (reason : EndReason) :
    ((goSilent b reason s).chan c).owner = none := by
  obtain ⟨live, sel⟩ := h.owned b c own
  rw [goSilent_chan, if_pos ⟨live, sel, own⟩]
  rfl

theorem silenced_fold_onAir (l : List Nat) (s : State) (k : Nat) :
    ((l.foldl (fun t b => goSilent b .mode t) s).boothRec k).onAir = (decide (k ∉ l) && (s.boothRec k).onAir) := by
  induction l generalizing s with
  | nil => simp
  | cons b l ih =>
    rw [List.foldl_cons, ih, goSilent_onAir]
    by_cases e : k = b <;> simp [e]

theorem mem_booths {b : Nat} (h : isBooth b = true) : b ∈ upTo Config.booths := by
  simp only [isBooth, within, Bool.and_eq_true, decide_eq_true_eq] at h
  rw [upTo, List.mem_range'_1]
  omega

/-- At entry to SETUP every booth falls silent (R48). -/
theorem enterSetup_agrees {s : State} (h : Agrees s) : OwnershipAgrees (silenceAll (changeMode .setup s)) := by
  have changed : Agrees (changeMode .setup s) := ⟨h.owns, h.owned, h.enabled, h.booths, h.places⟩
  rw [ownershipAgrees_iff]
  refine ⟨foldl_invariant Agrees _ (fun t b ht => goSilent_agrees ht b .mode) _ _ changed, fun _ b => ?_⟩
  unfold silenceAll
  rw [silenced_fold_onAir]
  cases live : (s.boothRec b).onAir with
  | false => simp [live]
  | true => simp [mem_booths (h.booths b live)]

/-- A booth whose claim is granted owns the channel that it has selected (R29). -/
theorem claimAndLive_agrees {s : State} (h : Agrees s) {slot b c n : Nat} (place : (s.console n).booth = some b)
    (selected : (s.boothRec b).selected = some c) (granted : claimRefusal (s.chan c) = none) :
    Agrees (claimAndLive slot b c s) := by
  obtain ⟨on, free⟩ := claimRefusal_none.mp granted
  have chan : ∀ d, ((claimAndLive slot b c s).chan d) = if d = c then { s.chan c with owner := some b } else s.chan d :=
    fun d => takeOwnership_chan c b d s
  have onAir : ∀ k, ((claimAndLive slot b c s).boothRec k).onAir = (decide (k = b) || (s.boothRec k).onAir) := by
    intro k
    rw [claimAndLive, boothRec_modBooth]
    split
    next e => simp [e, Booth.onAir, FloorState.console]
    next e => simp [e, takeOwnership]
  have sel : ∀ k, ((claimAndLive slot b c s).boothRec k).selected = (s.boothRec k).selected := by
    intro k
    rw [claimAndLive, boothRec_modBooth]
    split
    next e => rw [e]; rfl
    next => rfl
  constructor
  case owns =>
    intro k live
    rw [onAir, Bool.or_eq_true, decide_eq_true_eq] at live
    by_cases e : k = b
    · subst e
      exact ⟨c, by rw [sel, selected], by rw [chan, if_pos rfl]⟩
    · obtain ⟨d, sel', own⟩ := h.owns k (live.resolve_left e)
      refine ⟨d, by rw [sel, sel'], ?_⟩
      rw [chan, if_neg, own]
      rintro rfl
      rw [free] at own
      cases own
  case owned =>
    intro k d own
    rw [chan] at own
    rw [onAir, sel]
    split at own
    next e =>
      cases own
      simp [e, selected]
    next =>
      obtain ⟨live, sel'⟩ := h.owned k d own
      simp [live, sel']
  case enabled =>
    intro d own
    rw [chan] at own ⊢
    split
    · exact on
    next e => exact h.enabled d (by rwa [if_neg e] at own)
  case booths =>
    intro k live
    rw [onAir, Bool.or_eq_true, decide_eq_true_eq] at live
    obtain rfl | live := live
    · exact h.places n k place
    · exact h.booths k live
  case places => exact h.places

/-- A booth that changes to a channel claimed for it owns that channel and no other (R35). -/
theorem claimAndSwitch_agrees {s : State} (h : Agrees s) {slot b c : Nat} {o : Output} (live : (s.boothRec b).onAir = true)
    (names : (s.boothRec b).channelOf o = some c) (granted : claimRefusal (s.chan c) = none) :
    Agrees (claimAndSwitch slot b o c s) := by
  obtain ⟨on, free⟩ := claimRefusal_none.mp granted
  obtain ⟨old, oldSelected, oldOwned⟩ := h.owns b live
  have ne : old ≠ c := by
    rintro rfl
    rw [free] at oldOwned
    cases oldOwned
  have owner : ∀ d, ((claimAndSwitch slot b o c s).chan d).owner =
      if d = c then some b else if d = old then none else (s.chan d).owner := by
    intro d
    rw [claimAndSwitch, modBooth_chan, releaseSelected_chan, takeOwnership_chan, takeOwnership_boothRec, oldSelected]
    by_cases e : d = c
    · have : old ≠ d := e ▸ ne
      simp [e, ne]
    · by_cases e' : d = old
      · simp [e', ne, oldOwned, releasedChannel]
      · have : old ≠ d := fun h => e' h.symm
        simp [e, e', this]
  have enabled : ∀ d, ((claimAndSwitch slot b o c s).chan d).enabled = (s.chan d).enabled := by
    intro d
    have claimed : ((takeOwnership c b s).chan d).enabled = (s.chan d).enabled := by
      rw [takeOwnership_chan]
      split
      next e => rw [e]
      next => rfl
    rw [claimAndSwitch, modBooth_chan, releaseSelected_chan]
    split
    · exact claimed
    · exact claimed
  have booth : ∀ k, k ≠ b → (claimAndSwitch slot b o c s).boothRec k = s.boothRec k := by
    intro k e
    rw [claimAndSwitch, boothRec_modBooth, if_neg e, releaseSelected_boothRec]
    rfl
  have own : ((claimAndSwitch slot b o c s).boothRec b).onAir = true ∧
      ((claimAndSwitch slot b o c s).boothRec b).selected = some c := by
    rw [claimAndSwitch, boothRec_modBooth_self, releaseSelected_boothRec]
    exact ⟨rfl, by cases o <;> exact names⟩
  constructor
  case owns =>
    intro k live'
    by_cases e : k = b
    · subst e
      exact ⟨c, own.2, by rw [owner, if_pos rfl]⟩
    · rw [booth k e] at live' ⊢
      obtain ⟨d, sel, owned⟩ := h.owns k live'
      refine ⟨d, sel, ?_⟩
      have hc : d ≠ c := by
        rintro rfl
        rw [free] at owned
        cases owned
      have ho : d ≠ old := by
        rintro rfl
        rw [oldOwned] at owned
        exact e (Option.some.inj owned).symm
      rw [owner, if_neg hc, if_neg ho, owned]
  case owned =>
    intro k d owned
    rw [owner] at owned
    split at owned
    next e =>
      cases owned
      exact e ▸ own
    next hc =>
      split at owned
      · cases owned
      next ho =>
        obtain ⟨live', sel⟩ := h.owned k d owned
        have e : k ≠ b := by
          rintro rfl
          rw [oldSelected] at sel
          exact ho (Option.some.inj sel).symm
        rw [booth k e]
        exact ⟨live', sel⟩
  case enabled =>
    intro d owned
    rw [enabled]
    rw [owner] at owned
    split at owned
    next e => exact e ▸ on
    next =>
      split at owned
      · cases owned
      · exact h.enabled d owned
  case booths =>
    intro k live'
    by_cases e : k = b
    · exact e ▸ h.booths b live
    · exact h.booths k (booth k e ▸ live')
  case places =>
    intro n k place
    refine h.places n k ?_
    rw [← place, claimAndSwitch, console_modBooth, releaseSelected_console]
    rfl

/-- A change of a booth that is off the air and stays so. -/
theorem modBooth_ownershipAgrees {s : State} (h : OwnershipAgrees s) {b : Nat} {f : Booth → Booth}
    (silent : (s.boothRec b).onAir = false) (hf : (f (s.boothRec b)).onAir = (s.boothRec b).onAir) :
    OwnershipAgrees (s.modBooth b f) := by
  refine ownershipAgrees_of_same h (fun _ => rfl) (fun _ _ => id) (fun k => ?_) (fun k live => ?_) (fun _ => rfl) rfl
  · rw [boothRec_modBooth]
    split
    next e => rw [hf, e]
    next => rfl
  · have ne : k ≠ b := by
      rintro rfl
      rw [silent] at live
      cases live
    rw [boothRec_modBooth, if_neg ne]

theorem goSilent_ownershipAgrees {s : State} (h : OwnershipAgrees s) (b : Nat) (reason : EndReason) :
    OwnershipAgrees (goSilent b reason s) := by
  rw [ownershipAgrees_iff] at h ⊢
  refine ⟨goSilent_agrees h.1 b reason, fun setup k => ?_⟩
  have inSetup : s.mode = .setup := by
    rw [← setup]
    simp [State.mode]
  rw [goSilent_onAir, h.2 inSetup k, Bool.and_false]

/-- A channel without an owner is disabled. -/
theorem turnOff_ownershipAgrees {s : State} (h : OwnershipAgrees s) {c : Nat} (free : (s.chan c).owner = none) :
    OwnershipAgrees (turnOff c s) := by
  have chan : ∀ d, (turnOff c s).chan d = if d = c then { s.chan c with enabled := false, queue := [] } else s.chan d :=
    fun d => chan_modChan ..
  refine ownershipAgrees_of_same h (fun d => ?_) (fun d own on => ?_) (fun _ => rfl) (fun _ _ => rfl) (fun _ => rfl) rfl
  · rw [chan]
    split
    next e => rw [e]
    next => rfl
  · rw [chan] at own ⊢
    split at own
    next e =>
      rw [free] at own
      cases own
    next e =>
      rw [if_neg e]
      exact on

theorem ownershipAgrees_reset : OwnershipAgrees State.reset := by
  have free : ∀ c, (State.reset.chan c).owner = none := by
    intro c
    by_cases e : c = 0
    · subst e; rfl
    · rw [reset_chan e]
  refine ⟨fun b live => ?_, fun b c own => ?_, fun c own => ?_, fun b live => ?_, fun n b place => ?_, fun _ _ => rfl⟩
  · cases live
  · rw [free] at own
    cases own
  · rw [free] at own
    cases own
  · cases live
  · cases place

theorem ownershipAgrees_kept {s t : State} (moves : Move s t) (h : OwnershipAgrees s) : OwnershipAgrees t := by
  induction moves with
  | trans _ _ ih ih' => exact ih' (ih h)
  | lists same => exact ownershipAgrees_of_records h (.of_lists same)
  | sent _ _ ih => exact ownershipAgrees_of_records (ih h) (.sendFrame _)
  | clock same => exact ownershipAgrees_of_records h (.of_clock same)
  | @channel s c f keeps =>
    refine ownershipAgrees_of_same h (fun d => ?_) (fun d _ on => ?_) (fun _ => rfl) (fun _ _ => rfl) (fun _ => rfl) rfl
    · rw [chan_modChan]
      split
      next e => rw [keeps.owner, e]
      next => rfl
    · rw [chan_modChan]
      split
      next e => rw [keeps.enabled, ← e, on]
      next => exact on
  | @placed s n f fits =>
    rw [ownershipAgrees_iff] at h ⊢
    refine ⟨agrees_of_same h.1 (fun _ => rfl) (fun _ _ => id) (fun _ => rfl) (fun _ _ => rfl) fun k b place => ?_, h.2⟩
    rw [console_modConsole] at place
    split at place
    · exact fits _ b place
    · exact h.1.places k b place
  | configured b a b' i limit m mode =>
    exact modBooth_ownershipAgrees h (((ownershipAgrees_iff _).mp h).2 mode b) rfl
  | output b o silent => exact modBooth_ownershipAgrees h silent rfl
  | @source s b source _ =>
    have core : ∀ k, ((setSource b source s).boothRec k).onAir = (s.boothRec k).onAir ∧
        ((setSource b source s).boothRec k).selected = (s.boothRec k).selected := by
      intro k
      rw [setSource, boothRec_modBooth]
      split
      next e => rw [e]; exact ⟨rfl, rfl⟩
      next => exact ⟨rfl, rfl⟩
    exact ownershipAgrees_of_same h (fun _ => rfl) (fun _ _ => id) (fun k => (core k).1) (fun k _ => (core k).2)
      (fun _ => rfl) rfl
  | live slot b c n place mode silent selected granted =>
    rw [ownershipAgrees_iff] at h ⊢
    exact ⟨claimAndLive_agrees h.1 place selected granted, fun setup => absurd setup mode⟩
  | @switched s slot b o c live other names granted =>
    rw [ownershipAgrees_iff] at h ⊢
    refine ⟨claimAndSwitch_agrees h.1 live names granted, fun setup => ?_⟩
    have inSetup : s.mode = .setup := by
      rw [← setup]
      simp [claimAndSwitch, State.mode]
    rw [h.2 inSetup b] at live
    cases live
  | silenced b reason => exact goSilent_ownershipAgrees h b reason
  | @turnedOn s c fits off =>
    have free : (s.chan c).owner = none := by
      cases own : (s.chan c).owner with
      | none => rfl
      | some b =>
        have on := ((ownershipAgrees_iff s).mp h).1.enabled c (by rw [own]; rfl)
        rw [off] at on
        cases on
    refine ownershipAgrees_of_same h (fun d => ?_) (fun d _ on => ?_) (fun _ => rfl) (fun _ _ => rfl) (fun _ => rfl) rfl
    · rw [chan_modChan]
      split
      next e => rw [e, free]
      next => rfl
    · rw [chan_modChan]
      split
      · rfl
      · exact on
  | @turnedOff s c fits free => exact turnOff_ownershipAgrees h free
  | forcedOff c b fits owned =>
    exact turnOff_ownershipAgrees (goSilent_ownershipAgrees h b _)
      (goSilent_free ((ownershipAgrees_iff _).mp h).1 owned _)
  | @mode s m air =>
    rw [ownershipAgrees_iff] at h ⊢
    obtain ⟨⟨owns, owned, enabled, booths, places⟩, _⟩ := h
    exact ⟨⟨owns, owned, enabled, booths, places⟩, fun setup => absurd setup air⟩
  | setup => exact enterSetup_agrees ((ownershipAgrees_iff _).mp h).1
  | @receiver s slot r =>
    refine ownershipAgrees_of_same h (fun c => ?_) (fun c _ on => ?_) (fun b => ?_) (fun b _ => ?_) (fun n => ?_) ?_
    · rw [writeReceiver_chan]
    · rw [writeReceiver_chan]
      exact on
    · simp [State.boothRec]
    · simp [State.boothRec]
    · simp [State.console]
    · simp [State.mode]
  | receivers | deleted => exact h
  | @started s =>
    have silent : ∀ b, ((startValues s).boothRec b).onAir = false := by
      intro b
      rw [startValues_boothRec]
      rfl
    rw [ownershipAgrees_iff] at h ⊢
    refine ⟨⟨?_, ?_, ?_, ?_, fun n b place => h.1.places n b ?_⟩, fun _ => silent⟩
    · intro b live
      rw [silent] at live
      cases live
    · intro b c own
      rw [startValues_chan] at own
      cases own
    · intro c own
      rw [startValues_chan] at own
      cases own
    · intro b live
      rw [silent] at live
      cases live
    · rw [startValues_console] at place
      exact place
  | reset => exact ownershipAgrees_reset

end Sys2Proof.Machine
end

section
/-! The invariants are kept by every step (O55, O57 to O59) and hold after reset (O54). -/

namespace Sys2Proof.Machine

/-- Settles O55: every step is a move, and no move overfills a queue. -/
theorem stepKeepsQueuesFit : Obligations.StepKeepsQueuesFit :=
  fun _ _ h taken => queuesFit_kept (step_moves taken) h

/-- Settles O57: every step is a move; only a move of the clock changes it, and no move changes a fixed field of channel 0. -/
theorem stepKeepsClockAndFloorChannel : Obligations.StepKeepsClockAndFloorChannel :=
  ⟨fun _ _ h taken => clockFits_kept (step_moves taken) h, fun _ _ h taken => floorChannelFixed_kept (step_moves taken) h⟩

/-- Settles O58: every step is a move, and a move that writes a receiver record adjusts the counts with it. -/
theorem stepKeepsListenersCounted : Obligations.StepKeepsListenersCounted :=
  fun _ _ h taken => listenersCounted_kept (step_moves taken) h

/-- Settles O59: every step is a move, and no move takes booths and channels out of agreement. -/
theorem stepKeepsOwnershipAgrees : Obligations.StepKeepsOwnershipAgrees :=
  fun _ _ h taken => ownershipAgrees_kept (step_moves taken) h

theorem relayFits_reset : RelayFits State.reset := by
  unfold RelayFits
  decide

/-- Settles O54: each invariant at the reset state. -/
theorem resetIsSafe : Obligations.ResetIsSafe :=
  ⟨queuesFit_reset, relayFits_reset, clockFits_reset, listenersCounted_reset, ownershipAgrees_reset, floorChannelFixed_reset⟩

end Sys2Proof.Machine
end

