-- ==== Sys2Proof/Proofs/Channels.lean ====
section
/-! The channel switch: claims, releases, forced silences, the floor queue, source resolution, minutes, and the channel requests. -/

namespace Sys2Proof.Machine

/-! ### Claims and releases -/

theorem claimRefusal_of_disabled {x : Channel} (h : x.enabled = false) : claimRefusal x = some .channelOff := by
  simp [claimRefusal, h]

theorem claimRefusal_of_owned {x : Channel} {b : Nat} (enabled : x.enabled = true) (owned : x.owner = some b) :
    claimRefusal x = some .engaged := by
  simp [claimRefusal, enabled, owned]

/-- Settles O23: the three rows of R5, and a grant at the channel record. -/
theorem claimsAreRuledAtTheChannel : Obligations.ClaimsAreRuledAtTheChannel := by
  refine ⟨fun _ => claimRefusal_of_disabled, fun _ enabled free => claimRefusal_none.mpr ⟨enabled, free⟩,
    fun _ _ => claimRefusal_of_owned, fun c b s => ⟨?_, fun d ne => ?_⟩⟩
  · rw [takeOwnership_chan, if_pos rfl]
  · rw [takeOwnership_chan, if_neg ne]

/-- The stamp mode FIRST keeps a stamp that is there; else the clock is taken (R8). -/
theorem stampAt_eq (m : StampMode) (now : Clock) (stamp : Option Clock) :
    stampAt m now stamp = if m = .first ∧ stamp.isSome = true then stamp else some now := by
  cases m with
  | last => rfl
  | first => cases stamp <;> rfl

/-- In SETUP, or of a disabled channel, a release frees the channel and does no more (R7, R21). -/
theorem release_quiet {c b : Nat} {s : State} (owned : (s.chan c).owner = some b)
    (quiet : s.mode = .setup ∨ (s.chan c).enabled = false) :
    release c b s = s.modChan c fun x => { x with owner := none, queue := [] } := by
  unfold release
  rw [if_pos owned]
  refine if_neg ?_
  rw [Bool.and_eq_true, decide_eq_true_eq, chan_modChan_self]
  rintro ⟨air, enabled⟩
  obtain setup | disabled := quiet
  · exact air setup
  · rw [disabled] at enabled
    cases enabled

/-- Outside SETUP a release of an enabled channel takes it into fallback (R7 step 3). -/
theorem release_air {c b : Nat} {s : State} (owned : (s.chan c).owner = some b) (air : s.mode ≠ .setup)
    (enabled : (s.chan c).enabled = true) :
    release c b s = enterFallback c (s.modChan c fun x => { x with owner := none, queue := [] }) := by
  unfold release
  rw [if_pos owned]
  refine if_pos ?_
  rw [Bool.and_eq_true, decide_eq_true_eq, chan_modChan_self]
  exact ⟨air, enabled⟩

theorem enterFallback_flagged {c : Nat} {s : State} (h : 0 < (s.chan c).listeners) :
    (enterFallback c s).flagged .channelFallback = true := by
  simp [enterFallback, h]

theorem enterFallback_serv {c : Nat} {s : State} (h : (s.chan c).listeners = 0) : (enterFallback c s).serv = s.serv := by
  simp [enterFallback, h]

/-- Settles O24: a release by its two forms, in SETUP or of a disabled channel, and into fallback. -/
theorem releaseStampsOutsideSetup : Obligations.ReleaseStampsOutsideSetup := by
  intro c b s
  refine ⟨release_of_not_owner, fun owned => ?_⟩
  dsimp only
  refine ⟨fun d ne => by rw [release_chan owned, if_neg ne], release_quiet owned, fun air enabled => ⟨?_, ?_, ?_⟩⟩
  · rw [release_chan owned, if_pos rfl, releasedChannel, if_pos ⟨air, enabled⟩, stampAt_eq]
  · intro listened
    rw [release_air owned air enabled]
    exact enterFallback_flagged (by simpa using listened)
  · intro unheard
    rw [release_air owned air enabled, enterFallback_serv (by simpa using unheard)]
    rfl

/-! ### Forced silence (R36) -/

theorem release_now (c b : Nat) (s : State) : (release c b s).now = s.now := by simp [State.now]

/-- The close of a console's spell completes its OPEN entries in place (R153). -/
theorem dutyClose_duty (slot : Nat) (reason : EndReason) (s : State) :
    (dutyClose slot reason s).acct.duty =
      s.acct.duty.map fun e =>
        if e.status = .opened ∧ e.slot = slot then
          { e with stop := some s.now, reason := some reason, status := .complete }
        else e := by
  simp [dutyClose, completeEntries, DutyEntry.isOpen, DutyEntry.completed]

/-- Settles O21: a forced silence as one equation, and the rules for its three parts. -/
theorem forcedSilence : Obligations.ForcedSilence := by
  intro b reason s
  refine ⟨fun silent => goSilent_of_silent (silent_of_floor silent) reason, fun slot c console selected owned => ?_⟩
  have whole : goSilent b reason s = (dutyClose slot reason (release c b s)).modBooth b Booth.silenced := by
    rw [goSilent_of_console console, releaseSelected_of_selected selected]
  have freed : (goSilent b reason s).chan c = releasedChannel s (s.chan c) := by
    rw [goSilent_chan, if_pos ⟨onAir_of_console console, selected, owned⟩]
  refine ⟨whole, ?_, fun d ne => goSilent_boothRec_ne ne reason s, fun n => goSilent_console b n reason s,
    by rw [freed]; rfl, by rw [freed]; rfl, fun d ne => ?_, ?_⟩
  · rw [whole, boothRec_modBooth_self, dutyClose_boothRec, release_boothRec]
    rfl
  · rw [goSilent_chan, if_neg]
    rintro ⟨_, other, _⟩
    rw [selected] at other
    exact ne (Option.some.inj other).symm
  · rw [whole]
    show (dutyClose slot reason (release c b s)).acct.duty = _
    rw [dutyClose_duty, release_now]
    simp

/-! ### The floor queue (R13, R14) -/

theorem pushBlock_room {q : List SpeechBlock} (h : q.length < 4) (x : SpeechBlock) : pushBlock q x = (q ++ [x], false) :=
  if_neg (Nat.not_le.mpr h)

theorem pushBlock_full {q : List SpeechBlock} (h : 4 ≤ q.length) (x : SpeechBlock) : pushBlock q x = (q.drop 1 ++ [x], true) :=
  if_pos h

/-- A tick's resolution does not touch what the floor block's taking leaves of booth control and the floor queue. -/
theorem takeResolution_floor (s : State) :
    (takeResolution s).booth = (takeFloorBlock s).booth ∧
      (takeResolution s).switch.floorQueue = (takeFloorBlock s).switch.floorQueue ∧
      (takeResolution s).switch.floorUnderruns = (takeFloorBlock s).switch.floorUnderruns ∧
      (takeResolution s).switch.floorDropped = (takeFloorBlock s).switch.floorDropped := by
  unfold takeResolution
  dsimp only
  split
  · exact ⟨rfl, rfl, rfl, rfl⟩
  · rw [foldl_modChan_eq]
    exact ⟨rfl, rfl, rfl, rfl⟩

/-- Settles O25: the arrival by the two cases of the queue, the taking by the floor block's own rule. -/
theorem floorBlocksAreQueuedAndTaken : Obligations.FloorBlocksAreQueuedAndTaken := by
  have arrives : ∀ (x : SpeechBlock) (s : State), s.supply.mainsLost = false →
      exec (.floorBlockArrival x) s = .next (floorArrival x s) := fun x s present =>
    congrArg Host.Outcome.next (whileMains_present _ present)
  refine ⟨⟨fun x s present room => ?_, fun x s present full => ?_⟩, fun s => ?_⟩
  · rw [arrives x s present, floorArrival, State.modSwitch, pushBlock_room room]
    rfl
  · rw [arrives x s present, floorArrival, State.modSwitch, pushBlock_full full]
    rfl
  · obtain ⟨booth, queue, underruns, dropped⟩ := takeResolution_floor s
    rw [booth, queue, underruns, dropped]
    exact ⟨rfl, rfl, rfl, rfl⟩

/-! ### Source resolution (R15, R16) -/

theorem upTo_nodup (n : Nat) : (upTo n).Nodup := List.nodup_range'

theorem mem_upTo {c n : Nat} : c ∈ upTo n ↔ 1 ≤ c ∧ c ≤ n := by
  rw [upTo, List.mem_range'_1]
  omega

theorem isChannel_iff {c : Nat} : isChannel c = true ↔ 1 ≤ c ∧ c ≤ 48 := by
  simp [isChannel, within]

theorem mem_channels {c : Nat} (h : isChannel c = true) : c ∈ upTo Config.channels := mem_upTo.mpr (isChannel_iff.mp h)

theorem takeResolution_of_setup {s : State} (h : s.mode = .setup) : takeResolution s = takeFloorBlock s := if_pos h

theorem takeResolution_chan {s : State} (air : s.mode ≠ .setup) {c : Nat} (hc : isChannel c = true) :
    (takeResolution s).chan c = resolved (s.chan c) := by
  have fold := chan_foldl_modChan resolved (upTo Config.channels) (upTo_nodup _) (takeFloorBlock s) c
  rw [if_pos (mem_channels hc)] at fold
  unfold takeResolution
  dsimp only
  rw [if_neg air, modAir_chan, fold]
  rfl

theorem takeResolution_blocks {s : State} (air : s.mode ≠ .setup) : (takeResolution s).air.port.blocks = airBlocks s := by
  unfold takeResolution
  dsimp only
  rw [if_neg air]
  rfl

/-- An air block of a channel from 1 to 48 stands in the set exactly when the channel is resolved to it. -/
theorem mem_airBlocks {s : State} {k : AirBlock} :
    k ∈ airBlocks s ↔
      k = floorAirBlock s ∨
        ∃ c, (1 ≤ c ∧ c ≤ 48) ∧ ∃ r, resolve (s.chan c) (floorBlockOf s) = some r ∧ airBlock c (s.chan c) r = k := by
  simp [airBlocks, mem_upTo]

/-- The channels of the blocks that a list of channels is resolved to stand in the order of the list. -/
theorem resolved_channels_sublist (s : State) (l : List Nat) :
    ((l.filterMap fun c => (resolve (s.chan c) (floorBlockOf s)).map (airBlock c (s.chan c))).map (·.channel)).Sublist l := by
  induction l with
  | nil => exact .slnil
  | cons c l ih =>
    rw [List.filterMap_cons]
    cases resolve (s.chan c) (floorBlockOf s) with
    | none => exact .cons c ih
    | some r => exact ih.cons_cons c

theorem airBlocks_channels_sublist (s : State) :
    ((airBlocks s).map (·.channel)).Sublist (0 :: upTo Config.channels) :=
  (resolved_channels_sublist s _).cons_cons 0

theorem channels_ascending : (0 :: upTo Config.channels).Pairwise (· < ·) :=
  List.pairwise_cons.mpr ⟨fun _ h => Nat.pos_of_ne_zero (ne_zero_of_mem_upTo h), List.pairwise_lt_range'⟩

/-- Channel 0's block is FALLBACK with the floor block, or UNDERRUN with silence (R15). -/
theorem floorAirBlock_eq (s : State) :
    floorAirBlock s =
      if s.switch.floorQueue = [] then ⟨0, .underrun, (s.chan 0).restricted, (s.chan 0).label, silence⟩
      else ⟨0, .fallback, (s.chan 0).restricted, (s.chan 0).label, s.switch.floorQueue.headD silence⟩ := by
  unfold floorAirBlock
  split <;> rfl

/-- The rows of the table of R15 at the channel record and in the set. -/
theorem resolution_of_row {s : State} (air : s.mode ≠ .setup) {c : Nat} (hc : isChannel c = true) {y : Channel}
    {r : AirState × SpeechBlock} (record : resolved (s.chan c) = y)
    (source : resolve (s.chan c) (floorBlockOf s) = some r) :
    (takeResolution s).chan c = y ∧
      (⟨c, r.1, (s.chan c).restricted, (s.chan c).label, r.2⟩ : AirBlock) ∈ (takeResolution s).air.port.blocks := by
  rw [takeResolution_chan air hc, takeResolution_blocks air, mem_airBlocks]
  exact ⟨record, .inr ⟨c, isChannel_iff.mp hc, r, source, rfl⟩⟩

/-- Settles O7: the order of the set from the ascending channels it is made from, the rows of R15 one by one. -/
theorem channelsAreResolvedByTheTable : Obligations.ChannelsAreResolvedByTheTable := by
  refine ⟨fun s air => ?_, fun s c hc => ⟨fun setup => ?_, fun air => ⟨fun disabled => ?_, ?_, ?_, ?_, ?_⟩⟩⟩
  · dsimp only
    rw [takeResolution_blocks air]
    refine ⟨congrArg some (floorAirBlock_eq s), channels_ascending.sublist (airBlocks_channels_sublist s), fun k hk => ?_⟩
    have mem := (airBlocks_channels_sublist s).subset (List.mem_map_of_mem hk)
    rcases List.mem_cons.mp mem with zero | listed
    · rw [zero]
      exact Nat.zero_le 48
    · exact (mem_upTo.mp listed).2
  · rw [takeResolution_of_setup setup]
    exact ⟨rfl, rfl⟩
  · rw [takeResolution_chan air hc, takeResolution_blocks air]
    refine ⟨by simp [resolved, disabled], fun k hk same => ?_⟩
    rcases mem_airBlocks.mp hk with rfl | ⟨d, _, r, source, rfl⟩
    · exact ne_zero_of_isChannel hc same.symm
    · have here : d = c := same
      rw [resolve, here, disabled] at source
      cases source
  · intro b q rest enabled owned queue
    exact resolution_of_row (r := (.interpreted, q)) air hc (by simp [resolved, enabled, owned, queue])
      (by simp [resolve, enabled, owned, queue])
  · intro b enabled owned queue
    exact resolution_of_row (r := (.underrun, silence)) air hc (by simp [resolved, enabled, owned, queue])
      (by simp [resolve, enabled, owned, queue])
  · intro enabled free policy
    exact resolution_of_row (r := (.fallback, floorBlockOf s)) air hc (by simp [resolved, free])
      (by simp [resolve, enabled, free, policy])
  · intro enabled free policy
    exact resolution_of_row (r := (.muted, silence)) air hc (by simp [resolved, free])
      (by simp [resolve, enabled, free, policy])

/-! ### Channel minutes (R18) -/

/-- Nothing but the channel records changes when each channel of a list has a change of its own. -/
theorem foldl_modChan_each_eq (f : Nat → Channel → Channel) (l : List Nat) (s : State) :
    ∃ channels, l.foldl (fun t c => t.modChan c (f c)) s = s.modSwitch fun w => { w with channels := channels } := by
  induction l generalizing s with
  | nil => exact ⟨s.switch.channels, rfl⟩
  | cons c l ih =>
    obtain ⟨channels, e⟩ := ih (s.modChan c (f c))
    exact ⟨channels, e⟩

/-- Each channel of the list has its own change once, the others none. -/
theorem chan_foldl_modChan_each (f : Nat → Channel → Channel) (l : List Nat) (distinct : l.Nodup) (s : State) (k : Nat) :
    (l.foldl (fun t c => t.modChan c (f c)) s).chan k = if k ∈ l then f k (s.chan k) else s.chan k := by
  induction l generalizing s with
  | nil => rfl
  | cons c l ih =>
    rw [List.nodup_cons] at distinct
    rw [List.foldl_cons, ih distinct.2, chan_modChan]
    by_cases e : k = c
    · subst e
      simp [distinct.1]
    · simp [e]

theorem floorAndChannels_nodup : (0 :: upTo Config.channels).Nodup :=
  channels_ascending.imp Nat.ne_of_lt

theorem channelMinute_eq (c : Nat) (x : Channel) :
    channelMinute c x =
      { x with
        listenerMinutes := min (x.listenerMinutes + x.listeners) 4294967295
        fallbackMinutes :=
          if 1 ≤ c ∧ x.enabled = true ∧ x.owner = none ∧ 0 < x.listeners then min (x.fallbackMinutes + 1) 4294967295
          else x.fallbackMinutes } := by
  have first : c ≠ 0 ↔ 1 ≤ c := Nat.one_le_iff_ne_zero.symm
  simp [channelMinute, satAdd, bump, counterMax, first, and_assoc]

/-- Settles O9: a fold over channels 0 to 48, each with its own minutes. -/
theorem channelMinutesCount : Obligations.ChannelMinutesCount := by
  intro s c hc
  have setup : s.mode = .setup → takeChannelMinutes s = s := fun h => if_pos h
  have counted : s.mode ≠ .setup →
      takeChannelMinutes s = (0 :: upTo Config.channels).foldl (fun t c => t.modChan c (channelMinute c)) s :=
    fun h => if_neg h
  refine ⟨setup, ?_, fun air => ?_⟩
  · by_cases h : s.mode = .setup
    · exact ⟨s.switch.channels, setup h⟩
    · rw [counted h]
      exact foldl_modChan_each_eq ..
  · have mem : c ∈ 0 :: upTo Config.channels := by
      rw [List.mem_cons, mem_upTo]
      simp only [Config.channels]
      omega
    rw [counted air, chan_foldl_modChan_each _ _ floorAndChannels_nodup, if_pos mem, channelMinute_eq]

/-! ### Listener adjustments (R17, R75) -/

theorem listening_eq_some {r : Receiver} {c : Nat} :
    r.listening = some c ↔ (r.state = .issued ∨ r.state = .overdue) ∧ r.range = .inRange ∧ r.channel = some c := by
  unfold Receiver.listening Receiver.onLoan
  split
  next h => simp_all
  next h =>
    simp only [Bool.and_eq_true, Bool.or_eq_true, decide_eq_true_eq, not_and] at h
    simp only [reduceCtorEq, false_iff, not_and]
    exact fun onLoan inRange => absurd inRange (h onLoan)

/-- Settles O38: the write of a receiver record by its adjustment at each channel. -/
theorem receiverWritesAdjustListeners : Obligations.ReceiverWritesAdjustListeners := by
  intro slot old r s found
  have chan : ∀ c, (writeReceiver slot r s).chan c =
      { s.chan c with listeners := adjusted old.listening r.listening c (s.chan c).listeners } := by
    intro c
    rw [writeReceiver_chan, found]
    rfl
  refine ⟨fun c => listening_eq_some, writeReceiver_receivers slot r s, fun same => ?_, ?_, ?_, ?_, ?_⟩
  · unfold writeReceiver
    rw [found, Option.bind_some, ← same, adjustListeners_same]
    rfl
  · intro c before after
    rw [chan, before, after]
    simp [adjusted]
  · intro c before after
    rw [chan, before, after]
    simp [adjusted]
  · intro c d before after ne
    rw [chan, chan, before, after]
    simp [adjusted, ne]
  · intro c before after
    rw [chan]
    simp [adjusted, before, after]

/-! ### The channel requests (R8 to R10) -/

/-- A request that is admitted and that its owner rules so. -/
theorem request_of_admitted {may : Role → Bool} {h : Header} {s t : State} (ha : admitted may h s)
    {owner : State → State × Answer} {a : Answer} (ruled : owner (taken s) = (t, a)) :
    (.next (serve h may true owner s) : Host.Outcome State Fault Refusal) = .next (replied h a t) := by
  rw [serve_of_admitted ha, ruled]

theorem atChannel_out {c : Nat} (out : isChannel c = false) (rule : State → State × Answer) (s : State) :
    atChannel c rule s = (s, .refused .range []) := by
  simp [atChannel, out, refuse]

theorem atChannel_in {c : Nat} (hc : isChannel c = true) (rule : State → State × Answer) (s : State) :
    atChannel c rule s = rule s := by
  simp [atChannel, hc]

/-- Settles O26: each request at its owner, row by row. -/
theorem channelsAreEnabledAndDisabled : Obligations.ChannelsAreEnabledAndDisabled := by
  refine ⟨fun h c s ha => ⟨fun out => ⟨?_, fun force => ?_, ?_⟩, fun hc on => ?_, fun hc off => ?_⟩,
    fun h c s ha hc => ⟨fun force off => ?_, fun force on free => ?_, fun b on owned => ⟨?_, ?_⟩, ?_⟩⟩
  · exact request_of_admitted ha (atChannel_out out ..)
  · exact request_of_admitted ha (atChannel_out out ..)
  · exact request_of_admitted ha (atChannel_out out ..)
  · exact request_of_admitted ha (by simp [enableChannel, atChannel_in hc, on, accept])
  · exact request_of_admitted ha (by simp [enableChannel, atChannel_in hc, off, accept])
  · exact request_of_admitted ha (by simp [disableChannel, atChannel_in hc, off, accept, optNum, optFields])
  · exact request_of_admitted ha (by simp [disableChannel, atChannel_in hc, on, free, accept, optNum, optFields, turnOff])
  · exact request_of_admitted ha (by simp [disableChannel, atChannel_in hc, on, owned, refuse])
  · exact request_of_admitted ha (by simp [disableChannel, atChannel_in hc, on, owned, accept, optNum, optFields, turnOff])
  · exact request_of_admitted ha (by simp [clearStamp, atChannel_in hc, accept])

end Sys2Proof.Machine
end

