-- ==== Sys2Proof/Proofs/Loop.lean ====
section
/-! The return of a loop frame (R15). -/

namespace Sys2Proof.Machine

/-! ### A frame that comes home (R54, R55, R60) -/

/-- The speech of a live console's slot goes to the channel that its booth has selected (R12). -/
theorem takeSpeech_of_block {slots : Nat → Upstream} {b slot c : Nat} {s : State} {block : SpeechBlock}
    (console : FloorState.console (s.boothRec b).floor = some slot) (selected : (s.boothRec b).selected = some c)
    (speech : speechOf (slots slot) = some block) :
    takeSpeech slots b s = (appendBlock c block s).modBooth b fun x => { x with latest := some block } := by
  simp [takeSpeech, console, selected, speech]

theorem takeSpeech_of_none {slots : Nat → Upstream} {b slot : Nat} {s : State}
    (console : FloorState.console (s.boothRec b).floor = some slot) (speech : speechOf (slots slot) = none) :
    takeSpeech slots b s = s := by
  unfold takeSpeech
  split
  next live _ =>
    cases console.symm.trans live
    rw [speech]
  next => rfl

/-- A block joins a channel's queue, the oldest of a full queue being dropped and counted (R12). -/
theorem appendBlock_eq (c : Nat) (block : SpeechBlock) (s : State) :
    appendBlock c block s =
      s.modChan c fun x =>
        if 4 ≤ x.queue.length then { x with queue := x.queue.drop 1 ++ [block], dropped := bump x.dropped }
        else { x with queue := x.queue ++ [block] } := by
  refine congrArg (fun f => s.modChan c f) (funext fun x => ?_)
  split
  next full => simp [pushBlock_full full]
  next room => simp [pushBlock_room (Nat.not_le.mp room)]

/-- A lost frame is, at each slot, a slot not marked SEEN (R52, R55). -/
theorem readSlot_lost (n : Nat) (s : State) : readSlot n {} s = missFrame n s := by
  unfold readSlot
  split
  · rfl
  next off => exact (if_neg off).symm

theorem configured_iff {x : SlotState} : x.configured = true ↔ x.presence ≠ .unconfigured := by simp [SlotState.configured]

theorem not_configured {x : SlotState} (h : x.presence = .unconfigured) : x.configured = false := by
  simp [SlotState.configured, h]

theorem heardSlot_iff {s : State} {n : Nat} {u : Upstream} :
    heardSlot s n u = true ↔ (s.slotState n).presence ≠ .unconfigured ∧ u.seen = true := by
  simp [heardSlot, SlotState.configured]

theorem takeLevels_unheard {f : LoopReturn} {n : Nat} {s : State}
    (h : (s.slotState n).presence = .unconfigured ∨ (upstreamOf f n).seen = false) : takeLevels f s n = s := by
  refine if_neg fun heard => ?_
  obtain ⟨configured, seen⟩ := heardSlot_iff.mp heard
  obtain off | unseen := h
  · exact configured off
  · rw [unseen] at seen
    cases seen

theorem takeLevels_heard {f : LoopReturn} {n : Nat} {s : State} (configured : (s.slotState n).presence ≠ .unconfigured)
    (seen : (upstreamOf f n).seen = true) :
    takeLevels f s n = recordLevels n (upstreamOf f n).cough (upstreamOf f n).call s :=
  if_pos (heardSlot_iff.mpr ⟨configured, seen⟩)

theorem recordLevels_of_no_booth {n : Nat} {s : State} (h : (s.console n).booth = none) (cough call : Bool) :
    recordLevels n cough call s = s.modConsole n fun c => { c with cough := cough, call := call } := by
  simp [recordLevels, h]

theorem recordLevels_of_booth {n b : Nat} {s : State} (h : (s.console n).booth = some b) (cough call : Bool) :
    recordLevels n cough call s =
      (let t := s.modConsole n fun c => { c with cough := cough, call := call }
       if call = true ∧ (s.boothRec b).callMode = .hold then latchCall b t else t) := by
  simp [recordLevels, h]

theorem latchCall_set {b : Nat} {s : State} (h : (s.boothRec b).callLatch = true) : latchCall b s = s := if_pos h

theorem latchCall_clear {b : Nat} {s : State} (h : (s.boothRec b).callLatch = false) :
    latchCall b s = setFlag .call (s.modBooth b fun x => { x with callLatch := true }) := by
  simp [latchCall, h]

theorem missFrame_configured {n : Nat} {s : State} (h : (s.slotState n).presence ≠ .unconfigured) :
    missFrame n s =
      if absenceDue n s = true then goAbsent n (s.modSlot n SlotState.oneMissed) else s.modSlot n SlotState.oneMissed :=
  if_pos (configured_iff.mpr h)

theorem absenceDue_iff {n : Nat} {s : State} :
    absenceDue n s = true ↔
      (s.slotState n).presence = .present ∧ s.params.absenceLimit ≤ min ((s.slotState n).missedRun + 1) 250 := by
  simp [absenceDue, SlotState.oneMissed]

theorem readSlot_seen {n : Nat} {u : Upstream} {s : State} (configured : (s.slotState n).presence ≠ .unconfigured)
    (seen : u.seen = true) :
    readSlot n u s = if u.copied = true then hearConsole n s else countError n (hearConsole n s) := by
  rw [readSlot, if_pos (configured_iff.mpr configured), if_pos seen]

theorem readSlot_unseen {n : Nat} {u : Upstream} {s : State} (configured : (s.slotState n).presence ≠ .unconfigured)
    (unseen : u.seen = false) : readSlot n u s = missFrame n s := by
  simp [readSlot, configured_iff.mpr configured, unseen]

/-- A good frame is taken in the order of R60. -/
theorem loopReturn_good {f : LoopReturn} {s : State} (good : f.checkGood = true) (listed : f.sequence ∈ s.loop.outstanding) :
    loopReturn f s = handOn f (takeEntry f.sequence s) := by
  simp [loopReturn, good, listed]

/-- Settles O15: the order from R60's own equation, then the rules for speech, a lost frame, levels and marks. -/
theorem goodReturnIsHandedOnInOrder : Obligations.GoodReturnIsHandedOnInOrder := by
  refine ⟨fun frame s present length agrees listed => ⟨rfl, ?_⟩, fun slots b slot c s console selected => ⟨?_, ?_⟩,
    fun s => ?_, fun f n s => ⟨takeLevels_unheard, fun configured seen => ⟨?_, fun b booth => ⟨?_, ?_⟩⟩⟩,
    fun n u s => ⟨?_, ?_, ?_, ?_, ?_, ?_, ?_⟩⟩
  · have good : (returnOfBytes frame).checkGood = true := by
      simp [returnOfBytes, agrees, length, frameLength]
    show Host.Outcome.next (whileMains (loopReturn (returnOfBytes frame)) s) = _
    rw [whileMains_present _ present, loopReturn_good good listed]
    simp only [handOn, takeEntry, countGoodReturn, State.modLoop, Config.slots, Config.booths]
  · intro unseen
    exact takeSpeech_of_none console (by simp [speechOf, unseen])
  · intro seen
    rw [← appendBlock_eq]
    exact takeSpeech_of_block console selected (by simp [speechOf, seen])
  · refine congrArg (fun step => List.foldl step (countLoop _ s) (upTo Config.slots)) ?_
    exact funext fun t => funext fun n => (readSlot_lost n t).symm
  · intro nowhere
    rw [takeLevels_heard configured seen, recordLevels_of_no_booth nowhere]
  · intro quiet
    rw [takeLevels_heard configured seen, recordLevels_of_booth booth]
    dsimp only
    split
    next held =>
      obtain ⟨call, hold⟩ := held
      simp only [call, hold, reduceCtorEq, false_or] at quiet
      exact latchCall_set quiet
    next => rfl
  · intro call hold clear
    rw [takeLevels_heard configured seen, recordLevels_of_booth booth]
    dsimp only
    rw [if_pos ⟨call, hold⟩]
    exact latchCall_clear clear
  · intro present unseen due
    rw [readSlot_unseen (by simp [present]) unseen, missFrame_configured (by simp [present]),
      if_pos (absenceDue_iff.mpr ⟨present, due⟩)]
    rfl
  · intro configured seen copied
    rw [readSlot_seen configured seen, if_pos copied]
    rfl
  · intro configured seen uncopied
    rw [readSlot_seen configured seen, uncopied]
    rfl
  · intro absent unseen
    rw [readSlot_unseen (by simp [absent]) unseen, missFrame_configured (by simp [absent]), if_neg]
    · rfl
    · simp [absenceDue_iff, absent]
  · intro present unseen early
    rw [readSlot_unseen (by simp [present]) unseen, missFrame_configured (by simp [present]), if_neg]
    · rfl
    · rw [absenceDue_iff]
      omega
  · intro off seen
    simp [readSlot, not_configured off, seen]
    rfl
  · intro off unseen
    simp [readSlot, not_configured off, unseen]

end Sys2Proof.Machine
end

