-- ==== Sys2Proof/Proofs/TablesAndModes.lean ====
section
/-! The loading of the locked tables (R3, R23, R25, R127, R180) and SET MODE (R178, R179). -/

namespace Sys2Proof.Machine

/-! ### LOAD CONSOLE (R23) -/

theorem placeFits_iff {booth seat : Option Nat} :
    placeFits booth seat = true ↔
      (booth = none ∧ seat = none) ∨
        ∃ b n, booth = some b ∧ seat = some n ∧ isBooth b = true ∧ 1 ≤ n ∧ n ≤ 3 := by
  cases booth <;> cases seat <;> simp [placeFits, within]

theorem isSlot_iff {n : Nat} : isSlot n = true ↔ n ∈ upTo Config.slots := by
  simp [isSlot, within, mem_upTo]

theorem placeTaken_iff {s : State} {slot : Nat} {booth seat : Option Nat} :
    placeTaken s slot booth seat = true ↔
      booth.isSome = true ∧
        ∃ k, isSlot k = true ∧ k ≠ slot ∧ (s.console k).configured = true ∧ (s.console k).booth = booth ∧
          (s.console k).seat = seat := by
  simp [placeTaken, isSlot_iff, and_assoc]

/-- What becomes of a console's presence when LOAD CONSOLE changes its Configured field (R58). -/
theorem followConfigured_eq (was is : Bool) (slot : Nat) (s : State) :
    followConfigured was is slot s =
      if was = is then s
      else s.modSlot slot fun x => { x with presence := if is = true then .absent else .unconfigured, missedRun := 0 } := by
  cases was <;> cases is <;> rfl

theorem loadConsole_key {slot : Nat} (out : isSlot slot = false) (configured : Bool) (booth seat : Option Nat) (s : State) :
    loadConsole slot configured booth seat s = (s, .refused .range []) := by
  simp [loadConsole, out, refuse]

theorem loadConsole_locked {slot : Nat} {s : State} (fits : isSlot slot = true) (mode : s.mode ≠ .setup) (configured : Bool)
    (booth seat : Option Nat) : loadConsole slot configured booth seat s = (s, .refused .locked []) := by
  simp [loadConsole, fits, mode, refuse]

theorem loadConsole_range {slot : Nat} {s : State} (fits : isSlot slot = true) (mode : s.mode = .setup)
    {booth seat : Option Nat} (out : ¬placeFits booth seat = true) (configured : Bool) :
    loadConsole slot configured booth seat s = (s, .refused .range []) := by
  simp [loadConsole, fits, mode, out, refuse]

theorem loadConsole_duplicate {slot : Nat} {s : State} (fits : isSlot slot = true) (mode : s.mode = .setup)
    {booth seat : Option Nat} (place : placeFits booth seat = true) (taken : placeTaken s slot booth seat = true)
    (configured : Bool) : loadConsole slot configured booth seat s = (s, .refused .duplicate []) := by
  simp [loadConsole, fits, mode, place, taken, refuse]

theorem loadConsole_accepted {slot : Nat} {s : State} (fits : isSlot slot = true) (mode : s.mode = .setup)
    {booth seat : Option Nat} (place : placeFits booth seat = true) (free : ¬placeTaken s slot booth seat = true)
    (configured : Bool) :
    loadConsole slot configured booth seat s =
      (followConfigured (s.console slot).configured configured slot
        (s.modConsole slot fun c => { c with configured := configured, booth := booth, seat := seat }), .accepted []) := by
  simp [loadConsole, fits, mode, place, free, accept]

/-! ### LOAD BOOTH (R25) -/

theorem boothFits_iff {a b : Option Nat} {limit : Nat} :
    boothFits a b limit = true ↔ a.all isChannel = true ∧ b.all isChannel = true ∧ limit ≤ 120 := by
  simp [boothFits, and_assoc]

theorem loadBooth_key {b : Nat} (out : isBooth b = false) (a1 b1 : Option Nat) (i : Option Interlock) (limit : Nat)
    (m : Option CallMode) (s : State) : loadBooth b a1 b1 i limit m s = (s, .refused .range []) := by
  simp [loadBooth, out, refuse]

theorem loadBooth_locked {b : Nat} {s : State} (fits : isBooth b = true) (mode : s.mode ≠ .setup) (a1 b1 : Option Nat)
    (i : Option Interlock) (limit : Nat) (m : Option CallMode) :
    loadBooth b a1 b1 i limit m s = (s, .refused .locked []) := by
  simp [loadBooth, fits, mode, refuse]

theorem loadBooth_accepted {b : Nat} {s : State} (fits : isBooth b = true) (mode : s.mode = .setup) {a1 b1 : Option Nat}
    {limit : Nat} (fields : boothFits a1 b1 limit = true) (i : Interlock) (m : CallMode) :
    loadBooth b a1 b1 (some i) limit (some m) s =
      (s.modBooth b fun x => x.configured a1 b1 i limit m, .accepted []) := by
  simp [loadBooth, fits, mode, fields, accept]

theorem loadBooth_range {b : Nat} {s : State} (fits : isBooth b = true) (mode : s.mode = .setup) {a1 b1 : Option Nat}
    {limit : Nat} {i : Option Interlock} {m : Option CallMode}
    (out : ¬(boothFits a1 b1 limit = true ∧ i ≠ none ∧ m ≠ none)) :
    loadBooth b a1 b1 i limit m s = (s, .refused .range []) := by
  cases hf : boothFits a1 b1 limit with
  | false => simp [loadBooth, fits, mode, hf, refuse]
  | true =>
    cases i with
    | none => simp [loadBooth, fits, mode, refuse]
    | some i =>
      cases m with
      | none => simp [loadBooth, fits, mode, refuse]
      | some m => exact absurd ⟨hf, nofun, nofun⟩ out

/-! ### LOAD CHANNEL (R3) -/

theorem loadChannel_key {c : Nat} (out : isChannel c = false) (l : Label) (r : Bool) (p : Option Fallback) (s : State) :
    loadChannel c l r p s = (s, .refused .range []) := by
  simp [loadChannel, out, refuse]

theorem loadChannel_locked {c : Nat} {s : State} (fits : isChannel c = true) (mode : s.mode ≠ .setup) (l : Label) (r : Bool)
    (p : Option Fallback) : loadChannel c l r p s = (s, .refused .locked []) := by
  simp [loadChannel, fits, mode, refuse]

theorem loadChannel_accepted {c : Nat} {s : State} (fits : isChannel c = true) (mode : s.mode = .setup) {l : Label}
    (label : isLabel l = true) (r : Bool) (p : Fallback) :
    loadChannel c l r (some p) s =
      (let written := s.modChan c fun x => { x with label := l, restricted := r, policy := p }
       if r = true ∧ (s.chan c).restricted = false then revokeChannel c written else written, .accepted []) := by
  cases h : (s.chan c).restricted <;> simp [loadChannel, fits, mode, label, accept, h]

theorem loadChannel_range {c : Nat} {s : State} (fits : isChannel c = true) (mode : s.mode = .setup) {l : Label}
    {p : Option Fallback} (out : ¬(isLabel l = true ∧ p ≠ none)) (r : Bool) :
    loadChannel c l r p s = (s, .refused .range []) := by
  cases hl : isLabel l with
  | false => simp [loadChannel, fits, mode, hl, refuse]
  | true =>
    cases p with
    | none => simp [loadChannel, fits, mode, refuse]
    | some p => exact absurd ⟨hl, nofun⟩ out

/-! ### LOAD TARIFF (R127) -/

theorem tariffFits_iff {len rate cap late lost : Nat} :
    tariffFits len rate cap late lost = true ↔
      15 ≤ len ∧ len ≤ 240 ∧ rate ≤ 65535 ∧ cap ≤ 16777215 ∧ late ≤ 65535 ∧ lost ≤ 16777215 := by
  simp [tariffFits, within, and_assoc]

theorem isClass_of_le {cls : Nat} (h : cls ≤ 7) : isClass cls = true := decide_eq_true h

theorem isClass_of_lt {cls : Nat} (h : 7 < cls) : isClass cls = false := decide_eq_false (Nat.not_le.mpr h)

theorem loadTariff_key {cls : Nat} (out : isClass cls = false) (len rate cap late lost : Nat) (s : State) :
    loadTariff cls len rate cap late lost s = (s, .refused .range []) := by
  simp [loadTariff, out, refuse]

theorem loadTariff_locked {cls : Nat} {s : State} (fits : isClass cls = true) (mode : s.mode ≠ .setup)
    (len rate cap late lost : Nat) : loadTariff cls len rate cap late lost s = (s, .refused .locked []) := by
  simp [loadTariff, fits, mode, refuse]

theorem loadTariff_range {cls : Nat} {s : State} (fits : isClass cls = true) (mode : s.mode = .setup)
    {len rate cap late lost : Nat} (out : ¬tariffFits len rate cap late lost = true) :
    loadTariff cls len rate cap late lost s = (s, .refused .range []) := by
  simp [loadTariff, fits, mode, out, refuse]

theorem loadTariff_accepted {cls : Nat} {s : State} (fits : isClass cls = true) (mode : s.mode = .setup)
    {len rate cap late lost : Nat} (fields : tariffFits len rate cap late lost = true) :
    loadTariff cls len rate cap late lost s =
      (s.modAcct fun u => { u with tariffs := Table.set {} cls ⟨true, len, rate, cap, late, lost⟩ u.tariffs },
        .accepted []) := by
  simp [loadTariff, fits, mode, fields, accept]

/-! ### LOAD PARAMETERS (R180) -/

theorem parametersFit_iff {a o q i w : Nat} :
    parametersFit a o q i w = true ↔
      4 ≤ a ∧ a ≤ 250 ∧ 1 ≤ o ∧ o ≤ 60 ∧ 10 ≤ q ∧ q ≤ 300 ∧ i ≤ 15 ∧ 1 ≤ w ∧ w ≤ 512 := by
  simp [parametersFit, within, and_assoc]

theorem loadParameters_locked {s : State} (mode : s.mode ≠ .setup) (a o q i : Nat) (st : Option StampMode) (w : Nat) :
    loadParameters a o q i st w s = (s, .refused .locked []) := by
  simp [loadParameters, mode, refuse]

theorem loadParameters_accepted {s : State} (mode : s.mode = .setup) {a o q i w : Nat}
    (fields : parametersFit a o q i w = true) (st : StampMode) :
    loadParameters a o q i (some st) w s = (s.modSupply fun p => { p with params := ⟨a, o, q, i, st, w⟩ }, .accepted []) := by
  simp [loadParameters, mode, fields, accept]

theorem loadParameters_range {s : State} (mode : s.mode = .setup) {a o q i w : Nat} {st : Option StampMode}
    (out : ¬(parametersFit a o q i w = true ∧ st ≠ none)) :
    loadParameters a o q i st w s = (s, .refused .range []) := by
  cases hp : parametersFit a o q i w with
  | false => simp [loadParameters, mode, hp, refuse]
  | true =>
    cases st with
    | none => simp [loadParameters, mode, refuse]
    | some st => exact absurd ⟨hp, nofun⟩ out

theorem loadStation_locked {n : Nat} {s : State} (fits : isStation n = true) (mode : s.mode ≠ .setup) (e : StationEntry) :
    loadStation n e s = (s, .refused .locked []) := by
  simp [loadStation, fits, mode, refuse]

/-! ### The loads together -/

/-- Settles O34: each LOAD by its key, the mode, and its fields. -/
theorem tablesAreLoadedInSetupOnly : Obligations.TablesAreLoadedInSetupOnly := by
  refine ⟨fun c s => rfl, fun h s ha (setup : (taken s).mode = .setup) => ⟨?_, ?_, ?_, ?_, ?_⟩,
    fun h s ha (setup : (taken s).mode = .setup) => ⟨?_, ?_, ?_, ?_, ?_, ?_⟩, fun h s ha => ⟨?_, ?_, ?_, ?_⟩,
    fun h s ha (mode : (taken s).mode ≠ .setup) => ⟨?_, ?_, ?_, ?_, ?_, ?_⟩⟩
  · intro slot configured place fits free
    have fields : placeFits (place.map (·.1)) (place.map (·.2)) = true := by
      rw [placeFits_iff]
      cases place with
      | none => exact .inl ⟨rfl, rfl⟩
      | some p =>
        obtain ⟨booth, low, high, _⟩ := free p.1 p.2 rfl
        exact .inr ⟨p.1, p.2, rfl, rfl, booth, low, high⟩
    have alone : ¬placeTaken (taken s) slot (place.map (·.1)) (place.map (·.2)) = true := by
      rw [placeTaken_iff]
      rintro ⟨some, k, listed, ne, on, booth, seat⟩
      cases place with
      | none => cases some
      | some p =>
        obtain ⟨_, _, _, others⟩ := free p.1 p.2 rfl
        exact others k listed ne ⟨on, booth, seat⟩
    refine request_of_admitted ha ?_
    rw [loadConsole_accepted fits setup fields alone, followConfigured_eq]
    rfl
  · intro b a1 b1 i limit m fits a b' limit'
    refine request_of_admitted ha ?_
    rw [loadBooth_accepted fits setup (boothFits_iff.mpr ⟨a, b', limit'⟩)]
    simp only [Booth.configured, Option.isNone_iff_eq_none]
  · exact fun c l r p fits label => request_of_admitted ha (loadChannel_accepted fits setup label r p)
  · intro cls len rate cap late lost key len1 len2 rate' cap' late' lost'
    exact request_of_admitted ha (loadTariff_accepted (isClass_of_le key) setup
      (tariffFits_iff.mpr ⟨len1, len2, rate', cap', late', lost'⟩))
  · intro p a a' o o' q q' i w w'
    exact request_of_admitted ha (loadParameters_accepted setup (parametersFit_iff.mpr ⟨a, a', o, o', q, q', i, w, w'⟩) _)
  · intro slot configured booth seat fits out
    exact request_of_admitted ha (loadConsole_range fits setup (fun place => out (placeFits_iff.mp place)) configured)
  · intro slot configured b n k fits booth low high listed ne on hasBooth hasSeat
    exact request_of_admitted ha (loadConsole_duplicate fits setup
      (placeFits_iff.mpr (.inr ⟨b, n, rfl, rfl, booth, low, high⟩))
      (placeTaken_iff.mpr ⟨rfl, k, listed, ne, on, hasBooth, hasSeat⟩) configured)
  · intro b a1 b1 i limit m fits out
    refine request_of_admitted ha (loadBooth_range fits setup fun ⟨fields, i', m'⟩ => out ?_)
    obtain ⟨a, b', limit'⟩ := boothFits_iff.mp fields
    exact ⟨a, b', limit', i', m'⟩
  · exact fun c l r p fits out => request_of_admitted ha (loadChannel_range fits setup out r)
  · intro cls len rate cap late lost key out
    exact request_of_admitted ha (loadTariff_range (isClass_of_le key) setup fun fields => out (tariffFits_iff.mp fields))
  · intro a o q i st w out
    refine request_of_admitted ha (loadParameters_range setup fun ⟨fields, st'⟩ => out ?_)
    obtain ⟨a1, a2, o1, o2, q1, q2, i1, w1, w2⟩ := parametersFit_iff.mp fields
    exact ⟨a1, a2, o1, o2, q1, q2, i1, st', w1, w2⟩
  · exact fun slot c b n out => request_of_admitted ha (loadConsole_key out c b n _)
  · exact fun b a1 b1 i limit m out => request_of_admitted ha (loadBooth_key out a1 b1 i limit m _)
  · exact fun c l r p out => request_of_admitted ha (loadChannel_key out l r p _)
  · exact fun cls len rate cap late lost out => request_of_admitted ha (loadTariff_key (isClass_of_lt out) len rate cap late lost _)
  · exact fun slot c b n fits => request_of_admitted ha (loadConsole_locked fits mode c b n)
  · exact fun b a1 b1 i limit m fits => request_of_admitted ha (loadBooth_locked fits mode a1 b1 i limit m)
  · exact fun c l r p fits => request_of_admitted ha (loadChannel_locked fits mode l r p)
  · exact fun cls len rate cap late lost fits =>
      request_of_admitted ha (loadTariff_locked (isClass_of_le fits) mode len rate cap late lost)
  · intro n e fits mask
    show Host.Outcome.next (serve h controlOnly (decide ((entryMask e).length ≤ Config.maskMax)) _ s) = _
    rw [decide_eq_true mask]
    exact request_of_admitted ha (loadStation_locked fits mode e)
  · exact fun a o q i st w => request_of_admitted ha (loadParameters_locked mode a o q i st w)

/-! ### SET MODE (R178, R179) -/

/-- The commissioning check reads nothing that the taking of a request changes. -/
theorem commissioning_taken (s : State) (m : Mode) : commissioning (taken s) m = commissioning s m := by
  have items : ∀ i, checkItem (taken s) i = checkItem s i := by
    intro i
    cases i <;> rfl
  simp only [commissioning, items]

theorem setMode_same {s : State} {m : Mode} (h : m = s.mode) : setMode (some m) s = (s, .accepted (modeFields m m)) := by
  simp [setMode, h, accept]

theorem setMode_setup {s : State} (h : s.mode ≠ .setup) :
    setMode (some .setup) s =
      (enterSetup s, .accepted (modeFields s.mode .setup ++ [.num (boothsOnAir s), .num s.hire.batches.length])) := by
  have : Mode.setup ≠ s.mode := fun e => h e.symm
  simp [setMode, this, accept]

theorem setMode_from_session {s : State} (h : s.mode = .session) :
    setMode (some .rehearsal) s = (changeMode .rehearsal s, .accepted (modeFields s.mode .rehearsal)) := by
  simp [setMode, h, accept]

theorem setMode_checked {s : State} {m : Mode} (other : m ≠ s.mode) (air : m ≠ .setup) (tested : s.mode ≠ .session)
    (passes : commissioning s m = none) : setMode (some m) s = (changeMode m s, .accepted (modeFields s.mode m)) := by
  simp [setMode, other, air, tested, passes, accept]

theorem setMode_failed {s : State} {m : Mode} {item : CheckItem} {index : Nat} (other : m ≠ s.mode) (air : m ≠ .setup)
    (tested : s.mode ≠ .session) (fails : commissioning s m = some (item, index)) :
    setMode (some m) s =
      (countMode (fun k => { k with checkFailures := bump k.checkFailures }) s,
        .refused .checkFailed [.name (checkText item), .num index]) := by
  simp [setMode, other, air, tested, fails]

/-- The only change that the check is not made for is from SESSION to REHEARSAL. -/
theorem ne_session_of_tested {s : State} {m : Mode} (other : m ≠ s.mode) (air : m ≠ .setup)
    (tested : ¬(s.mode = .session ∧ m = .rehearsal)) : s.mode ≠ .session := by
  intro session
  cases m with
  | setup => exact air rfl
  | rehearsal => exact tested ⟨session, rfl⟩
  | session => exact other session.symm

theorem boothsOnAir_taken (s : State) : boothsOnAir (taken s) = boothsOnAir s := by simp [boothsOnAir]

theorem changeMode_eq (m : Mode) (s : State) :
    changeMode m s = { s with supply :=
      { s.supply with
        mode := m
        counters := { s.supply.counters with modeChanges := bump s.supply.counters.modeChanges } } } := rfl

theorem silenceAll_eq (s : State) : silenceAll s = (upTo 24).foldl (fun t b => goSilent b .mode t) s := rfl

theorem emptyFloor_eq (s : State) : emptyFloor s = { s with switch := { s.switch with floorQueue := [] } } := rfl

/-- Entry to SETUP written out (R179): the batches are those that are in the table before it. -/
theorem enterSetup_eq (s : State) :
    enterSetup s =
      let silent := (upTo 24).foldl (fun t b => goSilent b .mode t) (changeMode .setup s)
      (s.hire.batches.map (·.1)).foldl abandonBatch
        { silent with switch := { silent.switch with floorQueue := [] } } := by
  have batches : batchStations (emptyFloor (silenceAll (changeMode .setup s))) = s.hire.batches.map (·.1) := by
    simp [batchStations]
  unfold enterSetup abandonBatches
  rw [batches, emptyFloor_eq, silenceAll_eq]

theorem abandonBatch_of_look {s : State} {station : Nat} {b : Batch} (h : Table.look s.hire.batches station = some b) :
    abandonBatch s station = countBatch (fun k => { k with abandoned := bump k.abandoned }) (releaseBatch station b s) := by
  simp [abandonBatch, h]

/-- Settles O48: the rows of SET MODE one by one, and an abandoned batch. -/
theorem Settled.setMode : Obligations.SetMode := by
  refine ⟨rfl, fun h m s ha => ⟨?_, fun same => ?_, ?_, ?_, ?_, ?_, ?_⟩⟩
  · exact request_of_admitted ha rfl
  · rw [← same]
    exact request_of_admitted ha (setMode_same same)
  · rintro session rfl
    exact request_of_admitted ha (setMode_from_session session)
  · intro other air tested passes
    exact request_of_admitted ha (setMode_checked other air (ne_session_of_tested other air tested)
      ((commissioning_taken s m).trans passes))
  · intro item index other air tested fails
    exact request_of_admitted ha (setMode_failed other air (ne_session_of_tested other air tested)
      ((commissioning_taken s m).trans fails))
  · rintro (mode : (taken s).mode ≠ .setup) rfl
    have ruled := setMode_setup mode
    rw [boothsOnAir_taken, enterSetup_eq, changeMode_eq] at ruled
    exact request_of_admitted ha ruled
  · intro station b held
    dsimp only
    rw [abandonBatch_of_look held]
    rfl

end Sys2Proof.Machine
end

