-- ==== Sys2Proof/Proofs/Notices.lean ====
section
/-! Notice flags and counter groups: CLEAR NOTICES, CLEAR COUNTERS, and the setting of a flag (R193, R195 to R197). -/

namespace Sys2Proof.Machine

/-! ### CLEAR NOTICES (R196) -/

theorem namedFlags_some (l : List NoticeFlag) : namedFlags (l.map some) = some l := by
  unfold namedFlags
  induction l with
  | nil => rfl
  | cons f l ih => simp [ih]

theorem namedFlags_none {l : List (Option NoticeFlag)} (h : none ∈ l) : namedFlags l = none := by
  unfold namedFlags
  induction l with
  | nil => cases h
  | cons f l ih =>
    cases f with
    | none => simp
    | some f =>
      have : none ∈ l := by simpa using h
      simp [ih this]

theorem clearNotices_range {l : List (Option NoticeFlag)} (h : none ∈ l) (s : State) :
    clearNotices l s = (s, .refused .range []) := by
  simp [clearNotices, namedFlags_none h, refuse]

theorem clearNotices_malformed {l : List NoticeFlag} (h : ¬l.Nodup) (s : State) :
    clearNotices (l.map some) s = (s, .refused .malformed []) := by
  simp [clearNotices, namedFlags_some, distinct, h, refuse]

theorem clearNotices_accepted {l : List NoticeFlag} (h : l.Nodup) (s : State) :
    clearNotices (l.map some) s = (clearFlags l s, .accepted (flagFields (clearFlags l s))) := by
  simp [clearNotices, namedFlags_some, distinct, h, accept]

theorem clearFlags_eq (l : List NoticeFlag) (s : State) :
    clearFlags l s = { s with serv := { s.serv with flags := s.serv.flags.filter fun f => decide (f ∉ l) } } := by
  simp [clearFlags, State.modServ]

/-- A request whose body does not fit its format is counted, and refused by the service controller (R191). -/
theorem serve_unfit {may : Role → Bool} {h : Header} {s : State} (ha : admitted may h s) (owner : State → State × Answer) :
    serve h may false owner s = refuseMalformed h (messageReceived s) := by
  obtain ⟨present, none_lost, role⟩ := ha
  rw [serve, takeMessage_taken _ present none_lost, takeRequest]
  unfold whenAdmitted
  split
  · rename_i e
    simp [e] at role
  · rename_i e station
    simp only [station, Option.any_some] at role
    simp [role]

/-- A list of flags that is not empty fits the format of CLEAR NOTICES, so that its owner rules on it. -/
theorem clearNotices_request {h : Header} {s t : State} (ha : admitted controlMonitor h s) {l : List (Option NoticeFlag)}
    (some_named : l ≠ []) {a : Answer} (ruled : clearNotices l (taken s) = (t, a)) :
    exec (.clearNotices h l) s = .next (replied h a t) := by
  show Host.Outcome.next (serve h controlMonitor (decide (l ≠ [])) (clearNotices l) s) = _
  rw [decide_eq_true some_named]
  exact request_of_admitted ha ruled

/-! ### CLEAR COUNTERS (R197) -/

theorem clearCounters_request {h : Header} {s : State} (ha : admitted controlOnly h s) (g : CounterGroup) :
    exec (.clearCounters h (some g)) s = .next (replied h (.accepted []) (zeroGroup g (taken s))) :=
  request_of_admitted ha rfl

theorem not_mem_channels {c : Nat} (h : isChannel c = false) : c ∉ upTo Config.channels := fun mem =>
  Bool.false_ne_true (h.symm.trans (isChannel_iff.mpr (mem_upTo.mp mem)))

theorem mem_floorAndChannels {c : Nat} : c ∈ 0 :: upTo Config.channels ↔ c ≤ 48 := by
  rw [List.mem_cons, mem_upTo]
  simp only [Config.channels]
  omega

/-- Clearing the block counters of the channels: channel 0 has none, those of the floor queue are the switch's own. -/
theorem zeroGroup_channels (s : State) :
    ∃ channels, zeroGroup .channels s =
        s.modSwitch (fun w => { w with channels := channels, floorUnderruns := 0, floorDropped := 0 }) ∧
      ∀ c, (zeroGroup .channels s).chan c =
        if c ∈ upTo Config.channels then { s.chan c with underruns := 0, dropped := 0 } else s.chan c := by
  unfold zeroGroup
  obtain ⟨channels, e⟩ := foldl_modChan_each_eq (fun _ x => { x with underruns := 0, dropped := 0 }) (upTo Config.channels) s
  refine ⟨channels, ?_, fun c => ?_⟩
  · dsimp only
    rw [e]
    rfl
  · have kept : ∀ t : State, (t.modSwitch fun w => { w with floorUnderruns := 0, floorDropped := 0 }).chan c = t.chan c :=
      fun t => rfl
    exact (kept _).trans (chan_foldl_modChan (fun x => { x with underruns := 0, dropped := 0 }) _ (upTo_nodup _) s c)

theorem zeroGroup_channelMinutes (s : State) :
    ∃ channels, zeroGroup .channelMinutes s = s.modSwitch (fun w => { w with channels := channels }) ∧
      ∀ c, (zeroGroup .channelMinutes s).chan c =
        if c ∈ 0 :: upTo Config.channels then { s.chan c with listenerMinutes := 0, fallbackMinutes := 0 } else s.chan c := by
  obtain ⟨channels, e⟩ :=
    foldl_modChan_each_eq (fun _ x => { x with listenerMinutes := 0, fallbackMinutes := 0 }) (0 :: upTo Config.channels) s
  exact ⟨channels, e,
    chan_foldl_modChan (fun x => { x with listenerMinutes := 0, fallbackMinutes := 0 }) _ floorAndChannels_nodup s⟩

theorem zeroGroup_consoles (s : State) :
    ∃ slots, zeroGroup .consoles s = s.modLoop (fun x => { x with slots := slots }) ∧
      ∀ n, (zeroGroup .consoles s).slotState n =
        if n ∈ upTo Config.slots then { s.slotState n with missed := 0, errors := 0 } else s.slotState n :=
  ⟨_, foldl_modSlot_eq (fun x => { x with missed := 0, errors := 0 }) _ s,
    slotState_foldl_modSlot (fun x => { x with missed := 0, errors := 0 }) _ (upTo_nodup _) s⟩

/-! ### The setting of a flag (R195) -/

theorem keys_ascending_of_rising {α : Type} {t : Table α} (h : Table.rising t = true) : (t.map (·.1)).Pairwise (· < ·) := by
  induction t with
  | nil => exact .nil
  | cons x t ih =>
    obtain ⟨low, rest⟩ := Table.rising_cons.mp h
    exact .cons (List.forall_mem_map.mpr low) (ih rest)

theorem noticeStations_rising {f : NoticeFlag} {s : State} (h : Table.rising s.serv.stations = true) :
    (noticeStations f s).Pairwise (· < ·) := keys_ascending_of_rising (Table.rising_filter h)

theorem mem_noticeStations {f : NoticeFlag} {s : State} {n : Nat} :
    n ∈ noticeStations f s ↔
      ∃ e, (n, e) ∈ s.serv.stations ∧ (e.role = .control ∨ e.role = .monitor) ∧ f ∉ e.mask := by
  simp [noticeStations, Station.wants]

/-- The setting of a clear flag, written out: what its notices do to the outbound queue and its counters (R193). -/
theorem setFlag_of_clear {f : NoticeFlag} {s : State} (h : s.flagged f = false) :
    setFlag f s =
      (let notices : List Message := (noticeStations f s).map fun n => ⟨n, .notice, 0, [.name f.text, .clock s.now]⟩
       let fits := min notices.length (32 - s.serv.outbound.length)
       { s with serv :=
         { s.serv with
           flags := NoticeFlag.all.filter fun g => decide (g = f) || s.flagged g
           outbound := s.serv.outbound ++ notices.take fits
           counters :=
             { s.serv.counters with
               noticesQueued := Nat.repeat bump fits s.serv.counters.noticesQueued
               noticesDropped := Nat.repeat bump (notices.length - fits) s.serv.counters.noticesDropped } } }) := by
  have clear : ¬s.serv.flags.contains f = true := by
    rw [show s.serv.flags.contains f = false from h]
    exact Bool.false_ne_true
  unfold setFlag
  rw [if_neg clear, foldl_notices_now, foldl_queueNotice_eq]
  rfl

/-- Every notice of a flag is queued when the outbound queue has room for all. -/
theorem setFlag_outbound {f : NoticeFlag} {s : State} (h : s.flagged f = false)
    (room : s.serv.outbound.length + (noticeStations f s).length ≤ 32) :
    (setFlag f s).serv.outbound =
      s.serv.outbound ++ (noticeStations f s).map fun n => ⟨n, .notice, 0, [.name f.text, .clock s.now]⟩ := by
  rw [setFlag_of_clear h]
  dsimp only
  rw [List.take_of_length_le]
  rw [List.length_map]
  omega

/-- Settles O50: the requests by what their owner rules, the groups of counters one by one, and the setting of a flag. -/
theorem noticesAreSetOnceAndCleared : Obligations.NoticesAreSetOnceAndCleared := by
  refine ⟨fun h s => ⟨fun named ha some_named nodup => ?_, fun ha => ⟨fun l bad => ?_, fun named twice => ?_, ?_⟩,
    fun ha => ?_, fun ha => ?_, fun ha => ?_, fun ha => ?_, fun ha => ?_⟩, rfl,
    fun f s => ⟨setFlag_of_set, flagged_setFlag_self f s, fun g ne => ?_, setFlag_outbound, setFlag_of_clear,
      noticeStations_rising, fun n => mem_noticeStations⟩⟩
  · rw [clearNotices_request ha (by simpa using some_named) (clearNotices_accepted nodup _), clearFlags_eq]
    rfl
  · exact clearNotices_request ha (List.ne_nil_of_mem bad) (clearNotices_range bad _)
  · have some_named : named.map some ≠ [] := by
      rintro e
      rw [List.map_eq_nil_iff.mp e] at twice
      exact twice List.nodup_nil
    exact clearNotices_request ha some_named (clearNotices_malformed twice _)
  · exact congrArg Host.Outcome.next (serve_unfit ha (clearNotices []))
  · exact request_of_admitted ha rfl
  · obtain ⟨channels, e, chan⟩ := zeroGroup_channels (taken s)
    refine ⟨_, clearCounters_request ha .channels, fun c hc => ?_, fun c hc => ?_, ?_⟩
    · rw [chan, if_pos (mem_channels hc)]
      rfl
    · rw [chan, if_neg (not_mem_channels hc)]
      rfl
    · rw [e]
      exact ⟨rfl, rfl, rfl, rfl⟩
  · obtain ⟨channels, e, chan⟩ := zeroGroup_channelMinutes (taken s)
    refine ⟨_, clearCounters_request ha .channelMinutes, fun c hc => ?_, fun c hc => ?_, ?_⟩
    · rw [chan, if_pos (mem_floorAndChannels.mpr hc)]
      rfl
    · rw [chan, if_neg (fun mem => Nat.not_le.mpr hc (mem_floorAndChannels.mp mem))]
      rfl
    · rw [e]
      exact ⟨rfl, rfl, rfl, rfl⟩
  · exact ⟨clearCounters_request ha .loop, clearCounters_request ha .air, clearCounters_request ha .hire,
      clearCounters_request ha .batches, clearCounters_request ha .accounts, clearCounters_request ha .duty,
      clearCounters_request ha .clock, clearCounters_request ha .mode, clearCounters_request ha .service⟩
  · obtain ⟨slots, e, slotState⟩ := zeroGroup_consoles (taken s)
    refine ⟨_, clearCounters_request ha .consoles, fun n hn => ?_, fun n hn => ?_, ?_⟩
    · rw [slotState, if_pos (isSlot_iff.mp hn)]
      rfl
    · rw [slotState, if_neg (fun mem => Bool.false_ne_true (hn.symm.trans (isSlot_iff.mpr mem)))]
      rfl
    · rw [e]
      rfl
  · simp [flagged_setFlag, ne]

end Sys2Proof.Machine
end

