-- ==== Sys2Proof/Proofs/Starts.lean ====
section
/-! The starts: the cold start (R186), the power return (R185) and RESTART (R187). -/

namespace Sys2Proof.Machine

/-! ### What the setting of flags leaves of the service controller (R195) -/

/-- From one state of the service controller to a later one only flags were set: the stations and the messages to lose are as they were,
and notices have come behind the messages that were queued. -/
def NoticesAdded (v w : Service) : Prop :=
  w.stations = v.stations ∧ w.toLose = v.toLose ∧ ∃ notices, w.outbound = v.outbound ++ notices

theorem NoticesAdded.refl (v : Service) : NoticesAdded v v := ⟨rfl, rfl, [], (List.append_nil _).symm⟩

theorem NoticesAdded.trans {u v w : Service} (h : NoticesAdded u v) (k : NoticesAdded v w) : NoticesAdded u w := by
  obtain ⟨stations, toLose, first, outbound⟩ := h
  obtain ⟨stations', toLose', second, outbound'⟩ := k
  exact ⟨stations'.trans stations, toLose'.trans toLose, first ++ second, by rw [outbound', outbound, List.append_assoc]⟩

theorem setFlag_notices (f : NoticeFlag) (s : State) : NoticesAdded s.serv (setFlag f s).serv := by
  cases h : s.flagged f with
  | true =>
    rw [setFlag_of_set h]
    exact .refl _
  | false =>
    rw [setFlag_of_clear h]
    exact ⟨rfl, rfl, _, rfl⟩

theorem flagMatched_notices (s : State) (name : AlarmName) : NoticesAdded s.serv (flagMatched s name).serv := by
  unfold flagMatched
  split
  · exact setFlag_notices _ s
  · exact .refl _

theorem flagged_flagMatched (s : State) (name : AlarmName) (f : NoticeFlag) :
    (flagMatched s name).flagged f = true ↔ s.flagged f = true ∨ (f = alarmFlag name ∧ (alarmOf s name).matched = true) := by
  unfold flagMatched
  split
  next h => simp [flagged_setFlag, h, or_comm]
  next h => simp [h]

theorem flagMatchedAlarms_eq (s : State) : flagMatchedAlarms s = flagMatched (flagMatched s .returnBy) .sessionClose := rfl

theorem flagged_flagMatchedAlarms (s : State) (f : NoticeFlag) :
    (flagMatchedAlarms s).flagged f = true ↔
      s.flagged f = true ∨ (f = .returnBy ∧ s.time.returnBy.matched = true) ∨
        (f = .sessionClose ∧ s.time.sessionClose.matched = true) := by
  simp [flagMatchedAlarms_eq, flagged_flagMatched, alarmFlag, alarmOf, or_assoc]

/-! ### The backup state at a start (R188) -/

/-- The backup state is NORMAL at a start, before the monitor's indication. -/
theorem takeBackup_supply {s : State} (normal : s.supply.backupLow = false) (low : Bool) :
    (takeBackup low s).supply =
      { s.supply with
        backupLow := low
        counters :=
          { s.supply.counters with
            backupLows := if low = true then bump s.supply.counters.backupLows else s.supply.counters.backupLows } } := by
  cases low with
  | true => simp [takeBackup, normal, countMode, State.modSupply]
  | false => simp [takeBackup, State.modSupply]

theorem flagged_takeBackup {s : State} (normal : s.supply.backupLow = false) (low : Bool) (f : NoticeFlag) :
    (takeBackup low s).flagged f = true ↔ s.flagged f = true ∨ (f = .backupLow ∧ low = true) := by
  have counted : (countMode (fun k => { k with backupLows := bump k.backupLows })
      (s.modSupply fun p => { p with backupLow := true })).flagged f = s.flagged f := rfl
  cases low with
  | true => simp [takeBackup, normal, flagged_setFlag, counted, or_comm]
  | false => simp [takeBackup, State.flagged]

theorem takeBackup_notices (low : Bool) (s : State) : NoticesAdded s.serv (takeBackup low s).serv := by
  unfold takeBackup
  split
  · exact setFlag_notices _ _
  · split
    · exact .refl _
    · exact .refl _

/-! ### How a power return and a RESTART end (R173, R188) -/

/-- The end of a power return and of a RESTART: the flags of the matched alarms, the backup state, the start record. -/
def announced (kind : StartKind) (low : Bool) (s : State) : State := recordStart kind (takeBackup low (flagMatchedAlarms s))

@[simp] theorem announced_frame (kind : StartKind) (low : Bool) (s : State) :
    (announced kind low s).loop = s.loop ∧ (announced kind low s).booth = s.booth ∧
      (announced kind low s).switch = s.switch ∧ (announced kind low s).air = s.air ∧
      (announced kind low s).hire = s.hire ∧ (announced kind low s).acct = s.acct ∧
      (announced kind low s).time = s.time := by
  simp [announced, flagMatchedAlarms_eq]

theorem announced_supply {s : State} (normal : s.supply.backupLow = false) (kind : StartKind) (low : Bool) :
    (announced kind low s).supply =
      { s.supply with
        backupLow := low
        startRecord := ⟨kind, s.now⟩
        counters :=
          { s.supply.counters with
            backupLows := if low = true then bump s.supply.counters.backupLows else s.supply.counters.backupLows } } := by
  have kept : (flagMatchedAlarms s).supply = s.supply := by simp [flagMatchedAlarms_eq]
  have now : (takeBackup low (flagMatchedAlarms s)).now = s.now := by simp [State.now, flagMatchedAlarms_eq]
  rw [← kept] at normal
  unfold announced recordStart
  rw [now, modSupply_supply, takeBackup_supply normal, kept]

theorem flagged_announced {s : State} (normal : s.supply.backupLow = false) (kind : StartKind) (low : Bool) (f : NoticeFlag) :
    (announced kind low s).flagged f = true ↔
      s.flagged f = true ∨ (f = .returnBy ∧ s.time.returnBy.matched = true) ∨
        (f = .sessionClose ∧ s.time.sessionClose.matched = true) ∨ (f = .backupLow ∧ low = true) := by
  have normal' : (flagMatchedAlarms s).supply.backupLow = false := by simpa [flagMatchedAlarms_eq] using normal
  have record : (announced kind low s).flagged f = (takeBackup low (flagMatchedAlarms s)).flagged f := rfl
  rw [record, flagged_takeBackup normal', flagged_flagMatchedAlarms, or_assoc, or_assoc]

theorem announced_notices (kind : StartKind) (low : Bool) (s : State) : NoticesAdded s.serv (announced kind low s).serv :=
  ((flagMatched_notices s .returnBy).trans (flagMatched_notices _ .sessionClose)).trans (takeBackup_notices low _)

/-! ### The values of the records (R20, R49, R65, R66, R111) -/

theorem SlotState.started_eq (x : SlotState) :
    x.started = if x.presence = .unconfigured then {} else { presence := .absent } := by
  by_cases h : x.presence = .unconfigured
  · simp [SlotState.started, SlotState.configured, h]
  · simp [SlotState.started, SlotState.configured, h]

/-- What is kept of the loop's, the booths' and the channels' records at a power return and at a RESTART. -/
theorem records_of_started {s t : State} (loop : t.loop = s.loop.started) (booth : t.booth = s.booth.started)
    (switch : t.switch = s.switch.started) :
    (∀ b, t.boothRec b = { s.boothRec b with floor := .silent, turn := none, callLatch := false, latest := none }) ∧
    (∀ n, t.console n = { s.console n with cough := false, call := false, lamp := none, displayEnd := none }) ∧
    (∀ c, t.chan c = { s.chan c with owner := none, queue := [], listeners := 0, underruns := 0, dropped := 0 }) ∧
    (∀ n, t.slotState n = if (s.slotState n).presence = .unconfigured then {} else { presence := .absent }) ∧
    t.booth.floorBlock = silence ∧ t.switch = { channels := t.switch.channels } ∧ t.loop = { slots := t.loop.slots } := by
  refine ⟨fun b => ?_, fun n => ?_, fun c => ?_, fun n => ?_, ?_, ?_, ?_⟩
  · rw [State.boothRec, booth]
    exact startValues_boothRec b s
  · rw [State.console, booth]
    exact startValues_console n s
  · rw [State.chan, switch]
    exact startValues_chan c s
  · rw [State.slotState, loop, ← SlotState.started_eq]
    exact startValues_slotState n s
  · rw [booth]
    rfl
  · rw [switch]
    rfl
  · rw [loop]
    rfl

/-! ### Duty entries (R159) -/

theorem completeEntries_acct (reason : EndReason) (stop : Clock) (s : State) :
    (completeEntries (fun _ => true) reason stop s).acct =
      { s.acct with
        duty := s.acct.duty.map fun d =>
          if d.status = .opened then { d with stop := some stop, reason := some reason, status := .complete } else d
        dutyCounters :=
          { s.acct.dutyCounters with
            completed :=
              satAdd s.acct.dutyCounters.completed (s.acct.duty.countP fun d => decide (d.status = .opened)) } } := by
  simp [completeEntries, State.modAcct, DutyEntry.isOpen, DutyEntry.completed]

/-! ### The count of the backup cell and the alarm effects that wait (R162, R175) -/

/-- The backup cell counts on the time base's clock and its alarms; everything else waits for mains. -/
theorem backupCount_eq (ticks : Nat) (s : State) : backupCount ticks s = { s with time := (backupCount ticks s).time } := by
  have second : ∀ t : State, backupSecond t = { t with time := (backupSecond t).time } := by
    intro t
    obtain ⟨loop, booth, switch, air, hire, acct, serv, supply, pending⟩ := backupSecond_frame t
    rw [← loop, ← booth, ← switch, ← air, ← hire, ← acct, ← serv, ← supply, ← pending]
  have seconds : ∀ (k : Nat) (t : State), Nat.repeat backupSecond k t = { t with time := (Nat.repeat backupSecond k t).time } := by
    intro k t
    induction k with
    | zero => rfl
    | succ k ih =>
      rw [Nat.repeat, second, ih]
  unfold backupCount State.modTime
  dsimp only
  rw [seconds]

theorem effect_not_pending {a : Alarm} (h : a.pendingEffect = false) : { a with pendingEffect := false } = a := by
  rw [← h]

theorem applyPending_time (s : State) :
    (applyPending s).time =
      { s.time with
        returnBy := { s.time.returnBy with pendingEffect := false }
        counters :=
          { s.time.counters with
            pendingApplied :=
              if s.time.returnBy.pendingEffect = true then bump s.time.counters.pendingApplied
              else s.time.counters.pendingApplied } } := by
  cases h : s.time.returnBy.pendingEffect with
  | true => simp [applyPending, h, countClock, modAlarm, State.modTime]
  | false => simp [applyPending, h, effect_not_pending h]

/-- A pending RETURN_BY effect is taken by the hire controller (R107, R175). -/
theorem applyPending_hire (s : State) :
    (applyPending s).hire =
      if s.time.returnBy.pendingEffect = true then
        { s.hire with
          receivers := s.hire.receivers.map fun x => (x.1, x.2.madeOverdue)
          counters :=
            { s.hire.counters with
              overdueReceivers :=
                satAdd s.hire.counters.overdueReceivers (s.hire.receivers.countP fun x => decide (x.2.state = .issued)) } }
      else s.hire := by
  unfold applyPending
  split
  · rfl
  · rfl

theorem discardPending_time (s : State) :
    (discardPending s).time =
      { s.time with
        sessionClose := { s.time.sessionClose with pendingEffect := false }
        counters :=
          { s.time.counters with
            pendingDiscarded :=
              if s.time.sessionClose.pendingEffect = true then bump s.time.counters.pendingDiscarded
              else s.time.counters.pendingDiscarded } } := by
  cases h : s.time.sessionClose.pendingEffect with
  | true => simp [discardPending, h, countClock, modAlarm, State.modTime]
  | false => simp [discardPending, h, effect_not_pending h]

theorem bump_zero : bump 0 = 1 := rfl

theorem satAdd_zero (n : Nat) : satAdd 0 n = min n 4294967295 := by simp [satAdd, counterMax]

/-! ### The cold start (R186) -/

/-- Settles O3: every field of the first state is its value. -/
theorem resetIsAColdStart : Obligations.ResetIsAColdStart :=
  ⟨rfl, rfl, rfl, rfl, rfl, rfl, rfl, rfl, rfl, rfl, rfl, rfl, rfl, rfl, rfl, rfl, rfl, rfl, rfl, rfl, rfl, rfl, rfl, rfl,
    rfl, fun _ => ⟨rfl, rfl, rfl⟩, fun _ ne => reset_chan ne, fun _ => rfl⟩

/-- The monitor's indication at a cold start. -/
theorem coldStart_eq (low : Bool) (s : State) :
    coldStart low s =
      (let cold := State.reset.withPending s.pending
       if low = true then
         setFlag .backupLow
           { cold with supply := { cold.supply with backupLow := true, counters := { backupLows := 1 } } }
       else cold) := by
  cases low with
  | true => rfl
  | false => rfl

/-! ### The power return (R185) -/

/-- The state of a power return before its flags: the values of every block, the duty entries completed, the effects applied. -/
def powerValues (s : State) : State :=
  discardPending (applyPending (completeEntries (fun _ => true) .power (s.supply.lossStamp.getD s.now) (startValues s)))

theorem powerReturn_eq (low : Bool) (s : State) :
    powerReturn low s = announced .powerReturn low (setFlag .mainsReturn (powerValues s)) := rfl

theorem powerValues_blocks (s : State) :
    (powerValues s).loop = s.loop.started ∧ (powerValues s).booth = s.booth.started ∧
      (powerValues s).switch = s.switch.started ∧ (powerValues s).air = {} ∧ (powerValues s).serv = s.serv.started ∧
      (powerValues s).supply = s.supply.started := by
  simp [powerValues, startValues]

theorem powerValues_acct (s : State) :
    (powerValues s).acct =
      (completeEntries (fun _ => true) .power (s.supply.lossStamp.getD s.now) (startValues s)).acct := by
  simp [powerValues]

theorem powerValues_time (s : State) :
    (powerValues s).time =
      { s.time with
        returnBy := { s.time.returnBy with pendingEffect := false }
        sessionClose := { s.time.sessionClose with pendingEffect := false }
        counters :=
          { pendingApplied := if s.time.returnBy.pendingEffect = true then 1 else 0
            pendingDiscarded := if s.time.sessionClose.pendingEffect = true then 1 else 0 } } := by
  have started : (completeEntries (fun _ => true) .power (s.supply.lossStamp.getD s.now) (startValues s)).time =
      { s.time with counters := {} } := by
    simp [startValues, TimeBase.started]
  rw [powerValues, discardPending_time, applyPending_time, started, bump_zero]

/-- A receiver at a power return: a loan becomes overdue when the RETURN_BY effect is applied (R66, R107, R111). -/
theorem Receiver.started_effect (r : Receiver) (applied : Bool) :
    (if applied = true then r.started.madeOverdue else r.started) =
      { r with
        range := .unheard, lastHeard := none, lastCounter := none, channel := none, batch := none
        state :=
          if r.state = .held then .available
          else if r.state = .issued ∧ applied = true then .overdue else r.state } := by
  cases applied with
  | false => simp [Receiver.started]
  | true =>
    by_cases held : r.state = .held
    · simp [Receiver.started, Receiver.madeOverdue, held]
    · by_cases issued : r.state = .issued
      · simp [Receiver.started, Receiver.madeOverdue, issued]
      · simp [Receiver.started, Receiver.madeOverdue, held, issued]

theorem Receiver.started_issued (r : Receiver) : r.started.state = .issued ↔ r.state = .issued := by
  by_cases h : r.state = .held
  · simp [Receiver.started, h]
  · simp [Receiver.started, h]

theorem powerValues_hire (s : State) :
    (powerValues s).hire =
      { pendingList := s.hire.pendingList
        receivers :=
          s.hire.receivers.map fun x =>
            (x.1, if s.time.returnBy.pendingEffect = true then x.2.started.madeOverdue else x.2.started)
        counters :=
          { overdueReceivers :=
              if s.time.returnBy.pendingEffect = true then
                min (s.hire.receivers.countP fun x => decide (x.2.state = .issued)) 4294967295
              else 0 } } := by
  have started : (completeEntries (fun _ => true) .power (s.supply.lossStamp.getD s.now) (startValues s)).hire =
      s.hire.started := by
    simp [startValues]
  have time : (completeEntries (fun _ => true) .power (s.supply.lossStamp.getD s.now) (startValues s)).time =
      s.time.started := by
    simp [startValues]
  have base : (powerValues s).hire =
      (applyPending (completeEntries (fun _ => true) .power (s.supply.lossStamp.getD s.now) (startValues s))).hire := by
    simp [powerValues]
  rw [base, applyPending_hire, started, time]
  cases h : s.time.returnBy.pendingEffect with
  | true => simp [TimeBase.started, h, Hire.started, satAdd_zero, List.countP_map, Function.comp_def, Receiver.started_issued]
  | false => simp [TimeBase.started, h, Hire.started]

/-- The flags of a power return (R173, R188). -/
theorem flagged_powerReturn (low : Bool) (s : State) (f : NoticeFlag) :
    (powerReturn low s).flagged f = true ↔
      f = .mainsReturn ∨ (f = .returnBy ∧ s.time.returnBy.matched = true) ∨
        (f = .sessionClose ∧ s.time.sessionClose.matched = true) ∨ (f = .backupLow ∧ low = true) := by
  obtain ⟨_, _, _, _, serv, supply⟩ := powerValues_blocks s
  have clear : (powerValues s).flagged f = false := by
    rw [State.flagged, serv]
    rfl
  have normal : (setFlag .mainsReturn (powerValues s)).supply.backupLow = false := by
    simp [supply, Supply.started]
  rw [powerReturn_eq, flagged_announced normal, flagged_setFlag, clear]
  simp [powerValues_time]

/-- Mode and supply control after a power return (R185, R188). -/
theorem powerReturn_supply (low : Bool) (s : State) :
    (powerReturn low s).supply =
      { s.supply with
        mode := .setup
        mainsLost := false
        backupLow := low
        startRecord := ⟨.powerReturn, s.now⟩
        counters := { backupLows := if low = true then 1 else 0 } } := by
  obtain ⟨_, _, _, _, _, supply⟩ := powerValues_blocks s
  have started : (setFlag .mainsReturn (powerValues s)).supply = s.supply.started := by simp [supply]
  have now : (setFlag .mainsReturn (powerValues s)).now = s.now := by simp [State.now, powerValues_time]
  rw [powerReturn_eq, announced_supply (by rw [started]; rfl), started, now]
  rfl

/-- The service controller after a power return: the station table, and the notices of the start alone (R198). -/
theorem powerReturn_notices (low : Bool) (s : State) : NoticesAdded s.serv.started (powerReturn low s).serv := by
  obtain ⟨_, _, _, _, serv, _⟩ := powerValues_blocks s
  have start := setFlag_notices .mainsReturn (powerValues s)
  rw [serv] at start
  exact start.trans (announced_notices _ _ _)

theorem powerReturn_kept (low : Bool) (s : State) :
    (powerReturn low s).loop = s.loop.started ∧ (powerReturn low s).booth = s.booth.started ∧
      (powerReturn low s).switch = s.switch.started ∧ (powerReturn low s).air = {} ∧
      (powerReturn low s).hire = (powerValues s).hire ∧ (powerReturn low s).acct = (powerValues s).acct ∧
      (powerReturn low s).time = (powerValues s).time := by
  obtain ⟨loop, booth, switch, air, _, _⟩ := powerValues_blocks s
  simp [powerReturn_eq, loop, booth, switch, air]

/-- Settles O52: a cold start by the check that fails, a power return by what its values and its flags are. -/
theorem Settled.mainsReturn : Obligations.MainsReturn := by
  intro e s lost
  have taken : exec (.mainsReturn e) s = .next (Machine.mainsReturn e s) := congrArg Host.Outcome.next (if_pos lost)
  have count := backupCount_eq e.cellTicks s
  refine ⟨fun fails => ?_, fun held agrees => ?_⟩
  · have check : ¬(e.cellHeld && e.domainAgrees) = true := by
      rw [Bool.and_eq_true]
      rintro ⟨held, agrees⟩
      rcases fails with no | no
      · exact Bool.false_ne_true (no.symm.trans held)
      · exact Bool.false_ne_true (no.symm.trans agrees)
    rw [taken, Machine.mainsReturn]
    dsimp only
    rw [if_neg check, coldStart_eq, count]
  · have check : (e.cellHeld && e.domainAgrees) = true := by rw [held, agrees]; rfl
    have accepted : exec (.mainsReturn e) s =
        .next (powerReturn e.backupLow { s with time := (backupCount e.cellTicks s).time }) := by
      rw [taken, Machine.mainsReturn, if_pos check, ← count]
    refine ⟨_, accepted, ?_⟩
    generalize (backupCount e.cellTicks s).time = time
    obtain ⟨loop, booth, switch, air, hire, acct, clock⟩ := powerReturn_kept e.backupLow { s with time := time }
    obtain ⟨stations, toLose, _⟩ := powerReturn_notices e.backupLow { s with time := time }
    have supply := powerReturn_supply e.backupLow { s with time := time }
    obtain ⟨boothRec, console, chan, slotState, block, queues, table⟩ := records_of_started (s := s) loop booth switch
    rw [powerValues_acct, completeEntries_acct] at acct
    rw [powerValues_hire] at hire
    rw [powerValues_time] at clock
    have now : (powerReturn e.backupLow { s with time := time }).now = time.clock := (congrArg TimeBase.clock clock :)
    refine ⟨(congrArg Supply.mode supply :), (congrArg Supply.mainsLost supply :), (congrArg Supply.lossStamp supply :), ?_,
      (congrArg Supply.params supply :), (congrArg Supply.backupLow supply :), (congrArg Supply.counters supply :),
      flagged_powerReturn _ _, stations, toLose, boothRec, console, chan, slotState, block, queues, table, air,
      (congrArg Accounting.duty acct :), ?_, (congrArg Accounting.accounts acct :), (congrArg Accounting.statements acct :),
      (congrArg Accounting.nextLoan acct :), (congrArg Accounting.tariffs acct :), (congrArg Accounting.counters acct :),
      (congrArg Hire.batchCounters hire :), ?_, (congrArg Hire.counters hire :), (congrArg Hire.pendingList hire :),
      (congrArg Hire.batches hire :), clock⟩
    · rw [now]
      exact (congrArg Supply.startRecord supply :)
    · rw [acct]
      exact congrArg (fun n => { completed := n : DutyCounters }) (satAdd_zero _)
    · rw [hire]
      simp only [Receiver.started_effect]

/-! ### RESTART (R187) -/

/-- The state of a RESTART before its flags: the duty entries completed, the values of every block, the waiting messages lost, the
reply queued. -/
def restartValues (h : Header) (s : State) : State :=
  queueReply h.station h.tag (Answer.accepted [.name "RESTARTED"]).body
    (loseWaiting (startValues (completeEntries (fun _ => true) .restart s.now s)))

theorem restartPart_eq (h : Header) (s : State) :
    restartPart h s = announced .restart s.supply.backupLow (restartValues h s) := rfl

theorem restartValues_blocks (h : Header) (s : State) :
    (restartValues h s).loop = s.loop.started ∧ (restartValues h s).booth = s.booth.started ∧
      (restartValues h s).switch = s.switch.started ∧ (restartValues h s).air = {} ∧
      (restartValues h s).hire = s.hire.started ∧
      (restartValues h s).acct = (completeEntries (fun _ => true) .restart s.now s).acct.started ∧
      (restartValues h s).time = s.time.started ∧ (restartValues h s).supply = s.supply.started := by
  simp [restartValues, loseWaiting, startValues]

/-- The service controller when the reply of a RESTART is queued: the reply is its one message (R193, R198). -/
theorem restartValues_serv (h : Header) (s : State) :
    (restartValues h s).serv =
      { stations := s.serv.stations
        toLose := messagesWaiting s.pending
        outbound := [⟨h.station, .reply, h.tag, [.name "ACCEPTED", .name "RESTARTED"]⟩] } := by
  simp [restartValues, queueReply, loseWaiting, State.modServ, startValues, Service.started, Answer.body, Config.outbound]

theorem restartPart_kept (h : Header) (s : State) :
    (restartPart h s).loop = s.loop.started ∧ (restartPart h s).booth = s.booth.started ∧
      (restartPart h s).switch = s.switch.started ∧ (restartPart h s).air = {} ∧ (restartPart h s).hire = s.hire.started ∧
      (restartPart h s).acct = (completeEntries (fun _ => true) .restart s.now s).acct.started ∧
      (restartPart h s).time = s.time.started := by
  obtain ⟨loop, booth, switch, air, hire, acct, time, _⟩ := restartValues_blocks h s
  simp [restartPart_eq, loop, booth, switch, air, hire, acct, time]

/-- Mode and supply control after a RESTART (R187, R188). -/
theorem restartPart_supply (h : Header) (s : State) :
    (restartPart h s).supply =
      { s.supply with
        mode := .setup
        mainsLost := false
        startRecord := ⟨.restart, s.now⟩
        counters := { backupLows := if s.supply.backupLow = true then 1 else 0 } } := by
  obtain ⟨_, _, _, _, _, _, time, supply⟩ := restartValues_blocks h s
  have now : (restartValues h s).now = s.now := by
    rw [State.now, time]
    rfl
  rw [restartPart_eq, announced_supply (by rw [supply]; rfl), now, supply]
  rfl

/-- The flags of a RESTART (R173, R188). -/
theorem flagged_restartPart (h : Header) (s : State) (f : NoticeFlag) :
    (restartPart h s).flagged f = true ↔
      (f = .returnBy ∧ s.time.returnBy.matched = true) ∨ (f = .sessionClose ∧ s.time.sessionClose.matched = true) ∨
        (f = .backupLow ∧ s.supply.backupLow = true) := by
  obtain ⟨_, _, _, _, _, _, time, supply⟩ := restartValues_blocks h s
  have clear : (restartValues h s).flagged f = false := by
    rw [State.flagged, restartValues_serv]
    rfl
  rw [restartPart_eq, flagged_announced (by rw [supply]; rfl), clear, time]
  simp [TimeBase.started]

/-- Settles O53: the values of the start, and what its flags leave of them. -/
theorem restart : Obligations.Restart := by
  intro h s ha
  have part : exec (.restart h) s = .next (restartPart h (messageReceived s)) :=
    congrArg Host.Outcome.next
      ((takeMessage_taken _ ha.1 ha.2.1).trans (whenAdmitted_of_admitted ha (restartPart h)))
  obtain ⟨loop, booth, switch, air, hire, acct, clock⟩ := restartPart_kept h (messageReceived s)
  obtain ⟨stations, toLose, notices, outbound⟩ :
      NoticesAdded (restartValues h (messageReceived s)).serv (restartPart h (messageReceived s)).serv :=
    announced_notices .restart _ _
  rw [restartValues_serv] at stations toLose outbound
  rw [completeEntries_acct] at acct
  have supply := restartPart_supply h (messageReceived s)
  obtain ⟨boothRec, console, chan, slotState, block, queues, table⟩ := records_of_started (s := s) loop booth switch
  exact ⟨_, part, (congrArg Supply.mode supply :), (congrArg Supply.lossStamp supply :), (congrArg Supply.startRecord supply :),
    (congrArg Supply.params supply :), (congrArg List.head? outbound :), flagged_restartPart h _,
    (congrArg Supply.backupLow supply :), (congrArg Supply.counters supply :), stations, clock, boothRec, console, chan,
    slotState, block, queues, table, air, hire, (congrArg Accounting.nextLoan acct :),
    (congrArg Accounting.tariffs acct :), (congrArg Accounting.counters acct :), (congrArg Accounting.dutyCounters acct :),
    (congrArg Accounting.duty acct :), (congrArg Accounting.accounts acct :), (congrArg Accounting.statements acct :), toLose⟩

end Sys2Proof.Machine
end

