-- ==== Sys2Proof/Proofs/Relay.lean ====
section
/-! The relay graph: what the check of a change of relay source finds (R41), the requests to a booth (R37, R43, R47), and every step
keeps relay depths at most 3 (O56). -/

namespace Sys2Proof.Machine

/-! ### Following relay sources (R41) -/

/-- The next source of a relay chain; FLOOR is where a chain ends. -/
def relayStep (relay : Nat → RelaySource) : RelaySource → RelaySource
  | .floor => .floor
  | .booth x => relay x

theorem repeat_succ {α : Type} (f : α → α) (n : Nat) (x : α) : Nat.repeat f (n + 1) x = Nat.repeat f n (f x) := by
  induction n with
  | zero => rfl
  | succ n ih => exact congrArg f ih

/-- A chain that has come to FLOOR stays there. -/
theorem relayStep_floor (relay : Nat → RelaySource) (n : Nat) : Nat.repeat (relayStep relay) n .floor = .floor := by
  induction n with
  | zero => rfl
  | succ n ih => rw [repeat_succ]; exact ih

theorem relayStep_floor_mono {relay : Nat → RelaySource} {m n : Nat} (le : m ≤ n) {source : RelaySource}
    (h : Nat.repeat (relayStep relay) m source = .floor) : Nat.repeat (relayStep relay) n source = .floor := by
  induction m generalizing n source with
  | zero =>
    cases (h : source = .floor)
    exact relayStep_floor relay n
  | succ m ih =>
    obtain ⟨k, rfl⟩ : ∃ k, n = k + 1 := ⟨n - 1, by omega⟩
    rw [repeat_succ] at h ⊢
    exact ih (Nat.le_of_succ_le_succ le) h

/-- A relay depth is defined and at most m exactly when m steps come to FLOOR. -/
theorem chainLength_le_iff (relay : Nat → RelaySource) {m n : Nat} (le : m ≤ n) (source : RelaySource) :
    (chainLength relay n source).any (fun d => decide (d ≤ m)) = true ↔ Nat.repeat (relayStep relay) m source = .floor := by
  induction n generalizing m source with
  | zero =>
    cases Nat.le_zero.mp le
    cases source <;> simp [chainLength, Nat.repeat]
  | succ n ih =>
    cases source with
    | floor => simp [chainLength, relayStep_floor]
    | booth x =>
      cases m with
      | zero => simp [chainLength, Nat.repeat, Option.any_map]
      | succ m =>
        rw [repeat_succ]
        have next := ih (Nat.le_of_succ_le_succ le) (relay x)
        simpa [chainLength, relayStep, Option.any_map, Function.comp_def] using next

/-- The relay graph fits exactly when from the source of each of the 24 booths 3 steps come to FLOOR. -/
theorem depthsFit_iff (relay : Nat → RelaySource) :
    depthsFit relay = true ↔ ∀ d, isBooth d = true → Nat.repeat (relayStep relay) 3 (relay d) = .floor := by
  have each : ∀ d, (relayDepthOf relay d).any (fun k => decide (k ≤ Config.relayDepth)) = true ↔
      Nat.repeat (relayStep relay) 3 (relay d) = .floor := fun d => chainLength_le_iff relay (by decide) (relay d)
  simp [depthsFit, List.all_eq_true, each, mem_upTo, isBooth, within]

/-- Within its fuel, following relay sources reaches a booth exactly when some number of steps stands at it. -/
theorem reaches_iff (relay : Nat → RelaySource) (b n : Nat) (source : RelaySource) :
    reaches relay b n source = true ↔ ∃ k < n, Nat.repeat (relayStep relay) k source = .booth b := by
  induction n generalizing source with
  | zero => simp [reaches]
  | succ n ih =>
    cases source with
    | floor => simp [reaches, relayStep_floor]
    | booth x =>
      simp only [reaches, Bool.or_eq_true, decide_eq_true_eq, ih, Nat.exists_lt_succ_left, repeat_succ]
      simp [Nat.repeat, relayStep]

/-- In a graph that fits, 4 steps from a source among FLOOR and the 24 booths come to FLOOR. -/
theorem source_comes_to_floor {relay : Nat → RelaySource} (fits : depthsFit relay = true) {source : RelaySource}
    (known : isSource source = true) : Nat.repeat (relayStep relay) 4 source = .floor := by
  cases source with
  | floor => exact relayStep_floor relay 4
  | booth x =>
    rw [repeat_succ]
    exact (depthsFit_iff relay).mp fits x known

/-- In a graph that fits, the check's 25 steps are enough to find a cycle. -/
theorem reaches_iff_cycle {relay : Nat → RelaySource} (fits : depthsFit relay = true) {source : RelaySource}
    (known : isSource source = true) (b : Nat) :
    reaches relay b (Config.booths + 1) source = true ↔ ∃ n, Nat.repeat (relayStep relay) n source = .booth b := by
  rw [reaches_iff]
  refine ⟨fun ⟨k, _, stands⟩ => ⟨k, stands⟩, fun ⟨k, stands⟩ => ⟨k, ?_, stands⟩⟩
  by_contra far
  have ended := relayStep_floor_mono (show 4 ≤ k by simp only [Config.booths] at far; omega) (source_comes_to_floor fits known)
  rw [stands] at ended
  cases ended

/-! ### The check of a change (R41) -/

/-- Putting a booth on FLOOR lengthens no chain. -/
theorem withFloor_comes_to_floor {relay : Nat → RelaySource} (b : Nat) {n : Nat} {source : RelaySource}
    (h : Nat.repeat (relayStep relay) n source = .floor) :
    Nat.repeat (relayStep (withSource relay b .floor)) n source = .floor := by
  induction n generalizing source with
  | zero => exact h
  | succ n ih =>
    rw [repeat_succ] at h ⊢
    cases source with
    | floor => exact ih h
    | booth x =>
      by_cases e : x = b
      · simp [relayStep, withSource, e, relayStep_floor]
      · simpa [relayStep, withSource, e] using ih h

theorem depthsFit_withFloor {relay : Nat → RelaySource} (fits : depthsFit relay = true) (b : Nat) :
    depthsFit (withSource relay b .floor) = true := by
  rw [depthsFit_iff] at fits ⊢
  intro d known
  by_cases e : d = b
  · simp [withSource, e, relayStep_floor]
  · simpa [withSource, e] using withFloor_comes_to_floor b (fits d known)

theorem withSource_same {relay : Nat → RelaySource} {b : Nat} {source : RelaySource} (h : relay b = source) :
    withSource relay b source = relay := by
  funext x
  unfold withSource
  split
  next e => rw [e, h]
  next => rfl

theorem relayRefusal_same {s : State} {b : Nat} {source : RelaySource} (h : s.relay b = source) :
    relayRefusal s b source = none := if_pos h

theorem relayRefusal_cycle {s : State} {b : Nat} {source : RelaySource} (new : s.relay b ≠ source)
    (cycle : reaches s.relay b (Config.booths + 1) source = true) : relayRefusal s b source = some .relayCycle := by
  rw [relayRefusal, if_neg new, if_pos cycle]

theorem relayRefusal_depth {s : State} {b : Nat} {source : RelaySource} (new : s.relay b ≠ source)
    (acyclic : reaches s.relay b (Config.booths + 1) source = false)
    (deep : depthsFit (withSource s.relay b source) = false) : relayRefusal s b source = some .relayDepth := by
  simp [relayRefusal, new, acyclic, deep]

theorem relayRefusal_passes {s : State} {b : Nat} {source : RelaySource}
    (acyclic : reaches s.relay b (Config.booths + 1) source = false)
    (fits : depthsFit (withSource s.relay b source) = true) : relayRefusal s b source = none := by
  simp [relayRefusal, acyclic, fits]

/-- A change that passes leaves a graph that fits. -/
theorem depthsFit_of_passes {s : State} {b : Nat} {source : RelaySource} (passes : relayRefusal s b source = none)
    (fits : RelayFits s) : depthsFit (withSource s.relay b source) = true := by
  by_contra deep
  by_cases new : s.relay b = source
  · rw [withSource_same new] at deep
    exact deep fits
  · cases cycle : reaches s.relay b (Config.booths + 1) source with
    | true => simp [relayRefusal_cycle new cycle] at passes
    | false => simp [relayRefusal_depth new cycle (Bool.not_eq_true _ ▸ deep)] at passes

/-! ### Every step keeps the graph (R41) -/

theorem relay_setSource (b : Nat) (source : RelaySource) (s : State) :
    (setSource b source s).relay = withSource s.relay b source := by
  funext k
  rw [State.relay, setSource, boothRec_modBooth, withSource]
  split <;> rfl

theorem relayFits_of_relay {s t : State} (h : RelayFits s) (same : ∀ b, t.relay b = s.relay b) : RelayFits t := by
  unfold RelayFits
  rw [funext same]
  exact h

theorem relayFits_of_records {s t : State} (h : RelayFits s) (same : SameRecords s t) : RelayFits t :=
  relayFits_of_relay h fun b => congrArg BoothCore.relay (same.booths b)

/-- A change of a booth that keeps its relay source. -/
theorem relay_modBooth {s : State} (b k : Nat) {f : Booth → Booth} (hf : ∀ x, (f x).relay = x.relay := by intro; rfl) :
    (s.modBooth b f).relay k = s.relay k := by
  rw [State.relay, boothRec_modBooth]
  split
  next e => rw [e, hf]; rfl
  next => rfl

theorem goSilent_relay (b : Nat) (reason : EndReason) (s : State) (k : Nat) : (goSilent b reason s).relay k = s.relay k := by
  obtain ⟨_, e⟩ | ⟨slot, _, e⟩ := goSilent_cases b reason s
  · rw [e]
  · rw [e, relay_modBooth]
    exact congrArg Booth.relay (releaseSelected_boothRec ..)

theorem relayFits_kept {s t : State} (moves : Move s t) (h : RelayFits s) : RelayFits t := by
  induction moves with
  | trans _ _ ih ih' => exact ih' (ih h)
  | lists same => exact relayFits_of_records h (.of_lists same)
  | sent _ _ ih => exact relayFits_of_records (ih h) (.sendFrame _)
  | clock same => exact relayFits_of_records h (.of_clock same)
  | channel | placed | turnedOn | turnedOff | mode | receivers | deleted => exact h
  | configured | output | live => exact relayFits_of_relay h fun k => relay_modBooth _ k
  | source b source passes =>
    unfold RelayFits
    rw [relay_setSource]
    exact depthsFit_of_passes passes h
  | switched slot b o c =>
    refine relayFits_of_relay h fun k => (relay_modBooth b k).trans ?_
    exact congrArg Booth.relay (releaseSelected_boothRec ..)
  | silenced b reason => exact relayFits_of_relay h (goSilent_relay b reason _)
  | forcedOff c b => exact relayFits_of_relay h (goSilent_relay b _ _)
  | @setup s =>
    refine relayFits_of_relay h fun k => ?_
    exact foldl_keeps (fun t => t.relay k) _ (fun t b => goSilent_relay b .mode t k) (upTo Config.booths) (changeMode .setup s)
  | receiver => exact relayFits_of_relay h fun k => by simp [State.relay, State.boothRec]
  | @started s => exact relayFits_of_relay h fun k => (congrArg Booth.relay (startValues_boothRec k s) :)
  | reset => exact relayFits_reset

/-- Settles O56: every step is a move; the one move that writes a relay source has passed the check of R41. -/
theorem stepKeepsRelayFits : Obligations.StepKeepsRelayFits :=
  fun _ _ h taken => relayFits_kept (step_moves taken) h

/-! ### Requests to a booth (R37, R43, R47) -/

theorem forceSilent_out {b : Nat} (out : isBooth b = false) (s : State) : forceSilent b s = (s, .refused .range []) := by
  simp [forceSilent, out, refuse]

theorem forceSilent_in {b : Nat} (hb : isBooth b = true) (s : State) :
    forceSilent b s = (goSilent b .forced s, .accepted (optNum (FloorState.console (s.boothRec b).floor))) := by
  simp [forceSilent, hb, accept]

theorem setRelay_out {b : Nat} {source : RelaySource} (out : isBooth b = false ∨ isSource source = false) (s : State) :
    setRelay b source s = (s, .refused .range []) := by
  obtain out | out := out <;> simp [setRelay, out, refuse]

theorem setRelay_passes {b : Nat} {source : RelaySource} {s : State} (hb : isBooth b = true) (known : isSource source = true)
    (passes : relayRefusal s b source = none) : setRelay b source s = (setSource b source s, .accepted []) := by
  simp [setRelay, hb, known, passes, accept]

theorem setRelay_refused {b : Nat} {source : RelaySource} {s : State} {code : LampCode} (hb : isBooth b = true)
    (known : isSource source = true) (refusal : relayRefusal s b source = some code) :
    setRelay b source s = (s, .refused (relayCode code) []) := by
  simp [setRelay, hb, known, refusal, refuse]

theorem isBooth_iff {b : Nat} : isBooth b = true ↔ b ∈ upTo Config.booths := by
  simp [isBooth, within, mem_upTo]

/-- FETCH CALLS clears the call latches of the 24 booths. -/
theorem fetchCalls_boothRec (s : State) (d : Nat) :
    (fetchCalls s).1.boothRec d =
      if isBooth d = true then { s.boothRec d with callLatch := false } else s.boothRec d := by
  simp only [isBooth_iff]
  exact boothRec_foldl_modBooth _ _ (upTo_nodup _) s d

/-- FETCH CALLS changes nothing but the booth records. -/
theorem fetchCalls_eq (s : State) :
    ∃ booths, (fetchCalls s).1 = { s with booth := { s.booth with booths := booths } } := ⟨_, foldl_modBooth_eq ..⟩

/-- The check of a change in a graph that fits, in the words of R41. -/
theorem relayRefusal_iff {s : State} {b : Nat} {source : RelaySource} (fits : RelayFits s) (known : isSource source = true) :
    let cycle := ∃ n, Nat.repeat (relayStep s.relay) n source = .booth b
    let changed := withSource s.relay b source
    let deep := ∃ d, isBooth d = true ∧ Nat.repeat (relayStep changed) 3 (changed d) ≠ .floor
    (relayRefusal s b source = some .relayCycle ↔ s.relay b ≠ source ∧ cycle) ∧
    (relayRefusal s b source = some .relayDepth ↔ s.relay b ≠ source ∧ ¬cycle ∧ deep) ∧
    (relayRefusal s b source = none ↔ s.relay b = source ∨ (¬cycle ∧ ¬deep)) := by
  intro cycle changed deep
  have found : reaches s.relay b (Config.booths + 1) source = true ↔ cycle := reaches_iff_cycle fits known b
  have shallow : depthsFit changed = true ↔ ¬deep := by simp [depthsFit_iff, deep]
  by_cases same : s.relay b = source
  · simp [relayRefusal_same same, same]
  by_cases loops : cycle
  · simp [relayRefusal_cycle same (found.mpr loops), same, loops]
  have acyclic : reaches s.relay b (Config.booths + 1) source = false := Bool.eq_false_iff.mpr (mt found.mp loops)
  by_cases far : deep
  · have unfit : depthsFit changed = false := Bool.eq_false_iff.mpr fun fit => shallow.mp fit far
    simp [relayRefusal_depth same acyclic unfit, same, loops, far]
  · simp [relayRefusal_passes acyclic (shallow.mpr far), loops, far]

/-- Settles O36: the requests by what their owner rules, the check by the branches of R41 in a graph that fits. -/
theorem boothRequests : Obligations.BoothRequests := by
  refine ⟨fun h b s => ⟨fun ha out => ⟨?_, fun source => ?_⟩, fun ha source out => ?_,
    fun ha hb => ⟨fun slot live => ?_, fun silent => ?_, fun source known => ⟨fun passes => ?_, fun cycle => ?_, fun deep => ?_⟩⟩,
    fun ha => ⟨(fetchCalls (taken s)).1, request_of_admitted ha rfl, fun d known => ?_, fun d other => ?_, ?_⟩⟩,
    fun s b new => ?_, fun s b x ne new back => ?_, fun s fits b => ?_,
    fun s b source passes fits => depthsFit_of_passes passes fits, fun s b source fits _ known => ?_⟩
  · exact request_of_admitted ha (forceSilent_out out _)
  · exact request_of_admitted ha (setRelay_out (.inl out) _)
  · exact request_of_admitted ha (setRelay_out (.inr out) _)
  · exact request_of_admitted ha (by rw [forceSilent_in hb, taken_boothRec, live]; rfl)
  · refine request_of_admitted ha ?_
    rw [forceSilent_in hb, goSilent_of_silent (silent_of_floor (taken_boothRec s b ▸ silent)), taken_boothRec, silent]
    rfl
  · exact request_of_admitted ha (setRelay_passes hb known passes)
  · exact request_of_admitted ha (setRelay_refused (s := taken s) hb known cycle)
  · exact request_of_admitted ha (setRelay_refused (s := taken s) hb known deep)
  · rw [fetchCalls_boothRec, if_pos known, taken_boothRec]
  · rw [fetchCalls_boothRec, other]
    rfl
  · obtain ⟨booths, e⟩ := fetchCalls_eq (taken s)
    rw [e]
    exact ⟨rfl, rfl, rfl⟩
  · exact relayRefusal_cycle new ((reaches_iff ..).mpr ⟨0, by decide, rfl⟩)
  · exact relayRefusal_cycle new ((reaches_iff ..).mpr ⟨1, by decide, back⟩)
  · exact relayRefusal_passes rfl (depthsFit_withFloor fits b)
  · exact relayRefusal_iff fits known

end Sys2Proof.Machine
end

