-- ==== Sys2Proof/Proofs/Keys.lean ====
section
/-! The keys of a console by the floor state of its booth (R28 to R30, R32, R34, R35, R42, R47). -/

namespace Sys2Proof.Machine

/-! ### A key event and the lamp code that it puts out (R28) -/

theorem takeKey_of_no_booth {slot : Nat} {s : State} (nowhere : (s.console slot).booth = none) (key : KeyEvent) :
    takeKey slot key s = s := by
  simp [takeKey, nowhere]

theorem takeKey_of_booth {slot b : Nat} {s : State} (place : (s.console slot).booth = some b) (key : KeyEvent) :
    takeKey slot key s = carryOutKey slot b key (clearLamp slot s) := by
  simp [takeKey, place]

@[simp] theorem clearLamp_boothRec (slot b : Nat) (s : State) : (clearLamp slot s).boothRec b = s.boothRec b := rfl

theorem clearLamp_console (slot n : Nat) (s : State) :
    (clearLamp slot s).console n =
      if n = slot then { s.console slot with lamp := none, displayEnd := none } else s.console n := console_modConsole ..

/-- Putting a lamp code out leaves every console's place. -/
theorem clearLamp_place (slot n : Nat) (s : State) :
    ((clearLamp slot s).console n).configured = (s.console n).configured ∧
      ((clearLamp slot s).console n).booth = (s.console n).booth ∧
      ((clearLamp slot s).console n).seat = (s.console n).seat := by
  rw [clearLamp_console]
  split
  next e => rw [e]; exact ⟨rfl, rfl, rfl⟩
  next => exact ⟨rfl, rfl, rfl⟩

/-! ### Going live and changing the live console (R29, R30, R39) -/

theorem openSpell_of_selected {slot b c : Nat} {s : State} (selected : (s.boothRec b).selected = some c) :
    openSpell slot b s = dutyOpen slot b c s := by
  simp [openSpell, selected]

/-- The booth is LIVE with a live console, and its turn timer is loaded (R39). -/
def lit (slot b : Nat) (s : State) : State :=
  s.modBooth b fun x => { x with floor := .live slot, turn := if x.turnLimit = 0 then none else some x.turnLimit }

theorem lit_selected (slot b : Nat) (s : State) : ((lit slot b s).boothRec b).selected = (s.boothRec b).selected := by
  rw [lit, boothRec_modBooth_self]
  rfl

/-- A booth that is LIVE after its claim: the claim and the booth's own record change apart (R29). -/
theorem goLive_of_selected {slot b c : Nat} {s : State} (selected : (s.boothRec b).selected = some c) :
    goLive slot b (takeOwnership c b s) = dutyOpen slot b c (takeOwnership c b (lit slot b s)) :=
  openSpell_of_selected (s := takeOwnership c b (lit slot b s)) ((lit_selected slot b s).trans selected)

theorem changeLive_of_selected {slot old b c : Nat} {s : State} (selected : (s.boothRec b).selected = some c)
    (reason : EndReason) :
    changeLive slot old b reason s = dutyOpen slot b c (dutyClose old reason (lit slot b s)) :=
  openSpell_of_selected (s := dutyClose old reason (lit slot b s)) ((lit_selected slot b s).trans selected)

/-! ### MIC_ON (R29) -/

theorem keyMicOn_setup {slot b : Nat} {s : State} (setup : s.mode = .setup) :
    keyMicOn slot b s = showLamp slot .notLiveMode s := if_pos setup

section
variable {slot b : Nat} {s : State} (air : s.mode ≠ .setup)
include air

theorem keyMicOn_no_channel (silent : (s.boothRec b).floor = .silent) (unselected : (s.boothRec b).selected = none) :
    keyMicOn slot b s = showLamp slot .noChannel s := by
  simp [keyMicOn, air, silent, unselected]

theorem keyMicOn_refused {c : Nat} {code : LampCode} (silent : (s.boothRec b).floor = .silent)
    (selected : (s.boothRec b).selected = some c) (refusal : claimRefusal (s.chan c) = some code) :
    keyMicOn slot b s = showLamp slot code s := by
  simp [keyMicOn, air, silent, selected, refusal]

theorem keyMicOn_granted {c : Nat} (silent : (s.boothRec b).floor = .silent) (selected : (s.boothRec b).selected = some c)
    (granted : claimRefusal (s.chan c) = none) :
    keyMicOn slot b s = dutyOpen slot b c (takeOwnership c b (lit slot b s)) := by
  rw [← goLive_of_selected selected]
  simp [keyMicOn, air, silent, selected, granted]

theorem keyMicOn_own (own : FloorState.console (s.boothRec b).floor = some slot) : keyMicOn slot b s = s := by
  unfold keyMicOn
  rw [if_neg air]
  split
  next floor => simp [floor, FloorState.console] at own
  next floor => exact if_pos (by simpa [floor, FloorState.console] using own)
  next floor => exact if_pos (by simpa [floor, FloorState.console] using own)

theorem keyMicOn_interlock {d : Nat} (live : (s.boothRec b).floor = .live d) (other : d ≠ slot)
    (refuses : (s.boothRec b).interlock = .refuse) : keyMicOn slot b s = showLamp slot .interlock s := by
  simp [keyMicOn, air, live, other, refuses]

theorem keyMicOn_takeover {d c : Nat} (live : (s.boothRec b).floor = .live d) (other : d ≠ slot)
    (takes : (s.boothRec b).interlock = .takeover) (selected : (s.boothRec b).selected = some c) :
    keyMicOn slot b s = dutyOpen slot b c (dutyClose d .takeover (lit slot b s)) := by
  rw [← changeLive_of_selected selected]
  simp [keyMicOn, air, live, other, takes]

theorem keyMicOn_offered {d n : Nat} {target : OfferTarget} (offered : (s.boothRec b).floor = .offered d target n)
    (other : d ≠ slot) : keyMicOn slot b s = keyTake slot b s := by
  simp [keyMicOn, air, offered, other]

end

/-- Settles O18: the rows of R29 one by one, the lamp code of the console put out first. -/
theorem micOnByTheFloorState : Obligations.MicOnByTheFloorState := by
  refine ⟨fun slot code s => ⟨rfl, rfl⟩, fun slot b s place => ?_⟩
  simp only [takeKey_of_booth place, carryOutKey]
  refine ⟨fun setup => keyMicOn_setup setup, fun (air : (clearLamp slot s).mode ≠ .setup) => ⟨keyMicOn_no_channel air,
    fun c silent selected off => ?_,
    fun c silent selected on owned => ?_, fun c silent selected on free => ?_, fun live => ?_, fun d => keyMicOn_interlock air,
    fun d c => keyMicOn_takeover air,
    fun d target n => keyMicOn_offered air, fun target n offered => ?_⟩⟩
  · exact keyMicOn_refused air silent selected (claimRefusal_of_disabled off)
  · obtain ⟨owner, owned⟩ := Option.isSome_iff_exists.mp owned
    exact keyMicOn_refused air silent selected (claimRefusal_of_owned on owned)
  · exact keyMicOn_granted air silent selected (claimRefusal_none.mpr ⟨on, free⟩)
  · exact keyMicOn_own air (by rw [clearLamp_boothRec, live]; rfl)
  · exact keyMicOn_own air (by rw [clearLamp_boothRec, offered]; rfl)

/-! ### TAKE (R30) -/

section
variable {slot b : Nat} {s : State}

theorem keyTake_taken {d n c : Nat} {target : OfferTarget} (offered : (s.boothRec b).floor = .offered d target n)
    (other : d ≠ slot) (mine : target = .any ∨ target = .slot slot) (selected : (s.boothRec b).selected = some c) :
    keyTake slot b s = dutyOpen slot b c (dutyClose d .handover (lit slot b s)) := by
  rw [← changeLive_of_selected selected]
  simp [keyTake, offered, other, mine]

theorem keyTake_not_for_you {d n k : Nat} (offered : (s.boothRec b).floor = .offered d (.slot k) n) (other : d ≠ slot)
    (named : k ≠ slot) : keyTake slot b s = showLamp slot .notForYou s := by
  simp [keyTake, offered, other, named]

theorem keyTake_own {n : Nat} {target : OfferTarget} (offered : (s.boothRec b).floor = .offered slot target n) :
    keyTake slot b s = s := by
  simp [keyTake, offered]

theorem keyTake_silent (silent : (s.boothRec b).floor = .silent) : keyTake slot b s = showLamp slot .noOffer s := by
  simp [keyTake, silent]

theorem keyTake_live {d : Nat} (live : (s.boothRec b).floor = .live d) : keyTake slot b s = showLamp slot .noOffer s := by
  simp [keyTake, live]

/-! ### HANDOVER and MIC_OFF (R32, R34) -/

theorem keyHandover_not_live (off : FloorState.console (s.boothRec b).floor ≠ some slot) (target : HandoverTarget) :
    keyHandover slot b target s = showLamp slot .notLive s := if_pos off

theorem keyHandover_offers {target : HandoverTarget} {offer : OfferTarget}
    (live : FloorState.console (s.boothRec b).floor = some slot) (valid : handoverTarget s slot b target = some offer) :
    keyHandover slot b target s = s.modBooth b fun x => { x with floor := .offered slot offer s.params.offerTimeout } := by
  simp [keyHandover, live, valid]

theorem keyHandover_bad_target {target : HandoverTarget} (live : FloorState.console (s.boothRec b).floor = some slot)
    (invalid : handoverTarget s slot b target = none) : keyHandover slot b target s = showLamp slot .badTarget s := by
  simp [keyHandover, live, invalid]

theorem keyMicOff_live (live : FloorState.console (s.boothRec b).floor = some slot) :
    keyMicOff slot b s = goSilent b .micOff s := if_pos live

theorem keyMicOff_not_live (off : FloorState.console (s.boothRec b).floor ≠ some slot) : keyMicOff slot b s = s := if_neg off

end

/-- The console of slot k is one of the table, configured, and of the booth and seat (R32). -/
def SitsAt (s : State) (b seat k : Nat) : Prop :=
  isSlot k = true ∧ (s.console k).configured = true ∧ (s.console k).booth = some b ∧ (s.console k).seat = some seat

theorem sitsAt_of_slotOnSeat {s : State} {b seat k : Nat} (h : slotOnSeat s b seat = some k) : SitsAt s b seat k := by
  have listed := isSlot_iff.mpr (List.mem_of_find?_eq_some h)
  have sits := List.find?_some h
  simp only [Bool.and_eq_true, decide_eq_true_eq] at sits
  obtain ⟨⟨configured, booth⟩, seat⟩ := sits
  exact ⟨listed, configured, booth, seat⟩

theorem slotOnSeat_isSome {s : State} {b seat k : Nat} (h : SitsAt s b seat k) : (slotOnSeat s b seat).isSome = true := by
  obtain ⟨listed, configured, booth, seat⟩ := h
  rw [slotOnSeat, List.find?_isSome]
  exact ⟨k, isSlot_iff.mp listed, by simp [configured, booth, seat]⟩

theorem slotOnSeat_of_only {s : State} {b seat k : Nat} (sits : SitsAt s b seat k)
    (only : ∀ j, SitsAt s b seat j → j = k) : slotOnSeat s b seat = some k := by
  obtain ⟨j, found⟩ := Option.isSome_iff_exists.mp (slotOnSeat_isSome sits)
  rw [found, only j (sitsAt_of_slotOnSeat found)]

theorem handoverTarget_of_only {s : State} {slot b seat k : Nat} (sits : SitsAt s b seat k)
    (only : ∀ j, SitsAt s b seat j → j = k) (present : (s.slotState k).presence = .present) (other : k ≠ slot) :
    handoverTarget s slot b (.seat seat) = some (.slot k) := by
  simp [handoverTarget, slotOnSeat_of_only sits only, present, other]

theorem handoverTarget_none {s : State} {slot b seat : Nat}
    (away : ∀ j, SitsAt s b seat j → (s.slotState j).presence ≠ .present ∨ j = slot) :
    handoverTarget s slot b (.seat seat) = none := by
  unfold handoverTarget
  dsimp only
  split
  next k found =>
    obtain absent | own := away k (sitsAt_of_slotOnSeat found)
    · simp [absent]
    · simp [own]
  next => rfl

/-- Putting a lamp code out moves no console. -/
theorem clearLamp_sitsAt {slot : Nat} {s : State} {b seat k : Nat} : SitsAt (clearLamp slot s) b seat k ↔ SitsAt s b seat k := by
  obtain ⟨configured, booth, place⟩ := clearLamp_place slot k s
  rw [SitsAt, SitsAt, configured, booth, place]

/-- Settles O19: TAKE by the rows of R30; HANDOVER and MIC_OFF from the live console and from another (R32, R34). -/
theorem takeHandoverAndMicOff : Obligations.TakeHandoverAndMicOff := by
  refine ⟨fun slot b s place => ?_, fun slot b s place => ?_⟩
  · simp only [takeKey_of_booth place, carryOutKey]
    exact ⟨fun d n c target offered other mine selected => keyTake_taken offered other mine selected,
      fun d n k offered other named => keyTake_not_for_you offered other named,
      fun n target offered => keyTake_own offered, fun silent => keyTake_silent silent, fun d live => keyTake_live live⟩
  · simp only [takeKey_of_booth place, carryOutKey]
    refine ⟨fun off => ⟨keyHandover_not_live (s := clearLamp slot s) off, keyMicOff_not_live off⟩,
      fun live => ⟨keyHandover_offers live rfl, keyMicOff_live live,
        fun k n listed configured booth seat present other only => ?_, fun n away => ?_⟩⟩
    · refine keyHandover_offers live (handoverTarget_of_only (k := k) ?_ (fun j sits => ?_) present other)
      · exact clearLamp_sitsAt.mpr ⟨listed, configured, booth, seat⟩
      · obtain ⟨listed, configured, booth, seat⟩ := clearLamp_sitsAt.mp sits
        exact only j listed configured booth seat
    · refine keyHandover_bad_target live (handoverTarget_none fun j sits => ?_)
      obtain ⟨listed, configured, booth, seat⟩ := clearLamp_sitsAt.mp sits
      exact away j listed configured booth seat

/-! ### OUTPUT_A and OUTPUT_B (R35) -/

section
variable {slot b : Nat} {o : Output} {s : State}

theorem keyOutput_no_channel (absent : (s.boothRec b).channelOf o = none) :
    keyOutput slot b o s = showLamp slot .noChannel s := by
  simp [keyOutput, absent]

theorem keyOutput_selected (names : ((s.boothRec b).channelOf o).isSome = true) (same : (s.boothRec b).output = o) :
    keyOutput slot b o s = s := by
  obtain ⟨c, names⟩ := Option.isSome_iff_exists.mp names
  simp [keyOutput, names, same]

theorem keyOutput_silent (names : ((s.boothRec b).channelOf o).isSome = true) (other : (s.boothRec b).output ≠ o)
    (silent : (s.boothRec b).floor = .silent) :
    keyOutput slot b o s = s.modBooth b fun x => { x with output := o } := by
  obtain ⟨c, names⟩ := Option.isSome_iff_exists.mp names
  simp [keyOutput, names, other, silent, FloorState.console]

theorem keyOutput_not_live {d : Nat} (names : ((s.boothRec b).channelOf o).isSome = true)
    (other : (s.boothRec b).output ≠ o) (live : FloorState.console (s.boothRec b).floor = some d) (off : d ≠ slot) :
    keyOutput slot b o s = showLamp slot .notLive s := by
  obtain ⟨c, names⟩ := Option.isSome_iff_exists.mp names
  simp [keyOutput, names, other, live, off]

theorem keyOutput_refused {c : Nat} {code : LampCode} (names : (s.boothRec b).channelOf o = some c)
    (other : (s.boothRec b).output ≠ o) (live : FloorState.console (s.boothRec b).floor = some slot)
    (refusal : claimRefusal (s.chan c) = some code) : keyOutput slot b o s = showLamp slot code s := by
  simp [keyOutput, names, other, live, refusal]

/-- The new output's channel is the one that the booth has selected after the change. -/
theorem switchOutput_eq {c old : Nat} (names : (s.boothRec b).channelOf o = some c)
    (selected : (s.boothRec b).selected = some old) :
    switchOutput slot b o c s =
      dutyOpen slot b c (dutyClose slot .output
        ((release old b (takeOwnership c b s)).modBooth b fun x =>
          { x with output := o, floor := .live slot, latest := none })) := by
  have released : releaseSelected b (takeOwnership c b s) = release old b (takeOwnership c b s) :=
    releaseSelected_of_selected selected
  rw [switchOutput, released]
  refine openSpell_of_selected ?_
  rw [dutyClose_boothRec, boothRec_modBooth_self, release_boothRec, takeOwnership_boothRec, ← names]
  cases o <;> rfl

theorem keyOutput_granted {c old : Nat} (names : (s.boothRec b).channelOf o = some c) (other : (s.boothRec b).output ≠ o)
    (live : FloorState.console (s.boothRec b).floor = some slot) (granted : claimRefusal (s.chan c) = none)
    (selected : (s.boothRec b).selected = some old) :
    keyOutput slot b o s =
      dutyOpen slot b c (dutyClose slot .output
        ((release old b (takeOwnership c b s)).modBooth b fun x =>
          { x with output := o, floor := .live slot, latest := none })) := by
  rw [← switchOutput_eq names selected]
  simp [keyOutput, names, other, live, granted]

theorem channelOf_eq (x : Booth) (o : Output) : x.channelOf o = if o = .a then x.aChannel else x.bChannel := by
  cases o <;> rfl

theorem takeKey_output {key : KeyEvent} (place : (s.console slot).booth = some b)
    (named : (key = .outputA ∧ o = .a) ∨ (key = .outputB ∧ o = .b)) :
    takeKey slot key s = keyOutput slot b o (clearLamp slot s) := by
  rw [takeKey_of_booth place]
  obtain ⟨rfl, rfl⟩ | ⟨rfl, rfl⟩ := named <;> rfl

/-! ### RELAY (R42) -/

theorem keyRelay_passes {source : RelaySource} (passes : relayRefusal s b source = none) :
    keyRelay slot b source s = setSource b source s := by
  simp [keyRelay, passes]

theorem keyRelay_refused {source : RelaySource} {code : LampCode} (refusal : relayRefusal s b source = some code) :
    keyRelay slot b source s = showLamp slot code s := by
  simp [keyRelay, refusal]

end

/-- Settles O20: the output keys by the five steps of R35, RELAY by its check (R42), CALL by the latch (R47). -/
theorem outputRelayAndCallKeys : Obligations.OutputRelayAndCallKeys := by
  refine ⟨fun slot b key o s place named => ?_, fun slot b s place => ?_,
    fun slot key s nowhere => takeKey_of_no_booth nowhere key⟩
  · simp only [takeKey_output place named, ← channelOf_eq]
    refine ⟨fun absent => keyOutput_no_channel absent, fun names same => keyOutput_selected names same,
      fun names other silent => keyOutput_silent names other silent,
      fun d names other live off => keyOutput_not_live names other live off,
      fun c names other live off => ?_, fun c names other live on owned => ?_, fun c old names other live on free selected => ?_⟩
    · exact keyOutput_refused names other live (claimRefusal_of_disabled off)
    · obtain ⟨owner, owned⟩ := Option.isSome_iff_exists.mp owned
      exact keyOutput_refused names other live (claimRefusal_of_owned on owned)
    · exact keyOutput_granted names other live (claimRefusal_none.mpr ⟨on, free⟩) selected
  · simp only [takeKey_of_booth place, carryOutKey]
    exact ⟨fun source passes => keyRelay_passes passes, fun source code refusal => keyRelay_refused refusal,
      fun set => latchCall_set set, fun clear => latchCall_clear clear⟩

end Sys2Proof.Machine
end

