-- ==== Sys2Proof/Proofs/Departure.lean ====
section
/-! The departure of a loop frame: what a frame taken as lost leaves of the loop controller (R50, R52), the loop status (R62), and the
downstream part of a slot (R44 to R46). -/

namespace Sys2Proof.Machine

/-! ### What a lost frame leaves of the loop controller (R52, R56) -/

/-- Nothing of the loop controller but its slots changes when a console is given a missed frame. -/
theorem missFrame_loop (n : Nat) (s : State) : ∃ slots, (missFrame n s).loop = { s.loop with slots := slots } := by
  unfold missFrame
  dsimp only
  split
  · split
    · simp only [goAbsent, consoleGone_frame, setFlag_frame]
      exact ⟨_, rfl⟩
    · exact ⟨_, rfl⟩
  · exact ⟨s.loop.slots, rfl⟩

theorem loseFrame_loop (s : State) :
    ∃ slots, (loseFrame s).loop =
      { s.loop with slots := slots, counters := { s.loop.counters with lost := bump s.loop.counters.lost } } := by
  refine foldl_invariant
    (fun t => ∃ slots, t.loop =
      { s.loop with slots := slots, counters := { s.loop.counters with lost := bump s.loop.counters.lost } })
    _ (fun t n ⟨slots, e⟩ => ?_) _ _ ⟨s.loop.slots, rfl⟩
  obtain ⟨slots', e'⟩ := missFrame_loop n t
  exact ⟨slots', by rw [e', e]⟩

/-- Before a departure a full list has given up its oldest entry, and the rest of the loop's numbers stand as they were (R50 step 1). -/
theorem giveUpOldest_loop (s : State) :
    ∃ slots lost, (giveUpOldest s).loop =
      { s.loop with
        outstanding := s.loop.outstanding.drop (if 8 ≤ s.loop.outstanding.length then 1 else 0)
        slots := slots
        counters := { s.loop.counters with lost := lost } } := by
  unfold giveUpOldest
  split
  next =>
    obtain ⟨slots, e⟩ := loseFrame_loop (s.modLoop fun l => { l with outstanding := l.outstanding.drop 1 })
    exact ⟨slots, _, e⟩
  next => exact ⟨s.loop.slots, s.loop.counters.lost, rfl⟩

/-! ### Loop status (R62) -/

theorem loopStatus_eq_broken {x : LoopStatus} (h : x ≠ .running) : x = .broken := by
  cases x with
  | running => exact absurd rfl h
  | broken => rfl

/-- A departure raises the count of departures since the last good return up to 8, where the loop is BROKEN. -/
theorem countDeparture_loop (s : State) :
    (countDeparture s).loop =
      { s.loop with
        sinceGood := min (s.loop.sinceGood + 1) 8
        status := if 8 ≤ s.loop.sinceGood + 1 then .broken else s.loop.status } := by
  have eighth : min (s.loop.sinceGood + 1) 8 = 8 ↔ 8 ≤ s.loop.sinceGood + 1 := by omega
  unfold countDeparture
  dsimp only
  split
  next breaks =>
    simp only [Bool.and_eq_true, decide_eq_true_eq, Config.outstanding, eighth] at breaks
    obtain ⟨late, _⟩ := breaks
    simp [late]
  next stands =>
    simp only [Bool.and_eq_true, decide_eq_true_eq, Config.outstanding, eighth, not_and] at stands
    have status : (if 8 ≤ s.loop.sinceGood + 1 then LoopStatus.broken else s.loop.status) = s.loop.status := by
      split
      next late => exact (loopStatus_eq_broken (stands late)).symm
      next => rfl
    rw [status]
    rfl

/-- The departure that brings the count of a RUNNING loop to 8 breaks it and sets LOOP_BROKEN. -/
theorem countDeparture_breaks {s : State} (running : s.loop.status = .running) (late : 7 ≤ s.loop.sinceGood) :
    countDeparture s =
      setFlag .loopBroken { s with loop := { s.loop with sinceGood := 8, status := .broken } } := by
  have eighth : min (s.loop.sinceGood + 1) 8 = 8 := by omega
  simp [countDeparture, eighth, running, State.modLoop, Config.outstanding]

/-! ### Feeds and lamps (R44, R45) -/

theorem onAir_iff {x : Booth} : x.onAir = true ↔ x.floor ≠ .silent := by
  unfold Booth.onAir
  cases x.floor <;> simp [FloorState.console]

theorem feedOf_floor {s : State} {b : Nat} (source : (s.boothRec b).relay = .floor) :
    feedOf s b = (s.booth.floorBlock, false) := by
  simp [feedOf, source]

theorem feedOf_silent {s : State} {b k : Nat} (source : (s.boothRec b).relay = .booth k)
    (silent : (s.boothRec k).floor = .silent) : feedOf s b = (s.booth.floorBlock, true) := by
  simp [feedOf, source, silent_of_floor silent]

theorem feedOf_onAir {s : State} {b k : Nat} (source : (s.boothRec b).relay = .booth k)
    (air : (s.boothRec k).floor ≠ .silent) : feedOf s b = ((s.boothRec k).latest.getD silence, false) := by
  simp [feedOf, source, onAir_iff.mpr air]

theorem offeredTo_iff {floor : FloorState} {slot : Nat} :
    offeredTo floor slot = true ↔
      ∃ d target expiry, floor = .offered d target expiry ∧ d ≠ slot ∧ (target = .any ∨ target = .slot slot) := by
  cases floor <;> simp [offeredTo]

theorem offerPending_iff {floor : FloorState} :
    offerPending floor = true ↔ ∃ d target expiry, floor = .offered d target expiry := by
  cases floor <;> simp [offerPending]

/-! ### The downstream part of a slot (R45, R46) -/

theorem downstream_unconfigured {s : State} {n : Nat} (off : (s.console n).configured = false) : downstream s n = {} := by
  simp [downstream, off]

theorem downstream_of_no_booth {s : State} {n : Nat} (on : (s.console n).configured = true)
    (nowhere : (s.console n).booth = none) :
    downstream s n = { feed := s.booth.floorBlock, lamps := { setup := decide (s.mode = .setup) } } := by
  simp [downstream, on, nowhere]

theorem downstream_of_booth {s : State} {n b : Nat} (on : (s.console n).configured = true)
    (place : (s.console n).booth = some b) :
    downstream s n =
      { feed := (feedOf s b).1
        lamps := lampsOf s n b
        turn := if (s.boothRec b).floor = .silent then none else (s.boothRec b).turn
        lamp := (s.console n).lamp } := by
  simp [downstream, on, place, onAir_iff]

/-- Settles O6: the loop controller after a departure by its three steps, then the downstream part by the slot's kind. -/
theorem departureSendsOneFrame : Obligations.DepartureSendsOneFrame := by
  refine ⟨fun s => ?_, fun s n => ⟨downstream_unconfigured, downstream_of_no_booth, fun b on place => ?_⟩⟩
  · obtain ⟨slots, lost, given⟩ := giveUpOldest_loop s
    have departed : (takeDeparture s).loop = _ := countDeparture_loop (sendFrame (giveUpOldest s))
    rw [sendFrame, modLoop_loop, given] at departed
    dsimp only
    rw [departed]
    exact ⟨rfl, rfl, rfl, rfl, rfl, rfl⟩
  · dsimp only
    rw [downstream_of_booth on place]
    refine ⟨rfl, rfl, fun source => ?_, fun k source silent => ?_, fun k source air => ?_, decide_eq_true_iff, onAir_iff,
      offeredTo_iff, offerPending_iff, ?_, decide_eq_true_iff, rfl, decide_eq_true_iff⟩
    · simp [lampsOf, feedOf_floor source]
    · simp [lampsOf, feedOf_silent source silent]
    · simp [lampsOf, feedOf_onAir source air]
    · simp [lampsOf, onAir_iff]

end Sys2Proof.Machine
end

