-- ==== Sys2Proof/Proofs/BoothTicks.lean ====
section
/-! Booth control at the ticks: display ends (R28), offers (R31), turns and live minutes (R40, R155); duty minutes (R154). -/

namespace Sys2Proof.Machine

/-! ### A step for each number of a list -/

/-- Where each step changes the record of its own number and no other, a fold changes each record of the list once. -/
theorem foldl_changes_each {α : Type} (look : State → Nat → α) (g : α → α) {f : State → Nat → State}
    (step : ∀ t n k, look (f t n) k = if k = n then g (look t n) else look t k) (l : List Nat) (distinct : l.Nodup) (s : State)
    (k : Nat) : look (l.foldl f s) k = if k ∈ l then g (look s k) else look s k := by
  induction l generalizing s with
  | nil => rfl
  | cons n l ih =>
    rw [List.nodup_cons] at distinct
    rw [List.foldl_cons, ih distinct.2, step]
    by_cases e : k = n
    · simp [e, distinct.1]
    · simp [e]

/-- Where every step keeps what it reads of a number that is not its own, a fold over numbers that differ keeps a property that each
number's own step keeps. -/
theorem foldl_keeps_of_each {γ : Type} (g : State → γ) (P : State → Nat → Prop) {f : State → Nat → State} {l : List Nat}
    (distinct : l.Nodup) (own : ∀ t n, P t n → g (f t n) = g t) (other : ∀ t n k, k ≠ n → P t k → P (f t n) k) {s : State}
    (all : ∀ n ∈ l, P s n) : g (l.foldl f s) = g s := by
  induction l generalizing s with
  | nil => rfl
  | cons n l ih =>
    obtain ⟨here, rest⟩ := List.forall_mem_cons.mp all
    obtain ⟨fresh, distinct⟩ := List.nodup_cons.mp distinct
    rw [List.foldl_cons, ih distinct fun k mem => other s n k (fun e => fresh (e ▸ mem)) (rest k mem)]
    exact own s n here

/-! ### Display ends (R28) -/

/-- A console at a block tick. -/
def Console.displayed (c : Console) : Console :=
  match c.displayEnd with
  | none => c
  | some 0 => { c with lamp := none, displayEnd := none }
  | some (n + 1) => { c with displayEnd := some n }

theorem displayTick_console (t : State) (n k : Nat) :
    (displayTick n t).console k = if k = n then (t.console n).displayed else t.console k := by
  cases ends : (t.console n).displayEnd with
  | none =>
    have still : displayTick n t = t := by simp [displayTick, ends]
    have same : (t.console n).displayed = t.console n := by simp [Console.displayed, ends]
    rw [still, same]
    split
    next e => rw [e]
    next => rfl
  | some m =>
    cases m with
    | zero => simp [displayTick, Console.displayed, ends, clearLamp_console]
    | succ m => simp [displayTick, Console.displayed, ends, console_modConsole]

theorem takeDisplayEnds_console (s : State) (n : Nat) :
    (takeDisplayEnds s).console n = if isSlot n = true then (s.console n).displayed else s.console n := by
  simp only [isSlot_iff]
  exact foldl_changes_each State.console Console.displayed (fun t n k => displayTick_console t n k) _ (upTo_nodup _) s n

theorem displayTick_eq (n : Nat) (s : State) :
    ∃ consoles, displayTick n s = { s with booth := { s.booth with consoles := consoles } } := by
  unfold displayTick
  split
  · exact ⟨s.booth.consoles, rfl⟩
  · exact ⟨_, rfl⟩
  · exact ⟨_, rfl⟩

theorem takeDisplayEnds_eq (s : State) :
    ∃ consoles, takeDisplayEnds s = { s with booth := { s.booth with consoles := consoles } } := by
  refine foldl_invariant (fun t => ∃ consoles, t = { s with booth := { s.booth with consoles := consoles } }) _
    (fun t n ⟨consoles, e⟩ => ?_) _ _ ⟨s.booth.consoles, rfl⟩
  obtain ⟨consoles', e'⟩ := displayTick_eq n t
  exact ⟨consoles', by rw [e', e]⟩

/-! ### Offers (R31) -/

/-- The console whose offer is in its last second. -/
def FloorState.expiring : FloorState → Option Nat
  | .offered slot _ expiry => if expiry ≤ 1 then some slot else none
  | _ => none

/-- A booth at a second tick. -/
def Booth.offerAged (x : Booth) : Booth :=
  match x.floor with
  | .offered slot target expiry =>
    { x with floor := if expiry ≤ 1 then .live slot else .offered slot target (expiry - 1) }
  | _ => x

/-- A console whose offer has expired. -/
def Console.shownNoOffer (c : Console) : Console := { c with lamp := some .noOffer, displayEnd := some Config.displayTicks }

/-- An offer that expires: the booth is LIVE, and the console shows NO_OFFER. -/
theorem offerSecond_last {b slot expiry : Nat} {target : OfferTarget} {s : State}
    (offered : (s.boothRec b).floor = .offered slot target expiry) (last : expiry ≤ 1) :
    offerSecond b s = (s.modBooth b fun x => { x with floor := .live slot }).modConsole slot Console.shownNoOffer := by
  simp only [offerSecond, offered, last, if_true, expireOffer, dropOffer]
  rfl

theorem offerSecond_early {b slot expiry : Nat} {target : OfferTarget} {s : State}
    (offered : (s.boothRec b).floor = .offered slot target expiry) (early : ¬expiry ≤ 1) :
    offerSecond b s = s.modBooth b fun x => { x with floor := .offered slot target (expiry - 1) } := by
  simp [offerSecond, offered, early]

theorem offerSecond_of_none {b : Nat} {s : State}
    (none : ∀ slot target expiry, (s.boothRec b).floor ≠ .offered slot target expiry) : offerSecond b s = s := by
  unfold offerSecond
  split
  next slot target expiry offered => exact absurd offered (none slot target expiry)
  next => rfl

theorem offerAged_of_none {x : Booth} (none : ∀ slot target expiry, x.floor ≠ .offered slot target expiry) :
    x.offerAged = x := by
  unfold Booth.offerAged
  split
  next slot target expiry offered => exact absurd offered (none slot target expiry)
  next => rfl

theorem expiring_of_none {floor : FloorState} (none : ∀ slot target expiry, floor ≠ .offered slot target expiry) :
    FloorState.expiring floor = Option.none := by
  cases floor with
  | offered slot target expiry => exact absurd rfl (none slot target expiry)
  | silent => rfl
  | live => rfl

/-- A booth has an offer in its last second, an offer of more seconds, or none. -/
theorem offer_cases (floor : FloorState) :
    (∃ slot target expiry, floor = .offered slot target expiry ∧ expiry ≤ 1) ∨
      (∃ slot target expiry, floor = .offered slot target expiry ∧ ¬expiry ≤ 1) ∨
      ∀ slot target expiry, floor ≠ .offered slot target expiry := by
  cases floor with
  | offered slot target expiry =>
    by_cases last : expiry ≤ 1
    · exact .inl ⟨slot, target, expiry, rfl, last⟩
    · exact .inr (.inl ⟨slot, target, expiry, rfl, last⟩)
  | silent => exact .inr (.inr nofun)
  | live => exact .inr (.inr nofun)

theorem offerSecond_boothRec (t : State) (b k : Nat) :
    (offerSecond b t).boothRec k = if k = b then (t.boothRec b).offerAged else t.boothRec k := by
  obtain ⟨slot, target, expiry, offered, last⟩ | ⟨slot, target, expiry, offered, early⟩ | none :=
    offer_cases (t.boothRec b).floor
  · rw [offerSecond_last offered last, boothRec_modConsole, boothRec_modBooth]
    simp [Booth.offerAged, offered, last]
  · rw [offerSecond_early offered early, boothRec_modBooth]
    simp [Booth.offerAged, offered, early]
  · rw [offerSecond_of_none none, offerAged_of_none none]
    split
    next e => rw [e]
    next => rfl

theorem offerSecond_console (t : State) (b n : Nat) :
    (offerSecond b t).console n =
      if FloorState.expiring (t.boothRec b).floor = some n then (t.console n).shownNoOffer else t.console n := by
  obtain ⟨slot, target, expiry, offered, last⟩ | ⟨slot, target, expiry, offered, early⟩ | none :=
    offer_cases (t.boothRec b).floor
  · rw [offerSecond_last offered last, console_modConsole, console_modBooth, console_modBooth, offered]
    simp only [FloorState.expiring, if_pos last, Option.some.injEq]
    by_cases e : n = slot
    · simp [e]
    · simp [e, Ne.symm e]
  · rw [offerSecond_early offered early, console_modBooth, offered]
    simp [FloorState.expiring, early]
  · rw [offerSecond_of_none none, expiring_of_none none]
    rfl

theorem offerSecond_eq (b : Nat) (s : State) :
    ∃ consoles booths, offerSecond b s = { s with booth := { s.booth with consoles := consoles, booths := booths } } := by
  obtain ⟨slot, target, expiry, offered, last⟩ | ⟨slot, target, expiry, offered, early⟩ | none :=
    offer_cases (s.boothRec b).floor
  · exact ⟨_, _, offerSecond_last offered last⟩
  · exact ⟨s.booth.consoles, _, offerSecond_early offered early⟩
  · exact ⟨s.booth.consoles, s.booth.booths, offerSecond_of_none none⟩

theorem takeOffers_boothRec {b : Nat} (hb : isBooth b = true) (s : State) :
    (takeOffers s).boothRec b = (s.boothRec b).offerAged := by
  have fold := foldl_changes_each State.boothRec Booth.offerAged (fun t n k => offerSecond_boothRec t n k)
    (upTo Config.booths) (upTo_nodup _) s b
  rw [if_pos (mem_booths hb)] at fold
  exact fold

/-- A console shows NO_OFFER exactly when an offer of its own was in its last second. -/
theorem console_foldl_offerSecond (l : List Nat) (distinct : l.Nodup) (s : State) (n : Nat) :
    (l.foldl (fun t b => offerSecond b t) s).console n =
      if ∃ b ∈ l, FloorState.expiring (s.boothRec b).floor = some n then (s.console n).shownNoOffer else s.console n := by
  induction l generalizing s with
  | nil => simp
  | cons b l ih =>
    obtain ⟨fresh, distinct⟩ := List.nodup_cons.mp distinct
    have others : ∀ d ∈ l, (offerSecond b s).boothRec d = s.boothRec d := by
      intro d mem
      rw [offerSecond_boothRec, if_neg fun e : d = b => fresh (e ▸ mem)]
    have later : (∃ d ∈ l, FloorState.expiring ((offerSecond b s).boothRec d).floor = some n) ↔
        ∃ d ∈ l, FloorState.expiring (s.boothRec d).floor = some n :=
      exists_congr fun d => and_congr_right fun mem => by rw [others d mem]
    rw [List.foldl_cons, ih distinct, offerSecond_console]
    simp only [later, List.exists_mem_cons_iff]
    by_cases here : FloorState.expiring (s.boothRec b).floor = some n
    · simp [here, Console.shownNoOffer]
    · simp [here]

theorem takeOffers_console (s : State) (n : Nat) :
    (takeOffers s).console n =
      if ∃ b ∈ upTo Config.booths, FloorState.expiring (s.boothRec b).floor = some n then (s.console n).shownNoOffer
      else s.console n := console_foldl_offerSecond _ (upTo_nodup _) s n

theorem takeOffers_eq (s : State) :
    ∃ consoles booths, takeOffers s = { s with booth := { s.booth with consoles := consoles, booths := booths } } := by
  refine foldl_invariant
    (fun t => ∃ consoles booths, t = { s with booth := { s.booth with consoles := consoles, booths := booths } }) _
    (fun t b ⟨consoles, booths, e⟩ => ?_) _ _ ⟨s.booth.consoles, s.booth.booths, rfl⟩
  obtain ⟨consoles', booths', e'⟩ := offerSecond_eq b t
  exact ⟨consoles', booths', by rw [e', e]⟩

/-! ### Turns and live minutes (R40, R155) -/

/-- A booth's turn timer at a minute tick. -/
def Booth.turned (x : Booth) : Booth := if x.onAir = true then { x with turn := x.turn.map fun n => n - 1 } else x

/-- A booth's live-minutes total at a minute tick. -/
def Booth.minuted (x : Booth) : Booth := if x.onAir = true then { x with liveMinutes := bump x.liveMinutes } else x

/-- A console's live-minutes total when a booth has it live. -/
def Console.minuted (c : Console) : Console := { c with liveMinutes := bump c.liveMinutes }

theorem Booth.turned_of_turn {x : Booth} {n : Nat} (air : x.onAir = true) (turn : x.turn = some (n + 1)) :
    x.turned = { x with turn := some n } := by
  simp [Booth.turned, air, turn]

/-- A turn timer that is absent or at 0 stands, and so does that of a SILENT booth. -/
theorem Booth.turned_of_idle {x : Booth} (idle : x.onAir = false ∨ ∀ n, x.turn ≠ some (n + 1)) : x.turned = x := by
  unfold Booth.turned
  split
  next air =>
    obtain silent | stands := idle
    · rw [silent] at air
      cases air
    · have same : x.turn.map (fun n => n - 1) = x.turn := by
        cases turn : x.turn with
        | none => rfl
        | some n =>
          cases n with
          | zero => rfl
          | succ n => exact absurd turn (stands n)
      rw [same]
  next => rfl

theorem turnMinute_of_turn {b n : Nat} {s : State} (air : (s.boothRec b).onAir = true)
    (turn : (s.boothRec b).turn = some (n + 1)) :
    turnMinute b s =
      if n = 0 then setFlag .turnDue (s.modBooth b fun x => { x with turn := some n })
      else s.modBooth b fun x => { x with turn := some n } := by
  simp [turnMinute, air, turn]

theorem turnMinute_of_idle {b : Nat} {s : State}
    (idle : (s.boothRec b).onAir = false ∨ ∀ n, (s.boothRec b).turn ≠ some (n + 1)) : turnMinute b s = s := by
  unfold turnMinute
  split
  next air =>
    obtain silent | stands := idle
    · rw [silent] at air
      cases air
    · split
      next n turn => exact absurd turn (stands n)
      next => rfl
  next => rfl

/-- A booth on the air has a turn that counts down, or its turn timer stands. -/
theorem turn_cases (x : Booth) :
    (∃ n, x.onAir = true ∧ x.turn = some (n + 1)) ∨ (x.onAir = false ∨ ∀ n, x.turn ≠ some (n + 1)) := by
  by_cases counts : ∃ n, x.onAir = true ∧ x.turn = some (n + 1)
  · exact .inl counts
  · refine .inr ?_
    cases air : x.onAir with
    | false => exact .inl rfl
    | true => exact .inr fun n turn => counts ⟨n, air, turn⟩

theorem turnFalling_iff {b : Nat} {s : State} :
    turnFalling b s = true ↔ (s.boothRec b).onAir = true ∧ (s.boothRec b).turn = some 1 := by
  simp [turnFalling]

theorem turnMinute_falling {b : Nat} {s : State} (falls : turnFalling b s = true) :
    turnMinute b s = setFlag .turnDue (s.modBooth b fun x => { x with turn := some 0 }) := by
  obtain ⟨air, turn⟩ := turnFalling_iff.mp falls
  rw [turnMinute_of_turn air turn, if_pos rfl]

theorem turnMinute_boothRec (t : State) (b k : Nat) :
    (turnMinute b t).boothRec k = if k = b then (t.boothRec b).turned else t.boothRec k := by
  obtain ⟨n, air, turn⟩ | idle := turn_cases (t.boothRec b)
  · rw [turnMinute_of_turn air turn, Booth.turned_of_turn air turn]
    split <;> simp [boothRec_modBooth]
  · rw [turnMinute_of_idle idle, Booth.turned_of_idle idle]
    split
    next e => rw [e]
    next => rfl

theorem turnMinute_serv {b : Nat} {s : State} (stays : turnFalling b s = false) : (turnMinute b s).serv = s.serv := by
  obtain ⟨n, air, turn⟩ | idle := turn_cases (s.boothRec b)
  · have more : n ≠ 0 := by
      rintro rfl
      simp [turnFalling, air, turn] at stays
    rw [turnMinute_of_turn air turn, if_neg more]
    rfl
  · rw [turnMinute_of_idle idle]

theorem turnMinute_flagged {b : Nat} {s : State} {f : NoticeFlag} (set : s.flagged f = true) :
    (turnMinute b s).flagged f = true := by
  obtain ⟨n, air, turn⟩ | idle := turn_cases (s.boothRec b)
  · rw [turnMinute_of_turn air turn]
    split
    · rw [flagged_setFlag, Bool.or_eq_true]
      exact .inr set
    · exact set
  · rw [turnMinute_of_idle idle]
    exact set

/-- A turn timer changes nothing of booth control but the booth records. -/
theorem turnMinute_booth (b : Nat) (s : State) :
    ∃ booths, (turnMinute b s).booth = { s.booth with booths := booths } := by
  obtain ⟨n, air, turn⟩ | idle := turn_cases (s.boothRec b)
  · rw [turnMinute_of_turn air turn]
    split
    · simp only [setFlag_frame]
      exact ⟨_, rfl⟩
    · exact ⟨_, rfl⟩
  · rw [turnMinute_of_idle idle]
    exact ⟨s.booth.booths, rfl⟩

theorem turnMinute_console (b n : Nat) (s : State) : (turnMinute b s).console n = s.console n := by
  obtain ⟨booths, e⟩ := turnMinute_booth b s
  simp [State.console, e]

theorem turned_floor (x : Booth) : x.turned.floor = x.floor := by
  unfold Booth.turned
  split <;> rfl

theorem liveMinute_of_console {b slot : Nat} {s : State} (live : FloorState.console (s.boothRec b).floor = some slot) :
    liveMinute b s =
      (s.modBooth b fun x => { x with liveMinutes := bump x.liveMinutes }).modConsole slot Console.minuted := by
  simp only [liveMinute, live]
  rfl

theorem liveMinute_of_silent {b : Nat} {s : State} (silent : FloorState.console (s.boothRec b).floor = none) :
    liveMinute b s = s := by
  simp [liveMinute, silent]

theorem liveMinute_boothRec (t : State) (b k : Nat) :
    (liveMinute b t).boothRec k = if k = b then (t.boothRec b).minuted else t.boothRec k := by
  cases live : FloorState.console (t.boothRec b).floor with
  | some slot =>
    rw [liveMinute_of_console live, boothRec_modConsole, boothRec_modBooth, Booth.minuted, if_pos (onAir_of_console live)]
  | none =>
    rw [liveMinute_of_silent live, Booth.minuted, silent_of_console live]
    split
    next e => rw [e]; rfl
    next => rfl

theorem liveMinute_console (t : State) (b n : Nat) :
    (liveMinute b t).console n =
      if FloorState.console (t.boothRec b).floor = some n then (t.console n).minuted else t.console n := by
  cases live : FloorState.console (t.boothRec b).floor with
  | some slot =>
    rw [liveMinute_of_console live, console_modConsole, console_modBooth, console_modBooth]
    by_cases e : n = slot
    · simp [e]
    · simp [e, Ne.symm e]
  | none => simp [liveMinute_of_silent live]

theorem liveMinute_serv (b : Nat) (s : State) : (liveMinute b s).serv = s.serv := by simp

theorem liveMinute_floorBlock (b : Nat) (s : State) : (liveMinute b s).booth.floorBlock = s.booth.floorBlock := by
  unfold liveMinute
  split <;> rfl

/-! ### A minute tick at booth control (R40, R155) -/

/-- What booth control does of one booth at a minute tick. -/
def boothMinute (t : State) (b : Nat) : State := liveMinute b (turnMinute b t)

theorem takeTurns_eq_foldl (s : State) : takeTurns s = (upTo Config.booths).foldl boothMinute s := rfl

theorem boothMinute_boothRec (t : State) (b k : Nat) :
    (boothMinute t b).boothRec k = if k = b then (t.boothRec b).turned.minuted else t.boothRec k := by
  rw [boothMinute, liveMinute_boothRec, turnMinute_boothRec, turnMinute_boothRec, if_pos rfl]
  split <;> rfl

theorem boothMinute_boothRec_ne {t : State} {b k : Nat} (other : k ≠ b) : (boothMinute t b).boothRec k = t.boothRec k := by
  rw [boothMinute_boothRec, if_neg other]

theorem boothMinute_console (t : State) (b n : Nat) :
    (boothMinute t b).console n =
      if FloorState.console (t.boothRec b).floor = some n then (t.console n).minuted else t.console n := by
  rw [boothMinute, liveMinute_console, turnMinute_boothRec, if_pos rfl, turned_floor, turnMinute_console]

theorem boothMinute_serv {t : State} {b : Nat} (stays : turnFalling b t = false) : (boothMinute t b).serv = t.serv :=
  (liveMinute_serv ..).trans (turnMinute_serv stays)

theorem boothMinute_flagged {t : State} {b : Nat} {f : NoticeFlag} (set : (turnMinute b t).flagged f = true) :
    (boothMinute t b).flagged f = true := by
  rw [State.flagged, boothMinute, liveMinute_serv]
  exact set

theorem boothMinute_falling {t : State} {b : Nat} (falls : turnFalling b t = true) :
    (boothMinute t b).flagged .turnDue = true :=
  boothMinute_flagged (by rw [turnMinute_falling falls, flagged_setFlag_self])

theorem takeTurns_boothRec {b : Nat} (hb : isBooth b = true) (s : State) :
    (takeTurns s).boothRec b = (s.boothRec b).turned.minuted := by
  have fold := foldl_changes_each State.boothRec (fun x => x.turned.minuted) boothMinute_boothRec
    (upTo Config.booths) (upTo_nodup _) s b
  rw [if_pos (mem_booths hb)] at fold
  exact fold

/-- A console gains a minute for each booth that it is live in. -/
theorem console_foldl_boothMinute (l : List Nat) (distinct : l.Nodup) (s : State) (n : Nat) :
    (l.foldl boothMinute s).console n =
      { s.console n with
        liveMinutes :=
          Nat.repeat bump (l.countP fun b => decide (FloorState.console (s.boothRec b).floor = some n))
            (s.console n).liveMinutes } := by
  induction l generalizing s with
  | nil => rfl
  | cons b l ih =>
    obtain ⟨fresh, distinct⟩ := List.nodup_cons.mp distinct
    have others : l.countP (fun d => decide (FloorState.console ((boothMinute s b).boothRec d).floor = some n)) =
        l.countP fun d => decide (FloorState.console (s.boothRec d).floor = some n) :=
      List.countP_congr fun d mem => by rw [boothMinute_boothRec_ne fun e : d = b => fresh (e ▸ mem)]
    rw [List.foldl_cons, ih distinct, others, boothMinute_console, List.countP_cons]
    by_cases here : FloorState.console (s.boothRec b).floor = some n
    · simp [here, Console.minuted, repeat_bump_succ]
    · simp [here]

/-- A fold that passes a number at which something comes about, and keeps it, has it at the end. -/
theorem foldl_reaches (Q : State → Prop) (P : State → Nat → Prop) {f : State → Nat → State} (own : ∀ t b, P t b → Q (f t b))
    (other : ∀ t n b, b ≠ n → P t b → P (f t n) b) (stays : ∀ t n, Q t → Q (f t n)) {l : List Nat} {s : State} {b : Nat}
    (mem : b ∈ l) (h : P s b) : Q (l.foldl f s) := by
  induction l generalizing s with
  | nil => cases mem
  | cons n l ih =>
    by_cases e : b = n
    · exact foldl_invariant Q f stays l _ (e ▸ own s b h)
    · exact ih (List.mem_of_ne_of_mem e mem) (other s n b e h)

theorem turnFalling_boothMinute_ne {t : State} {n b : Nat} (other : b ≠ n) :
    turnFalling b (boothMinute t n) = turnFalling b t := by
  rw [turnFalling, boothMinute_boothRec_ne other, turnFalling]

theorem takeTurns_flagged {s : State} {b : Nat} (hb : isBooth b = true) (falls : turnFalling b s = true) :
    (takeTurns s).flagged .turnDue = true :=
  foldl_reaches (fun t => t.flagged .turnDue = true) (fun t b => turnFalling b t = true) (fun _ _ => boothMinute_falling)
    (fun _ _ _ ne h => (turnFalling_boothMinute_ne ne).trans h) (fun _ _ h => boothMinute_flagged (turnMinute_flagged h))
    (mem_booths hb) falls

theorem takeTurns_serv {s : State} (stays : ∀ b, isBooth b = true → turnFalling b s = false) :
    (takeTurns s).serv = s.serv :=
  foldl_keeps_of_each State.serv (fun t b => turnFalling b t = false) (upTo_nodup _) (fun _ _ => boothMinute_serv)
    (fun _ _ _ ne h => (turnFalling_boothMinute_ne ne).trans h) fun b mem => stays b (isBooth_iff.mpr mem)

theorem takeTurns_floorBlock (s : State) : (takeTurns s).booth.floorBlock = s.booth.floorBlock := by
  rw [takeTurns_eq_foldl]
  refine foldl_keeps (fun t => t.booth.floorBlock) boothMinute (fun t b => ?_) (upTo Config.booths) s
  obtain ⟨booths, e⟩ := turnMinute_booth b t
  rw [boothMinute, liveMinute_floorBlock, e]

/-- A state is its nine blocks and its queue. -/
theorem state_eq_of_blocks {s t : State} (loop : t.loop = s.loop) (booth : t.booth = s.booth) (switch : t.switch = s.switch)
    (air : t.air = s.air) (hire : t.hire = s.hire) (acct : t.acct = s.acct) (time : t.time = s.time) (serv : t.serv = s.serv)
    (supply : t.supply = s.supply) (pending : t.pending = s.pending) : t = s := by
  cases s
  cases t
  rw [State.mk.injEq]
  exact ⟨loop, booth, switch, air, hire, acct, time, serv, supply, pending⟩

/-- A minute tick at booth control changes booth control and the service controller alone. -/
theorem takeTurns_eq (s : State) : takeTurns s = { s with booth := (takeTurns s).booth, serv := (takeTurns s).serv } := by
  have frame := takeTurns_frame s
  generalize takeTurns s = t at frame ⊢
  obtain ⟨loop, switch, air, hire, acct, time, supply, pending⟩ := frame
  exact state_eq_of_blocks loop rfl switch air hire acct time rfl supply pending

/-- A booth on the air at a minute tick: its turn counts down, stopping at 0, and its total rises. -/
theorem turned_minuted_of_onAir {x : Booth} (air : x.onAir = true) :
    x.turned.minuted = { x with turn := x.turn.map fun n => n - 1, liveMinutes := bump x.liveMinutes } := by
  have turned : x.turned = { x with turn := x.turn.map fun n => n - 1 } := if_pos air
  rw [turned, Booth.minuted]
  exact if_pos air

theorem turned_minuted_of_silent {x : Booth} (silent : x.onAir = false) : x.turned.minuted = x := by
  have turned : x.turned = x := Booth.turned_of_idle (.inl silent)
  rw [turned, Booth.minuted, silent]
  rfl

/-- Every OPEN duty entry gains its minutes (R154). -/
theorem takeDuties_eq (s : State) :
    takeDuties s =
      { s with acct := { s.acct with duty := s.acct.duty.map fun e =>
        if e.status = .opened then
          { e with live := bump e.live, session := if s.mode = .session then bump e.session else e.session }
        else e } } := by
  simp [takeDuties, State.modAcct, DutyEntry.minute, DutyEntry.isOpen]

/-- Settles O11: a fold over the 24 booths, each with its own turn and total, and the consoles that are live in them. -/
theorem turnsAndDutyMinutesCount : Obligations.TurnsAndDutyMinutesCount := by
  refine ⟨fun s b hb => ⟨fun air => ?_, fun silent => ?_,
      fun air turn => takeTurns_flagged hb (turnFalling_iff.mpr ⟨air, turn⟩)⟩,
    fun s => ⟨takeTurns_eq s, takeTurns_floorBlock s, fun stays => takeTurns_serv fun b hb => ?_⟩,
    fun s slot => console_foldl_boothMinute _ (upTo_nodup _) s slot, takeDuties_eq⟩
  · rw [takeTurns_boothRec hb, turned_minuted_of_onAir air]
  · rw [takeTurns_boothRec hb, turned_minuted_of_silent silent]
  · refine Bool.eq_false_iff.mpr fun falls => ?_
    obtain ⟨air, turn⟩ := turnFalling_iff.mp falls
    exact stays b hb air turn

/-! ### The three rows that can be sent alone -/

theorem exec_displayEnd {n : Nat} {s : State} (present : s.supply.mainsLost = false)
    (due : (s.console n).displayEnd = some 0) : exec (.displayEnd n) s = .next (clearLamp n s) := by
  refine congrArg Host.Outcome.next ((whileMains_present _ present).trans ?_)
  simp [due, displayTick]

theorem exec_offerExpiry {b slot : Nat} {target : OfferTarget} {s : State} (present : s.supply.mainsLost = false)
    (offered : (s.boothRec b).floor = .offered slot target 1) :
    exec (.offerExpiry b) s =
      .next ((s.modBooth b fun x => { x with floor := .live slot }).modConsole slot Console.shownNoOffer) := by
  refine congrArg Host.Outcome.next ((whileMains_present _ present).trans ?_)
  rw [if_pos (by simp [offerDue, offered]), offerSecond_last offered le_rfl]

theorem exec_turnDue {b : Nat} {s : State} (present : s.supply.mainsLost = false) (falls : turnFalling b s = true) :
    exec (.turnDue b) s = .next (setFlag .turnDue (s.modBooth b fun x => { x with turn := some 0 })) := by
  refine congrArg Host.Outcome.next ((whileMains_present _ present).trans ?_)
  rw [if_pos falls, turnMinute_falling falls]

/-- Settles O12: the three rows alone, then the ticks at each console and each booth. -/
theorem offersTurnsAndDisplaysEnd : Obligations.OffersTurnsAndDisplaysEnd := by
  refine ⟨⟨fun n s present due => exec_displayEnd present due, fun b slot target s present => exec_offerExpiry present,
      fun b s present air turn => exec_turnDue present (turnFalling_iff.mpr ⟨air, turn⟩)⟩,
    fun s n => ⟨fun hn => ?_, fun out => ?_, takeDisplayEnds_eq s⟩, fun s n => ⟨takeOffers_eq s, fun later => ?_⟩,
    fun s b hb => ⟨fun slot target n offered => ?_, fun slot target offered => ⟨?_, ?_⟩, fun none => ?_⟩⟩
  · rw [takeDisplayEnds_console, if_pos hn]
    exact ⟨fun still => by simp [Console.displayed, still], fun k waits => by simp [Console.displayed, waits],
      fun due => by simp [Console.displayed, due]⟩
  · rw [takeDisplayEnds_console, out]
    rfl
  · rw [takeOffers_console, if_neg]
    rintro ⟨b, mem, expiring⟩
    obtain ⟨slot, target, expiry, offered, last⟩ | ⟨slot, target, expiry, offered, early⟩ | none :=
      offer_cases (s.boothRec b).floor
    · simp only [offered, FloorState.expiring, if_pos last, Option.some.injEq] at expiring
      have := later b target expiry (isBooth_iff.mpr mem) (expiring ▸ offered)
      omega
    · simp [offered, FloorState.expiring, early] at expiring
    · simp [expiring_of_none none] at expiring
  · rw [takeOffers_boothRec hb]
    simp [Booth.offerAged, offered]
  · rw [takeOffers_boothRec hb]
    simp [Booth.offerAged, offered]
  · rw [takeOffers_console, if_pos ⟨b, mem_booths hb, by simp [offered, FloorState.expiring]⟩]
    rfl
  · rw [takeOffers_boothRec hb, offerAged_of_none none]

end Sys2Proof.Machine
end

