-- ==== Sys2Proof/Proofs/TimeOuts.lean ====
section
/-! What times out: receivers out of range (R73), batches (R121), consoles that are gone (R33, R37, R56), the loop (R62). -/

namespace Sys2Proof.Machine

/-! ### Receivers at a second tick (R73) -/

/-- A receiver that was last heard a number of seconds ago, one second later. -/
theorem aged_of_heard {r : Receiver} {n : Nat} (heard : r.lastHeard = some n) :
    r.aged = { r with lastHeard := some (min (n + 1) 65535) } := by
  simp [Receiver.aged, heard]

theorem aged_of_unheard {r : Receiver} (unheard : r.lastHeard = none) : r.aged = r := by
  unfold Receiver.aged
  rw [unheard, Option.map_none, ← unheard]

theorem rangeLossDue_of_heard {r : Receiver} {n : Nat} (heard : r.lastHeard = some n) (limit : Nat) :
    rangeLossDue limit r = true ↔ r.range = .inRange ∧ limit ≤ min (n + 1) 65535 := by
  simp [rangeLossDue, aged_of_heard heard]

theorem rangeLossDue_of_unheard {r : Receiver} (unheard : r.lastHeard = none) (limit : Nat) :
    rangeLossDue limit r = false := by
  simp [rangeLossDue, aged_of_unheard unheard, unheard]

theorem rangeSecond_lost {s : State} {slot n : Nat} {r : Receiver} (record : Table.look s.hire.receivers slot = some r)
    (heard : r.lastHeard = some n) (inRange : r.range = .inRange) (limit : s.params.silenceLimit ≤ min (n + 1) 65535) :
    rangeSecond s slot =
      countAir (fun k => { k with rangeLosses := bump k.rangeLosses })
        (writeReceiver slot { r with lastHeard := some (min (n + 1) 65535), range := .outOfRange } s) := by
  have due := (rangeLossDue_of_heard heard s.params.silenceLimit).mpr ⟨inRange, limit⟩
  simp [rangeSecond, record, due, aged_of_heard heard]

theorem rangeSecond_heard {s : State} {slot n : Nat} {r : Receiver} (record : Table.look s.hire.receivers slot = some r)
    (heard : r.lastHeard = some n) (stays : r.range ≠ .inRange ∨ min (n + 1) 65535 < s.params.silenceLimit) :
    rangeSecond s slot = writeReceiver slot { r with lastHeard := some (min (n + 1) 65535) } s := by
  have early : rangeLossDue s.params.silenceLimit r = false := by
    refine Bool.eq_false_iff.mpr fun due => ?_
    obtain ⟨inRange, limit⟩ := (rangeLossDue_of_heard heard _).mp due
    obtain out | short := stays
    · exact out inRange
    · exact Nat.not_lt.mpr limit short
  simp [rangeSecond, record, early, aged_of_heard heard]

theorem rangeSecond_unheard {s : State} {slot : Nat} {r : Receiver} (record : Table.look s.hire.receivers slot = some r)
    (unheard : r.lastHeard = none) : rangeSecond s slot = writeReceiver slot r s := by
  simp [rangeSecond, record, rangeLossDue_of_unheard unheard, aged_of_unheard unheard]

/-! ### Batches at a second tick (R121) -/

theorem batchSecond_idle {s : State} {station : Nat} {b : Batch} (record : Table.look s.hire.batches station = some b)
    (idle : 20 ≤ b.lastItem + 1) :
    batchSecond s station =
      countBatch (fun k => { k with timedOut := bump k.timedOut }) (dropBatch station (b.items.foldl freeReceiver s)) := by
  have due : idleDue b = true := decide_eq_true idle
  simp [batchSecond, record, due, releaseBatch]

theorem batchSecond_early {s : State} {station : Nat} {b : Batch} (record : Table.look s.hire.batches station = some b)
    (early : b.lastItem + 1 < 20) :
    batchSecond s station =
      { s with hire :=
        { s.hire with batches := Table.put station { b with lastItem := b.lastItem + 1 } s.hire.batches } } := by
  have waits : idleDue b = false := decide_eq_false (Nat.not_le.mpr early)
  simp [batchSecond, record, waits, writeBatch, State.modHire]

/-! ### A console that is gone (R33, R37, R56) -/

/-- The console with both levels cleared. -/
def quiet (n : Nat) (s : State) : State := s.modConsole n fun c => { c with cough := false, call := false }

theorem consoleGone_of_no_booth {n : Nat} {s : State} (nowhere : (s.console n).booth = none) :
    consoleGone n s = quiet n s := by
  simp [consoleGone, nowhere, quiet]

section
variable {n b : Nat} {s : State} (place : (s.console n).booth = some b)
include place

theorem consoleGone_silent (silent : (s.boothRec b).floor = .silent) : consoleGone n s = quiet n s := by
  simp [consoleGone, place, silent, quiet]

/-- The live console of a booth takes it off the air, LIVE_LOST set first (R37; log 31). -/
theorem consoleGone_live (live : FloorState.console (s.boothRec b).floor = some n) :
    consoleGone n s = goSilent b .absent (setFlag .liveLost (quiet n s)) := by
  cases floor : (s.boothRec b).floor with
  | silent => simp [floor, FloorState.console] at live
  | live d =>
    have own : d = n := by simpa [floor, FloorState.console] using live
    simp [consoleGone, place, floor, own, quiet]
  | offered d target expiry =>
    have own : d = n := by simpa [floor, FloorState.console] using live
    simp [consoleGone, place, floor, own, quiet]

theorem consoleGone_of_other {d : Nat} (live : (s.boothRec b).floor = .live d) (other : d ≠ n) :
    consoleGone n s = quiet n s := by
  simp [consoleGone, place, live, other, quiet]

/-- An offer to the console by name is dropped (R33). -/
theorem consoleGone_offered {d expiry : Nat} (offered : (s.boothRec b).floor = .offered d (.slot n) expiry) (other : d ≠ n) :
    consoleGone n s = (quiet n s).modBooth b fun x => { x with floor := .live d } := by
  simp [consoleGone, place, offered, other, quiet, dropOffer]

theorem consoleGone_offered_to_others {d expiry : Nat} {target : OfferTarget}
    (offered : (s.boothRec b).floor = .offered d target expiry) (other : d ≠ n) (elsewhere : target ≠ .slot n) :
    consoleGone n s = quiet n s := by
  simp [consoleGone, place, offered, other, elsewhere, quiet]

end

/-! ### The four rows that can be sent alone -/

theorem exec_outOfRange {serial slot n : Nat} {r : Receiver} {s : State} (present : s.supply.mainsLost = false)
    (found : s.receiverBySerial serial = some (slot, r)) (record : Table.look s.hire.receivers slot = some r)
    (inRange : r.range = .inRange) (heard : r.lastHeard = some n) (limit : s.params.silenceLimit ≤ min (n + 1) 65535) :
    exec (.outOfRange serial) s =
      .next (countAir (fun k => { k with rangeLosses := bump k.rangeLosses })
        (writeReceiver slot { r with lastHeard := some (min (n + 1) 65535), range := .outOfRange } s)) := by
  refine congrArg Host.Outcome.next ((whileMains_present _ present).trans ?_)
  have due := (rangeLossDue_of_heard heard s.params.silenceLimit).mpr ⟨inRange, limit⟩
  rw [← rangeSecond_lost record heard inRange limit]
  simp [found, due]

theorem exec_batchTimeout {station : Nat} {b : Batch} {s : State} (present : s.supply.mainsLost = false)
    (record : Table.look s.hire.batches station = some b) (idle : 20 ≤ b.lastItem + 1) :
    exec (.batchTimeout station) s =
      .next (countBatch (fun k => { k with timedOut := bump k.timedOut })
        (dropBatch station (b.items.foldl freeReceiver s))) := by
  refine congrArg Host.Outcome.next ((whileMains_present _ present).trans ?_)
  have due : idleDue b = true := decide_eq_true idle
  rw [← batchSecond_idle record idle]
  simp [record, due]

theorem exec_consoleAbsent {n : Nat} {s : State} (present : s.supply.mainsLost = false) (due : absenceDue n s = true) :
    exec (.consoleAbsent n) s = .next (goAbsent n (s.modSlot n SlotState.oneMissed)) := by
  refine congrArg Host.Outcome.next ((whileMains_present _ present).trans ?_)
  obtain ⟨heard, _⟩ := absenceDue_iff.mp due
  rw [if_pos due, missFrame_configured (by simp [heard]), if_pos due]

theorem exec_loopBroken {s : State} (present : s.supply.mainsLost = false) (running : s.loop.status = .running)
    (late : 7 ≤ s.loop.sinceGood) :
    exec .loopBroken s =
      .next (setFlag .loopBroken { s with loop := { s.loop with sinceGood := 8, status := .broken } }) := by
  refine congrArg Host.Outcome.next ((whileMains_present _ present).trans ?_)
  have eighth : Config.outstanding ≤ s.loop.sinceGood + 1 := Nat.succ_le_succ late
  have due : breakDue s = true := by simp [breakDue, running, eighth]
  rw [if_pos due, countDeparture_breaks running late]

/-- Settles O13: the four rows alone, booth control's answer to an absence by the floor state, then the second tick of each record. -/
theorem rangesBatchesConsolesAndTheLoopTimeOut : Obligations.RangesBatchesConsolesAndTheLoopTimeOut := by
  refine ⟨⟨fun serial slot n r s present found record inRange heard limit =>
        exec_outOfRange present found record inRange heard limit,
      fun station b s present record idle => exec_batchTimeout present record idle⟩,
    fun n s present heard limit => exec_consoleAbsent present (absenceDue_iff.mpr ⟨heard, limit⟩),
    fun n s => ⟨consoleGone_of_no_booth, fun b place => ⟨consoleGone_silent place, consoleGone_live place,
      fun d live other => consoleGone_of_other place live other,
      fun d expiry offered other => consoleGone_offered place offered other,
      fun d target expiry offered other elsewhere => consoleGone_offered_to_others place offered other elsewhere⟩⟩,
    fun s present running late => exec_loopBroken present running late,
    fun s => ⟨rfl, fun slot r record => ⟨rangeSecond_unheard record, fun n heard stays => rangeSecond_heard record heard stays,
        fun n heard inRange limit => rangeSecond_lost record heard inRange limit⟩,
      fun station b record => ⟨batchSecond_early record, batchSecond_idle record⟩⟩⟩

end Sys2Proof.Machine
end

