-- ==== Sys2Proof/Proofs/QueueKept.lean ====
section
/-! Every command answers a next state with the queue of waiting commands as it was (O2): what each owner of a request leaves of the
queue, then every command, from its operands or from the bytes of a message. -/

namespace Sys2Proof.Machine

/-! ### Channel, console and booth requests -/

theorem atChannel_pending {rule : State → State × Answer} (h : ∀ s, (rule s).1.pending = s.pending) (c : Nat) (s : State) :
    (atChannel c rule s).1.pending = s.pending := by
  unfold atChannel
  split
  · rfl
  · exact h s

theorem revokeOne_pending (candidate : Receiver → Bool) (acc : State × Nat) (slot : Nat) :
    (revokeOne candidate acc slot).1.pending = acc.1.pending := by
  unfold revokeOne
  repeat' split
  all_goals simp

theorem revocationPass_pending (candidate : Receiver → Bool) (s : State) :
    (revocationPass candidate s).1.pending = s.pending :=
  foldl_keeps_fst State.pending _ (revokeOne_pending candidate) _ (s, 0)

theorem loadChannel_pending (c : Nat) (l : Label) (r : Bool) (p : Option Fallback) (s : State) :
    (loadChannel c l r p s).1.pending = s.pending := by
  unfold loadChannel
  repeat' split
  all_goals simp [refuse, accept, revokeChannel, revocationPass_pending]

theorem readChannel_pending (c : Nat) (s : State) : (readChannel c s).1.pending = s.pending := by
  unfold readChannel
  split <;> rfl

theorem enableChannel_pending (c : Nat) (s : State) : (enableChannel c s).1.pending = s.pending := by
  refine atChannel_pending (fun s => ?_) c s
  split <;> rfl

theorem disableChannel_pending (c : Nat) (force : Bool) (s : State) :
    (disableChannel c force s).1.pending = s.pending := by
  refine atChannel_pending (fun s => ?_) c s
  repeat' split
  all_goals simp [refuse, accept]

theorem loadConsole_pending (slot : Nat) (configured : Bool) (booth seat : Option Nat) (s : State) :
    (loadConsole slot configured booth seat s).1.pending = s.pending := by
  unfold loadConsole
  repeat' split
  all_goals simp [refuse, accept]

theorem loadBooth_pending (b : Nat) (a1 b1 : Option Nat) (i : Option Interlock) (limit : Nat) (m : Option CallMode)
    (s : State) : (loadBooth b a1 b1 i limit m s).1.pending = s.pending := by
  unfold loadBooth
  repeat' split
  all_goals rfl

theorem forceSilent_pending (b : Nat) (s : State) : (forceSilent b s).1.pending = s.pending := by
  unfold forceSilent
  split
  · rfl
  · simp [accept]

theorem setRelay_pending (b : Nat) (source : RelaySource) (s : State) : (setRelay b source s).1.pending = s.pending := by
  unfold setRelay
  repeat' split
  all_goals rfl

theorem fetchCalls_pending (s : State) : (fetchCalls s).1.pending = s.pending := by
  obtain ⟨booths, e⟩ := fetchCalls_eq s
  rw [e]

/-! ### Hire -/

theorem atReceiver_pending {rule : Nat → Receiver → State → State × Answer}
    (h : ∀ slot r s, (rule slot r s).1.pending = s.pending) (serial : Nat) (s : State) :
    (atReceiver serial rule s).1.pending = s.pending := by
  unfold atReceiver
  split
  · rfl
  · exact h ..

theorem atSerial_pending {rule : Nat → Receiver → State → State × Answer}
    (h : ∀ slot r s, (rule slot r s).1.pending = s.pending) (serial : Nat) (s : State) :
    (atSerial serial rule s).1.pending = s.pending := by
  unfold atSerial
  split
  · rfl
  · exact atReceiver_pending h serial s

theorem enrol_pending (serial : Nat) (s : State) : (enrol serial s).1.pending = s.pending := by
  unfold enrol
  repeat' split
  all_goals simp [refuse, accept]

theorem withdraw_pending (serial : Nat) (s : State) : (withdraw serial s).1.pending = s.pending := by
  refine atReceiver_pending (fun slot r s => ?_) serial s
  split
  all_goals simp [refuse, accept]

theorem reinstate_pending (serial : Nat) (s : State) : (reinstate serial s).1.pending = s.pending := by
  refine atReceiver_pending (fun slot r s => ?_) serial s
  split
  all_goals simp [refuse, accept]

theorem deleteReceiver_pending (serial : Nat) (s : State) : (deleteReceiver serial s).1.pending = s.pending := by
  refine atReceiver_pending (fun slot r s => ?_) serial s
  split
  all_goals rfl

theorem issue_pending (serial account : Nat) (s : State) : (issue serial account s).1.pending = s.pending := by
  unfold issue
  repeat' split
  all_goals simp [refuseIssue, refuse, accept]

theorem returnReceiver_pending (serial : Nat) (s : State) : (returnReceiver serial s).1.pending = s.pending := by
  refine atSerial_pending (fun slot r s => ?_) serial s
  split
  all_goals simp [refuse, accept]

theorem declareLost_pending (serial : Nat) (s : State) : (declareLost serial s).1.pending = s.pending := by
  refine atSerial_pending (fun slot r s => ?_) serial s
  repeat' split
  all_goals simp [refuse, accept]

theorem readReceiver_pending (key : RecordKey) (s : State) : (readReceiver key s).1.pending = s.pending := by
  cases key with
  | number n => exact atSerial_pending (fun _ _ _ => rfl) n s
  | slot n =>
    unfold readReceiver
    dsimp only
    repeat' split
    all_goals rfl

theorem takeRack_pending {rule : Nat → Receiver → State → State} (h : ∀ slot r s, (rule slot r s).pending = s.pending)
    (fits : Bool) (serial : Nat) (s : State) : (takeRack fits serial rule s).pending = s.pending := by
  unfold takeRack
  dsimp only
  repeat' split
  · rfl
  · simp
  · exact h ..

/-! ### Issue batches -/

theorem closeFailed_pending (station : Nat) (b : Batch) (s : State) : (closeFailed station b s).1.pending = s.pending := by
  simp [closeFailed]

theorem failBatch_pending (station : Nat) (b : Batch) (code : RefusalCode) (final : Bool) (s : State) :
    (failBatch station b code final s).1.pending = s.pending := by
  unfold failBatch
  dsimp only
  split
  · simp [closeFailed_pending]
  · simp

theorem issueItem_pending (account : Nat) (acc : State × List (Nat × Nat)) (serial : Nat) :
    (issueItem account acc serial).1.pending = acc.1.pending := by
  unfold issueItem
  split
  · rfl
  · simp

theorem finalStep_pending (station : Nat) (b : Batch) (s : State) : (finalStep station b s).1.pending = s.pending := by
  unfold finalStep
  split
  · exact failBatch_pending ..
  · simpa using foldl_keeps_fst State.pending _ (issueItem_pending b.account) b.items (s, [])

theorem settleItem_pending (station : Nat) (b : Batch) (final : Bool) (s : State) :
    (settleItem station b final s).1.pending = s.pending := by
  unfold settleItem
  split
  · exact finalStep_pending ..
  · rfl

theorem abortItem_pending (station : Nat) (b : Batch) (serial : Nat) (s : State) :
    (abortItem station b serial s).1.pending = s.pending := by
  unfold abortItem
  dsimp only
  split
  all_goals simp [refuse]

theorem addItem_pending (station : Nat) (b : Batch) (serial : Nat) (final : Bool) (s : State) :
    (addItem station b serial final s).1.pending = s.pending := by
  unfold addItem
  repeat' split
  all_goals simp [settleItem_pending, failBatch_pending, holdItem]

theorem openTakes_pending (station account : Nat) (serial : Option Nat) (more abort : Bool) (b : Batch) (s : State) :
    (openTakes station account serial more abort b s).1.pending = s.pending := by
  unfold openTakes
  repeat' split
  all_goals simp [settleItem_pending, failBatch_pending, abortItem_pending, addItem_pending]

theorem batchTakes_pending (station account : Nat) (serial : Option Nat) (more abort : Bool) (b : Batch) (s : State) :
    (batchTakes station account serial more abort b s).1.pending = s.pending := by
  unfold batchTakes failedTakes
  dsimp only
  repeat' split
  all_goals simp [openTakes_pending, closeFailed_pending]

theorem openBatch_pending (station account : Nat) (serial : Option Nat) (more abort : Bool) (s : State) :
    (openBatch station account serial more abort s).1.pending = s.pending := by
  unfold openBatch
  repeat' split
  all_goals simp [refuse, batchTakes_pending]

theorem batchItem_pending (station account : Nat) (serial : Option Nat) (more abort : Bool) (s : State) :
    (batchItem station account serial more abort s).1.pending = s.pending := by
  unfold batchItem
  repeat' split
  all_goals simp [refuse, openBatch_pending, batchTakes_pending]

/-! ### Accounts and duty -/

theorem atAccount_pending {rule : Nat → Account → State → State × Answer}
    (h : ∀ slot a s, (rule slot a s).1.pending = s.pending) (account : Nat) (s : State) :
    (atAccount account rule s).1.pending = s.pending := by
  unfold atAccount
  repeat' split
  · rfl
  · rfl
  · exact h ..

theorem loadTariff_pending (cls a b c d e : Nat) (s : State) : (loadTariff cls a b c d e s).1.pending = s.pending := by
  unfold loadTariff
  repeat' split
  all_goals rfl

theorem accountLoad_pending (account cls limit : Nat) (access : List Nat) (s : State) :
    (accountLoad account cls limit access s).1.pending = s.pending := by
  unfold accountLoad createAccount changeAccount
  dsimp only
  repeat' split
  all_goals simp [refuse, accept, revokeAccount, revocationPass_pending]

theorem suspendAccount_pending (account : Nat) (s : State) : (suspendAccount account s).1.pending = s.pending := by
  refine atAccount_pending (fun slot a s => ?_) account s
  dsimp only
  split
  all_goals simp [accept, revokeAccount, revocationPass_pending]

theorem closeAccount_pending (account : Nat) (s : State) : (closeAccount account s).1.pending = s.pending := by
  refine atAccount_pending (fun slot a s => ?_) account s
  repeat' split
  all_goals rfl

theorem clearBalance_pending (account expected : Nat) (s : State) :
    (clearBalance account expected s).1.pending = s.pending := by
  unfold clearBalance
  split
  · rfl
  refine atAccount_pending (fun slot a s => ?_) account s
  split
  all_goals rfl

theorem readAccount_pending (key : RecordKey) (s : State) : (readAccount key s).1.pending = s.pending := by
  cases key with
  | number n => exact atAccount_pending (fun _ _ _ => rfl) n s
  | slot n =>
    unfold readAccount
    dsimp only
    repeat' split
    all_goals rfl

theorem postPendings_pending (l : List Nat) (acc : State × Nat) : (postPendings l acc).1.pending = acc.1.pending := by
  induction l generalizing acc with
  | nil => rfl
  | cons slot rest ih =>
    unfold postPendings
    split
    · simp [ih]
    · rfl

theorem releaseStatements_pending (count : Nat) (head : Option (Option StatementKind × Nat)) (s : State) :
    (releaseStatements count head s).1.pending = s.pending := by
  unfold releaseStatements
  dsimp only
  repeat' split
  all_goals simp [refuse, accept, postPendings_pending]

theorem releaseDuty_pending (count : Nat) (s : State) : (releaseDuty count s).1.pending = s.pending := by
  unfold releaseDuty
  dsimp only
  repeat' split
  all_goals rfl

theorem continueBooth_pending (acc : State × Nat × List Nat) (b : Nat) :
    (continueBooth acc b).1.pending = acc.1.pending := by
  unfold continueBooth
  dsimp only
  repeat' split
  all_goals simp

theorem cutDuty_pending (s : State) : (cutDuty s).1.pending = s.pending := by
  simpa [cutDuty, accept] using foldl_keeps_fst State.pending _ continueBooth_pending (upTo Config.booths)
    (completeEntries (fun _ => true) .cut s.now (countDuty (fun c => { c with cuts := bump c.cuts }) s), 0, [])

theorem clearDutyTotals_pending (s : State) : (clearDutyTotals s).1.pending = s.pending := by
  simp [clearDutyTotals, accept, foldl_keeps State.pending]

/-! ### Time base, mode, supply and service controller -/

theorem setClock_pending (value : Clock) (s : State) : (setClock value s).1.pending = s.pending := by
  unfold setClock
  split <;> rfl

theorem loadAlarm_pending (alarm : Option AlarmName) (day : Nat) (dayOn : Bool) (hour : Nat) (hourOn : Bool) (minute : Nat)
    (minuteOn : Bool) (s : State) : (loadAlarm alarm day dayOn hour hourOn minute minuteOn s).1.pending = s.pending := by
  unfold loadAlarm
  repeat' split
  all_goals simp [refuse, accept]

theorem clearAlarm_pending (alarm : Option AlarmName) (s : State) : (clearAlarm alarm s).1.pending = s.pending := by
  unfold clearAlarm
  split
  all_goals simp [refuse, accept]

theorem setMode_pending (mode : Option Mode) (s : State) : (setMode mode s).1.pending = s.pending := by
  unfold setMode
  repeat' split
  all_goals simp [refuse, accept]

theorem loadParameters_pending (a o l i : Nat) (stampMode : Option StampMode) (high : Nat) (s : State) :
    (loadParameters a o l i stampMode high s).1.pending = s.pending := by
  unfold loadParameters
  repeat' split
  all_goals rfl

theorem loadStation_pending (station : Nat) (entry : StationEntry) (s : State) :
    (loadStation station entry s).1.pending = s.pending := by
  unfold loadStation removeStation placeRole
  repeat' split
  all_goals rfl

theorem setNoticeMask_pending (station : Nat) (mask : List (Option NoticeFlag)) (s : State) :
    (setNoticeMask station mask s).1.pending = s.pending := by
  unfold setNoticeMask
  repeat' split
  all_goals rfl

theorem clearNotices_pending (flags : List (Option NoticeFlag)) (s : State) :
    (clearNotices flags s).1.pending = s.pending := by
  unfold clearNotices
  repeat' split
  all_goals rfl

theorem zeroGroup_pending (g : CounterGroup) (s : State) : (zeroGroup g s).pending = s.pending := by
  cases g <;> dsimp only [zeroGroup]
  case consoles => rw [foldl_modSlot_eq, modLoop_pending]
  case channels => rw [modSwitch_pending, foldl_modChan_eq, modSwitch_pending]
  case channelMinutes => rw [foldl_modChan_eq, modSwitch_pending]
  all_goals rfl

theorem clearCounters_pending (group : Option CounterGroup) (s : State) :
    (clearCounters group s).1.pending = s.pending := by
  unfold clearCounters
  split
  · rfl
  · exact zeroGroup_pending ..

@[simp] theorem announced_pending (kind : StartKind) (low : Bool) (s : State) :
    (announced kind low s).pending = s.pending := by
  simp [announced, flagMatchedAlarms_eq]

theorem restartPart_pending (h : Header) (s : State) : (restartPart h s).pending = s.pending := by
  rw [restartPart_eq, announced_pending]
  simp [restartValues, loseWaiting, startValues]

theorem powerReturn_pending (low : Bool) (s : State) : (powerReturn low s).pending = s.pending := by
  rw [powerReturn_eq, announced_pending]
  simp [powerValues, startValues]

theorem coldStart_pending (low : Bool) (s : State) : (coldStart low s).pending = s.pending := by
  rw [coldStart_eq]
  cases low <;> simp

theorem mainsReturn_pending (event : MainsReturn) (s : State) : (mainsReturn event s).pending = s.pending := by
  have counted : (backupCount event.cellTicks s).pending = s.pending := by rw [backupCount_eq]
  unfold mainsReturn
  dsimp only
  split
  · rw [powerReturn_pending, counted]
  · rw [coldStart_pending, counted]

/-! ### Requests that read -/

theorem readConsole_pending (slot : Nat) (s : State) : (readConsole slot s).1.pending = s.pending := by
  unfold readConsole
  split <;> rfl

theorem readBooth_pending (b : Nat) (s : State) : (readBooth b s).1.pending = s.pending := by
  unfold readBooth
  split <;> rfl

theorem readBatch_pending (station : Nat) (s : State) : (readBatch station s).1.pending = s.pending := by
  unfold readBatch
  repeat' split
  all_goals rfl

theorem readTariff_pending (cls : Nat) (s : State) : (readTariff cls s).1.pending = s.pending := by
  unfold readTariff
  split <;> rfl

theorem readStation_pending (station : Nat) (s : State) : (readStation station s).1.pending = s.pending := by
  unfold readStation
  repeat' split
  all_goals rfl

theorem readCounters_pending (group : Option CounterGroup) (s : State) : (readCounters group s).1.pending = s.pending := by
  unfold readCounters
  split <;> rfl

/-! ### Ticks -/

theorem evaluateAlarm_pending (acc : State × List Taking) (name : AlarmName) :
    (evaluateAlarm acc name).1.pending = acc.1.pending := by
  unfold evaluateAlarm
  split <;> simp

theorem issueMinute_pending (s : State) : (issueMinute s).1.pending = s.pending :=
  foldl_keeps_fst State.pending _ evaluateAlarm_pending [.returnBy, .sessionClose]
    (s.modTime fun t => { t with sessionMinute := (t.sessionMinute + 1) % (counterMax + 1) }, [])

theorem takeOne_pending (t : Taking) (s : State) : (takeOne t s).1.pending = s.pending := by
  cases t
  case clock =>
    show (takeClock s).1.pending = s.pending
    unfold takeClock
    split <;> simp [issueMinute_pending]
  all_goals simp [takeOne]

theorem runTakings_pending (order : List Taking) (n : Nat) (due : List Taking) (s : State) :
    (runTakings order n due s).pending = s.pending := by
  induction n generalizing due s with
  | zero => rfl
  | succ n ih =>
    unfold runTakings
    split
    · rfl
    · rw [ih, takeOne_pending]

/-! ### Messages and events -/

theorem takeMessage_pending {take : State → State} (h : ∀ s, (take s).pending = s.pending) (s : State) :
    (takeMessage take s).pending = s.pending := by
  obtain e | ⟨n, e⟩ := takeMessage_cases take s <;> rw [e]
  exact h s

theorem whenAdmitted_pending {act : State → State} (ha : ∀ s, (act s).pending = s.pending) (h : Header) (may : Role → Bool)
    (fits : Bool) (s : State) : (whenAdmitted h may fits act s).pending = s.pending := by
  unfold whenAdmitted
  repeat' split
  all_goals simp [ha]

/-- A request leaves the queue as its owner does. -/
theorem serve_pending {owner : State → State × Answer} (ho : ∀ s, (owner s).1.pending = s.pending) (h : Header)
    (may : Role → Bool) (fits : Bool) (s : State) : (serve h may fits owner s).pending = s.pending :=
  takeMessage_pending (whenAdmitted_pending (fun s => by simp [handToOwner, ho]) h may fits) s

theorem serveRack_pending {owner : State → State} (ho : ∀ s, (owner s).pending = s.pending) (h : Header) (s : State) :
    (serveRack h owner s).pending = s.pending := by
  refine takeMessage_pending (fun s => ?_) s
  repeat' split
  all_goals simp [ho]

theorem whileMains_pending {event : State → State} (h : ∀ s, (event s).pending = s.pending) (s : State) :
    (whileMains event s).pending = s.pending := by
  unfold whileMains
  split
  · rfl
  · exact h s

/-! ### Every command but a run of bytes at the service port -/

/-- The outcome is a next state with the queue as it was. -/
def KeepsQueue (s : State) (o : Host.Outcome State Fault Refusal) : Prop := ∃ t, o = .next t ∧ t.pending = s.pending

theorem KeepsQueue.next {s t : State} (h : t.pending = s.pending) : KeepsQueue s (.next t) := ⟨t, rfl, h⟩

theorem serve_keepsQueue {owner : State → State × Answer} (ho : ∀ s, (owner s).1.pending = s.pending) (h : Header)
    (may : Role → Bool) (fits : Bool) (s : State) : KeepsQueue s (.next (serve h may fits owner s)) :=
  .next (serve_pending ho h may fits s)

theorem serveRack_keepsQueue {rule : Nat → Receiver → State → State} (hr : ∀ slot r s, (rule slot r s).pending = s.pending)
    (fits : Bool) (serial : Nat) (h : Header) (s : State) :
    KeepsQueue s (.next (serveRack h (takeRack fits serial rule) s)) :=
  .next (serveRack_pending (takeRack_pending hr fits serial) h s)

theorem event_keepsQueue {event : State → State} (h : ∀ s, (event s).pending = s.pending) (s : State) :
    KeepsQueue s (.next (whileMains event s)) := .next (whileMains_pending h s)

/-- An event that comes about only where it is due. -/
theorem dueEvent_keepsQueue {due : State → Prop} [∀ s, Decidable (due s)] {event : State → State}
    (h : ∀ s, (event s).pending = s.pending) (s : State) :
    KeepsQueue s (.next (whileMains (fun s => if due s then event s else s) s)) := by
  refine event_keepsQueue (fun s => ?_) s
  split
  · exact h s
  · rfl

theorem exec_keepsQueue_of_command {c : Instr} (hc : ∀ bytes, c ≠ .messageDropped bytes) (s : State) :
    KeepsQueue s (exec c s) := by
  cases c with
  | messageDropped bytes => exact absurd rfl (hc bytes)
  | blockTick order =>
    have started : ∀ t, (startTick t).pending = t.pending := fun _ => rfl
    exact event_keepsQueue (fun t => (runTakings_pending ..).trans (started t)) s
  | displayEnd slot => exact dueEvent_keepsQueue (fun s => by simp) s
  | secondTick order => exact event_keepsQueue (fun _ => runTakings_pending ..) s
  | offerExpiry booth => exact dueEvent_keepsQueue (fun s => by simp) s
  | outOfRange serial =>
    refine event_keepsQueue (fun s => ?_) s
    repeat' split
    all_goals simp
  | batchTimeout station =>
    refine event_keepsQueue (fun s => ?_) s
    repeat' split
    all_goals simp
  | minuteTick order => exact event_keepsQueue (fun s => (runTakings_pending ..).trans (issueMinute_pending s)) s
  | turnDue booth => exact dueEvent_keepsQueue (fun s => by simp) s
  | alarmMatch alarm =>
    refine dueEvent_keepsQueue (fun s => ?_) s
    cases alarm <;> simp [takeEffect]
  | returnByEffect => exact event_keepsQueue (fun s => by simp) s
  | sessionCloseEffect => exact event_keepsQueue (fun s => by simp) s
  | loopReturn frame => exact event_keepsQueue (fun s => by simp) s
  | consoleAbsent slot => exact dueEvent_keepsQueue (fun s => by simp) s
  | loopBroken => exact dueEvent_keepsQueue (fun s => by simp) s
  | floorBlockArrival block => exact event_keepsQueue (fun s => by simp) s
  | receiverReport report => exact event_keepsQueue (fun s => by simp) s
  | docked h serial rackSlot battery => exact serveRack_keepsQueue (fun _ _ _ => by simp) _ serial h s
  | undocked h serial rackSlot => exact serveRack_keepsQueue (fun _ _ _ => by simp) _ serial h s
  | cell h serial battery => exact serveRack_keepsQueue (fun _ _ _ => by simp) _ serial h s
  | outboundSend => exact event_keepsQueue (fun s => by simp) s
  | loadConsole h slot configured booth seat => exact serve_keepsQueue (loadConsole_pending slot configured booth seat) ..
  | readConsole h slot => exact serve_keepsQueue (readConsole_pending slot) ..
  | loadBooth h booth a b interlock limit mode => exact serve_keepsQueue (loadBooth_pending booth a b interlock limit mode) ..
  | readBooth h booth => exact serve_keepsQueue (readBooth_pending booth) ..
  | loadChannel h channel label restricted policy =>
    exact serve_keepsQueue (loadChannel_pending channel label restricted policy) ..
  | readChannel h channel => exact serve_keepsQueue (readChannel_pending channel) ..
  | clearStamp h channel => exact serve_keepsQueue (atChannel_pending (fun _ => rfl) channel) ..
  | enableChannel h channel => exact serve_keepsQueue (enableChannel_pending channel) ..
  | disableChannel h channel force => exact serve_keepsQueue (disableChannel_pending channel force) ..
  | forceSilent h booth => exact serve_keepsQueue (forceSilent_pending booth) ..
  | setRelay h booth source => exact serve_keepsQueue (setRelay_pending booth source) ..
  | fetchCalls h => exact serve_keepsQueue fetchCalls_pending ..
  | readLoop h => exact serve_keepsQueue (fun _ => rfl) ..
  | readAir h => exact serve_keepsQueue (fun _ => rfl) ..
  | enrol h serial => exact serve_keepsQueue (enrol_pending serial) ..
  | withdraw h serial => exact serve_keepsQueue (withdraw_pending serial) ..
  | reinstate h serial => exact serve_keepsQueue (reinstate_pending serial) ..
  | deleteReceiver h serial => exact serve_keepsQueue (deleteReceiver_pending serial) ..
  | issue h serial account => exact serve_keepsQueue (issue_pending serial account) ..
  | returnReceiver h serial => exact serve_keepsQueue (returnReceiver_pending serial) ..
  | declareLost h serial => exact serve_keepsQueue (declareLost_pending serial) ..
  | find h serial => exact serve_keepsQueue (atSerial_pending (fun _ _ _ => rfl) serial) ..
  | readReceiver h key => exact serve_keepsQueue (readReceiver_pending key) ..
  | readHire h => exact serve_keepsQueue (fun _ => rfl) ..
  | batchItem h account serial more abort => exact serve_keepsQueue (batchItem_pending _ account serial more abort) ..
  | readBatch h station => exact serve_keepsQueue (readBatch_pending station) ..
  | loadTariff h cls len rate cap overdue lost => exact serve_keepsQueue (loadTariff_pending cls len rate cap overdue lost) ..
  | readTariff h cls => exact serve_keepsQueue (readTariff_pending cls) ..
  | accountLoad h account cls limit access => exact serve_keepsQueue (accountLoad_pending account cls limit access) ..
  | suspend h account => exact serve_keepsQueue (suspendAccount_pending account) ..
  | resume h account => exact serve_keepsQueue (atAccount_pending (fun _ _ _ => rfl) account) ..
  | close h account => exact serve_keepsQueue (closeAccount_pending account) ..
  | clearBalance h account expected => exact serve_keepsQueue (clearBalance_pending account expected) ..
  | readAccount h key => exact serve_keepsQueue (readAccount_pending key) ..
  | readStatements h => exact serve_keepsQueue (fun _ => rfl) ..
  | releaseStatements h count head => exact serve_keepsQueue (releaseStatements_pending count head) ..
  | readAccounting h => exact serve_keepsQueue (fun _ => rfl) ..
  | readDuty h => exact serve_keepsQueue (fun _ => rfl) ..
  | releaseDuty h count => exact serve_keepsQueue (releaseDuty_pending count) ..
  | cutDuty h => exact serve_keepsQueue cutDuty_pending ..
  | clearDutyTotals h => exact serve_keepsQueue clearDutyTotals_pending ..
  | setClock h value => exact serve_keepsQueue (setClock_pending value) ..
  | loadAlarm h alarm day dayOn hour hourOn minute minuteOn =>
    exact serve_keepsQueue (loadAlarm_pending alarm day dayOn hour hourOn minute minuteOn) ..
  | clearAlarm h alarm => exact serve_keepsQueue (clearAlarm_pending alarm) ..
  | readClock h => exact serve_keepsQueue (fun _ => rfl) ..
  | setMode h mode => exact serve_keepsQueue (setMode_pending mode) ..
  | loadParameters h absence offer silent threshold stamps high =>
    exact serve_keepsQueue (loadParameters_pending absence offer silent threshold stamps high) ..
  | readParameters h => exact serve_keepsQueue (fun _ => rfl) ..
  | restart h => exact .next (takeMessage_pending (whenAdmitted_pending (restartPart_pending h) h controlOnly true) s)
  | readSupply h => exact serve_keepsQueue (fun _ => rfl) ..
  | loadStation h station entry => exact serve_keepsQueue (loadStation_pending station entry) ..
  | setNoticeMask h station mask => exact serve_keepsQueue (setNoticeMask_pending station mask) ..
  | readStation h station => exact serve_keepsQueue (readStation_pending station) ..
  | readNotices h => exact serve_keepsQueue (fun _ => rfl) ..
  | clearNotices h flags => exact serve_keepsQueue (clearNotices_pending flags) ..
  | readCounters h group => exact serve_keepsQueue (readCounters_pending group) ..
  | clearCounters h group => exact serve_keepsQueue (clearCounters_pending group) ..
  | mainsLoss => exact event_keepsQueue (event := mainsLoss) (fun s => by simp) s
  | backupSecond =>
    refine .next ?_
    split <;> simp
  | mainsReturn event =>
    refine .next ?_
    split <;> simp [mainsReturn_pending]
  | backupLowIndication low => exact event_keepsQueue (fun s => by simp) s

/-! ### Messages by their bytes (R189, R191) -/

/-- What is done with a body is a command with the operands read, and not again a run of bytes. -/
def Act.IsCommand (act : Act) : Prop :=
  ∃ c : Header → Instr, (∀ h bytes, c h ≠ .messageDropped bytes) ∧ act = fun h => exec (c h)

/-- Whatever is read of a body is a command. -/
def Spells (r : Reader Act) : Prop := ∀ body act rest, r body = some (act, rest) → act.IsCommand

theorem spells_command (c : Header → Instr) (hc : ∀ h bytes, c h ≠ .messageDropped bytes := by rintro _ _ ⟨⟩) :
    Spells (pure fun h => exec (c h)) := by
  rintro body act rest ⟨⟩
  exact ⟨c, hc, rfl⟩

theorem spells_none : Spells fun _ => none := by
  rintro body act rest ⟨⟩

/-- A field is read, then the rest. -/
theorem spells_bind {α : Type} {x : Reader α} {f : α → Reader Act} (hf : ∀ v, Spells (f v)) : Spells (x >>= f) := by
  intro body act rest read
  obtain ⟨⟨v, body'⟩, _, read⟩ := Option.bind_eq_some_iff.mp read
  exact hf v body' act rest read

theorem spells_ite {p : Prop} [Decidable p] {x y : Reader Act} (hx : Spells x) (hy : Spells y) :
    Spells (if p then x else y) := by
  split
  · exact hx
  · exact hy

theorem spells_oneNum (c : Header → Nat → Instr) (hc : ∀ h n bytes, c h n ≠ .messageDropped bytes := by rintro _ _ _ ⟨⟩) :
    Spells (oneNum fun h n => exec (c h n)) := spells_bind fun n => spells_command _ fun h => hc h n

theorem spells_oneKey (c : Header → RecordKey → Instr)
    (hc : ∀ h n bytes, c h n ≠ .messageDropped bytes := by rintro _ _ _ ⟨⟩) :
    Spells (oneKey fun h n => exec (c h n)) := spells_bind fun n => spells_command _ fun h => hc h n

theorem spells_oneTable {tables : List (String × Reader Act)} (ht : ∀ e ∈ tables, Spells e.2) : Spells (oneTable tables) := by
  refine spells_bind fun name => ?_
  split
  next found =>
    obtain ⟨text, mem⟩ := mem_of_byName found
    exact ht _ mem
  next => exact spells_none

theorem loadTables_spell : ∀ e ∈ loadTables, Spells e.2 := by
  simp only [loadTables, List.forall_mem_cons]
  refine ⟨?console, ?booth, ?channel, ?tariff, ?account, ?alarm, ?station, ?parameters, List.forall_mem_nil _⟩
  case console =>
    exact spells_bind fun n => spells_bind fun f => spells_bind fun b => spells_bind fun p =>
      spells_command (.loadConsole · n f b p)
  case booth =>
    exact spells_bind fun n => spells_bind fun a => spells_bind fun b => spells_bind fun i => spells_bind fun t =>
      spells_bind fun m => spells_command (.loadBooth · n a b i t m)
  case channel =>
    exact spells_bind fun n => spells_bind fun l => spells_bind fun r => spells_bind fun p =>
      spells_command (.loadChannel · n l r p)
  case tariff =>
    exact spells_bind fun n => spells_bind fun l => spells_bind fun r => spells_bind fun k => spells_bind fun o =>
      spells_bind fun t => spells_command (.loadTariff · n l r k o t)
  case account =>
    exact spells_bind fun n => spells_bind fun k => spells_bind fun l => spells_bind fun set =>
      spells_command (.accountLoad · n k l set)
  case alarm =>
    exact spells_bind fun n => spells_bind fun d => spells_bind fun d' => spells_bind fun h => spells_bind fun h' =>
      spells_bind fun m => spells_bind fun m' => spells_command (.loadAlarm · n d d' h h' m m')
  case station => exact spells_bind fun n => spells_bind fun e => spells_command (.loadStation · n e)
  case parameters =>
    exact spells_bind fun a => spells_bind fun o => spells_bind fun q => spells_bind fun i => spells_bind fun st =>
      spells_bind fun w => spells_command (.loadParameters · a o q i st w)

theorem readTables_spell : ∀ e ∈ readTables, Spells e.2 := by
  simp only [readTables, List.forall_mem_cons]
  exact ⟨spells_oneNum .readConsole, spells_oneNum .readBooth, spells_oneNum .readChannel, spells_oneNum .readTariff,
    spells_oneKey .readAccount, spells_oneKey .readReceiver, spells_oneNum .readBatch, spells_oneNum .readStation,
    spells_command .readParameters, spells_command .readLoop, spells_command .readAir, spells_command .readHire,
    spells_command .readAccounting, spells_command .readClock, spells_command .readSupply, List.forall_mem_nil _⟩

theorem speechRequests_spell : ∀ e ∈ speechRequests, Spells e.2.read := by
  simp only [speechRequests, List.forall_mem_cons]
  exact ⟨spells_oneTable loadTables_spell, spells_oneTable readTables_spell, spells_oneNum .clearStamp,
    spells_oneNum .enableChannel, spells_bind fun n => spells_bind fun force => spells_command (.disableChannel · n force),
    spells_oneNum .forceSilent, spells_bind fun n => spells_bind fun source => spells_command (.setRelay · n source),
    spells_command .fetchCalls, spells_command .readDuty, spells_oneNum .releaseDuty, spells_command .cutDuty,
    spells_command .clearDutyTotals, List.forall_mem_nil _⟩

theorem hireRequests_spell : ∀ e ∈ hireRequests, Spells e.2.read := by
  simp only [hireRequests, List.forall_mem_cons]
  exact ⟨spells_oneNum .enrol, spells_oneNum .withdraw, spells_oneNum .reinstate, spells_oneNum .deleteReceiver,
    spells_bind fun n => spells_bind fun account => spells_command (.issue · n account), spells_oneNum .returnReceiver,
    spells_oneNum .declareLost, spells_oneNum .find, spells_oneKey .readReceiver,
    spells_bind fun n => spells_bind fun serial => spells_bind fun more => spells_bind fun abort =>
      spells_command (.batchItem · n serial more abort), List.forall_mem_nil _⟩

theorem accountRequests_spell : ∀ e ∈ accountRequests, Spells e.2.read := by
  simp only [accountRequests, List.forall_mem_cons]
  exact ⟨spells_bind fun n => spells_bind fun k => spells_bind fun l => spells_bind fun set =>
      spells_command (.accountLoad · n k l set),
    spells_oneNum .suspend, spells_oneNum .resume, spells_oneNum .close,
    spells_bind fun n => spells_bind fun expected => spells_command (.clearBalance · n expected), spells_oneKey .readAccount,
    spells_command .readStatements,
    spells_bind fun n => spells_bind fun head => spells_command (.releaseStatements · n head), List.forall_mem_nil _⟩

theorem partRequests_spell : ∀ e ∈ partRequests, Spells e.2.read := by
  simp only [partRequests, List.forall_mem_cons]
  exact ⟨spells_bind fun value => spells_command (.setClock · value), spells_bind fun alarm => spells_command (.clearAlarm · alarm),
    spells_bind fun mode => spells_command (.setMode · mode), spells_command .restart,
    spells_bind fun n => spells_bind fun mask => spells_command (.setNoticeMask · n mask), spells_command .readNotices,
    spells_bind fun flags => spells_command (.clearNotices · flags), spells_bind fun g => spells_command (.readCounters · g),
    spells_bind fun g => spells_command (.clearCounters · g), List.forall_mem_nil _⟩

theorem requests_spell : ∀ e ∈ requests, Spells e.2.read := by
  simp only [requests, List.forall_mem_append]
  exact ⟨⟨⟨speechRequests_spell, hireRequests_spell⟩, accountRequests_spell⟩, partRequests_spell⟩

theorem rackBody_spells : Spells rackBody :=
  spells_bind fun _ => spells_bind fun n =>
    spells_ite (spells_bind fun slot => spells_bind fun battery => spells_command (.docked · n slot battery))
      (spells_ite (spells_bind fun slot => spells_command (.undocked · n slot))
        (spells_ite (spells_bind fun battery => spells_command (.cell · n battery)) spells_none))

theorem isCommand_of_readWhole {r : Reader Act} (hr : Spells r) {body : List Byte} {act : Act}
    (h : readWhole r body = some act) : act.IsCommand := by
  unfold readWhole at h
  split at h
  next read => cases h; exact hr _ _ _ read
  next => cases h

/-- A run of bytes is counted, refused or dropped, which changes the service and the hire controller alone, or it is a command that its
bytes spell. -/
def CountedOrCommand (s : State) (o : Host.Outcome State Fault Refusal) : Prop :=
  (∃ serv hire, o = .next { s with serv := serv, hire := hire }) ∨
    ∃ c : Instr, (∀ bytes, c ≠ .messageDropped bytes) ∧ o = exec c s

theorem CountedOrCommand.of_isCommand {act : Act} (h : act.IsCommand) (hdr : Header) (s : State) :
    CountedOrCommand s (act hdr s) := by
  obtain ⟨c, hc, rfl⟩ := h
  exact .inr ⟨c hdr, hc hdr, rfl⟩

/-- Only the service controller changes. -/
theorem CountedOrCommand.serv {s : State} (v : Service) : CountedOrCommand s (.next { s with serv := v }) :=
  .inl ⟨v, s.hire, rfl⟩

theorem takeRequestBody_cases (h : Header) (role : Role) (body : List Byte) (s : State) :
    CountedOrCommand s (takeRequestBody h role body s) := by
  unfold takeRequestBody
  split
  · exact .serv _
  split
  · exact .serv _
  next request found =>
    split
    · exact .serv _
    split
    · exact .serv _
    next act read =>
      obtain ⟨text, mem⟩ := mem_of_byName found
      exact .of_isCommand (isCommand_of_readWhole (requests_spell _ mem) read) h s

/-- A rack message whose body cannot be read is counted as malformed (log 13). -/
theorem serveRack_unread (h : Header) (s : State) :
    CountedOrCommand s (.next (serveRack h (takeRack false 0 fun _ _ t => t) s)) := by
  unfold serveRack
  obtain e | ⟨n, e⟩ := takeMessage_cases _ s <;> rw [e]
  · split
    · exact .serv _
    split
    · exact .inl ⟨_, _, rfl⟩
    · exact .serv _
  · exact .serv _

theorem takeKind_cases (kind : Nat) (h : Header) (role : Role) (body : List Byte) (s : State) :
    CountedOrCommand s (takeKind kind h role body s) := by
  unfold takeKind
  split
  · exact takeRequestBody_cases ..
  · exact .serv _
  · exact .serv _
  · unfold takeRackBody
    split
    next act read => exact .of_isCommand (isCommand_of_readWhole rackBody_spells read) h s
    next => exact serveRack_unread h s
  · exact .serv _

theorem messageDropped_cases (bytes : List Byte) (s : State) : CountedOrCommand s (exec (.messageDropped bytes) s) := by
  show CountedOrCommand s (execMessageDropped bytes s)
  unfold execMessageDropped
  split
  next t lost =>
    unfold messageLost at lost
    split at lost
    · cases lost
      exact .serv _
    split at lost
    · cases lost
    · cases lost
      exact .serv _
  next =>
    unfold takeBytes
    split
    · exact .serv _
    split
    · exact .serv _
    split
    · exact .serv _
    · exact takeKind_cases ..

theorem exec_keepsQueue (c : Instr) (s : State) : KeepsQueue s (exec c s) := by
  by_cases bytes : ∃ l, c = .messageDropped l
  · obtain ⟨l, rfl⟩ := bytes
    obtain ⟨serv, hire, e⟩ | ⟨c, hc, e⟩ := messageDropped_cases l s
    · rw [e]
      exact .next rfl
    · rw [e]
      exact exec_keepsQueue_of_command hc s
  · exact exec_keepsQueue_of_command (fun l e => bytes ⟨l, e⟩) s

/-- Settles O2: every command by what it leaves of the queue, a run of bytes by what it spells. -/
theorem everyCommandAnswersNext : Obligations.EveryCommandAnswersNext := exec_keepsQueue

end Sys2Proof.Machine
end

/-! The check value of R199 as a register that takes one bit at a time, and the frames, reports and messages that are bad and only
counted (R53, R68, R189). -/

namespace Sys2Proof.Machine

/-! ### The check value bit by bit (R199) -/

/-- The bit-serial register: the next bit of the message meets the register's own top bit (R199). -/
def crcSerial (reg : BitVec 16) (bit : Bool) : BitVec 16 :=
  (reg <<< 1) ^^^ (if reg.msb = bit then 0x0000#16 else 0x1021#16)

/-- A bit that waits at the top of a word xored into the register acts as the serial register's next bit. -/
theorem crcBit_xor (reg word : BitVec 16) : crcBit (reg ^^^ word) = crcSerial reg word.msb ^^^ (word <<< 1) := by
  have meets : (reg ^^^ word).msb = true ↔ ¬ reg.msb = word.msb := by simp [BitVec.msb_xor]
  unfold crcBit crcSerial
  rw [BitVec.shiftLeft_xor_distrib]
  by_cases same : reg.msb = word.msb
  · rw [if_neg fun top => meets.mp top same, if_pos same, BitVec.xor_zero]
  · rw [if_pos (meets.mpr same), if_neg same]
    ac_rfl

/-- A word of waiting bits is taken from its top, one bit at each turn of the register. -/
theorem repeat_crcBit_xor (reg word : BitVec 16) (n : Nat) :
    Nat.repeat crcBit n (reg ^^^ word) = ((List.range n).map word.getMsbD).foldl crcSerial reg ^^^ (word <<< n) := by
  induction n with
  | zero => simp [Nat.repeat]
  | succ n ih =>
    have top : (word <<< n).msb = word.getMsbD n := by simp [BitVec.msb_shiftLeft]
    rw [Nat.repeat, ih, crcBit_xor, top, BitVec.shiftLeft_add, List.range_succ, List.map_append, List.foldl_append]
    rfl

/-- The bits of a byte, most significant first. -/
def byteBits (b : Byte) : List Bool := [7, 6, 5, 4, 3, 2, 1, 0].map fun k => b.getLsbD k

theorem crcByte_eq_foldl (reg : BitVec 16) (b : Byte) : crcByte reg b = (byteBits b).foldl crcSerial reg := by
  have spent : b.zeroExtend 16 <<< 8 <<< 8 = 0#16 := by
    rw [← BitVec.shiftLeft_add]
    exact BitVec.shiftLeft_eq_zero (by decide)
  have bits : (List.range 8).map (b.zeroExtend 16 <<< 8).getMsbD = byteBits b := by
    simp [byteBits, List.range_succ, BitVec.getMsbD]
  rw [crcByte, repeat_crcBit_xor, spent, bits, BitVec.xor_zero]

theorem crc16_eq_foldl_bits (l : List Byte) : crc16 l = (l.flatMap byteBits).foldl crcSerial 0xFFFF#16 := by
  rw [List.foldl_flatMap, crc16]
  congr 1
  exact funext fun reg => funext fun b => crcByte_eq_foldl reg b

theorem checkAgrees_two_iff (body : List Byte) (high low : Byte) :
    checkAgrees (body ++ [high, low]) = true ↔ high.toNat * 256 + low.toNat = (crc16 body).toNat := by
  have spelt : bytesNat [high, low] = high.toNat * 256 + low.toNat := by
    simp [bytesNat, Nat.mul_comm]
  rw [checkAgrees_append _ _ rfl, spelt, decide_eq_true_eq]

/-! ### Bad frames, bad reports and bad messages (R53, R68, R189) -/

theorem returnOfBytes_bad {l : List Byte} (h : l.length ≠ 9867 ∨ checkAgrees l = false) :
    (returnOfBytes l).checkGood = false := by
  obtain length | wrong := h
  · simp [returnOfBytes, frameLength, length]
  · simp [returnOfBytes, wrong]

theorem returnOfBytes_good {l : List Byte} (length : l.length = 9867) (agrees : checkAgrees l = true) :
    (returnOfBytes l).checkGood = true := by
  simp [returnOfBytes, frameLength, length, agrees]

theorem loopReturn_bad {f : LoopReturn} {s : State} (bad : f.checkGood = false) :
    loopReturn f s = countLoop (fun c => { c with bad := bump c.bad }) s := by
  simp [loopReturn, bad]

theorem loopReturn_unmatched {f : LoopReturn} {s : State} (good : f.checkGood = true)
    (unlisted : f.sequence ∉ s.loop.outstanding) :
    loopReturn f s = countLoop (fun c => { c with unmatched := bump c.unmatched }) s := by
  simp [loopReturn, good, unlisted]

/-- The grounds on which the bytes of a report are bad (R68). -/
theorem badReport_reportOfBytes {l : List Byte}
    (h : l.length ≠ 9 ∨ checkAgrees l = false ∨ numberAt l 0 1 < 1 ∨ 8 < numberAt l 0 1 ∨
      (numberAt l 4 1 / 16 % 4 ≠ 1 ∧ numberAt l 4 1 / 16 % 4 ≠ 2) ∨ 48 < numberAt l 5 1) :
    badReport (reportOfBytes l) = true := by
  unfold badReport reportOfBytes
  obtain length | wrong | below | above | ⟨notHeartbeat, notSelect⟩ | channel := h
  · simp [length]
  · simp [wrong]
  · simp [within, Nat.not_le.mpr below]
  · simp [within, Nat.not_le.mpr above]
  · simp [notHeartbeat, notSelect]
  · simp [Config.channels, channel]

theorem takeReport_bad {p : AirReport} {s : State} (bad : badReport p = true) :
    takeReport p s =
      countAir (fun k => { k with bad := bump k.bad }) (countAir (fun k => { k with reports := bump k.reports }) s) :=
  if_pos bad

theorem messageSound_of_wrong_check {l : List Byte} (wrong : checkAgrees l = false) : messageSound l = false := by
  simp [messageSound, wrong]

theorem takeBytes_unsound {l : List Byte} (unsound : messageSound l = false) (s : State) :
    takeBytes l s = .next (countServ (fun c => { c with badFrames := bump c.badFrames }) (messageReceived s)) := by
  simp [takeBytes, unsound]

/-- Settles O16: the check value by its bits, then each ground for a bad frame, report or message at the test that meets it. -/
theorem badFramesAndReportsAreOnlyCounted : Obligations.BadFramesAndReportsAreOnlyCounted := by
  refine ⟨crc16_eq_foldl_bits, checkAgrees_two_iff, fun l s mains bad => ?_, fun l s mains length agrees unlisted => ?_,
    fun l s mains bad => ?_, fun l s mains taken wrong => ?_⟩
  · show Host.Outcome.next (whileMains (loopReturn (returnOfBytes l)) s) = _
    rw [whileMains_present _ mains, loopReturn_bad (returnOfBytes_bad bad)]
    rfl
  · show Host.Outcome.next (whileMains (loopReturn (returnOfBytes l)) s) = _
    rw [whileMains_present _ mains, loopReturn_unmatched (returnOfBytes_good length agrees) unlisted]
    rfl
  · show Host.Outcome.next (whileMains (takeReport (reportOfBytes l)) s) = _
    rw [whileMains_present _ mains, takeReport_bad (badReport_reportOfBytes bad)]
    rfl
  · show execMessageDropped l s = _
    rw [execMessageDropped, messageLost_none mains taken]
    exact takeBytes_unsound (messageSound_of_wrong_check wrong) s

end Sys2Proof.Machine

/-! Receivers on the air: the air notes (R81, R82), the judging of a channel and the revocation pass (R76, R77), and the reports
(R67 to R72). -/

namespace Sys2Proof.Machine

/-! ### Air notes (R81, R82) -/

theorem queueNote_eq_of_room (n : AirNote) {s : State} (room : s.air.notes.length < 64) :
    queueNote n s = { s with air := { s.air with notes := s.air.notes ++ [n] } } := by
  simp [queueNote, State.modAir, room]

theorem queueNote_eq_of_full (n : AirNote) {s : State} (full : 64 ≤ s.air.notes.length) :
    queueNote n s =
      { s with air :=
        { s.air with counters := { s.air.counters with notesDropped := bump s.air.counters.notesDropped } } } := by
  simp [queueNote, State.modAir, Nat.not_lt.mpr full]

/-- Settles O8: a note with room and without, then a taking, whose count sent is the length of what it takes. -/
theorem airNotesAreQueuedAndSent : Obligations.AirNotesAreQueuedAndSent := by
  refine ⟨fun n _ => queueNote_eq_of_room n, fun n _ => queueNote_eq_of_full n, fun s => ?_⟩
  simp [takeNotes, State.modAir, satAdd, counterMax, List.length_take]

/-- A note is appended to a queue that fits, as far as there is room. -/
theorem queueNote_notes (n : AirNote) {s : State} (fits : s.air.notes.length ≤ 64) :
    (queueNote n s).air.notes = (s.air.notes ++ [n]).take 64 := by
  obtain room | full := Nat.lt_or_ge s.air.notes.length 64
  · rw [queueNote_room n room, List.take_of_length_le]
    simpa using room
  · rw [queueNote_eq_of_full n full, List.take_append_of_le_length full, List.take_of_length_le fits]

/-- The queueing of a note touches no air counter but that of the notes dropped. -/
theorem queueNote_revocations (n : AirNote) (s : State) :
    (queueNote n s).air.counters.revocations = s.air.counters.revocations := by
  obtain room | full := Nat.lt_or_ge s.air.notes.length 64
  · rw [queueNote_eq_of_room n room]
  · rw [queueNote_eq_of_full n full]

/-! ### What is permitted (R76) -/

/-- Channel c is restricted, and no OPEN account of that number has it in its access set. -/
def Barred (s : State) (account c : Nat) : Prop :=
  (s.chan c).restricted = true ∧
    ∀ n a, s.accountByNumber account = some (n, a) → a.state = .suspended ∨ c ∉ a.access

theorem AccountState.ne_opened_iff {x : AccountState} : x ≠ .opened ↔ x = .suspended := by
  cases x <;> decide

theorem permitted_eq_false_iff {s : State} {account c : Nat} : permitted s account c = false ↔ Barred s account c := by
  unfold permitted Barred
  cases s.accountByNumber account with
  | none => simp
  | some e =>
    obtain ⟨n, a⟩ := e
    have only : ∀ P : Nat → Account → Prop, (∀ m b, some (n, a) = some (m, b) → P m b) ↔ P n a := by simp
    rw [only]
    simp [← AccountState.ne_opened_iff, imp_iff_not_or]

theorem permitted_of_open {s : State} {account c : Nat} (unrestricted : (s.chan c).restricted = false) :
    permitted s account c = true := by
  simp [permitted, unrestricted]

theorem permitted_of_access {s : State} {account c n : Nat} {a : Account} (found : s.accountByNumber account = some (n, a))
    (opened : a.state = .opened) (holds : c ∈ a.access) : permitted s account c = true := by
  simp [permitted, found, opened, holds]

/-! ### The judging of a reported channel (R76) -/

section
variable {slot account c : Nat} {r : Receiver} {select : Bool} {s : State}

theorem judge_current (current : r.channel = some c) (quiet : ¬(select = true ∧ (s.chan c).restricted = true)) :
    judge slot r account c select s = s := by
  simp only [judge, if_pos current, Bool.and_eq_true, if_neg quiet]

theorem judge_current_selected (current : r.channel = some c) (selected : select = true)
    (restricted : (s.chan c).restricted = true) : judge slot r account c select s = grantNote r.serial c s := by
  simp [judge, current, selected, restricted]

theorem judge_unrestricted (other : r.channel ≠ some c) (unrestricted : (s.chan c).restricted = false) :
    judge slot r account c select s = writeReceiver slot { r with channel := some c } s := by
  simp [judge, other, permitted_of_open unrestricted, unrestricted]

theorem judge_granted (other : r.channel ≠ some c) (restricted : (s.chan c).restricted = true)
    (allowed : permitted s account c = true) :
    judge slot r account c select s = grantNote r.serial c (writeReceiver slot { r with channel := some c } s) := by
  simp [judge, other, allowed, restricted]

theorem judge_denied (other : r.channel ≠ some c) (barred : Barred s account c) :
    judge slot r account c select s = denyNote r.serial c s := by
  simp [judge, other, permitted_eq_false_iff.mpr barred]

end

/-! ### One receiver revoked (R77) -/

/-- A receiver that a pass revokes: its slot, its record as it was, and the channel that it loses. -/
structure Revocation where
  slot : Nat
  record : Receiver
  channel : Nat

/-- The REVOKE note of a revocation. -/
def Revocation.note (x : Revocation) : AirNote := ⟨x.record.serial, .revoke, x.channel⟩

/-- The revocation of one receiver: its move to channel 0, its note, its count. -/
def Revocation.apply (s : State) (x : Revocation) : State :=
  countAir (fun k => { k with revocations := bump k.revocations })
    (queueNote x.note (writeReceiver x.slot { x.record with channel := some 0 } s))

/-- What a pass over the candidates does to an entry of the receiver table. -/
def revocationOf (candidate : Receiver → Bool) (s : State) (e : Nat × Receiver) : Option Revocation :=
  if candidate e.2 = true then (losesChannel s e.2).map fun c => ⟨e.1, e.2, c⟩ else none

theorem losesChannel_eq_some {s : State} {r : Receiver} {c : Nat} :
    losesChannel s r = some c ↔
      r.onLoan = true ∧ r.channel = some c ∧ ∃ l, r.loan = some l ∧ Barred s l.account c := by
  unfold losesChannel
  split
  next l d onLoan loan channel =>
    have barred : Barred s l.account d ↔ ¬permitted s l.account d = true := by
      rw [← permitted_eq_false_iff, Bool.not_eq_true]
    simp only [onLoan, loan, channel, Option.ite_none_left_eq_some, Option.some.injEq, true_and, exists_eq_left']
    constructor
    · rintro ⟨forbidden, rfl⟩
      exact ⟨rfl, barred.mpr forbidden⟩
    · rintro ⟨rfl, isBarred⟩
      exact ⟨barred.mp isBarred, rfl⟩
  next none =>
    simp only [reduceCtorEq, false_iff]
    rintro ⟨onLoan, channel, l, loan, -⟩
    exact none l c onLoan loan channel

theorem revocationOf_eq_some {candidate : Receiver → Bool} {s : State} {e : Nat × Receiver} {x : Revocation} :
    revocationOf candidate s e = some x ↔
      candidate e.2 = true ∧ losesChannel s e.2 = some x.channel ∧ x.slot = e.1 ∧ x.record = e.2 := by
  obtain ⟨slot, record, channel⟩ := x
  unfold revocationOf
  split
  next chosen =>
    simp only [Option.map_eq_some_iff, Revocation.mk.injEq, chosen, true_and]
    constructor
    · rintro ⟨c, loses, rfl, rfl, rfl⟩
      exact ⟨loses, rfl, rfl⟩
    · rintro ⟨loses, rfl, rfl⟩
      exact ⟨channel, loses, rfl, rfl, rfl⟩
  next passed => simp [passed]

section
variable (s : State) (x : Revocation)

@[simp] theorem Revocation.apply_loop : (x.apply s).loop = s.loop := by simp [Revocation.apply]
@[simp] theorem Revocation.apply_booth : (x.apply s).booth = s.booth := by simp [Revocation.apply]
@[simp] theorem Revocation.apply_acct : (x.apply s).acct = s.acct := by simp [Revocation.apply]
@[simp] theorem Revocation.apply_serv : (x.apply s).serv = s.serv := by simp [Revocation.apply]

@[simp] theorem Revocation.apply_receivers :
    (x.apply s).hire.receivers = Table.put x.slot { x.record with channel := some 0 } s.hire.receivers := by
  simp [Revocation.apply]

theorem Revocation.apply_chan (d : Nat) :
    (x.apply s).chan d = (writeReceiver x.slot { x.record with channel := some 0 } s).chan d := by
  simp [Revocation.apply, State.chan]

theorem Revocation.apply_notes (fits : s.air.notes.length ≤ 64) : (x.apply s).air.notes = (s.air.notes ++ [x.note]).take 64 :=
  (queueNote_notes x.note (by simpa using fits)).trans (by simp)

theorem Revocation.apply_revocations : (x.apply s).air.counters.revocations = bump s.air.counters.revocations :=
  congrArg bump ((queueNote_revocations ..).trans (by simp))

theorem Revocation.apply_restricted (d : Nat) : ((x.apply s).chan d).restricted = (s.chan d).restricted := by
  rw [Revocation.apply_chan, writeReceiver_chan]

theorem Revocation.apply_permitted (account c : Nat) : permitted (x.apply s) account c = permitted s account c := by
  simp only [permitted, State.accountByNumber, Revocation.apply_restricted, Revocation.apply_acct]

/-- A revocation changes nothing that decides who else is revoked. -/
theorem Revocation.apply_revocationOf (candidate : Receiver → Bool) :
    revocationOf candidate (x.apply s) = revocationOf candidate s := by
  funext e
  simp only [revocationOf, losesChannel, Revocation.apply_permitted]

end

/-! ### The revocations of a pass, one after another (R77) -/

/-- What the revocations are made on: each slot once, with the record that stands there, on loan and on the channel it loses. -/
structure Standing (l : List Revocation) (s : State) : Prop where
  slots : (l.map (·.slot)).Nodup
  record : ∀ x ∈ l, Table.look s.hire.receivers x.slot = some x.record
  onLoan : ∀ x ∈ l, x.record.onLoan = true
  channel : ∀ x ∈ l, x.record.channel = some x.channel

theorem Standing.head {x : Revocation} {l : List Revocation} {s : State} (h : Standing (x :: l) s) :
    ∀ y ∈ l, y.slot ≠ x.slot := by
  intro y mem same
  exact (List.nodup_cons.mp h.slots).1 (List.mem_map.mpr ⟨y, mem, same⟩)

/-- After the first revocation the others still stand. -/
theorem Standing.tail {x : Revocation} {l : List Revocation} {s : State} (h : Standing (x :: l) s) :
    Standing l (x.apply s) where
  slots := (List.nodup_cons.mp h.slots).2
  onLoan y mem := h.onLoan y (List.mem_cons_of_mem _ mem)
  channel y mem := h.channel y (List.mem_cons_of_mem _ mem)
  record y mem := by
    rw [Revocation.apply_receivers, Table.look_put_ne (h.head y mem)]
    exact h.record y (List.mem_cons_of_mem _ mem)

/-- The listener counts after one revocation: a receiver in range moves from its channel to channel 0. -/
theorem Revocation.apply_listeners {x : Revocation} {l : List Revocation} {s : State} (h : Standing (x :: l) s) (d : Nat) :
    (x.apply s).chan d =
      { s.chan d with
        listeners :=
          if x.record.range = .inRange then adjusted (some x.channel) (some 0) d (s.chan d).listeners
          else (s.chan d).listeners } := by
  have onLoan := h.onLoan x (List.mem_cons_self ..)
  have channel := h.channel x (List.mem_cons_self ..)
  rw [Revocation.apply_chan, writeReceiver_chan, h.record x (List.mem_cons_self ..), Option.bind_some]
  by_cases inRange : x.record.range = .inRange
  · have before : x.record.listening = some x.channel := by simp [Receiver.listening, onLoan, inRange, channel]
    have after : Receiver.listening { x.record with channel := some 0 } = some 0 := by
      rw [listening_eq_some]
      exact ⟨by simpa [Receiver.onLoan] using onLoan, inRange, rfl⟩
    rw [before, after, if_pos inRange]
  · simp [Receiver.listening, inRange, adjusted]

section
variable {l : List Revocation} {s : State}

theorem foldl_revocations_look_ne {k : Nat} (other : ∀ x ∈ l, x.slot ≠ k) :
    Table.look (l.foldl Revocation.apply s).hire.receivers k = Table.look s.hire.receivers k := by
  induction l generalizing s with
  | nil => rfl
  | cons x l ih =>
    rw [List.foldl_cons, ih fun y mem => other y (List.mem_cons_of_mem _ mem), Revocation.apply_receivers,
      Table.look_put_ne (other x (List.mem_cons_self ..)).symm]

theorem foldl_revocations_look {x : Revocation} (mem : x ∈ l) (h : Standing l s) :
    Table.look (l.foldl Revocation.apply s).hire.receivers x.slot = some { x.record with channel := some 0 } := by
  induction l generalizing s with
  | nil => cases mem
  | cons y l ih =>
    rw [List.foldl_cons]
    obtain rfl | later := List.mem_cons.mp mem
    · rw [foldl_revocations_look_ne h.head, Revocation.apply_receivers, Table.look_put_self]
    · exact ih later h.tail

/-- A front part taken first makes no difference to what is taken in the end. -/
theorem take_take_append {α : Type} (n : Nat) (p q : List α) : (p.take n ++ q).take n = (p ++ q).take n := by
  rw [List.take_append, List.take_append, List.take_take, List.length_take, Nat.min_self]
  congr 2
  omega

/-- The notes of the pass are appended in order, as far as there is room. -/
theorem foldl_revocations_notes (fits : s.air.notes.length ≤ 64) :
    (l.foldl Revocation.apply s).air.notes = (s.air.notes ++ l.map Revocation.note).take 64 := by
  induction l generalizing s with
  | nil => simp [List.take_of_length_le fits]
  | cons x l ih =>
    have fits' : (x.apply s).air.notes.length ≤ 64 := by
      rw [Revocation.apply_notes s x fits, List.length_take]
      exact Nat.min_le_left ..
    rw [List.foldl_cons, ih fits', Revocation.apply_notes s x fits, List.map_cons, take_take_append]
    simp

theorem foldl_revocations_revocations (fits : s.air.counters.revocations ≤ 4294967295) :
    (l.foldl Revocation.apply s).air.counters.revocations = min (s.air.counters.revocations + l.length) 4294967295 := by
  induction l generalizing s with
  | nil => simp [Nat.min_eq_left fits]
  | cons x l ih =>
    have one : (x.apply s).air.counters.revocations = min (s.air.counters.revocations + 1) 4294967295 :=
      Revocation.apply_revocations s x
    rw [List.foldl_cons, ih (by omega), one, List.length_cons]
    omega

/-- A channel other than channel 0 loses the listeners that were on it. -/
theorem foldl_revocations_chan (h : Standing l s) {d : Nat} (other : d ≠ 0) :
    (l.foldl Revocation.apply s).chan d =
      { s.chan d with
        listeners :=
          (s.chan d).listeners - l.countP fun x => decide (x.record.range = .inRange) && decide (x.channel = d) } := by
  induction l generalizing s with
  | nil => rfl
  | cons x l ih =>
    rw [List.foldl_cons, ih h.tail, Revocation.apply_listeners h, List.countP_cons]
    by_cases inRange : x.record.range = .inRange
    · by_cases same : x.channel = d
      · simp [inRange, same, adjusted, other]
        omega
      · simp [inRange, same, adjusted, other.symm]
    · simp [inRange]

/-- Channel 0 gains those in range, where none was on it. -/
theorem foldl_revocations_chan_zero (h : Standing l s) (elsewhere : ∀ x ∈ l, x.channel ≠ 0) :
    (l.foldl Revocation.apply s).chan 0 =
      { s.chan 0 with
        listeners := (s.chan 0).listeners + l.countP fun x => decide (x.record.range = .inRange) } := by
  induction l generalizing s with
  | nil => rfl
  | cons x l ih =>
    have away : x.channel ≠ 0 := elsewhere x (List.mem_cons_self ..)
    rw [List.foldl_cons, ih h.tail fun y mem => elsewhere y (List.mem_cons_of_mem _ mem), Revocation.apply_listeners h,
      List.countP_cons]
    by_cases inRange : x.record.range = .inRange
    · simp [inRange, adjusted, away]
      omega
    · simp [inRange]

end

/-! ### The revocation pass (R77) -/

/-- The revocations of a pass, in slot order. -/
def revocations (candidate : Receiver → Bool) (s : State) : List Revocation :=
  s.hire.receivers.filterMap (revocationOf candidate s)

theorem revokeOne_eq {candidate : Receiver → Bool} {t : State} {n slot : Nat} {r : Receiver}
    (record : Table.look t.hire.receivers slot = some r) :
    revokeOne candidate (t, n) slot =
      (revocationOf candidate t (slot, r)).elim (t, n) fun x => (x.apply t, n + 1) := by
  simp only [revokeOne, record, revocationOf]
  cases candidate r with
  | false => rfl
  | true => cases losesChannel t r <;> rfl

/-- A pass over entries that stand in the table makes the revocations that are due before it begins. -/
theorem foldl_revokeOne_eq {candidate : Receiver → Bool} {l : Table Receiver} {t : State} {n : Nat}
    (rising : Table.rising l = true) (records : ∀ e ∈ l, Table.look t.hire.receivers e.1 = some e.2) :
    (l.map (·.1)).foldl (revokeOne candidate) (t, n) =
      ((l.filterMap (revocationOf candidate t)).foldl Revocation.apply t,
        n + (l.filterMap (revocationOf candidate t)).length) := by
  induction l generalizing t n with
  | nil => rfl
  | cons e l ih =>
    obtain ⟨above, rising⟩ := Table.rising_cons.mp rising
    have later : ∀ e ∈ l, Table.look t.hire.receivers e.1 = some e.2 := fun f mem =>
      records f (List.mem_cons_of_mem _ mem)
    rw [List.map_cons, List.foldl_cons, revokeOne_eq (records e (List.mem_cons_self ..))]
    cases due : revocationOf candidate t e with
    | none => rw [List.filterMap_cons_none due, Option.elim_none, ih rising later]
    | some x =>
      obtain ⟨-, -, slot, -⟩ := revocationOf_eq_some.mp due
      have kept : ∀ f ∈ l, Table.look (x.apply t).hire.receivers f.1 = some f.2 := fun f mem => by
        rw [Revocation.apply_receivers, slot, Table.look_put_ne (Nat.ne_of_gt (above f mem))]
        exact later f mem
      rw [List.filterMap_cons_some due, Option.elim_some, ih rising kept, Revocation.apply_revocationOf, List.length_cons,
        List.foldl_cons, Nat.add_right_comm, Nat.add_assoc]

theorem revocationPass_eq (candidate : Receiver → Bool) {s : State} (rising : Table.rising s.hire.receivers = true) :
    revocationPass candidate s =
      ((revocations candidate s).foldl Revocation.apply s, (revocations candidate s).length) := by
  rw [revocationPass, receiverSlots, foldl_revokeOne_eq rising fun e mem => Table.look_of_mem rising mem, Nat.zero_add]
  rfl

theorem mem_revocations {candidate : Receiver → Bool} {s : State} {x : Revocation} :
    x ∈ revocations candidate s ↔
      (x.slot, x.record) ∈ s.hire.receivers ∧ candidate x.record = true ∧ losesChannel s x.record = some x.channel := by
  simp only [revocations, List.mem_filterMap, revocationOf_eq_some]
  constructor
  · rintro ⟨⟨slot, r⟩, mem, chosen, loses, rfl, rfl⟩
    exact ⟨mem, chosen, loses⟩
  · rintro ⟨mem, chosen, loses⟩
    exact ⟨_, mem, chosen, loses, rfl, rfl⟩

/-- The slots of the revocations are slots of the table, in their order. -/
theorem revocations_slots_sublist (candidate : Receiver → Bool) (s : State) :
    ((revocations candidate s).map (·.slot)).Sublist (receiverSlots s) := by
  unfold revocations receiverSlots
  induction s.hire.receivers with
  | nil => exact .slnil
  | cons e l ih =>
    cases due : revocationOf candidate s e with
    | none =>
      rw [List.filterMap_cons_none due]
      exact ih.cons _
    | some x =>
      obtain ⟨-, -, slot, -⟩ := revocationOf_eq_some.mp due
      rw [List.filterMap_cons_some due, List.map_cons, slot]
      exact ih.cons_cons _

theorem revocations_standing (candidate : Receiver → Bool) {s : State} (rising : Table.rising s.hire.receivers = true) :
    Standing (revocations candidate s) s where
  slots := ((keys_ascending_of_rising rising).imp Nat.ne_of_lt).sublist (revocations_slots_sublist candidate s)
  record _ mem := Table.look_of_mem rising (mem_revocations.mp mem).1
  onLoan _ mem := (losesChannel_eq_some.mp (mem_revocations.mp mem).2.2).1
  channel _ mem := (losesChannel_eq_some.mp (mem_revocations.mp mem).2.2).2.1

/-- Settles O28: the rows of R76 one by one; the pass as its revocations one after another, and what those leave. -/
theorem languageChoiceAndRevocation : Obligations.LanguageChoiceAndRevocation := by
  refine ⟨fun slot account c r select s => ⟨judge_current, judge_current_selected, judge_unrestricted,
    fun n a other restricted found opened holds => judge_granted other restricted (permitted_of_access found opened holds),
    fun ⟨other, restricted, barred⟩ => judge_denied other ⟨restricted, barred⟩⟩, fun candidate s rising => ?_⟩
  have standing := revocations_standing candidate rising
  intro barred after revoked
  have after_eq : after = _ := revocationPass_eq candidate rising
  have revoked_eq : revoked = (revocations candidate s).map fun x => (x.record, x.channel) := by
    simp only [revoked, revocations, List.map_filterMap, revocationOf]
    congr 1
    funext e
    split <;> simp [Function.comp_def]
  clear_value after revoked
  subst after_eq revoked_eq
  simp only [List.length_map, List.map_map, List.countP_map]
  refine ⟨fun r c => losesChannel_eq_some, fun slot r l c record chosen onLoan loan channel isBarred => ?_,
    fun slot r record stays => ?_, trivial, foldl_revocations_notes, fun d => foldl_revocations_chan standing, fun open0 => ?_,
    foldl_revocations_revocations, ?_, ?_, ?_, ?_⟩
  · have loses : losesChannel s r = some c := losesChannel_eq_some.mpr ⟨onLoan, channel, l, loan, isBarred⟩
    have mem : ⟨slot, r, c⟩ ∈ revocations candidate s := mem_revocations.mpr ⟨Table.mem_of_look record, chosen, loses⟩
    exact foldl_revocations_look mem standing
  · rw [foldl_revocations_look_ne, record]
    rintro x mem rfl
    obtain ⟨-, chosen, loses⟩ := mem_revocations.mp mem
    have same : x.record = r := Option.some.inj ((standing.record x mem).symm.trans record)
    rw [same] at chosen loses
    obtain ⟨onLoan, channel, l, loan, isBarred⟩ := losesChannel_eq_some.mp loses
    obtain passed | returned | allowed := stays
    · simp [passed] at chosen
    · simp [returned] at onLoan
    · exact allowed l _ loan channel isBarred
  · refine foldl_revocations_chan_zero standing fun x mem zero => ?_
    obtain ⟨-, -, l, -, restricted, -⟩ := losesChannel_eq_some.mp (mem_revocations.mp mem).2.2
    rw [zero, open0] at restricted
    cases restricted
  · exact foldl_keeps State.acct _ Revocation.apply_acct ..
  · exact foldl_keeps State.serv _ Revocation.apply_serv ..
  · exact foldl_keeps State.booth _ Revocation.apply_booth ..
  · exact foldl_keeps State.loop _ Revocation.apply_loop ..

/-! ### Reports (R67 to R72) -/

section
variable {p : AirReport} {slot : Nat} {r : Receiver} {s : State}

theorem badReport_eq_false (sound : p.sound = true) (first : 1 ≤ p.radiator) (last : p.radiator ≤ 8)
    (kind : p.kind = 1 ∨ p.kind = 2) (channel : p.channel ≤ 48) : badReport p = false := by
  obtain heartbeat | select := kind
  · simp [badReport, within, Config.channels, sound, first, last, heartbeat, channel]
  · simp [badReport, within, Config.channels, sound, first, last, select, channel]

/-- What a report that is not bad counts first: itself, and its radiator (R67). -/
def countHeard (p : AirReport) (s : State) : State :=
  countAir (fun k =>
      { k with perRadiator := Table.set 0 p.radiator (bump (Table.get 0 k.perRadiator p.radiator)) k.perRadiator })
    (countAir (fun k => { k with reports := bump k.reports }) s)

theorem takeReport_unknown (good : badReport p = false) (unlisted : s.receiverBySerial p.serial = none) :
    takeReport p s = unknownReport p (countHeard p s) := by
  simp [takeReport, countHeard, good, unlisted]

theorem takeReport_duplicate (good : badReport p = false) (listed : s.receiverBySerial p.serial = some (slot, r))
    (repeated : repeats r p = true) : takeReport p s = duplicateReport slot r p (countHeard p s) := by
  simp [takeReport, countHeard, good, listed, repeated]

theorem takeReport_accepted (good : badReport p = false) (listed : s.receiverBySerial p.serial = some (slot, r))
    (new : repeats r p = false) : takeReport p s = acceptReport slot r p (countHeard p s) := by
  simp [takeReport, countHeard, good, listed, new]

theorem repeats_of_recent {n : Nat} (counter : r.lastCounter = some p.counter) (heard : r.lastHeard = some n)
    (recent : n < 2) : repeats r p = true := by
  simpa [repeats, counter, heard] using Nat.le_of_lt_succ recent

theorem repeats_of_new (new : r.lastCounter ≠ some p.counter ∨ ∀ n, r.lastHeard = some n → 2 ≤ n) :
    repeats r p = false := by
  unfold repeats
  obtain counter | late := new
  · simp [counter]
  · cases heard : r.lastHeard with
    | none => simp
    | some n =>
      have late : 1 < n := late n heard
      simpa using fun _ => late

theorem betterLink_eq :
    betterLink r p =
      if r.lastLink.getD 0 < p.link then { r with lastRadiator := some p.radiator, lastLink := some p.link } else r := by
  simp [betterLink]

/-- An accepted report, counted and written to the record, before its channel is judged (R71). -/
def acceptWritten (slot : Nat) (r : Receiver) (p : AirReport) (s : State) : State :=
  writeReceiver slot (heardReport r p s.now)
    (countAir (fun k =>
      { k with accepted := bump k.accepted, selects := if p.kind = 2 then bump k.selects else k.selects }) s)

theorem acceptReport_onLoan {l : Loan} (onLoan : r.onLoan = true) (loan : r.loan = some l) :
    acceptReport slot r p s =
      judge slot (heardReport r p s.now) l.account p.channel (decide (p.kind = 2)) (acceptWritten slot r p s) := by
  simp [acceptReport, acceptWritten, onLoan, loan]

theorem acceptReport_lost (lost : r.state = .lost) :
    acceptReport slot r p s = setFlag .lostHeard (acceptWritten slot r p s) := by
  have returned : r.onLoan = false := by simp [Receiver.onLoan, lost]
  simp [acceptReport, acceptWritten, returned, lost]

theorem acceptReport_returned (returned : r.onLoan = false) (found : r.state ≠ .lost) :
    acceptReport slot r p s = acceptWritten slot r p s := by
  simp [acceptReport, acceptWritten, returned, found]

end

/-- A report that arrives while mains is present is taken (R67). -/
theorem exec_receiverReport {report : List Byte} {s t : State} (present : s.supply.mainsLost = false)
    (taken : takeReport (reportOfBytes report) s = t) : exec (.receiverReport report) s = .next t := by
  show Host.Outcome.next (whileMains (takeReport (reportOfBytes report)) s) = _
  rw [whileMains_present _ present, taken]

/-- Settles O27: a report that is not bad by whether its serial is known and whether it repeats the one before, then an accepted one
by the state of its receiver. -/
theorem reportsAreUnknownDuplicateOrAccepted : Obligations.ReportsAreUnknownDuplicateOrAccepted := by
  intro report s present length agrees p
  have sound : p.sound = true := by simp [p, reportOfBytes, length, agrees]
  refine ⟨rfl, rfl, rfl, rfl, rfl, rfl, rfl, fun first last kind channel => ?_⟩
  have good : badReport p = false := badReport_eq_false sound first last kind channel
  refine ⟨fun unlisted => ?_, fun slot r n listed counter heard recent => ?_, fun slot r listed new => ?_⟩
  · exact exec_receiverReport present (takeReport_unknown good unlisted)
  · refine exec_receiverReport present ((takeReport_duplicate good listed (repeats_of_recent counter heard recent)).trans ?_)
    rw [duplicateReport, betterLink_eq]
    rfl
  · have accepted := takeReport_accepted good listed (repeats_of_new new)
    refine ⟨fun returned found => ?_, fun lost => ?_, fun l onLoan loan => ?_⟩
    · exact exec_receiverReport present (accepted.trans (acceptReport_returned returned found))
    · exact exec_receiverReport present (accepted.trans (acceptReport_lost lost))
    · exact exec_receiverReport present (accepted.trans (acceptReport_onLoan onLoan loan))

end Sys2Proof.Machine

/-! The account requests (R129 to R132), with the revocation pass over the receivers of one account (R78). -/

namespace Sys2Proof.Machine

/-! ### A request that names one account (R130 to R132) -/

theorem isAccount_iff {n : Nat} : isAccount n = true ↔ 1 ≤ n ∧ n ≤ 65535 := by simp [isAccount, within, Config.accountMax]

theorem number_of_accountByNumber {s : State} {account n : Nat} {a : Account}
    (found : s.accountByNumber account = some (n, a)) : a.number = account := by
  simpa using List.find?_some found

section
variable {rule : Nat → Account → State → State × Answer} {account : Nat} {s : State}

theorem atAccount_out (out : isAccount account = false) : atAccount account rule s = (s, .refused .range []) := by
  simp [atAccount, out, refuse]

theorem atAccount_missing (number : isAccount account = true) (missing : s.accountByNumber account = none) :
    atAccount account rule s = (s, .refused .notFound []) := by
  simp [atAccount, number, missing, refuse]

theorem atAccount_found {n : Nat} {a : Account} (number : isAccount account = true)
    (found : s.accountByNumber account = some (n, a)) : atAccount account rule s = rule n a s := by
  simp [atAccount, number, found]

end

/-! ### ACCOUNT LOAD (R129) -/

theorem accountLoadFits_iff {account cls limit : Nat} {access : List Nat} :
    accountLoadFits account cls limit access = true ↔
      isAccount account = true ∧ cls ≤ 7 ∧ 1 ≤ limit ∧ limit ≤ 2048 ∧ ∀ c ∈ access, isChannel c = true := by
  simp [accountLoadFits, isClass, within, Config.loanLimitMax, and_assoc]

theorem accessSet_eq (l : List Nat) : accessSet l = (upTo 48).filter fun c => decide (c ∈ l) := by
  simp [accessSet]

theorem mem_accessSet {c : Nat} {l : List Nat} : c ∈ accessSet l ↔ isChannel c = true ∧ c ∈ l := by
  rw [accessSet_eq, List.mem_filter, mem_upTo, isChannel_iff, decide_eq_true_eq]

theorem accessShrinks_of_lost {c : Nat} {old new : List Nat} (held : c ∈ old) (lost : c ∉ new) :
    accessShrinks old (accessSet new) = true := by
  refine List.any_eq_true.mpr ⟨c, held, ?_⟩
  simp [mem_accessSet, lost]

theorem accessShrinks_of_kept {old new : List Nat} (kept : ∀ c ∈ old, c ∈ new)
    (channels : ∀ c ∈ old, isChannel c = true) : accessShrinks old (accessSet new) = false := by
  refine List.any_eq_false.mpr fun c held => ?_
  simp [mem_accessSet, kept c held, channels c held]

section
variable {account cls limit : Nat} {access : List Nat} {s : State}

theorem accountLoad_range (unfit : accountLoadFits account cls limit access = false) :
    accountLoad account cls limit access s = (s, .refused .range []) := by
  simp [accountLoad, unfit, refuse]

theorem accountLoad_malformed (fits : accountLoadFits account cls limit access = true) (twice : ¬access.Nodup) :
    accountLoad account cls limit access s = (s, .refused .malformed []) := by
  simp [accountLoad, fits, distinct, twice, refuse]

theorem accountLoad_undefined (fits : accountLoadFits account cls limit access = true) (once : access.Nodup)
    (undefined : (s.tariff cls).defined = false) : accountLoad account cls limit access s = (s, .refused .range []) := by
  simp [accountLoad, fits, distinct, once, undefined, refuse]

theorem accountLoad_new (fits : accountLoadFits account cls limit access = true) (once : access.Nodup)
    (defined : (s.tariff cls).defined = true) (missing : s.accountByNumber account = none) :
    accountLoad account cls limit access s = createAccount account cls limit access s := by
  simp [accountLoad, fits, distinct, once, defined, missing]

theorem accountLoad_found {n : Nat} {a : Account} (fits : accountLoadFits account cls limit access = true)
    (once : access.Nodup) (defined : (s.tariff cls).defined = true) (found : s.accountByNumber account = some (n, a)) :
    accountLoad account cls limit access s = changeAccount n a cls limit access s := by
  simp [accountLoad, fits, distinct, once, defined, found]

theorem createAccount_full (full : 256 ≤ s.acct.accounts.length) :
    createAccount account cls limit access s = (s, .refused .tableFull []) :=
  if_pos full

theorem createAccount_room (room : s.acct.accounts.length < 256) :
    createAccount account cls limit access s =
      ({ s with acct :=
          { s.acct with
            accounts :=
              Table.put (Table.firstFree s.acct.accounts 1)
                { number := account, cls := cls, loanLimit := limit, access := accessSet access } s.acct.accounts
            counters := { s.acct.counters with created := bump s.acct.counters.created } } },
        .accepted [.flag true, .num 0]) :=
  if_neg (Nat.not_le.mpr room)

/-- The record of an account that ACCOUNT LOAD has changed. -/
def Account.loaded (a : Account) (cls limit : Nat) (access : List Nat) : Account :=
  { a with cls := cls, loanLimit := limit, access := accessSet access }

variable {n : Nat} {a : Account}

theorem changeAccount_limit (low : limit < a.openLoans) :
    changeAccount n a cls limit access s = (s, .refused .limit []) :=
  if_pos low

theorem changeAccount_kept (covers : a.openLoans ≤ limit) (kept : accessShrinks a.access (accessSet access) = false) :
    changeAccount n a cls limit access s =
      (s.writeAccount n (a.loaded cls limit access), .accepted [.flag false, .num 0]) := by
  simp [changeAccount, Nat.not_lt.mpr covers, kept, accept, Account.loaded]

theorem changeAccount_shrunk (covers : a.openLoans ≤ limit) (shrinks : accessShrinks a.access (accessSet access) = true) :
    changeAccount n a cls limit access s =
      (let pass := revokeAccount a.number (s.writeAccount n (a.loaded cls limit access))
       (pass.1, .accepted [.flag false, .num pass.2])) := by
  simp [changeAccount, Nat.not_lt.mpr covers, shrinks, accept, Account.loaded]

end

/-- An access set of up to 48 channels fits the body of ACCOUNT LOAD, so that its owner rules on it. -/
theorem accountLoad_request {h : Header} {s t : State} (ha : admitted controlOnly h s) {account cls limit : Nat}
    {access : List Nat} (short : access.length ≤ 48) {a : Answer}
    (ruled : accountLoad account cls limit access (taken s) = (t, a)) :
    exec (.accountLoad h account cls limit access) s = .next (replied h a t) := by
  show Host.Outcome.next
    (serve h controlOnly (decide (access.length ≤ Config.accessSetMax)) (accountLoad account cls limit access) s) = _
  rw [decide_eq_true short]
  exact request_of_admitted ha ruled

theorem accountLoad_unfit {h : Header} {s : State} (ha : admitted controlOnly h s) {account cls limit : Nat}
    {access : List Nat} (long : 48 < access.length) :
    exec (.accountLoad h account cls limit access) s = .next (refuseMalformed h (messageReceived s)) := by
  show Host.Outcome.next
    (serve h controlOnly (decide (access.length ≤ Config.accessSetMax)) (accountLoad account cls limit access) s) = _
  rw [decide_eq_false (Nat.not_le.mpr long), serve_unfit ha]

/-! ### SUSPEND (R130), CLEAR BALANCE (R132) and CLOSE (R131) at a record -/

section
variable {account n : Nat} {a : Account} {s : State} (number : isAccount account = true)
  (found : s.accountByNumber account = some (n, a))
include number found

theorem suspendAccount_suspended (suspended : a.state = .suspended) :
    suspendAccount account s = (s, .accepted [.num 0]) := by
  rw [suspendAccount, atAccount_found number found, if_pos suspended]
  rfl

theorem suspendAccount_opened (opened : a.state = .opened) :
    suspendAccount account s =
      (let pass := revokeAccount account (s.writeAccount n { a with state := .suspended })
       (pass.1, .accepted [.num pass.2])) := by
  have running : ¬a.state = .suspended := by simp [opened]
  rw [suspendAccount, atAccount_found number found, if_neg running]
  rfl

theorem resumeAccount_found :
    resumeAccount account s = (s.writeAccount n { a with state := .opened }, .accepted []) :=
  atAccount_found number found

theorem clearBalance_changed {expected : Nat} (fits : expected ≤ 16777215) (differs : expected ≠ a.balance) :
    clearBalance account expected s = (s, .refused .changed [.num a.balance]) := by
  rw [clearBalance, if_neg (Nat.not_lt.mpr fits), atAccount_found number found, if_pos differs.symm]

theorem clearBalance_cleared (fits : a.balance ≤ 16777215) :
    clearBalance account a.balance s =
      ({ s with acct :=
          { s.acct with
            accounts := Table.put n { a with balance := 0, saturated := false } s.acct.accounts
            counters := { s.acct.counters with cleared := bump s.acct.counters.cleared } } },
        .accepted []) := by
  rw [clearBalance, if_neg (Nat.not_lt.mpr fits), atAccount_found number found, if_neg (not_not_intro rfl)]
  rfl

theorem closeAccount_onLoan (loans : 0 < a.openLoans) : closeAccount account s = (s, .refused .onLoan []) := by
  rw [closeAccount, atAccount_found number found, if_pos loans]
  rfl

section
variable (idle : a.openLoans = 0)
include idle

theorem closeAccount_owing (owing : 0 < pendingFor s account) : closeAccount account s = (s, .refused .pending []) := by
  simp [closeAccount, atAccount_found number found, idle, owing, refuse]

variable (settled : pendingFor s account = 0)
include settled

theorem closeAccount_held (gathering : batchFor s account = true) : closeAccount account s = (s, .refused .held []) := by
  simp [closeAccount, atAccount_found number found, idle, settled, gathering, refuse]

variable (none_open : batchFor s account = false)
include none_open

theorem closeAccount_balance (due : a.balance ≠ 0) : closeAccount account s = (s, .refused .balance []) := by
  simp [closeAccount, atAccount_found number found, idle, settled, none_open, due, refuse]

theorem closeAccount_closed (paid : a.balance = 0) :
    closeAccount account s =
      ({ s with acct :=
          { s.acct with
            accounts := Table.drop n s.acct.accounts
            counters := { s.acct.counters with closed := bump s.acct.counters.closed } } },
        .accepted [.num a.listening, .num a.posted]) := by
  simp [closeAccount, atAccount_found number found, idle, settled, none_open, paid, accept, countAcct, State.modAcct]

end
end

theorem clearBalance_range {account expected : Nat} {s : State} (out : 16777215 < expected) :
    clearBalance account expected s = (s, .refused .range []) :=
  if_pos out

theorem clearBalance_at {account expected : Nat} {s : State} (fits : expected ≤ 16777215) {code : RefusalCode}
    (refused : ∀ rule, atAccount account rule s = (s, .refused code [])) :
    clearBalance account expected s = (s, .refused code []) := by
  rw [clearBalance, if_neg (Nat.not_lt.mpr fits), refused]

theorem pendingFor_pos_iff {s : State} {account : Nat} :
    0 < pendingFor s account ↔
      ∃ e ∈ s.hire.receivers, e.2.state = .returnPending ∧ ∃ l, e.2.loan = some l ∧ l.account = account := by
  simp [pendingFor, List.countP_pos_iff, Option.any_eq_true]

theorem pendingFor_eq_zero {s : State} {account : Nat}
    (settled : ¬∃ e ∈ s.hire.receivers, e.2.state = .returnPending ∧ ∃ l, e.2.loan = some l ∧ l.account = account) :
    pendingFor s account = 0 :=
  Nat.eq_zero_of_not_pos fun owes => settled (pendingFor_pos_iff.mp owes)

theorem batchFor_iff {s : State} {account : Nat} :
    batchFor s account = true ↔ ∃ e ∈ s.hire.batches, e.2.account = account := by
  simp [batchFor]

theorem batchFor_eq_false {s : State} {account : Nat} (ungathered : ¬∃ e ∈ s.hire.batches, e.2.account = account) :
    batchFor s account = false :=
  Bool.eq_false_iff.mpr fun gathers => ungathered (batchFor_iff.mp gathers)

/-- Settles O45: each request by what its owner rules, in the order of the checks. -/
theorem Settled.accountRequests : Obligations.AccountRequests := by
  refine ⟨fun _ _ => rfl, fun h account s ha first last => ?_, fun h account s ha out => ?_,
    fun h account cls limit access s ha long => accountLoad_unfit ha long,
    fun h account n a s ha first last found => ?_⟩
  · have number : isAccount account = true := isAccount_iff.mpr ⟨first, last⟩
    intro u refused owing gathering
    refine ⟨fun missing => ?_, fun expected out => ?_, fun cls limit access short unfit => ?_,
      fun cls limit access cls7 limit1 limit2048 channels short => ?_,
      fun cls limit access cls7 limit1 limit2048 channels once short defined missing room => ?_, fun n a found => ?_⟩
    · have notFound := fun rule => atAccount_missing (rule := rule) (s := taken s) number missing
      exact ⟨request_of_admitted ha (notFound _), request_of_admitted ha (notFound _), request_of_admitted ha (notFound _),
        fun expected fits => request_of_admitted ha (clearBalance_at fits notFound)⟩
    · exact request_of_admitted ha (clearBalance_range out)
    · refine accountLoad_request ha short (accountLoad_range ?_)
      rw [← Bool.not_eq_true, accountLoadFits_iff]
      exact fun fits => unfit fits.2
    · have fits := accountLoadFits_iff.mpr ⟨number, cls7, limit1, limit2048, channels⟩
      refine ⟨fun twice => ?_, fun once undefined => ?_, fun once defined missing full => ?_⟩
      · exact accountLoad_request ha short (accountLoad_malformed fits twice)
      · exact accountLoad_request ha short (accountLoad_undefined fits once undefined)
      · have ruled := accountLoad_new (s := taken s) fits once defined missing
        exact accountLoad_request ha short (ruled.trans (createAccount_full full))
    · have fits := accountLoadFits_iff.mpr ⟨number, cls7, limit1, limit2048, channels⟩
      have ruled := accountLoad_new (s := taken s) fits once defined missing
      rw [← accessSet_eq]
      exact accountLoad_request ha short (ruled.trans (createAccount_room room))
    · refine ⟨fun cls limit access cls7 limit1 limit2048 channels once short defined => ?_, ?_, ?_, ?_, ?_, ?_, ?_, ?_, ?_⟩
      · have fits := accountLoadFits_iff.mpr ⟨number, cls7, limit1, limit2048, channels⟩
        have ruled := accountLoad_found (s := taken s) fits once defined found
        intro set changed
        have loaded : changed = u.writeAccount n (a.loaded cls limit access) := by
          rw [Account.loaded, accessSet_eq]
        rw [loaded]
        refine ⟨fun low => ?_, fun covers kept known => ?_, fun c covers held lost => ?_⟩
        · exact accountLoad_request ha short (ruled.trans (changeAccount_limit low))
        · exact accountLoad_request ha short
            (ruled.trans (changeAccount_kept covers (accessShrinks_of_kept kept known)))
        · have shrunk := changeAccount_shrunk (s := taken s) (n := n) (cls := cls) covers (accessShrinks_of_lost held lost)
          rw [number_of_accountByNumber found] at shrunk
          exact accountLoad_request ha short (ruled.trans shrunk)
      · exact request_of_admitted ha (resumeAccount_found number found)
      · exact fun expected fits differs => request_of_admitted ha
          (clearBalance_changed (s := taken s) number found fits differs)
      · by_cases fits : a.balance ≤ 16777215
        · rw [if_pos fits]
          exact request_of_admitted ha (clearBalance_cleared number found fits)
        · rw [if_neg fits]
          exact request_of_admitted ha (clearBalance_range (Nat.not_le.mp fits))
      · exact fun loans => request_of_admitted ha (closeAccount_onLoan number found loans)
      · exact fun idle owes => request_of_admitted ha
          (closeAccount_owing number found idle (pendingFor_pos_iff.mpr owes))
      · exact fun idle settled gathers => request_of_admitted ha
          (closeAccount_held number found idle (pendingFor_eq_zero settled) (batchFor_iff.mpr gathers))
      · exact fun idle settled ungathered due => request_of_admitted ha
          (closeAccount_balance number found idle (pendingFor_eq_zero settled) (batchFor_eq_false ungathered) due)
      · exact fun idle settled ungathered paid => request_of_admitted ha
          (closeAccount_closed number found idle (pendingFor_eq_zero settled) (batchFor_eq_false ungathered) paid)
  · have range := fun rule => atAccount_out (rule := rule) (s := taken s) out
    refine ⟨request_of_admitted ha (range _), request_of_admitted ha (range _), request_of_admitted ha (range _),
      fun expected => ?_, fun cls limit access short => accountLoad_request ha short (accountLoad_range ?_)⟩
    · obtain above | fits := Nat.lt_or_ge 16777215 expected
      · exact request_of_admitted ha (clearBalance_range above)
      · exact request_of_admitted ha (clearBalance_at fits range)
    · simp [accountLoadFits, out]
  · have number : isAccount account = true := isAccount_iff.mpr ⟨first, last⟩
    exact ⟨fun suspended => request_of_admitted ha (suspendAccount_suspended number found suspended),
      fun opened => request_of_admitted ha (suspendAccount_opened number found opened)⟩

end Sys2Proof.Machine

/-! The receiver table (R89 to R92), ISSUE (R98 to R100), loans over time (R108). -/

namespace Sys2Proof.Table

variable {α : Type}

theorem le_firstFree (t : Table α) (first : Nat) : first ≤ firstFree t first := by
  induction t generalizing first with
  | nil => exact Nat.le_refl first
  | cons e rest ih =>
    unfold firstFree
    split
    · exact Nat.le_of_succ_le (ih (first + 1))
    · exact Nat.le_refl first

/-- In a rising table whose keys start no lower, the lowest free number is free (R89). -/
theorem look_firstFree {t : Table α} (rises : rising t = true) {first : Nat} (above : ∀ e ∈ t, first ≤ e.1) :
    look t (firstFree t first) = none := by
  induction t generalizing first with
  | nil => rfl
  | cons e rest ih =>
    obtain ⟨j, w⟩ := e
    obtain ⟨later, rises⟩ := rising_cons.mp rises
    by_cases here : j = first
    · have past : j ≠ firstFree rest (first + 1) := by
        have := le_firstFree rest (first + 1)
        omega
      rw [firstFree, if_pos here, look, if_neg past]
      exact ih rises fun e mem => by
        have := later e mem
        omega
    · have least : first ≤ j := above _ (List.mem_cons_self ..)
      rw [firstFree, if_neg here]
      refine look_none_of_not_mem fun e mem => ?_
      obtain rfl | mem := List.mem_cons.mp mem
      · exact here
      · have := later e mem
        omega

theorem look_map {β : Type} (f : α → β) (t : Table α) (k : Nat) :
    look (t.map fun e => (e.1, f e.2)) k = (look t k).map f := by
  induction t with
  | nil => rfl
  | cons e rest ih =>
    obtain ⟨j, w⟩ := e
    simp only [List.map_cons, look, ih]
    split <;> rfl

end Sys2Proof.Table

namespace Sys2Proof.Machine

/-! ### Loans at a minute tick (R108) -/

theorem onLoan_iff {r : Receiver} : r.onLoan = true ↔ r.state = .issued ∨ r.state = .overdue := by
  simp [Receiver.onLoan]

theorem takeLoans_look {s : State} {slot : Nat} {r : Receiver} (listed : Table.look s.hire.receivers slot = some r) :
    Table.look (takeLoans s).hire.receivers slot = some (Receiver.minute s.mode r) := by
  show Table.look (s.hire.receivers.map fun e => (e.1, Receiver.minute s.mode e.2)) slot = _
  rw [Table.look_map, listed, Option.map_some]

theorem minute_of_loan {m : Mode} {r : Receiver} {l : Loan} (onLoan : r.onLoan = true) (loan : r.loan = some l) :
    Receiver.minute m r = { r with loan := some (Loan.minute m r l) } := by
  rw [Receiver.minute, if_pos onLoan, loan, Option.map_some]

theorem minute_of_returned {m : Mode} {r : Receiver} (returned : r.onLoan = false) : Receiver.minute m r = r :=
  if_neg (Bool.eq_false_iff.mp returned)

/-- Settles O10: the loan part of one receiver, by whether it is on loan. -/
theorem loanMinutesAccrue : Obligations.LoanMinutesAccrue := by
  intro s slot r listed
  refine ⟨fun l state loan => ?_, fun notIssued notOverdue => ?_, _, rfl⟩
  · rw [takeLoans_look listed, minute_of_loan (onLoan_iff.mpr state) loan]
    simp [Loan.minute]
  · have returned : r.onLoan = false := by simp [Receiver.onLoan, notIssued, notOverdue]
    rw [takeLoans_look listed, minute_of_returned returned]

/-! ### A request that names one receiver -/

theorem isSerial_iff {n : Nat} : isSerial n = true ↔ n ≤ 16777215 := by simp [isSerial, Config.serialMax]

section
variable {rule : Nat → Receiver → State → State × Answer} {serial : Nat} {s : State}

theorem atReceiver_missing (missing : s.receiverBySerial serial = none) :
    atReceiver serial rule s = (s, .refused .notFound []) := by
  rw [atReceiver, missing]
  rfl

theorem atReceiver_found {slot : Nat} {r : Receiver} (found : s.receiverBySerial serial = some (slot, r)) :
    atReceiver serial rule s = rule slot r s := by
  rw [atReceiver, found]

theorem atSerial_out (out : 16777215 < serial) : atSerial serial rule s = (s, .refused .range []) := by
  simp [atSerial, isSerial, Config.serialMax, out, refuse]

theorem atSerial_in (fits : serial ≤ 16777215) : atSerial serial rule s = atReceiver serial rule s := by
  simp [atSerial, isSerial_iff.mpr fits]

end

/-! ### ENROL (R89) -/

/-- A record that listens to nothing, written in a free slot, moves no listener count. -/
theorem writeReceiver_new {slot : Nat} {r : Receiver} {s : State} (free : Table.look s.hire.receivers slot = none)
    (quiet : r.listening = none) :
    writeReceiver slot r s = { s with hire := { s.hire with receivers := Table.put slot r s.hire.receivers } } := by
  rw [writeReceiver, free, quiet]
  rfl

section
variable {serial : Nat} {s : State}

theorem enrol_range (out : 16777215 < serial) : enrol serial s = (s, .refused .range []) := by
  simp [enrol, isSerial, Config.serialMax, out, refuse]

variable (fits : serial ≤ 16777215)
include fits

theorem enrol_duplicate (listed : (s.receiverBySerial serial).isSome = true) :
    enrol serial s = (s, .refused .duplicate []) := by
  simp [enrol, isSerial_iff.mpr fits, listed, refuse]

theorem enrol_full (new : s.receiverBySerial serial = none) (full : 2048 ≤ s.hire.receivers.length) :
    enrol serial s = (s, .refused .tableFull []) := by
  simp [enrol, isSerial_iff.mpr fits, new, Config.receivers, full, refuse]

theorem enrol_room (new : s.receiverBySerial serial = none) (room : s.hire.receivers.length < 2048)
    (free : Table.look s.hire.receivers (Table.firstFree s.hire.receivers 1) = none) :
    enrol serial s =
      ({ s with hire :=
          { s.hire with
            receivers := Table.put (Table.firstFree s.hire.receivers 1) { serial := serial } s.hire.receivers
            counters := { s.hire.counters with enrolments := bump s.hire.counters.enrolments } } },
        .accepted [.num (Table.firstFree s.hire.receivers 1)]) := by
  have blank : ({ serial := serial } : Receiver).listening = none := rfl
  simp [enrol, isSerial_iff.mpr fits, new, Config.receivers, Nat.not_le.mpr room, writeReceiver_new free blank, accept,
    countHire, State.modHire]

end

/-! ### WITHDRAW, REINSTATE and DELETE RECEIVER (R90 to R92) -/

/-- In every state but AVAILABLE and WITHDRAWN the code of R90 to R92 is that of a refused issue (R99). -/
theorem stateRefusal_of_away {x : ReceiverState} {code : RefusalCode}
    (away : (code = .onLoan ∧ (x = .issued ∨ x = .overdue)) ∨ (code = .held ∧ x = .held) ∨
      (code = .pending ∧ x = .returnPending) ∨ (code = .lost ∧ x = .lost)) :
    stateRefusal x = some code ∧ x ≠ .withdrawn := by
  obtain ⟨rfl, rfl | rfl⟩ | ⟨rfl, rfl⟩ | ⟨rfl, rfl⟩ | ⟨rfl, rfl⟩ := away
  all_goals exact ⟨rfl, by decide⟩

section
variable {serial slot : Nat} {r : Receiver} {s : State} (found : s.receiverBySerial serial = some (slot, r))
include found

theorem withdraw_available (state : r.state = .available) :
    withdraw serial s = (writeReceiver slot { r with state := .withdrawn } s, .accepted []) := by
  simp [withdraw, atReceiver_found found, state, accept]

theorem withdraw_withdrawn (state : r.state = .withdrawn) : withdraw serial s = (s, .accepted []) := by
  simp [withdraw, atReceiver_found found, state, accept]

theorem reinstate_available (state : r.state = .available) : reinstate serial s = (s, .accepted []) := by
  simp [reinstate, atReceiver_found found, state, accept]

theorem reinstate_withdrawn (state : r.state = .withdrawn) :
    reinstate serial s = (writeReceiver slot { r with state := .available } s, .accepted []) := by
  simp [reinstate, atReceiver_found found, state, accept]

theorem deleteReceiver_available (state : r.state = .available) :
    deleteReceiver serial s = (s, .refused .range []) := by
  simp [deleteReceiver, atReceiver_found found, state, refuse]

theorem deleteReceiver_withdrawn (state : r.state = .withdrawn) :
    deleteReceiver serial s =
      ({ s with hire :=
          { s.hire with
            receivers := Table.drop slot s.hire.receivers
            counters := { s.hire.counters with deletions := bump s.hire.counters.deletions } } },
        .accepted []) := by
  simp [deleteReceiver, atReceiver_found found, state, accept, countHire, State.modHire]

/-- Each of the three refuses a receiver that is neither AVAILABLE nor WITHDRAWN with the code of its state. -/
theorem receiverTable_refused {code : RefusalCode} (refusal : stateRefusal r.state = some code)
    (out : r.state ≠ .withdrawn) :
    withdraw serial s = (s, .refused code []) ∧ reinstate serial s = (s, .refused code []) ∧
      deleteReceiver serial s = (s, .refused code []) := by
  rw [withdraw, reinstate, deleteReceiver, atReceiver_found found, atReceiver_found found, atReceiver_found found]
  cases state : r.state with
  | available => simp [state, stateRefusal] at refusal
  | withdrawn => exact absurd state out
  | issued | overdue | held | returnPending | lost =>
    obtain rfl : _ = code := by simpa [state, stateRefusal] using refusal
    exact ⟨rfl, rfl, rfl⟩

end

/-- Settles O37: ENROL in the order of its checks, then the three requests at a receiver by its state. -/
theorem theReceiverTable : Obligations.TheReceiverTable := by
  refine ⟨fun h serial s ha => ⟨fun out => ?_, fun fits listed => ?_, fun fits new full => ?_,
    fun fits new room rises first => ?_⟩, fun h serial s ha => ⟨fun missing => ?_, fun slot r found => ?_⟩⟩
  · exact request_of_admitted ha (enrol_range out)
  · exact request_of_admitted ha (enrol_duplicate (s := taken s) fits listed)
  · exact request_of_admitted ha (enrol_full (s := taken s) fits new full)
  · have free := Table.look_firstFree rises first
    exact ⟨request_of_admitted ha (enrol_room (s := taken s) fits new room free), free⟩
  · have notFound := fun rule => atReceiver_missing (rule := rule) (s := taken s) missing
    exact ⟨request_of_admitted ha (notFound _), request_of_admitted ha (notFound _), request_of_admitted ha (notFound _)⟩
  · have listed : (taken s).receiverBySerial serial = some (slot, r) := found
    refine ⟨fun state => ⟨?_, ?_, ?_⟩, fun state => ⟨?_, ?_, ?_⟩, fun code away => ?_⟩
    · exact request_of_admitted ha (withdraw_available listed state)
    · exact request_of_admitted ha (reinstate_available listed state)
    · exact request_of_admitted ha (deleteReceiver_available listed state)
    · exact request_of_admitted ha (withdraw_withdrawn listed state)
    · exact request_of_admitted ha (reinstate_withdrawn listed state)
    · exact request_of_admitted ha (deleteReceiver_withdrawn listed state)
    · obtain ⟨refusal, out⟩ := stateRefusal_of_away away
      obtain ⟨withdrawn, reinstated, deleted⟩ := receiverTable_refused listed refusal out
      exact ⟨request_of_admitted ha withdrawn, request_of_admitted ha reinstated, request_of_admitted ha deleted⟩

/-! ### ISSUE: the checks (R98, R99, R135) -/

section
variable {threshold slot : Nat} {r : Receiver}

theorem receiverRefusal_of_state {code : RefusalCode} (refusal : stateRefusal r.state = some code) :
    receiverRefusal threshold (some (slot, r)) = some code := by
  simp [receiverRefusal, refusal]

variable (available : r.state = .available)
include available

theorem receiverRefusal_battery {b : Nat} (level : r.battery = some b) (low : b < threshold) :
    receiverRefusal threshold (some (slot, r)) = some .battery := by
  simp [receiverRefusal, available, stateRefusal, batteryLow, level, low]

theorem receiverRefusal_none (charged : ∀ b, r.battery = some b → threshold ≤ b) :
    receiverRefusal threshold (some (slot, r)) = none := by
  have enough : batteryLow threshold r = false := by simpa [batteryLow, Option.any_eq_false] using charged
  simp [receiverRefusal, available, stateRefusal, enough]

end

section
variable {s : State} {account : Nat}

theorem openRefusal_missing (missing : s.accountByNumber account = none) : openRefusal s account = some .notFound := by
  simp [openRefusal, missing]

variable {n : Nat} {a : Account} (found : s.accountByNumber account = some (n, a))
include found

theorem openRefusal_suspended (suspended : a.state = .suspended) : openRefusal s account = some .accountState := by
  simp [openRefusal, found, suspended]

theorem openRefusal_limit (opened : a.state = .opened) (atLimit : a.openLoans = a.loanLimit) :
    openRefusal s account = some .limit := by
  simp [openRefusal, found, opened, atLimit]

theorem openRefusal_none (opened : a.state = .opened) (below : a.openLoans ≠ a.loanLimit) :
    openRefusal s account = none := by
  simp [openRefusal, found, opened, below]

/-- The account's open-loan count and the loan number counter move on (R134, R135). -/
theorem openLoan_found :
    openLoan account s =
      { s with acct :=
        { s.acct with
          nextLoan := if s.acct.nextLoan < 4294967295 then s.acct.nextLoan + 1 else 1
          accounts := Table.put n { a with openLoans := a.openLoans + 1 } s.acct.accounts } } := by
  rw [openLoan, found]
  rfl

theorem newLoan_found :
    newLoan s account =
      { number := s.acct.nextLoan, account := account, cls := a.cls, issueClock := s.now
        issueMinute := s.time.sessionMinute } := by
  rw [newLoan, classOf, found]

end

/-! ### ISSUE (R99, R100) -/

section
variable {serial account : Nat} {s : State}

theorem issue_range (out : ¬(serial ≤ 16777215 ∧ 1 ≤ account ∧ account ≤ 65535)) :
    issue serial account s = refuseIssue .range s := by
  rw [← isSerial_iff, ← isAccount_iff, not_and_or, Bool.not_eq_true, Bool.not_eq_true] at out
  obtain out | out := out <;> simp [issue, out]

variable (fits : isSerial serial = true) (number : isAccount account = true)
include fits number

theorem issue_setup (setup : s.mode = .setup) : issue serial account s = refuseIssue .mode s := by
  simp [issue, fits, number, setup]

variable (air : s.mode ≠ .setup)
include air

theorem issue_receiver_refused {code : RefusalCode}
    (refusal : receiverRefusal s.params.issueThreshold (s.receiverBySerial serial) = some code) :
    issue serial account s = refuseIssue code s := by
  simp [issue, fits, number, air, refusal]

theorem issue_missing (missing : s.receiverBySerial serial = none) :
    issue serial account s = refuseIssue .notFound s :=
  issue_receiver_refused fits number air (by rw [missing]; rfl)

variable {slot : Nat} {r : Receiver} (found : s.receiverBySerial serial = some (slot, r))
include found

theorem issue_state_refused {code : RefusalCode} (refusal : stateRefusal r.state = some code) :
    issue serial account s = refuseIssue code s :=
  issue_receiver_refused fits number air (by rw [found, receiverRefusal_of_state refusal])

theorem issue_battery {b : Nat} (available : r.state = .available) (level : r.battery = some b)
    (low : b < s.params.issueThreshold) : issue serial account s = refuseIssue .battery s :=
  issue_receiver_refused fits number air (by rw [found, receiverRefusal_battery available level low])

variable (available : r.state = .available) (charged : ∀ b, r.battery = some b → s.params.issueThreshold ≤ b)
include available charged

theorem issue_account_refused {code : RefusalCode} (refusal : openRefusal s account = some code) :
    issue serial account s = refuseIssue code s := by
  simp [issue, fits, number, air, found, receiverRefusal_none available charged, refusal]

theorem issue_accepted (passes : openRefusal s account = none) :
    issue serial account s = (issueReceiver slot r account s, .accepted [.num s.acct.nextLoan]) := by
  simp [issue, fits, number, air, found, receiverRefusal_none available charged, passes, accept]

end

/-- The record, the loan and the account that an issue writes (R100, R134, R135). -/
theorem issueReceiver_found {account slot n : Nat} {r : Receiver} {a : Account} {s : State}
    (found : s.accountByNumber account = some (n, a)) :
    issueReceiver slot r account s =
      countHire (fun k => { k with issues := bump k.issues })
        (writeReceiver slot
          { r with
            state := .issued, batch := none
            loan := some
              { number := s.acct.nextLoan, account := account, cls := a.cls, issueClock := s.now
                issueMinute := s.time.sessionMinute } }
          { s with acct :=
            { s.acct with
              nextLoan := if s.acct.nextLoan < 4294967295 then s.acct.nextLoan + 1 else 1
              accounts := Table.put n { a with openLoans := a.openLoans + 1 } s.acct.accounts } }) := by
  rw [issueReceiver, newLoan_found found, openLoan_found found]

/-- Settles O39: the checks of ISSUE in their order, then the loan that it opens. -/
theorem issueOpensALoan : Obligations.IssueOpensALoan := by
  intro h serial account s ha refused inRange
  have refused_of : ∀ {code}, issue serial account (taken s) = refuseIssue code (taken s) → refused code :=
    fun ruled => request_of_admitted ha ruled
  refine ⟨fun out => refused_of (issue_range out), fun ⟨fits, number⟩ setup => ?_, fun ⟨fits, number⟩ air missing => ?_,
    fun slot r ⟨fits, number⟩ air found => ?_⟩
  all_goals
    have fits : isSerial serial = true := isSerial_iff.mpr fits
    have number : isAccount account = true := isAccount_iff.mpr number
  · exact refused_of (issue_setup fits number setup)
  · exact refused_of (issue_missing (s := taken s) fits number air missing)
  have byState : ∀ {code}, stateRefusal r.state = some code → refused code :=
    fun refusal => refused_of (issue_state_refused (s := taken s) fits number air found refusal)
  refine ⟨fun state => byState ?_, fun state => byState ?_, fun state => byState ?_, fun state => byState ?_,
    fun state => byState ?_, fun b available level low => ?_, fun available charged => ?_⟩
  · obtain state | state := state
    all_goals rw [state]; rfl
  · rw [state]; rfl
  · rw [state]; rfl
  · rw [state]; rfl
  · rw [state]; rfl
  · exact refused_of (issue_battery (s := taken s) fits number air found available level low)
  have byAccount : ∀ {code}, openRefusal (taken s) account = some code → refused code :=
    fun refusal => refused_of (issue_account_refused (s := taken s) fits number air found available charged refusal)
  refine ⟨fun missing => byAccount (openRefusal_missing missing), fun n a listed => ?_⟩
  have known : (taken s).accountByNumber account = some (n, a) := listed
  refine ⟨fun suspended => byAccount (openRefusal_suspended known suspended),
    fun opened limit => byAccount (openRefusal_limit known opened limit), fun opened below => ?_⟩
  have issued := issue_accepted (s := taken s) fits number air found available charged (openRefusal_none known opened below)
  rw [issueReceiver_found known] at issued
  exact request_of_admitted ha issued

end Sys2Proof.Machine

/-! How a loan closes: RETURN and DECLARE LOST (R101 to R105, R136), and the rack messages (R93 to R97). -/

namespace Sys2Proof.Machine

/-! ### A closure is posted or goes pending (R101, R136) -/

theorem statementRoom_iff {s : State} : statementRoom s = true ↔ s.acct.statements.length < 512 := by
  simp [statementRoom, Config.statements]

theorem statementRoom_eq_false {s : State} (full : 512 ≤ s.acct.statements.length) : statementRoom s = false := by
  rw [← Bool.not_eq_true, statementRoom_iff, Nat.not_lt]
  exact full

section
variable {slot : Nat} {r : Receiver} {loan : Loan} {kind : StatementKind} {s : State}

theorem settleClosure_room (room : s.acct.statements.length < 512) :
    settleClosure slot r loan kind s =
      writeReceiver slot { r with loan := none, state := .available }
        (postStatement
          (statementOf kind loan r.serial s.now (amountOf (s.tariff loan.cls) kind loan.chargeable loan.overdue)) s) :=
  if_pos (statementRoom_iff.mpr room)

theorem settleClosure_full (full : 512 ≤ s.acct.statements.length) :
    settleClosure slot r loan kind s =
      makePending slot r kind (amountOf (s.tariff loan.cls) kind loan.chargeable loan.overdue) s :=
  if_neg (Bool.eq_false_iff.mp (statementRoom_eq_false full))

end

/-! ### A loan ends as RETURNED or LOST (R101, R103) -/

theorem endLoan_found {account n : Nat} {a : Account} {s : State} (found : s.accountByNumber account = some (n, a)) :
    endLoan account s = s.writeAccount n { a with openLoans := a.openLoans - 1 } := by
  rw [endLoan, found]

@[simp] theorem writeReceiver_accountByNumber (slot : Nat) (r : Receiver) (s : State) (account : Nat) :
    (writeReceiver slot r s).accountByNumber account = s.accountByNumber account := by
  simp [State.accountByNumber]

@[simp] theorem writeReceiver_tariff (slot : Nat) (r : Receiver) (s : State) (cls : Nat) :
    (writeReceiver slot r s).tariff cls = s.tariff cls := by
  simp [State.tariff]

@[simp] theorem writeReceiver_now (slot : Nat) (r : Receiver) (s : State) : (writeReceiver slot r s).now = s.now := by
  simp [State.now]

/-- A receiver that comes back stops listening, and its account has one open loan fewer (R101 steps 1 and 2). -/
def loanEnded (slot : Nat) (r : Receiver) (n : Nat) (a : Account) (s : State) : State :=
  (writeReceiver slot { r with channel := none } s).writeAccount n { a with openLoans := a.openLoans - 1 }

@[simp] theorem loanEnded_tariff (slot n : Nat) (r : Receiver) (a : Account) (s : State) (cls : Nat) :
    (loanEnded slot r n a s).tariff cls = s.tariff cls :=
  writeReceiver_tariff ..

@[simp] theorem loanEnded_now (slot n : Nat) (r : Receiver) (a : Account) (s : State) :
    (loanEnded slot r n a s).now = s.now :=
  writeReceiver_now ..

@[simp] theorem loanEnded_statements (slot n : Nat) (r : Receiver) (a : Account) (s : State) :
    (loanEnded slot r n a s).acct.statements = s.acct.statements := by
  simp [loanEnded, State.writeAccount]

section
variable {slot n : Nat} {r : Receiver} {loan : Loan} {a : Account} {s : State}
  (account : s.accountByNumber loan.account = some (n, a))
include account

theorem closeReturned_eq :
    closeReturned slot r loan s =
      settleClosure slot { r with channel := none } loan .returned (loanEnded slot r n a s) := by
  rw [closeReturned, endLoan_found ((writeReceiver_accountByNumber ..).trans account), loanEnded]

theorem closeReturned_room (room : s.acct.statements.length < 512) :
    closeReturned slot r loan s =
      writeReceiver slot { r with channel := none, loan := none, state := .available }
        (postStatement
          (statementOf .returned loan r.serial s.now
            (amountOf (s.tariff loan.cls) .returned loan.chargeable loan.overdue))
          (loanEnded slot r n a s)) := by
  rw [closeReturned_eq account, settleClosure_room (by simpa using room), loanEnded_tariff, loanEnded_now]

theorem closeReturned_full (full : 512 ≤ s.acct.statements.length) :
    closeReturned slot r loan s =
      makePending slot { r with channel := none } .returned
        (amountOf (s.tariff loan.cls) .returned loan.chargeable loan.overdue) (loanEnded slot r n a s) := by
  rw [closeReturned_eq account, settleClosure_full (by simpa using full), loanEnded_tariff]

theorem closeLost_found :
    closeLost slot r loan s =
      countHire (fun k => { k with losses := bump k.losses })
        (writeReceiver slot { r with channel := none, state := .lost }
          (postStatement
            (statementOf .lost loan r.serial s.now (amountOf (s.tariff loan.cls) .lost loan.chargeable loan.overdue))
            (s.writeAccount n { a with openLoans := a.openLoans - 1 }))) := by
  rw [closeLost, endLoan_found account]
  rfl

end

/-- The closure that waits: RETURN_PENDING with its pending part, at the tail of the list, counted by both units (R101
step 4). -/
theorem makePending_eq (slot : Nat) (r : Receiver) (kind : StatementKind) (amount : Nat) (s : State) :
    makePending slot r kind amount s =
      (let w := writeReceiver slot { r with state := .returnPending, pend := some ⟨kind, s.now, amount⟩ } s
       { w with
         hire :=
           { w.hire with
             pendingList := w.hire.pendingList ++ [slot]
             counters := { w.hire.counters with pendingReturns := bump w.hire.counters.pendingReturns } }
         acct :=
           { w.acct with
             counters := { w.acct.counters with pendingClosures := bump w.acct.counters.pendingClosures } } }) :=
  rfl

/-! ### RETURN and DECLARE LOST at a receiver (R102, R103) -/

section
variable {serial slot : Nat} {r : Receiver} {s : State} (fits : serial ≤ 16777215)
  (found : s.receiverBySerial serial = some (slot, r))
include fits found

/-- Off loan both are refused by the receiver's state. -/
theorem closures_refused (returned : r.onLoan = false) :
    returnReceiver serial s = (s, .refused (notOnLoanRefusal r.state) []) ∧
      declareLost serial s = (s, .refused (notOnLoanRefusal r.state) []) := by
  simp [returnReceiver, declareLost, atSerial_in fits, atReceiver_found found, returned, refuse]

variable (onLoan : r.onLoan = true) {l : Loan} (loan : r.loan = some l)
include onLoan loan

theorem returnReceiver_onLoan :
    returnReceiver serial s =
      (countHire (fun k => { k with deskReturns := bump k.deskReturns }) (closeReturned slot r l s),
        .accepted
          [.num l.number, .num (amountOf (s.tariff l.cls) .returned l.chargeable l.overdue), .flag (statementRoom s)]) := by
  simp [returnReceiver, atSerial_in fits, atReceiver_found found, onLoan, loan, accept, closureAmount]

theorem declareLost_room (room : s.acct.statements.length < 512) :
    declareLost serial s =
      (closeLost slot r l s,
        .accepted [.num l.number, .num (amountOf (s.tariff l.cls) .lost l.chargeable l.overdue)]) := by
  simp [declareLost, atSerial_in fits, atReceiver_found found, onLoan, loan, statementRoom_iff.mpr room, accept,
    closureAmount]

theorem declareLost_full (full : 512 ≤ s.acct.statements.length) :
    declareLost serial s =
      (countAcct (fun k => { k with lostRefused := bump k.lostRefused }) s, .refused .queueFull []) := by
  simp [declareLost, atSerial_in fits, atReceiver_found found, onLoan, loan, statementRoom_eq_false full, refuse]

end

/-- Settles O40: the refusals of RETURN and DECLARE LOST, then a loan that is closed, with room in the statement queue and
without. -/
theorem loansAreClosed : Obligations.LoansAreClosed := by
  refine ⟨fun h serial s ha => ?_, fun h serial slot n r l a s ha fits found onLoan loan account => ?_⟩
  · intro refused
    refine ⟨fun out => ?_, fun fits missing => ?_, fun slot r fits found => ?_⟩
    · exact ⟨request_of_admitted ha (atSerial_out out), request_of_admitted ha (atSerial_out out)⟩
    · have notFound := fun rule => (atSerial_in (rule := rule) fits).trans (atReceiver_missing (s := taken s) missing)
      exact ⟨request_of_admitted ha (notFound _), request_of_admitted ha (notFound _)⟩
    · have byState : r.onLoan = false → refused (notOnLoanRefusal r.state) := fun returned =>
        have ⟨return_refused, lost_refused⟩ := closures_refused (s := taken s) fits found returned
        ⟨request_of_admitted ha return_refused, request_of_admitted ha lost_refused⟩
      have offLoan : r.state ≠ .issued → r.state ≠ .overdue → r.onLoan = false := fun notIssued notOverdue => by
        simp [Receiver.onLoan, notIssued, notOverdue]
      refine ⟨?_, ?_, ?_, ?_, ?_⟩
      all_goals
        intro state
        rw [state] at byState offLoan
        exact byState (offLoan (by decide) (by decide))
  · intro u ended quiet due lost waiting
    have known : u.receiverBySerial serial = some (slot, r) := found
    have listed : u.accountByNumber l.account = some (n, a) := account
    have returned := returnReceiver_onLoan fits known onLoan loan
    refine ⟨fun (room : u.acct.statements.length < 512) => ⟨?_, ?_⟩,
      fun (full : 512 ≤ u.acct.statements.length) => ⟨?_, ?_⟩⟩
    · rw [closeReturned_room listed room, statementRoom_iff.mpr room] at returned
      exact request_of_admitted ha returned
    · have closed := declareLost_room fits known onLoan loan room
      rw [closeLost_found listed] at closed
      exact request_of_admitted ha closed
    · rw [closeReturned_full listed full, statementRoom_eq_false full, makePending_eq, loanEnded_now] at returned
      exact request_of_admitted ha returned
    · exact request_of_admitted ha (declareLost_full fits known onLoan loan full)

/-! ### A rack message that is malformed, or of an unknown serial (R93) -/

theorem isRackSlot_iff {n : Nat} : isRackSlot n = true ↔ ¬(n < 1 ∨ 32 < n) := by
  simp [isRackSlot, within, Nat.one_le_iff_ne_zero]

theorem isBattery_iff {n : Nat} : isBattery n = true ↔ n ≤ 15 := by simp [isBattery]

section
variable {h : Header} {s : State} (ha : fromRack h s) {fits : Bool} {serial : Nat} {rule : Nat → Receiver → State → State}
include ha

theorem rackMessage_malformed (bad : fits = false ∨ isSerial serial = false) :
    serveRack h (takeRack fits serial rule) s =
      countHire (fun k => { k with rackMalformed := bump k.rackMalformed }) (rackTaken s) := by
  rw [serveRack_of_fromRack ha]
  exact if_pos (by simpa using bad)

variable (sound : fits = true) (number : isSerial serial = true)
include sound number

theorem rackMessage_unknown (unknown : s.receiverBySerial serial = none) :
    serveRack h (takeRack fits serial rule) s =
      setFlag .unknownReceiver (countHire (fun k => { k with rackUnknown := bump k.rackUnknown }) (rackTaken s)) := by
  have missing : (rackTaken s).receiverBySerial serial = none := unknown
  rw [rackTaken] at missing ⊢
  simp [serveRack_of_fromRack ha, takeRack, sound, number, missing]

theorem rackMessage_known {slot : Nat} {r : Receiver} (found : s.receiverBySerial serial = some (slot, r)) :
    serveRack h (takeRack fits serial rule) s = rule slot r (rackTaken s) := by
  have listed : (rackTaken s).receiverBySerial serial = some (slot, r) := found
  rw [rackTaken] at listed ⊢
  simp [serveRack_of_fromRack ha, takeRack, sound, number, listed]

end

/-! ### A rack position that another receiver holds (R95) -/

/-- The one entry of a list that satisfies a test is what a search for it finds. -/
theorem find?_eq_some_of_unique {α : Type} {p : α → Bool} {l : List α} {a : α} (mem : a ∈ l) (fits : p a = true)
    (unique : ∀ b ∈ l, p b = true → b = a) : l.find? p = some a := by
  cases found : l.find? p with
  | none => exact absurd fits (List.find?_eq_none.mp found a mem)
  | some b => rw [unique b (List.mem_of_find?_eq_some found) (List.find?_some found)]

section
variable {slot : Nat} {position : Nat × Nat} {s : State}

theorem clearPosition_free (free : ∀ e ∈ s.hire.receivers, e.1 ≠ slot → e.2.rack ≠ some position) :
    clearPosition slot position s = s := by
  have nobody : otherAt s slot position = none := by simpa [otherAt] using free
  rw [clearPosition, nobody]

theorem clearPosition_taken {n : Nat} {other : Receiver} (mem : (n, other) ∈ s.hire.receivers) (apart : n ≠ slot)
    (there : other.rack = some position)
    (alone : ∀ e ∈ s.hire.receivers, e.1 ≠ slot → e.2.rack = some position → e = (n, other)) :
    clearPosition slot position s =
      countHire (fun k => { k with rackCollisions := bump k.rackCollisions })
        (writeReceiver n { other with rack := none } s) := by
  have holder : otherAt s slot position = some (n, other) :=
    find?_eq_some_of_unique mem (by simp [apart, there]) fun e listed holds => by
      obtain ⟨elsewhere, holder⟩ : e.1 ≠ slot ∧ e.2.rack = some position := by simpa using holds
      exact alone e listed elsewhere holder
  rw [clearPosition, holder]

end

/-! ### DOCKED for a known receiver (R94, R101, R104) -/

/-- The record of a receiver that stands at a rack position with a battery level. -/
def Receiver.placed (station rackSlot battery : Nat) (r : Receiver) : Receiver :=
  { r with rack := some (station, rackSlot), battery := some battery }

/-- Position and battery are recorded, after any other receiver at the position has lost it (R94, R95). -/
def recordDock (station rackSlot battery slot : Nat) (r : Receiver) (s : State) : State :=
  writeReceiver slot (r.placed station rackSlot battery) (clearPosition slot (station, rackSlot) s)

section
variable {station rackSlot battery slot : Nat} {r : Receiver} {s : State}

theorem dock_plain (returned : r.onLoan = false) (found : r.state ≠ .lost) :
    dock station rackSlot battery slot r s = recordDock station rackSlot battery slot r s := by
  cases state : r.state with
  | issued | overdue => simp [Receiver.onLoan, state] at returned
  | lost => exact absurd state found
  | available | held | returnPending | withdrawn => simp [dock, recordDock, Receiver.placed, state]

variable {l : Loan} (loan : r.loan = some l)
include loan

theorem dock_onLoan (onLoan : r.onLoan = true) :
    dock station rackSlot battery slot r s =
      countHire (fun k => { k with dockedReturns := bump k.dockedReturns })
        (closeReturned slot (r.placed station rackSlot battery) l (recordDock station rackSlot battery slot r s)) := by
  obtain state | state := onLoan_iff.mp onLoan
  all_goals simp [dock, recordDock, Receiver.placed, state, loan]

theorem dock_lost (lost : r.state = .lost) :
    dock station rackSlot battery slot r s =
      recover slot (r.placed station rackSlot battery) l (recordDock station rackSlot battery slot r s) := by
  simp [dock, recordDock, Receiver.placed, lost, loan]

end

/-! ### Rack messages at their receiver (R93 to R97) -/

/-- Settles O41: the messages that are only counted, the rack position, the closures with room and without, then the three
messages at a known receiver. -/
theorem rackMessages : Obligations.RackMessages := by
  refine ⟨fun h serial rackSlot battery s ha => ?_,
    fun slot position s => ⟨clearPosition_free, fun n other => clearPosition_taken⟩,
    fun slot n r l a s => ?_, fun h serial rackSlot battery slot r s ha fits first last level found => ?_⟩
  · have wrongSlot : ∀ {n}, n < 1 ∨ 32 < n → isRackSlot n = false := fun out => by
      rw [← Bool.not_eq_true, isRackSlot_iff]
      exact not_not_intro out
    have wrongBattery : ∀ {n}, 15 < n → isBattery n = false := fun out => by
      rw [← Bool.not_eq_true, isBattery_iff]
      exact Nat.not_le.mpr out
    have wrongSerial : ∀ {n}, 16777215 < n → isSerial n = false := fun out => by
      rw [← Bool.not_eq_true, isSerial_iff]
      exact Nat.not_le.mpr out
    intro u malformed unknown badSlot
    refine ⟨fun bad => ?_, fun bad => ?_, fun bad => ?_, fun fits missing => ?_⟩
    · refine congrArg Host.Outcome.next (rackMessage_malformed ha ?_)
      rw [Bool.and_eq_false_iff, or_assoc]
      exact bad.imp wrongSlot (Or.imp wrongBattery wrongSerial)
    · exact congrArg Host.Outcome.next (rackMessage_malformed ha (bad.imp wrongSlot wrongSerial))
    · exact congrArg Host.Outcome.next (rackMessage_malformed ha (bad.imp wrongBattery wrongSerial))
    · have number : isSerial serial = true := isSerial_iff.mpr fits
      refine ⟨fun slot level => ?_, fun slot => ?_, fun level => ?_⟩
      · have sound := Bool.and_eq_true_iff.mpr ⟨isRackSlot_iff.mpr slot, isBattery_iff.mpr level⟩
        exact congrArg Host.Outcome.next (rackMessage_unknown ha sound number missing)
      · exact congrArg Host.Outcome.next (rackMessage_unknown ha (isRackSlot_iff.mpr slot) number missing)
      · exact congrArg Host.Outcome.next (rackMessage_unknown ha (isBattery_iff.mpr level) number missing)
  · intro pended due credit recovered
    refine ⟨fun room => congrArg recovered (settleClosure_room room),
      fun full => congrArg recovered (settleClosure_full full),
      fun account => ⟨closeReturned_room account, fun full => ?_⟩⟩
    rw [closeReturned_full account full, makePending_eq, loanEnded_now]
    rfl
  · have number : isSerial serial = true := isSerial_iff.mpr fits
    have slotFits : isRackSlot rackSlot = true := isRackSlot_iff.mpr (by omega)
    have batteryFits : isBattery battery = true := isBattery_iff.mpr level
    intro u placed docked
    have docks : exec (.docked h serial rackSlot battery) s = .next (dock h.station rackSlot battery slot r u) :=
      congrArg Host.Outcome.next
        (rackMessage_known ha (Bool.and_eq_true_iff.mpr ⟨slotFits, batteryFits⟩) number found)
    have undocks : exec (.undocked h serial rackSlot) s = .next (undock slot r u) :=
      congrArg Host.Outcome.next (rackMessage_known ha slotFits number found)
    refine ⟨fun returned home => ?_, fun l onLoan loan => ?_, fun l lost loan => ?_, fun away => ?_, fun home => ?_, ?_⟩
    · rw [docks, dock_plain returned home]
      rfl
    · rw [docks, dock_onLoan loan onLoan]
      rfl
    · rw [docks, dock_lost loan lost]
      rfl
    · rw [undocks, undock, if_neg away]
    · rw [undocks, undock, if_pos home]
    · exact congrArg Host.Outcome.next (rackMessage_known ha batteryFits number found)

end Sys2Proof.Machine

/-! The alarms: when one matches (R170), what it does with mains present and during a mains loss (R170, R174), and the two effects
(R107, R171, R172). -/

namespace Sys2Proof.Machine

/-! ### When an alarm matches (R170) -/

theorem armed_iff {a : Alarm} : a.armed = true ↔ a.dayOn = true ∨ a.hourOn = true ∨ a.minuteOn = true := by
  simp [Alarm.armed, or_assoc]

theorem equals_iff {a : Alarm} {c : Clock} :
    a.equals c = true ↔
      (a.dayOn = true → a.day = c.day) ∧ (a.hourOn = true → a.hour = c.hour) ∧
        (a.minuteOn = true → a.minute = c.minute) := by
  simp [Alarm.equals, imp_iff_not_or, and_assoc]

theorem alarmMatches_iff {name : AlarmName} {s : State} :
    alarmMatches name s = true ↔
      s.time.valid = true ∧ (alarmOf s name).armed = true ∧ (alarmOf s name).equals s.now = true := by
  simp [alarmMatches, and_assoc]

/-! ### Alarms on backup (R174) -/

/-- An alarm record after its evaluation on backup: a match waits with its effect. -/
def Alarm.evaluated (hit : Bool) (now : Clock) (a : Alarm) : Alarm :=
  if hit then { a with matched := true, lastMatch := some now, pendingEffect := true } else a

/-- The time base after the evaluation of both alarms on backup. -/
def TimeBase.evaluated (hitReturnBy hitSessionClose : Bool) (t : TimeBase) : TimeBase :=
  { t with
    returnBy := t.returnBy.evaluated hitReturnBy t.clock
    sessionClose := t.sessionClose.evaluated hitSessionClose t.clock
    counters :=
      { t.counters with
        backupMatches :=
          Nat.repeat bump ((if hitReturnBy then 1 else 0) + (if hitSessionClose then 1 else 0))
            t.counters.backupMatches } }

/-- The evaluation of RETURN_BY touches nothing that SESSION_CLOSE is matched by. -/
theorem backupAlarm_sessionClose_matches (s : State) :
    alarmMatches .sessionClose (backupAlarm s .returnBy) = alarmMatches .sessionClose s := by
  unfold backupAlarm
  split <;> rfl

theorem backupAlarms_eq (s : State) :
    [AlarmName.returnBy, .sessionClose].foldl backupAlarm s =
      { s with
        time := TimeBase.evaluated (alarmMatches .returnBy s) (alarmMatches .sessionClose s) s.time } := by
  show backupAlarm (backupAlarm s .returnBy) .sessionClose = _
  rw [backupAlarm, backupAlarm_sessionClose_matches, backupAlarm]
  cases alarmMatches .returnBy s with
  | false => cases alarmMatches .sessionClose s with
    | false => rfl
    | true => rfl
  | true => cases alarmMatches .sessionClose s with
    | false => rfl
    | true => rfl

/-! ### The second of the backup cell (R163, R174) -/

/-- The advance of the clock changes the clock and whether it is VALID. -/
theorem advanceClock_time (s : State) :
    (advanceClock s).time = { s.time with clock := (advanceClock s).now, valid := (advanceClock s).time.valid } := by
  unfold advanceClock State.modTime State.now
  dsimp only
  split <;> rfl

theorem advanceClock_phase (n : Nat) (s : State) :
    advanceClock (s.modTime fun b => { b with phase := n }) = (advanceClock s).modTime fun b => { b with phase := n } := by
  unfold advanceClock State.modTime
  dsimp only
  split <;> rfl

theorem backupSecond_eq (s : State) :
    backupSecond s =
      { s with
        time :=
          TimeBase.evaluated (decide (59 ≤ s.now.second) && alarmMatches .returnBy (advanceClock s))
            (decide (59 ≤ s.now.second) && alarmMatches .sessionClose (advanceClock s))
            { (advanceClock s).time with phase := 0 } } := by
  unfold backupSecond rollsOver
  dsimp only
  rw [advanceClock_phase, backupAlarms_eq]
  cases decide (59 ≤ s.now.second) with
  | false => rfl
  | true => rfl

theorem exec_backupSecond {s : State} (lost : s.supply.mainsLost = true) :
    exec .backupSecond s = .next (backupSecond s) :=
  congrArg Host.Outcome.next (if_pos lost)

/-! ### An alarm that matches with mains present (R170) -/

theorem exec_alarmMatch {name : AlarmName} {s : State} (present : s.supply.mainsLost = false)
    (hit : alarmMatches name s = true) : exec (.alarmMatch name) s = .next (takeEffect name (recordMatch name s)) := by
  refine congrArg Host.Outcome.next ((whileMains_present _ present).trans ?_)
  rw [if_pos hit]

/-! ### The effects (R107, R171, R172) -/

theorem takeReturnBy_eq (s : State) :
    takeReturnBy s =
      { s with hire :=
        { s.hire with
          receivers := s.hire.receivers.map fun e =>
            (e.1, if e.2.state = .issued then { e.2 with state := .overdue } else e.2)
          counters :=
            { s.hire.counters with
              overdueReceivers :=
                min (s.hire.counters.overdueReceivers + s.hire.receivers.countP fun e => decide (e.2.state = .issued))
                  4294967295 } } } :=
  rfl

theorem takeSessionClose_eq (s : State) :
    takeSessionClose s =
      if s.mode = .session then
        { s with supply :=
          { s.supply with
            mode := .rehearsal
            counters := { s.supply.counters with modeChanges := bump s.supply.counters.modeChanges } } }
      else s :=
  rfl

/-- Settles O14: the condition of a match, the two records, a second on backup, a match with mains present, and the
effects. -/
theorem alarmsMatchAndTakeEffect : Obligations.AlarmsMatchAndTakeEffect := by
  refine ⟨fun name s => ⟨⟨rfl, rfl⟩, ?_⟩, fun f s => ⟨rfl, rfl⟩, fun s lost => ?_,
    fun s present hit => exec_alarmMatch present hit, fun s present hit => exec_alarmMatch present hit, fun s => ?_⟩
  · rw [alarmMatches_iff, armed_iff, equals_iff]
  · rw [exec_backupSecond lost, backupSecond_eq]
    refine ⟨_, rfl, ?_⟩
    rw [advanceClock_time]
    exact ⟨rfl, rfl, rfl, rfl, rfl, rfl, rfl, rfl⟩
  · exact ⟨takeReturnBy_eq s, takeSessionClose_eq s, fun present =>
      ⟨congrArg Host.Outcome.next (whileMains_present _ present),
        congrArg Host.Outcome.next (whileMains_present _ present)⟩⟩

end Sys2Proof.Machine

/-! RELEASE STATEMENTS with the pending returns (R106, R145), RELEASE DUTY (R157), CUT DUTY (R158) and CLEAR DUTY TOTALS
(R155). -/

namespace Sys2Proof.Machine

/-! ### Pending returns are posted (R106) -/

/-- With nobody waiting, or no room for a statement, nothing is posted. -/
theorem postPendings_stop {waiting : List Nat} {s : State} {n : Nat}
    (stop : waiting = [] ∨ 512 ≤ s.acct.statements.length) : postPendings waiting (s, n) = (s, n) := by
  cases waiting with
  | nil => rfl
  | cons slot rest =>
    obtain empty | full := stop
    · cases empty
    · simp [postPendings, statementRoom_eq_false full]

theorem postPending_found {slot : Nat} {rest : List Nat} {r : Receiver} {l : Loan} {p : PendingPart} {s : State}
    (record : Table.look s.hire.receivers slot = some r) (loan : r.loan = some l) (pending : r.pend = some p)
    (list : s.hire.pendingList = slot :: rest) :
    postPending slot s =
      writeReceiver slot { r with loan := none, pend := none, state := .available }
        (countAcct (fun k => { k with pendingPostings := bump k.pendingPostings })
          (postStatement (statementOf p.kind l r.serial p.returnClock p.amount)
            { s with hire := { s.hire with pendingList := rest } })) := by
  simp [postPending, record, loan, pending, list, State.modHire]

theorem postPendings_next {slot : Nat} {rest : List Nat} {s : State} {n : Nat} (room : s.acct.statements.length < 512) :
    postPendings (slot :: rest) (s, n) = postPendings rest (postPending slot s, n + 1) := by
  rw [postPendings, if_pos (statementRoom_iff.mpr room)]

/-! ### RELEASE STATEMENTS (R145) -/

theorem headMatches_of_expected {head : Option (Option StatementKind × Nat)} {statements : List Statement}
    (expected : ∀ kind loan, head = some (kind, loan) → ∃ st ∈ statements.head?, kind = some st.kind ∧ loan = st.loan) :
    headMatches head statements = true := by
  cases head with
  | none => rfl
  | some e =>
    obtain ⟨kind, loan⟩ := e
    obtain ⟨st, first, rfl, rfl⟩ := expected kind loan rfl
    obtain ⟨rest, rfl⟩ := List.head?_eq_some_iff.mp first
    simp [headMatches]

theorem headMatches_of_other {kind : Option StatementKind} {loan : Nat} {statements : List Statement}
    (other : ∀ st ∈ statements.head?, kind ≠ some st.kind ∨ loan ≠ st.loan) :
    headMatches (some (kind, loan)) statements = false := by
  cases statements with
  | nil => rfl
  | cons st rest =>
    obtain kindDiffers | loanDiffers := other st rfl
    · simp [headMatches, kindDiffers]
    · simp [headMatches, loanDiffers]

section
variable {n : Nat} {head : Option (Option StatementKind × Nat)} {s : State}

theorem releaseStatements_range (out : s.acct.statements.length < n ∨ 512 < n) :
    releaseStatements n head s = (s, .refused .range []) := by
  simp [releaseStatements, Config.statements, out.symm, refuse]

variable (held : n ≤ s.acct.statements.length) (fits : n ≤ 512)
include held fits

theorem releaseStatements_changed (changed : headMatches head s.acct.statements = false) :
    releaseStatements n head s = (s, .refused .changed []) := by
  simp [releaseStatements, Config.statements, Nat.not_lt.mpr held, Nat.not_lt.mpr fits, changed, refuse]

theorem releaseStatements_accepted (expected : headMatches head s.acct.statements = true) :
    releaseStatements n head s =
      (let posted := postPendings s.hire.pendingList
         ({ s with acct :=
            { s.acct with
              statements := s.acct.statements.drop n
              counters := { s.acct.counters with released := min (s.acct.counters.released + n) 4294967295 } } }, 0)
       (posted.1, .accepted [.num n, .num posted.2, .num posted.1.acct.statements.length])) := by
  simp [releaseStatements, Config.statements, Nat.not_lt.mpr held, Nat.not_lt.mpr fits, expected, accept, countAcct,
    State.modAcct, satAdd, counterMax]

end

/-! ### RELEASE DUTY (R157) -/

theorem completeRun_eq (duty : List DutyEntry) : completeRun duty = duty.takeWhile fun e => e.status ≠ .opened := by
  simp [completeRun, DutyEntry.isOpen]

section
variable {n : Nat} {s : State}

theorem releaseDuty_range (out : 256 < n) : releaseDuty n s = (s, .refused .range []) :=
  if_pos out

variable (fits : n ≤ 256)
include fits

theorem releaseDuty_beyond (beyond : (completeRun s.acct.duty).length < n) :
    releaseDuty n s = (s, .refused .range [.num (completeRun s.acct.duty).length]) := by
  simp [releaseDuty, Config.dutyEntries, Nat.not_lt.mpr fits, beyond]

theorem releaseDuty_accepted (complete : n ≤ (completeRun s.acct.duty).length) :
    releaseDuty n s =
      ({ s with acct :=
          { s.acct with
            duty := s.acct.duty.drop n
            dutyCounters :=
              { s.acct.dutyCounters with released := min (s.acct.dutyCounters.released + n) 4294967295 } } },
        .accepted []) := by
  simp [releaseDuty, Config.dutyEntries, Nat.not_lt.mpr fits, Nat.not_lt.mpr complete, accept, countDuty, State.modAcct,
    satAdd, counterMax]

end

/-! ### CUT DUTY (R158) -/

/-- Every OPEN entry is completed with reason CUT, and the cut is counted (R158 steps 1 and 2). -/
def entriesCut (s : State) : State :=
  { s with acct :=
    { s.acct with
      duty := s.acct.duty.map fun e =>
        if e.status = .opened then { e with stop := some s.now, reason := some .cut, status := .complete } else e
      dutyCounters :=
        { s.acct.dutyCounters with
          cuts := bump s.acct.dutyCounters.cuts
          completed :=
            min (s.acct.dutyCounters.completed + s.acct.duty.countP fun e => decide (e.status = .opened)) 4294967295 } } }

theorem completeEntries_cut (s : State) :
    completeEntries (fun _ => true) .cut s.now (countDuty (fun c => { c with cuts := bump c.cuts }) s) =
      entriesCut s := by
  simp [completeEntries, countDuty, State.modAcct, DutyEntry.isOpen, DutyEntry.completed, entriesCut, satAdd, counterMax]

theorem cutDuty_eq (s : State) :
    cutDuty s =
      (let done := (upTo 24).foldl continueBooth (entriesCut s, 0, [])
       (done.1, .accepted
         ([.num (s.acct.duty.countP fun e => decide (e.status = .opened)), .num done.2.1] ++
           listFields done.2.2 (fun b => [.num b])))) := by
  simp only [cutDuty, completeEntries_cut, accept, Config.booths]
  rfl

section
variable {s : State} {b n : Nat} {without : List Nat}

theorem continueBooth_silent (silent : (s.boothRec b).onAir = false) :
    continueBooth (s, n, without) b = (s, n, without) := by
  have offAir : FloorState.console (s.boothRec b).floor = none := by simpa [Booth.onAir] using silent
  simp [continueBooth, offAir]

theorem foldl_continueBooth_silent {l : List Nat} (silent : ∀ b ∈ l, (s.boothRec b).onAir = false) :
    l.foldl continueBooth (s, n, without) = (s, n, without) := by
  induction l with
  | nil => rfl
  | cons b l ih =>
    obtain ⟨here, rest⟩ := List.forall_mem_cons.mp silent
    rw [List.foldl_cons, continueBooth_silent here, ih rest]

variable {slot channel : Nat} (live : FloorState.console (s.boothRec b).floor = some slot)
  (selected : (s.boothRec b).selected = some channel)
include live selected

theorem continueBooth_room (room : s.acct.duty.length < 256) :
    continueBooth (s, n, without) b =
      ({ s with acct :=
        { s.acct with
          duty := s.acct.duty ++
            [{ slot := slot, booth := b, channel := channel, start := s.now, startMinute := s.time.sessionMinute
               continued := true }]
          dutyCounters :=
            { s.acct.dutyCounters with continuations := bump s.acct.dutyCounters.continuations } } },
        n + 1, without) := by
  simp [continueBooth, live, selected, Config.dutyEntries, room, countDuty, appendEntry, newEntry, State.modAcct]

theorem continueBooth_full (full : 256 ≤ s.acct.duty.length) :
    continueBooth (s, n, without) b = (spellUnlogged b s, n, without ++ [b]) := by
  simp [continueBooth, live, selected, Config.dutyEntries, Nat.not_lt.mpr full]

end

/-! ### CLEAR DUTY TOTALS (R155) -/

def Booth.totalCleared (x : Booth) : Booth := { x with liveMinutes := 0, unlogged := false }

def Console.totalCleared (x : Console) : Console := { x with liveMinutes := 0 }

/-- The totals of the booths of a list put to 0, and their unlogged marks clear. -/
def boothTotalsCleared (l : List Nat) (s : State) : State := l.foldl (fun t b => t.modBooth b Booth.totalCleared) s

/-- The totals of the consoles of a list put to 0. -/
def consoleTotalsCleared (l : List Nat) (s : State) : State := l.foldl (fun t n => t.modConsole n Console.totalCleared) s

theorem clearDutyTotals_eq (s : State) :
    clearDutyTotals s =
      (consoleTotalsCleared (upTo Config.slots) (boothTotalsCleared (upTo Config.booths) s), .accepted []) :=
  rfl

section
variable (l : List Nat) (s : State)

theorem boothTotalsCleared_boothRec (distinct : l.Nodup) (b : Nat) :
    (boothTotalsCleared l s).boothRec b = if b ∈ l then (s.boothRec b).totalCleared else s.boothRec b :=
  boothRec_foldl_modBooth _ l distinct s b

theorem boothTotalsCleared_console (n : Nat) : (boothTotalsCleared l s).console n = s.console n :=
  foldl_keeps (fun t => t.console n) (fun t b => t.modBooth b Booth.totalCleared) (fun _ _ => rfl) l s

theorem boothTotalsCleared_floorBlock : (boothTotalsCleared l s).booth.floorBlock = s.booth.floorBlock :=
  foldl_keeps (fun t => t.booth.floorBlock) (fun t b => t.modBooth b Booth.totalCleared) (fun _ _ => rfl) l s

theorem boothTotalsCleared_eq : boothTotalsCleared l s = { s with booth := (boothTotalsCleared l s).booth } := by
  rw [boothTotalsCleared, foldl_modBooth_eq]
  rfl

theorem consoleTotalsCleared_console (distinct : l.Nodup) (n : Nat) :
    (consoleTotalsCleared l s).console n = if n ∈ l then (s.console n).totalCleared else s.console n :=
  console_foldl_modConsole _ l distinct s n

theorem consoleTotalsCleared_boothRec (b : Nat) : (consoleTotalsCleared l s).boothRec b = s.boothRec b :=
  foldl_keeps (fun t => t.boothRec b) (fun t n => t.modConsole n Console.totalCleared) (fun _ _ => rfl) l s

theorem consoleTotalsCleared_floorBlock : (consoleTotalsCleared l s).booth.floorBlock = s.booth.floorBlock :=
  foldl_keeps (fun t => t.booth.floorBlock) (fun t n => t.modConsole n Console.totalCleared) (fun _ _ => rfl) l s

theorem consoleTotalsCleared_eq : consoleTotalsCleared l s = { s with booth := (consoleTotalsCleared l s).booth } := by
  rw [consoleTotalsCleared, foldl_modConsole_eq]
  rfl

end

/-- Settles O46: each request by the order of its checks, then the continuation of one booth and the posting of one pending
return. -/
theorem recordsAreReleasedAndCut : Obligations.RecordsAreReleasedAndCut := by
  intro h s ha u
  refine ⟨fun n head held fits expected => ?_, fun n head out => ?_, fun n kind loan held fits other => ?_, ?_,
    fun n fits complete => ?_, ?_, ?_,
    fun b slot channel n without live selected room => continueBooth_room live selected room,
    fun b slot channel n without live selected full => continueBooth_full live selected full,
    fun b n without silent => ?_, fun waiting n stop => postPendings_stop stop,
    fun slot n rest r l p record loan pending room list => ?_⟩
  · intro shorter posted
    refine ⟨request_of_admitted ha (releaseStatements_accepted (s := u) held fits (headMatches_of_expected expected)),
      fun empty => ?_⟩
    exact postPendings_stop (.inl empty)
  · exact request_of_admitted ha (releaseStatements_range (s := u) out)
  · exact request_of_admitted ha (releaseStatements_changed (s := u) held fits (headMatches_of_other other))
  · rw [← completeRun_eq]
    exact fun n => ⟨fun out => request_of_admitted ha (releaseDuty_range out),
      fun fits beyond => request_of_admitted ha (releaseDuty_beyond (s := u) fits beyond)⟩
  · rw [← completeRun_eq] at complete
    exact request_of_admitted ha (releaseDuty_accepted (s := u) fits complete)
  · intro ends cut done
    have cut_eq : cut = entriesCut u := rfl
    have done_eq : done = (upTo 24).foldl continueBooth (entriesCut u, 0, []) :=
      congrArg (fun x => (upTo 24).foldl continueBooth (x, 0, [])) cut_eq
    rw [cut_eq, done_eq]
    exact ⟨request_of_admitted ha (cutDuty_eq u), fun silent =>
      foldl_continueBooth_silent (s := entriesCut u) fun b mem => silent b (isBooth_iff.mpr mem)⟩
  · refine ⟨_, request_of_admitted ha (clearDutyTotals_eq u), fun b hb => ?_, fun n hn => ?_, fun b hb => ?_,
      fun n hn => ?_, ?_, (consoleTotalsCleared_floorBlock ..).trans (boothTotalsCleared_floorBlock ..)⟩
    · rw [consoleTotalsCleared_boothRec, boothTotalsCleared_boothRec _ _ (upTo_nodup _), if_pos (isBooth_iff.mp hb)]
      rfl
    · rw [consoleTotalsCleared_console _ _ (upTo_nodup _), boothTotalsCleared_console, if_pos (isSlot_iff.mp hn)]
      rfl
    · have outside : b ∉ upTo Config.booths := by simp [← isBooth_iff, hb]
      rw [consoleTotalsCleared_boothRec, boothTotalsCleared_boothRec _ _ (upTo_nodup _), if_neg outside]
      rfl
    · have outside : n ∉ upTo Config.slots := by simp [← isSlot_iff, hn]
      rw [consoleTotalsCleared_console _ _ (upTo_nodup _), boothTotalsCleared_console, if_neg outside]
      rfl
    · rw [consoleTotalsCleared_eq, boothTotalsCleared_eq]
  · exact continueBooth_silent (by simp [Booth.onAir, silent, FloorState.console])
  · rw [postPendings_next room, postPending_found record loan pending list]

end Sys2Proof.Machine

/-! The issue batches (R113 to R119): the checks of an item, what opens a batch, what a batch makes of an item, the failures,
ABORT and the final step. -/

namespace Sys2Proof.Table

/-- Of two records written under one key the later stands. -/
theorem put_put {α : Type} (k : Nat) (v w : α) (t : Table α) : put k v (put k w t) = put k v t := by
  induction t with
  | nil => simp [put]
  | cons e rest ih =>
    obtain ⟨j, x⟩ := e
    by_cases before : k < j
    · simp [put, before]
    · by_cases here : k = j
      · simp [put, here]
      · simp [put, before, here, ih]

end Sys2Proof.Table

namespace Sys2Proof.Machine

/-! ### What the batch operations leave to be read -/

@[simp] theorem writeBatch_receiverBySerial (station : Nat) (b : Batch) (s : State) (serial : Nat) :
    (writeBatch station b s).receiverBySerial serial = s.receiverBySerial serial := rfl

@[simp] theorem writeBatch_accountByNumber (station : Nat) (b : Batch) (s : State) (account : Nat) :
    (writeBatch station b s).accountByNumber account = s.accountByNumber account := rfl

@[simp] theorem writeBatch_params (station : Nat) (b : Batch) (s : State) : (writeBatch station b s).params = s.params := rfl

@[simp] theorem countBatch_receiverBySerial (f : BatchCounters → BatchCounters) (s : State) (serial : Nat) :
    (countBatch f s).receiverBySerial serial = s.receiverBySerial serial := rfl

@[simp] theorem countBatch_accountByNumber (f : BatchCounters → BatchCounters) (s : State) (account : Nat) :
    (countBatch f s).accountByNumber account = s.accountByNumber account := rfl

@[simp] theorem countBatch_params (f : BatchCounters → BatchCounters) (s : State) : (countBatch f s).params = s.params := rfl

theorem writeBatch_writeBatch (station : Nat) (b c : Batch) (s : State) :
    writeBatch station b (writeBatch station c s) = writeBatch station b s := by
  simp [writeBatch, State.modHire, Table.put_put]

theorem serial_of_receiverBySerial {s : State} {serial slot : Nat} {r : Receiver}
    (found : s.receiverBySerial serial = some (slot, r)) : r.serial = serial := by
  simpa using List.find?_some found

theorem freeReceiver_missing {s : State} {serial : Nat} (missing : s.receiverBySerial serial = none) :
    freeReceiver s serial = s := by
  rw [freeReceiver, missing]

theorem freeReceiver_found {s : State} {serial slot : Nat} {r : Receiver}
    (found : s.receiverBySerial serial = some (slot, r)) :
    freeReceiver s serial = writeReceiver slot { r with state := .available, batch := none } s := by
  rw [freeReceiver, found]

theorem issueItem_found {s : State} {account serial slot : Nat} {r : Receiver} {entries : List (Nat × Nat)}
    (found : s.receiverBySerial serial = some (slot, r)) :
    issueItem account (s, entries) serial = (issueReceiver slot r account s, entries ++ [(serial, s.acct.nextLoan)]) := by
  rw [issueItem, found]

/-! ### The item's own checks (R113) -/

/-- Account and serial are numbers of their kinds. -/
def ItemInRange (account : Nat) (serial : Option Nat) : Prop :=
  1 ≤ account ∧ account ≤ 65535 ∧ ∀ n, serial = some n → n ≤ 16777215

/-- ABORT or MORE without a serial, or ABORT on a final item. -/
def ItemUnformed (serial : Option Nat) (more abort : Bool) : Prop :=
  (serial = none ∧ (abort = true ∨ more = true)) ∨ (abort = true ∧ more = false)

theorem itemInRange_iff {account : Nat} {serial : Option Nat} :
    ItemInRange account serial ↔ (!isAccount account || serial.any fun n => !isSerial n) = false := by
  rw [Bool.or_eq_false_iff, Bool.not_eq_false', isAccount_iff, ItemInRange, and_assoc]
  cases serial <;> simp [isSerial, Config.serialMax]

theorem itemUnformed_iff {serial : Option Nat} {more abort : Bool} :
    ItemUnformed serial more abort ↔
      ((abort && serial.isNone) || (abort && !more) || (more && serial.isNone)) = true := by
  simp only [ItemUnformed, Bool.or_eq_true, Bool.and_eq_true, Option.isNone_iff_eq_none, Bool.not_eq_true']
  tauto

theorem itemUnformed_some {n : Nat} {more abort : Bool} (further : abort = false ∨ more = true) :
    ¬ItemUnformed (some n) more abort := by
  obtain rfl | rfl := further <;> simp [ItemUnformed]

theorem itemUnformed_bare : ¬ItemUnformed none false false := by simp [ItemUnformed]

section
variable {s : State} {account : Nat} {serial : Option Nat} {more abort : Bool}

theorem itemRefusal_range (out : ¬ItemInRange account serial) : itemRefusal s account serial more abort = some .range := by
  rw [itemInRange_iff, Bool.not_eq_false] at out
  rw [itemRefusal, if_pos out]

variable (inRange : ItemInRange account serial)
include inRange

theorem itemRefusal_malformed (unformed : ItemUnformed serial more abort) :
    itemRefusal s account serial more abort = some .malformed := by
  rw [itemRefusal, if_neg (Bool.eq_false_iff.mp (itemInRange_iff.mp inRange)), if_pos (itemUnformed_iff.mp unformed)]

variable (formed : ¬ItemUnformed serial more abort)
include formed

theorem itemRefusal_formed :
    itemRefusal s account serial more abort = if s.mode = .setup then some .mode else none := by
  rw [itemRefusal, if_neg (Bool.eq_false_iff.mp (itemInRange_iff.mp inRange)), if_neg (mt itemUnformed_iff.mpr formed)]

end

theorem batchItem_refused {station account : Nat} {serial : Option Nat} {more abort : Bool} {s : State} {code : RefusalCode}
    (refusal : itemRefusal s account serial more abort = some code) :
    batchItem station account serial more abort s = (s, .refused code []) := by
  rw [batchItem, refusal]
  rfl

/-! ### An item of a station without an open batch (R114) -/

/-- The batch that an item opens is counted before it takes the item. -/
def openCounted (s : State) : State := countBatch (fun k => { k with opened := bump k.opened }) s

section
variable {station account : Nat} {serial : Option Nat} {more abort : Bool} {s : State}

theorem openBatch_abort : openBatch station account serial more true s = (s, .refused .notFound []) := rfl

theorem openBatch_bare : openBatch station account none false abort s = (s, .refused .notFound []) := by
  cases abort <;> rfl

theorem openBatch_busy (full : 4 ≤ s.hire.batches.length) {n : Nat} :
    openBatch station account (some n) more false s =
      (countBatch (fun k => { k with busyRefusals := bump k.busyRefusals }) s, .refused .batchBusy []) := by
  simp [openBatch, Config.batches, full, refuse]

theorem openBatch_room (room : s.hire.batches.length < 4) {n : Nat} :
    openBatch station account (some n) more false s =
      batchTakes station account (some n) more false { account := account } (openCounted s) := by
  simp [openBatch, Config.batches, Nat.not_le.mpr room, openCounted]

variable (inRange : ItemInRange account serial) (formed : ¬ItemUnformed serial more abort) (running : s.mode ≠ .setup)
include inRange formed running

theorem batchItem_opens (closed : Table.look s.hire.batches station = none) :
    batchItem station account serial more abort s = openBatch station account serial more abort s := by
  rw [batchItem, itemRefusal_formed inRange formed, if_neg running, closed]

theorem batchItem_takes {b : Batch} (record : Table.look s.hire.batches station = some b) :
    batchItem station account serial more abort s = batchTakes station account serial more abort b s := by
  rw [batchItem, itemRefusal_formed inRange formed, if_neg running, record]

end

/-- A batch that takes an item is written anew, whatever stood in the table. -/
theorem batchTakes_writeBatch (station account : Nat) (serial : Option Nat) (more abort : Bool) (b c : Batch) (s : State) :
    batchTakes station account serial more abort b (writeBatch station c s) =
      batchTakes station account serial more abort b s := by
  simp only [batchTakes, writeBatch_writeBatch]

/-! ### Failures (R116, R119) -/

/-- The batch is FAILED, with its code and the number of the item. -/
def batchFailed (station : Nat) (b : Batch) (code : RefusalCode) (s : State) : State :=
  countBatch (fun k => { k with failures := bump k.failures })
    (writeBatch station { b with state := .failed, failure := some (code, b.itemCount) } s)

/-- The FAILED batch gives back the receivers of a list and closes. -/
def batchFailedClosed (station : Nat) (items : List Nat) (s : State) : State :=
  countBatch (fun k => { k with failed := bump k.failed }) (dropBatch station (items.foldl freeReceiver s))

section
variable (station : Nat) (b : Batch) (code : RefusalCode) (s : State)

theorem failBatch_further :
    failBatch station b code false s = (batchFailed station b code s, batchFailedAnswer (some (code, b.itemCount))) := rfl

theorem failBatch_final :
    failBatch station b code true s =
      (batchFailedClosed station b.items (batchFailed station b code s), batchFailedAnswer (some (code, b.itemCount))) := rfl

theorem failedTakes_further :
    failedTakes station true b s = (s, batchFailedAnswer b.failure) := rfl

theorem failedTakes_final :
    failedTakes station false b s = (batchFailedClosed station b.items s, batchFailedAnswer b.failure) := rfl

end

/-! ### Looking at the account (R118, R135) -/

theorem lookRefusal_missing {s : State} {account : Nat} (missing : s.accountByNumber account = none) :
    lookRefusal s account = some .notFound := by
  simp [lookRefusal, missing]

section
variable {s : State} {account n items : Nat} {a : Account} (found : s.accountByNumber account = some (n, a))
include found

theorem lookRefusal_suspended (suspended : a.state = .suspended) : lookRefusal s account = some .accountState := by
  simp [lookRefusal, found, suspended]

theorem openManyRefusal_suspended (suspended : a.state = .suspended) :
    openManyRefusal s account items = some .accountState := by
  simp [openManyRefusal, found, suspended]

variable (opened : a.state = .opened)
include opened

theorem lookRefusal_opened : lookRefusal s account = none := by simp [lookRefusal, found, opened]

theorem openManyRefusal_limit (above : a.loanLimit < a.openLoans + items) :
    openManyRefusal s account items = some .limit := by
  simp [openManyRefusal, found, opened, above]

theorem openManyRefusal_within (within : a.openLoans + items ≤ a.loanLimit) : openManyRefusal s account items = none := by
  simp [openManyRefusal, found, opened, within]

end

/-! ### The final step (R118) -/

/-- Every receiver of the list is issued in its order, with the entries of the reply. -/
def issueAll (account : Nat) (items : List Nat) (s : State) : State × List (Nat × Nat) :=
  items.foldl (issueItem account) (s, [])

/-- The batch has issued its receivers and is closed. -/
def issuedClosed (station account : Nat) (items : List Nat) (s : State) : State × Answer :=
  (countBatch (fun k => { k with issued := bump k.issued }) (dropBatch station (issueAll account items s).1),
    .accepted (listFields (issueAll account items s).2 fun e => [.num e.1, .num e.2]))

section
variable {station account : Nat} {b : Batch} {s : State} (own : b.account = account)
include own

theorem finalStep_refused {code : RefusalCode} (refusal : openManyRefusal s account b.items.length = some code) :
    finalStep station b s = failBatch station b code true s := by
  rw [finalStep, own, refusal]

theorem finalStep_issues (passes : openManyRefusal s account b.items.length = none) :
    finalStep station b s = issuedClosed station account b.items s := by
  rw [finalStep, own, passes]
  rfl

end

/-! ### An item settled without a failure (R113, R115) -/

theorem itemAccepted_open {b : Batch} (opened : b.state = .opened) :
    itemAccepted b = .accepted [.num b.itemCount, .name "OPEN", .num b.items.length] := by
  rw [itemAccepted, opened]
  rfl

theorem settleItem_open {station : Nat} {b : Batch} {s : State} (opened : b.state = .opened) :
    settleItem station b false s = (s, .accepted [.num b.itemCount, .name "OPEN", .num b.items.length]) :=
  congrArg (Prod.mk s) (itemAccepted_open opened)

/-! ### A serial that the batch aborts or holds (R115, R117) -/

theorem abortItem_unlisted {station serial : Nat} {b : Batch} {s : State} (unlisted : serial ∉ b.items) :
    abortItem station b serial s = (s, .refused .notFound []) := by
  simp [abortItem, unlisted, refuse]

/-- The batch without a serial in its list. -/
def Batch.shorter (b : Batch) (serial : Nat) : Batch := { b with items := b.items.filter fun x => x ≠ serial }

theorem abortItem_listed {station serial slot : Nat} {b : Batch} {r : Receiver} {s : State} (opened : b.state = .opened)
    (listed : serial ∈ b.items) (found : s.receiverBySerial serial = some (slot, r)) :
    abortItem station b serial s =
      (countBatch (fun k => { k with itemsAborted := bump k.itemsAborted })
        (writeBatch station (b.shorter serial) (writeReceiver slot { r with state := .available, batch := none } s)),
        .accepted [.num b.itemCount, .name "OPEN", .num (b.shorter serial).items.length]) := by
  rw [abortItem, if_pos (List.contains_iff_mem.mpr listed), freeReceiver_found found]
  exact congrArg (Prod.mk _) (itemAccepted_open (b := b.shorter serial) opened)

/-- The batch with a serial at the tail of its list. -/
def Batch.longer (b : Batch) (serial : Nat) : Batch := { b with items := b.items ++ [serial] }

/-- The receiver is HELD by the batch of a station, and its serial joins the list, counted. -/
def itemHeld (station : Nat) (b : Batch) (serial slot : Nat) (r : Receiver) (s : State) : State :=
  countBatch (fun k => { k with itemsHeld := bump k.itemsHeld })
    (writeBatch station (b.longer serial) (writeReceiver slot { r with state := .held, batch := some station } s))

@[simp] theorem itemHeld_accountByNumber (station serial slot account : Nat) (b : Batch) (r : Receiver) (s : State) :
    (itemHeld station b serial slot r s).accountByNumber account = s.accountByNumber account := by
  simp [itemHeld]

theorem itemHeld_hire (station serial slot : Nat) (b : Batch) (r : Receiver) (s : State) :
    (itemHeld station b serial slot r s).hire =
      { s.hire with
        receivers := Table.put slot { r with state := .held, batch := some station } s.hire.receivers
        batches := Table.put station (b.longer serial) s.hire.batches
        batchCounters := { s.hire.batchCounters with itemsHeld := bump s.hire.batchCounters.itemsHeld } } := by
  simp [itemHeld, countBatch, writeBatch]

/-- The receiver with a serial passes the checks of R99 steps 2 to 4. -/
structure ReceiverPasses (s : State) (serial slot : Nat) (r : Receiver) : Prop where
  found : s.receiverBySerial serial = some (slot, r)
  available : r.state = .available
  charged : ∀ level, r.battery = some level → s.params.issueThreshold ≤ level

theorem ReceiverPasses.refusal {s : State} {serial slot : Nat} {r : Receiver} (passes : ReceiverPasses s serial slot r) :
    receiverRefusal s.params.issueThreshold (some (slot, r)) = none :=
  receiverRefusal_none passes.available passes.charged

section
variable {station serial : Nat} {b : Batch} {final : Bool} {s : State}

theorem addItem_listed (listed : serial ∈ b.items) : addItem station b serial final s = settleItem station b final s := by
  simp [addItem, listed]

variable (unlisted : serial ∉ b.items)
include unlisted

theorem addItem_full (full : 32 ≤ b.items.length) :
    addItem station b serial final s = failBatch station b .batchFull final s := by
  simp [addItem, unlisted, Config.batchItems, full]

variable (room : b.items.length < 32)
include room

theorem addItem_receiver_refused {code : RefusalCode}
    (refusal : receiverRefusal s.params.issueThreshold (s.receiverBySerial serial) = some code) :
    addItem station b serial final s = failBatch station b code final s := by
  simp [addItem, unlisted, Config.batchItems, Nat.not_le.mpr room, refusal]

variable {slot account : Nat} {r : Receiver} (passes : ReceiverPasses s serial slot r) (own : b.account = account)
include passes own

theorem addItem_account_refused {code : RefusalCode} (refusal : lookRefusal s account = some code) :
    addItem station b serial final s = failBatch station b code final s := by
  simp [addItem, unlisted, Config.batchItems, Nat.not_le.mpr room, passes.found, passes.refusal, own, refusal]

variable {n : Nat} {a : Account} (known : s.accountByNumber account = some (n, a)) (opened : a.state = .opened)
include known opened

theorem addItem_holds :
    addItem station b serial final s = settleItem station (b.longer serial) final (itemHeld station b serial slot r s) := by
  simp [addItem, unlisted, Config.batchItems, Nat.not_le.mpr room, passes.found, passes.refusal, own,
    lookRefusal_opened known opened, holdItem, serial_of_receiverBySerial passes.found, Batch.longer, itemHeld]

/-- A new serial on a final item is held, and the longer list is issued. -/
theorem addItem_issues (within : a.openLoans + (b.items.length + 1) ≤ a.loanLimit) :
    addItem station b serial true s =
      issuedClosed station account (b.items ++ [serial]) (itemHeld station b serial slot r s) := by
  rw [addItem_holds unlisted room passes own known opened]
  refine finalStep_issues own (openManyRefusal_within (n := n) (a := a) ?_ opened ?_)
  · exact (itemHeld_accountByNumber ..).trans known
  · simpa [Batch.longer] using within

end

/-! ### An item that an open batch takes (R115, R116) -/

theorem itemInRange_some {account n : Nat} (first : 1 ≤ account) (last : account ≤ 65535) (fits : n ≤ 16777215) :
    ItemInRange account (some n) :=
  ⟨first, last, fun _ same => Option.some.inj same ▸ fits⟩

theorem itemInRange_bare {account : Nat} (first : 1 ≤ account) (last : account ≤ 65535) : ItemInRange account none :=
  ⟨first, last, fun _ absent => nomatch absent⟩

section
variable {station account : Nat} {serial : Option Nat} {more abort : Bool} {b : Batch} {s : State}

theorem batchTakes_failed (failed : b.state = .failed) :
    batchTakes station account serial more abort b s =
      failedTakes station more b.numbered (writeBatch station b.numbered s) := by
  simp only [batchTakes, failed]

variable (opened : b.state = .opened)
include opened

theorem batchTakes_foreign (foreign : b.account ≠ account) :
    batchTakes station account serial more abort b s =
      failBatch station b.numbered .malformed (!more) (writeBatch station b.numbered s) := by
  simp only [batchTakes, opened]
  exact if_pos foreign.symm

variable (own : b.account = account) {n : Nat}
include own

theorem batchTakes_adds :
    batchTakes station account (some n) more false b s =
      addItem station b.numbered n (!more) (writeBatch station b.numbered s) := by
  simp only [batchTakes, opened]
  exact if_neg (not_not_intro own.symm)

theorem batchTakes_aborts :
    batchTakes station account (some n) more true b s =
      abortItem station b.numbered n (writeBatch station b.numbered s) := by
  simp only [batchTakes, opened]
  exact if_neg (not_not_intro own.symm)

theorem batchTakes_finishes :
    batchTakes station account none false abort b s =
      finalStep station b.numbered (writeBatch station b.numbered s) := by
  simp only [batchTakes, opened]
  exact if_neg (not_not_intro own.symm)

end

/-! ### An item at the service port -/

/-- The batch has numbered the item that it takes. -/
def itemTaken (station : Nat) (b : Batch) (s : State) : State := writeBatch station b.numbered (taken s)

section
variable (station : Nat) (b : Batch) (s : State)

@[simp] theorem itemTaken_receiverBySerial (serial : Nat) :
    (itemTaken station b s).receiverBySerial serial = s.receiverBySerial serial := by simp [itemTaken]

@[simp] theorem itemTaken_accountByNumber (account : Nat) :
    (itemTaken station b s).accountByNumber account = s.accountByNumber account := by simp [itemTaken]

@[simp] theorem itemTaken_params : (itemTaken station b s).params = s.params := by simp [itemTaken]

@[simp] theorem itemTaken_lookRefusal (account : Nat) :
    lookRefusal (itemTaken station b s) account = lookRefusal s account := by simp [lookRefusal]

@[simp] theorem itemTaken_openManyRefusal (account items : Nat) :
    openManyRefusal (itemTaken station b s) account items = openManyRefusal s account items := by simp [openManyRefusal]

end

/-- The batch that an item opens, once it has numbered that item. -/
def firstBatch (account : Nat) : Batch := { account := account, itemCount := 1 }

/-- An item has opened a batch and taken its number (R114, R115). -/
def firstTaken (station account : Nat) (s : State) : State := writeBatch station (firstBatch account) (openCounted (taken s))

section
variable (station account : Nat) (s : State)

@[simp] theorem firstTaken_receiverBySerial (serial : Nat) :
    (firstTaken station account s).receiverBySerial serial = s.receiverBySerial serial := by simp [firstTaken, openCounted]

@[simp] theorem firstTaken_accountByNumber (number : Nat) :
    (firstTaken station account s).accountByNumber number = s.accountByNumber number := by simp [firstTaken, openCounted]

@[simp] theorem firstTaken_params : (firstTaken station account s).params = s.params := by simp [firstTaken, openCounted]

/-- Opening a batch and holding its first receiver leave every block but the hire controller, the channel switch and the
service controller. -/
theorem itemHeld_firstTaken_frame (serial slot : Nat) (b : Batch) (r : Receiver) :
    let t := itemHeld station b serial slot r (firstTaken station account s)
    t.acct = s.acct ∧ t.loop = s.loop ∧ t.booth = s.booth ∧ t.air = s.air ∧ t.time = s.time ∧ t.supply = s.supply := by
  simp [itemHeld, firstTaken, openCounted]

end

/-- The checks of a receiver read neither the batches nor the service port. -/
theorem ReceiverPasses.taken {s : State} {serial slot : Nat} {r : Receiver} (passes : ReceiverPasses s serial slot r)
    (station : Nat) (b : Batch) : ReceiverPasses (itemTaken station b s) serial slot r :=
  ⟨by simpa using passes.found, passes.available, by simpa using passes.charged⟩

theorem ReceiverPasses.first {s : State} {serial slot : Nat} {r : Receiver} (passes : ReceiverPasses s serial slot r)
    (station account : Nat) : ReceiverPasses (firstTaken station account s) serial slot r :=
  ⟨by simpa using passes.found, passes.available, by simpa using passes.charged⟩

/-- The item with a serial fails the batch with a code: as a further item it marks the batch FAILED, and as the final one it
also closes it (R116, R119). -/
def ItemFails (h : Header) (account serial : Nat) (b : Batch) (code : RefusalCode) (s : State) : Prop :=
  exec (.batchItem h account (some serial) true false) s =
      .next (replied h (batchFailedAnswer (some (code, b.numbered.itemCount)))
        (batchFailed h.station b.numbered code (itemTaken h.station b s))) ∧
    exec (.batchItem h account (some serial) false false) s =
      .next (replied h (batchFailedAnswer (some (code, b.numbered.itemCount)))
        (batchFailedClosed h.station b.items (batchFailed h.station b.numbered code (itemTaken h.station b s))))

section
variable {h : Header} {account : Nat} {s : State} (ha : admitted controlDesk h s) (running : s.mode ≠ .setup)
  (first : 1 ≤ account) (last : account ≤ 65535)
include ha running first last

/-! #### Without an open batch (R114) -/

section
variable (empty : Table.look s.hire.batches h.station = none) {t : State} {a : Answer}
include empty

theorem exec_batchItem_opens {n : Nat} {more abort : Bool} (fits : n ≤ 16777215) (further : abort = false ∨ more = true)
    (ruled : openBatch h.station account (some n) more abort (taken s) = (t, a)) :
    exec (.batchItem h account (some n) more abort) s = .next (replied h a t) :=
  request_of_admitted ha ((batchItem_opens (s := taken s) (itemInRange_some first last fits) (itemUnformed_some further)
    running empty).trans ruled)

theorem exec_batchItem_bare_without_batch :
    exec (.batchItem h account none false false) s = .next (replied h (.refused .notFound []) (taken s)) :=
  request_of_admitted ha ((batchItem_opens (s := taken s) (itemInRange_bare first last) itemUnformed_bare
    running empty).trans openBatch_bare)

variable (room : s.hire.batches.length < 4)
include room

theorem exec_batchItem_new {n : Nat} {more : Bool} (fits : n ≤ 16777215)
    (ruled : batchTakes h.station account (some n) more false { account := account } (openCounted (taken s)) = (t, a)) :
    exec (.batchItem h account (some n) more false) s = .next (replied h a t) :=
  exec_batchItem_opens ha running first last empty fits (.inl rfl) ((openBatch_room (s := taken s) room).trans ruled)

theorem exec_batchItem_first {n : Nat} {more : Bool} (fits : n ≤ 16777215)
    (ruled : addItem h.station (firstBatch account) n (!more) (firstTaken h.station account s) = (t, a)) :
    exec (.batchItem h account (some n) more false) s = .next (replied h a t) :=
  exec_batchItem_new ha running first last empty room fits
    ((batchTakes_adds (b := { account := account }) rfl rfl).trans ruled)

end

/-! #### With an open batch (R115 to R119) -/

section
variable {b : Batch} (record : Table.look s.hire.batches h.station = some b)
include record

section
variable {t : State} {a : Answer}

theorem exec_batchItem_takes {n : Nat} {more abort : Bool} (fits : n ≤ 16777215) (further : abort = false ∨ more = true)
    (ruled : batchTakes h.station account (some n) more abort b (taken s) = (t, a)) :
    exec (.batchItem h account (some n) more abort) s = .next (replied h a t) :=
  request_of_admitted ha ((batchItem_takes (s := taken s) (itemInRange_some first last fits) (itemUnformed_some further)
    running record).trans ruled)

theorem exec_batchItem_takes_bare (ruled : batchTakes h.station account none false false b (taken s) = (t, a)) :
    exec (.batchItem h account none false false) s = .next (replied h a t) :=
  request_of_admitted ha ((batchItem_takes (s := taken s) (itemInRange_bare first last) itemUnformed_bare
    running record).trans ruled)

end

theorem itemFails_of_failBatch {n : Nat} (fits : n ≤ 16777215) {code : RefusalCode}
    (fails : ∀ more, batchTakes h.station account (some n) more false b (taken s) =
      failBatch h.station b.numbered code (!more) (itemTaken h.station b s)) : ItemFails h account n b code s :=
  ⟨exec_batchItem_takes ha running first last record fits (.inl rfl) ((fails true).trans (failBatch_further ..)),
    exec_batchItem_takes ha running first last record fits (.inl rfl) ((fails false).trans (failBatch_final ..))⟩

section
variable (failed : b.state = .failed)
include failed

theorem exec_batchItem_failed_further {n : Nat} {abort : Bool} (fits : n ≤ 16777215) :
    exec (.batchItem h account (some n) true abort) s =
      .next (replied h (batchFailedAnswer b.failure) (itemTaken h.station b s)) :=
  exec_batchItem_takes ha running first last record fits (.inr rfl)
    ((batchTakes_failed failed).trans (failedTakes_further ..))

theorem exec_batchItem_failed_final {serial : Option Nat} (fits : ∀ n, serial = some n → n ≤ 16777215) :
    exec (.batchItem h account serial false false) s =
      .next (replied h (batchFailedAnswer b.failure) (batchFailedClosed h.station b.items (itemTaken h.station b s))) := by
  have ruled := (batchTakes_failed (account := account) (serial := serial) (abort := false) failed).trans
    (failedTakes_final h.station b.numbered (itemTaken h.station b s))
  cases serial with
  | none => exact exec_batchItem_takes_bare ha running first last record ruled
  | some n => exact exec_batchItem_takes ha running first last record (fits n rfl) (.inl rfl) ruled

end

variable (opened : b.state = .opened)
include opened

section
variable (foreign : b.account ≠ account)
include foreign

theorem itemFails_of_foreign {n : Nat} (fits : n ≤ 16777215) : ItemFails h account n b .malformed s :=
  itemFails_of_failBatch ha running first last record fits fun _ => batchTakes_foreign opened foreign

theorem exec_batchItem_foreign_abort {n : Nat} (fits : n ≤ 16777215) :
    exec (.batchItem h account (some n) true true) s =
      .next (replied h (batchFailedAnswer (some (.malformed, b.numbered.itemCount)))
        (batchFailed h.station b.numbered .malformed (itemTaken h.station b s))) :=
  exec_batchItem_takes ha running first last record fits (.inr rfl)
    ((batchTakes_foreign opened foreign).trans (failBatch_further ..))

theorem exec_batchItem_foreign_bare :
    exec (.batchItem h account none false false) s =
      .next (replied h (batchFailedAnswer (some (.malformed, b.numbered.itemCount)))
        (batchFailedClosed h.station b.items
          (batchFailed h.station b.numbered .malformed (itemTaken h.station b s)))) :=
  exec_batchItem_takes_bare ha running first last record
    ((batchTakes_foreign opened foreign).trans (failBatch_final ..))

end

variable (own : b.account = account)
include own

section
variable {t : State} {a : Answer} {n : Nat} (fits : n ≤ 16777215)
include fits

theorem exec_batchItem_adds {more : Bool}
    (ruled : addItem h.station b.numbered n (!more) (itemTaken h.station b s) = (t, a)) :
    exec (.batchItem h account (some n) more false) s = .next (replied h a t) :=
  exec_batchItem_takes ha running first last record fits (.inl rfl) ((batchTakes_adds opened own).trans ruled)

theorem exec_batchItem_aborts (ruled : abortItem h.station b.numbered n (itemTaken h.station b s) = (t, a)) :
    exec (.batchItem h account (some n) true true) s = .next (replied h a t) :=
  exec_batchItem_takes ha running first last record fits (.inr rfl) ((batchTakes_aborts opened own).trans ruled)

theorem itemFails_of_addItem {code : RefusalCode}
    (fails : ∀ final, addItem h.station b.numbered n final (itemTaken h.station b s) =
      failBatch h.station b.numbered code final (itemTaken h.station b s)) : ItemFails h account n b code s :=
  itemFails_of_failBatch ha running first last record fits fun more => (batchTakes_adds opened own).trans (fails (!more))

variable (unlisted : n ∉ b.items)
include unlisted

theorem itemFails_of_full (full : 32 ≤ b.items.length) : ItemFails h account n b .batchFull s :=
  itemFails_of_addItem ha running first last record opened own fits fun _ => addItem_full (b := b.numbered) unlisted full

variable (room : b.items.length < 32)
include room

theorem itemFails_of_receiver {code : RefusalCode}
    (refusal : receiverRefusal s.params.issueThreshold (s.receiverBySerial n) = some code) : ItemFails h account n b code s :=
  itemFails_of_addItem ha running first last record opened own fits fun _ =>
    addItem_receiver_refused (b := b.numbered) unlisted room (by simpa using refusal)

theorem itemFails_of_account {slot : Nat} {r : Receiver} (passes : ReceiverPasses s n slot r) {code : RefusalCode}
    (refusal : lookRefusal s account = some code) : ItemFails h account n b code s :=
  itemFails_of_addItem ha running first last record opened own fits fun _ =>
    addItem_account_refused (b := b.numbered) unlisted room (passes.taken h.station b) own
      ((itemTaken_lookRefusal ..).trans refusal)

end

theorem exec_batchItem_finishes {t : State} {a : Answer}
    (ruled : finalStep h.station b.numbered (itemTaken h.station b s) = (t, a)) :
    exec (.batchItem h account none false false) s = .next (replied h a t) :=
  exec_batchItem_takes_bare ha running first last record ((batchTakes_finishes opened own).trans ruled)

theorem exec_batchItem_finish_fails {code : RefusalCode} (refusal : openManyRefusal s account b.items.length = some code) :
    exec (.batchItem h account none false false) s =
      .next (replied h (batchFailedAnswer (some (code, b.numbered.itemCount)))
        (batchFailedClosed h.station b.items (batchFailed h.station b.numbered code (itemTaken h.station b s)))) :=
  exec_batchItem_finishes ha running first last record opened own
    ((finalStep_refused (b := b.numbered) own ((itemTaken_openManyRefusal ..).trans refusal)).trans (failBatch_final ..))

end
end

/-- An item that opens a batch is taken as by the batch that it has just opened, counted (R114). -/
theorem exec_batchItem_eq_opened {h : Header} {account n : Nat} {more : Bool} {s : State} (ha : admitted controlDesk h s)
    (running : s.mode ≠ .setup) (first : 1 ≤ account) (last : account ≤ 65535) (fits : n ≤ 16777215)
    (empty : Table.look s.hire.batches h.station = none) (room : s.hire.batches.length < 4) :
    exec (.batchItem h account (some n) more false) s =
      exec (.batchItem h account (some n) more false) (writeBatch h.station { account := account } (openCounted s)) := by
  have record : Table.look (writeBatch h.station { account := account } (openCounted s)).hire.batches h.station =
      some { account := account } := Table.look_put_self ..
  have same := batchTakes_writeBatch h.station account (some n) more false { account := account } { account := account }
    (openCounted (taken s))
  rcases ruled : batchTakes h.station account (some n) more false { account := account } (openCounted (taken s))
    with ⟨t, a⟩
  exact (exec_batchItem_new ha running first last empty room fits ruled).trans
    (exec_batchItem_takes (s := writeBatch h.station { account := account } (openCounted s)) ha running first last record fits
      (.inl rfl) (same.trans ruled)).symm

/-- Settles O42: the operations on receivers and batches, the checks of an item, the items of a station without a batch, then those
that a FAILED batch, another account's and an OPEN one take, in the order of R115, and the final step. -/
theorem batchItems : Obligations.BatchItems := by
  refine ⟨fun serial s => ⟨freeReceiver_missing, fun slot r found => freeReceiver_found found⟩, fun _ _ => rfl,
    fun account serial slot n r a entries s found known => ?_, fun h account serial more abort s ha => ?_,
    fun h account serial more s ha running first last fits empty room => ?_,
    fun h account s ha running first last empty => ⟨fun serial fits => ?_, ?_, fun serial more fits full => ?_⟩,
    fun h account b s ha running first last record => ?_,
    fun h account s ha running first last => ?_⟩
  · rw [issueItem_found found, issueReceiver_found known]
  · have refused : ∀ {code}, itemRefusal (taken s) account serial more abort = some code →
        exec (.batchItem h account serial more abort) s = .next (replied h (.refused code []) (taken s)) :=
      fun refusal => request_of_admitted ha (batchItem_refused refusal)
    exact ⟨fun out => refused (itemRefusal_range out),
      fun inRange unformed => refused (itemRefusal_malformed inRange unformed),
      fun inRange formed setup => refused ((itemRefusal_formed inRange formed).trans (if_pos setup))⟩
  · exact exec_batchItem_eq_opened ha running first last fits empty room
  · exact exec_batchItem_opens ha running first last empty fits (.inr rfl) openBatch_abort
  · exact exec_batchItem_bare_without_batch ha running first last empty
  · exact exec_batchItem_opens ha running first last empty fits (.inl rfl) (openBatch_busy (s := taken s) full)
  · intro u numbered t refusal failing released fails
    refine ⟨fun code item failed failure => ?_, fun opened foreign => ⟨fun serial fits => ⟨?_, ?_⟩, ?_⟩,
      fun opened own => ⟨fun serial fits listed => ?_, fun serial fits unlisted => ?_, fun serial fits unlisted full => ?_,
        fun serial fits unlisted room => ?_, fun n a known => ?_⟩⟩
    · have further := fun {n abort} =>
        exec_batchItem_failed_further (n := n) (abort := abort) ha running first last record failed
      have final := fun {serial} => exec_batchItem_failed_final (serial := serial) ha running first last record failed
      rw [failure] at further final
      exact ⟨fun serial abort fits => further fits, fun serial fits => final fits⟩
    · exact itemFails_of_foreign ha running first last record opened foreign fits
    · exact exec_batchItem_foreign_abort ha running first last record opened foreign fits
    · exact exec_batchItem_foreign_bare ha running first last record opened foreign
    · exact exec_batchItem_adds ha running first last record opened own fits
        ((addItem_listed (b := b.numbered) listed).trans (settleItem_open opened))
    · exact exec_batchItem_aborts ha running first last record opened own fits
        (abortItem_unlisted (b := b.numbered) unlisted)
    · exact itemFails_of_full ha running first last record opened own fits unlisted full
    · have byReceiver : ∀ {code}, receiverRefusal s.params.issueThreshold (s.receiverBySerial serial) = some code →
          fails serial code := itemFails_of_receiver ha running first last record opened own fits unlisted room
      refine ⟨fun missing => byReceiver (by rw [missing]; rfl), fun slot r found => ?_⟩
      rw [found] at byReceiver
      have byState : ∀ {code}, stateRefusal r.state = some code → fails serial code := fun refusal =>
        byReceiver (receiverRefusal_of_state refusal)
      refine ⟨fun state => byState (state.elim (congrArg stateRefusal) (congrArg stateRefusal)),
        fun state => byState (congrArg stateRefusal state), fun state => byState (congrArg stateRefusal state),
        fun state => byState (congrArg stateRefusal state), fun state => byState (congrArg stateRefusal state),
        fun available => ⟨fun level known low => byReceiver (receiverRefusal_battery available known low),
          fun charged => ?_⟩⟩
      have byAccount : ∀ {code}, lookRefusal s account = some code → fails serial code :=
        itemFails_of_account ha running first last record opened own fits unlisted room ⟨found, available, charged⟩
      exact ⟨fun missing => byAccount (lookRefusal_missing missing),
        fun n a known suspended => byAccount (lookRefusal_suspended known suspended)⟩
    · have byAccount : ∀ {code}, openManyRefusal s account b.items.length = some code →
          exec (.batchItem h account none false false) s =
            .next (replied h (refusal code numbered.itemCount) (released (failing code))) :=
        exec_batchItem_finish_fails ha running first last record opened own
      exact ⟨fun suspended => byAccount (openManyRefusal_suspended known suspended),
        fun active above => byAccount (openManyRefusal_limit known active above)⟩
  · refine ⟨fun serial slot r n a fits empty room found available charged known active below => ?_,
      fun serial slot r n a fits empty room found available charged known active => ?_, fun b record opened own => ?_⟩
    · have passes : ReceiverPasses s serial slot r := ⟨found, available, charged⟩
      exact exec_batchItem_first ha running first last empty room fits
        (addItem_issues (b := firstBatch account) List.not_mem_nil (Nat.zero_lt_succ _) (passes.first h.station account) rfl
          ((firstTaken_accountByNumber ..).trans known) active below)
    · have passes : ReceiverPasses s serial slot r := ⟨found, available, charged⟩
      have holds := addItem_holds (station := h.station) (final := false) (b := firstBatch account) List.not_mem_nil
        (Nat.zero_lt_succ _) (passes.first h.station account) rfl ((firstTaken_accountByNumber ..).trans known) active
      refine ⟨_, exec_batchItem_first ha running first last empty room fits (holds.trans (settleItem_open rfl)), ?_, ?_, ?_,
        itemHeld_firstTaken_frame ..⟩
      · rw [itemHeld_hire]
        exact Table.look_put_self ..
      · rw [itemHeld_hire]
        exact Table.look_put_self ..
      · rw [itemHeld_hire]
        rfl
    · have adds := fun {serial more} fits {t a} => exec_batchItem_adds (n := serial) (more := more) (t := t) (a := a) ha
        running first last record opened own fits
      refine ⟨fun serial slot r n a fits unlisted room found available charged known active => ?_,
        fun serial fits unlisted room missing => ?_, fun serial slot r fits listed found => ?_,
        fun n a known active => ⟨fun within => ?_,
          fun serial slot r fits unlisted room found available charged within => ?_⟩⟩
      · have passes : ReceiverPasses s serial slot r := ⟨found, available, charged⟩
        exact adds fits ((addItem_holds (b := b.numbered) unlisted room (passes.taken h.station b) own
          ((itemTaken_accountByNumber ..).trans known) active).trans (settleItem_open opened))
      · have fails : ItemFails h account serial b .notFound s :=
          itemFails_of_receiver ha running first last record opened own fits unlisted room (by rw [missing]; rfl)
        exact fails.1
      · exact exec_batchItem_aborts ha running first last record opened own fits
          (abortItem_listed (b := b.numbered) opened listed ((itemTaken_receiverBySerial ..).trans found))
      · have passes : openManyRefusal (itemTaken h.station b s) account b.items.length = none := by
          rw [itemTaken_openManyRefusal, openManyRefusal_within known active within]
        have issues := finalStep_issues (station := h.station) (b := b.numbered) own passes
        exact ⟨exec_batchItem_finishes ha running first last record opened own issues,
          fun serial fits listed => adds fits ((addItem_listed (b := b.numbered) listed).trans issues)⟩
      · have passes : ReceiverPasses s serial slot r := ⟨found, available, charged⟩
        exact adds fits (addItem_issues (b := b.numbered) unlisted room (passes.taken h.station b) own
          ((itemTaken_accountByNumber ..).trans known) active within)

end Sys2Proof.Machine

/-! What a closure costs (R138), and the posting of its statement (R141 to R143). -/

namespace Sys2Proof.Machine

/-! ### Started blocks (R138) -/

theorem startedBlocks_eq_ceilDiv (minutes len : Nat) : startedBlocks minutes len = minutes ⌈/⌉ len :=
  (Nat.ceilDiv_eq_add_pred_div ..).symm

theorem startedBlocks_zero (len : Nat) : startedBlocks 0 len = 0 := by
  rw [startedBlocks_eq_ceilDiv, zero_ceilDiv]

section
variable {len : Nat} (positive : 0 < len)
include positive

/-- The started blocks cover the minutes. -/
theorem le_startedBlocks_mul (minutes : Nat) : minutes ≤ startedBlocks minutes len * len := by
  rw [startedBlocks_eq_ceilDiv, Nat.mul_comm]
  exact le_smul_ceilDiv positive

/-- The last of the blocks has been started: less than one block lies beyond the minutes. -/
theorem startedBlocks_mul_lt (minutes : Nat) : startedBlocks minutes len * len < minutes + len :=
  calc startedBlocks minutes len * len
    _ ≤ minutes + len - 1 := Nat.div_mul_le_self ..
    _ < minutes + len := by omega

end

/-! ### The statement applied to its account (R142 step 2, R143) -/

theorem saturates_debit {a : Account} {st : Statement} (debit : st.kind ≠ .recovered) :
    saturates a st = decide (16777215 < a.balance + st.amount) := by
  simp [saturates, debit]

theorem saturates_credit {a : Account} {st : Statement} (credit : st.kind = .recovered) : saturates a st = false := by
  simp [saturates, credit]

theorem charged_debit {a : Account} {st : Statement} (debit : st.kind ≠ .recovered) :
    a.charged st =
      { a with
        balance := min 16777215 (a.balance + st.amount)
        saturated := a.saturated || decide (16777215 < a.balance + st.amount)
        listening := min (a.listening + st.listening) 4294967295
        posted := bump a.posted } := by
  simp [Account.charged, saturates_debit debit, debit, satAdd, counterMax]

theorem charged_credit {a : Account} {st : Statement} (credit : st.kind = .recovered) :
    a.charged st =
      { a with
        balance := a.balance - st.amount
        listening := min (a.listening + st.listening) 4294967295
        posted := bump a.posted } := by
  simp [Account.charged, saturates_credit credit, credit, satAdd, counterMax]

section
variable {st : Statement} {s : State}

theorem applyStatement_missing (missing : s.accountByNumber st.account = none) :
    applyStatement st s = countAcct (fun k => { k with orphans := bump k.orphans }) s := by
  rw [applyStatement, missing]

theorem applyStatement_saturating {n : Nat} {a : Account} (found : s.accountByNumber st.account = some (n, a))
    (above : saturates a st = true) :
    applyStatement st s =
      setFlag .balanceSaturated
        (countAcct (fun k => { k with saturations := bump k.saturations }) (s.writeAccount n (a.charged st))) := by
  simp [applyStatement, found, above]

theorem applyStatement_within {n : Nat} {a : Account} (found : s.accountByNumber st.account = some (n, a))
    (within : saturates a st = false) : applyStatement st s = s.writeAccount n (a.charged st) := by
  simp [applyStatement, found, within]

theorem applyStatement_accounts {n : Nat} {a : Account} (found : s.accountByNumber st.account = some (n, a)) :
    (applyStatement st s).acct.accounts = Table.put n (a.charged st) s.acct.accounts := by
  cases above : saturates a st with
  | true => simp [applyStatement_saturating found above, countAcct, State.writeAccount]
  | false => simp [applyStatement_within found above, State.writeAccount]

/-- Of the accounting unit a statement applied changes its account and the counts of orphans and saturations. -/
theorem applyStatement_keeps (st : Statement) (s : State) :
    (applyStatement st s).acct.statements = s.acct.statements ∧
      (applyStatement st s).acct.counters.posted = s.acct.counters.posted ∧
      (applyStatement st s).acct.counters.credits = s.acct.counters.credits := by
  cases found : s.accountByNumber st.account with
  | none =>
    rw [applyStatement_missing found]
    exact ⟨rfl, rfl, rfl⟩
  | some e =>
    obtain ⟨n, a⟩ := e
    cases above : saturates a st with
    | true => simp [applyStatement_saturating found above, countAcct, State.writeAccount]
    | false => simp [applyStatement_within found above, State.writeAccount]

end

/-! ### The flags of the queue (R142 step 3) -/

theorem flagged_ite_setFlag {p : Prop} [Decidable p] (f g : NoticeFlag) (s : State) :
    (if p then setFlag f s else s).flagged g = true ↔ s.flagged g = true ∨ (g = f ∧ p) := by
  by_cases met : p
  · simp [met, flagged_setFlag, or_comm]
  · simp [met]

theorem flagQueue_flagged (s : State) (f : NoticeFlag) :
    (flagQueue s).flagged f = true ↔
      s.flagged f = true ∨ (f = .statementsHigh ∧ s.params.highWater ≤ s.acct.statements.length) ∨
        (f = .statementsFull ∧ 512 ≤ s.acct.statements.length) := by
  unfold flagQueue
  rw [flagged_ite_setFlag, flagged_ite_setFlag, or_assoc]

/-! ### The posting (R142) -/

/-- The state with the statement at the tail of the queue. -/
def withStatement (st : Statement) (s : State) : State :=
  s.modAcct fun u => { u with statements := u.statements ++ [st] }

section
variable (st : Statement) (s : State)

theorem withStatement_accountByNumber (number : Nat) :
    (withStatement st s).accountByNumber number = s.accountByNumber number := rfl

/-- To the statement applied, the posting adds to the accounting unit the counts of step 4. -/
theorem postStatement_acct :
    (postStatement st s).acct =
      let u := (applyStatement st (withStatement st s)).acct
      { u with
        counters :=
          { u.counters with
            posted := bump u.counters.posted
            credits := if st.kind = .recovered then bump u.counters.credits else u.counters.credits } } := by
  simp [postStatement, countAcct, withStatement]

theorem postStatement_statements : (postStatement st s).acct.statements = s.acct.statements ++ [st] := by
  obtain ⟨statements, -, -⟩ := applyStatement_keeps st (withStatement st s)
  rw [postStatement_acct]
  exact statements

theorem postStatement_posted : (postStatement st s).acct.counters.posted = bump s.acct.counters.posted := by
  obtain ⟨-, posted, -⟩ := applyStatement_keeps st (withStatement st s)
  rw [postStatement_acct]
  exact congrArg bump posted

theorem postStatement_flagged (f : NoticeFlag) :
    (postStatement st s).flagged f = true ↔
      (applyStatement st (withStatement st s)).flagged f = true ∨
        (f = .statementsHigh ∧ s.params.highWater ≤ s.acct.statements.length + 1) ∨
        (f = .statementsFull ∧ 512 ≤ s.acct.statements.length + 1) := by
  have length : (applyStatement st (withStatement st s)).acct.statements.length = s.acct.statements.length + 1 := by
    obtain ⟨statements, -, -⟩ := applyStatement_keeps st (withStatement st s)
    rw [statements]
    exact List.length_append
  have params : (applyStatement st (withStatement st s)).params = s.params := by
    simp [State.params, withStatement]
  rw [← length, ← params]
  exact flagQueue_flagged ..

end

section
variable {st : Statement} {s : State}

theorem postStatement_orphans (missing : s.accountByNumber st.account = none) :
    (postStatement st s).acct.accounts = s.acct.accounts ∧
      (postStatement st s).acct.counters.orphans = bump s.acct.counters.orphans := by
  have applied := applyStatement_missing ((withStatement_accountByNumber st s _).trans missing)
  rw [postStatement_acct, applied]
  exact ⟨rfl, rfl⟩

theorem postStatement_accounts {n : Nat} {a : Account} (found : s.accountByNumber st.account = some (n, a)) :
    (postStatement st s).acct.accounts = Table.put n (a.charged st) s.acct.accounts := by
  rw [postStatement_acct]
  exact applyStatement_accounts ((withStatement_accountByNumber st s _).trans found)

theorem postStatement_credits (credit : st.kind = .recovered) :
    (postStatement st s).acct.counters.credits = bump s.acct.counters.credits := by
  obtain ⟨-, -, credits⟩ := applyStatement_keeps st (withStatement st s)
  rw [postStatement_acct]
  simp only [credits, if_pos credit]
  rfl

theorem postStatement_saturated {n : Nat} {a : Account} (found : s.accountByNumber st.account = some (n, a))
    (above : saturates a st = true) : (postStatement st s).flagged .balanceSaturated = true := by
  have applied := applyStatement_saturating ((withStatement_accountByNumber st s _).trans found) above
  rw [postStatement_flagged, applied]
  exact .inl (flagged_setFlag_self ..)

end

/-! ### The obligations -/

/-- Settles O43: started blocks are the minutes divided by the block length, rounded up; the amounts are those of R138, stopped. -/
theorem chargesByTheStartedBlock : Obligations.ChargesByTheStartedBlock :=
  ⟨fun minutes _ positive =>
    ⟨startedBlocks_zero _, le_startedBlocks_mul positive minutes, startedBlocks_mul_lt positive minutes⟩,
    fun _ _ _ => ⟨rfl, rfl, rfl⟩⟩

/-- Settles O44, step by step of R142: the queue, its flags, the account or the orphan, the counters. -/
theorem postingAppliesTheAmount : Obligations.PostingAppliesTheAmount := by
  refine fun st s => ⟨postStatement_statements st s, postStatement_posted st s,
    fun full => (postStatement_flagged ..).mpr (.inr (.inr ⟨rfl, full⟩)),
    fun high => (postStatement_flagged ..).mpr (.inr (.inl ⟨rfl, high⟩)),
    postStatement_orphans, fun n a found debit => ?_, fun n a found credit => ?_⟩
  · rw [postStatement_accounts found, charged_debit debit]
    refine ⟨rfl, fun above => postStatement_saturated found ?_⟩
    rw [saturates_debit debit]
    exact decide_eq_true above
  · rw [postStatement_accounts found, charged_credit credit]
    exact ⟨rfl, postStatement_credits credit⟩

end Sys2Proof.Machine

/-! What an open and a close do to the duty queue (R151 to R153). -/

namespace Sys2Proof.Machine

/-! ### An open (R151, R152) -/

section
variable (slot b channel : Nat) {s : State}

theorem dutyOpen_room (room : s.acct.duty.length < 256) :
    dutyOpen slot b channel s =
      { s with acct :=
        { s.acct with
          duty := s.acct.duty ++
            [{ slot := slot, booth := b, channel := channel, start := s.now, startMinute := s.time.sessionMinute }]
          dutyCounters := { s.acct.dutyCounters with opened := bump s.acct.dutyCounters.opened } } } := by
  simp [dutyOpen, Config.dutyEntries, room, countDuty, appendEntry, newEntry, State.modAcct]

theorem dutyOpen_full (full : 256 ≤ s.acct.duty.length) : dutyOpen slot b channel s = spellUnlogged b s := by
  simp [dutyOpen, Config.dutyEntries, Nat.not_lt.mpr full]

end

/-- The mark of the booth leaves the accounting unit as it was, so the overflow is counted there (R152). -/
theorem spellUnlogged_eq (b : Nat) (s : State) :
    spellUnlogged b s =
      setFlag .dutyFull
        { s.modBooth b fun x => { x with unlogged := true } with acct :=
          { s.acct with
            dutyCounters := { s.acct.dutyCounters with overflows := bump s.acct.dutyCounters.overflows } } } := by
  simp [spellUnlogged, countDuty, State.modAcct]

/-! ### A close (R153) -/

/-- The entry is one that a close of the console in a slot completes. -/
def DutyEntry.opensAt (slot : Nat) (e : DutyEntry) : Bool := e.isOpen && decide (e.slot = slot)

/-- An entry after a close of the console in a slot. -/
def DutyEntry.afterClose (slot : Nat) (reason : EndReason) (stop : Clock) (e : DutyEntry) : DutyEntry :=
  if e.opensAt slot then e.completed reason stop else e

theorem dutyClose_eq (slot : Nat) (reason : EndReason) (s : State) :
    dutyClose slot reason s =
      { s with acct :=
        { s.acct with
          duty := s.acct.duty.map (DutyEntry.afterClose slot reason s.now)
          dutyCounters :=
            { s.acct.dutyCounters with
              completed := satAdd s.acct.dutyCounters.completed (s.acct.duty.countP (DutyEntry.opensAt slot)) } } } :=
  rfl

theorem opensAt_eq_false {slot : Nat} {e : DutyEntry} (complete : e.slot = slot → e.status = .complete) :
    e.opensAt slot = false := by
  by_cases own : e.slot = slot
  · simp [DutyEntry.opensAt, DutyEntry.isOpen, complete own]
  · simp [DutyEntry.opensAt, own]

theorem opensAt_eq_true {slot : Nat} {e : DutyEntry} (own : e.slot = slot) (opened : e.status = .opened) :
    e.opensAt slot = true := by
  simp [DutyEntry.opensAt, DutyEntry.isOpen, own, opened]

section
variable {slot : Nat} {l : List DutyEntry} (complete : ∀ e ∈ l, e.slot = slot → e.status = .complete)
include complete

theorem map_afterClose_of_complete (reason : EndReason) (stop : Clock) :
    l.map (DutyEntry.afterClose slot reason stop) = l := by
  have unchanged : ∀ e ∈ l, e.afterClose slot reason stop = id e := fun e mem => by
    simp [DutyEntry.afterClose, opensAt_eq_false (complete e mem)]
  rw [List.map_congr_left unchanged, List.map_id]

theorem countP_opensAt_of_complete : l.countP (DutyEntry.opensAt slot) = 0 :=
  List.countP_eq_zero.mpr fun e mem => by simp [opensAt_eq_false (complete e mem)]

end

theorem satAdd_zero_right {n : Nat} (within : n ≤ 4294967295) : satAdd n 0 = n := Nat.min_eq_left within

section
variable {slot : Nat} {s : State}

theorem dutyClose_of_complete (complete : ∀ e ∈ s.acct.duty, e.slot = slot → e.status = .complete)
    (within : s.acct.dutyCounters.completed ≤ 4294967295) (reason : EndReason) : dutyClose slot reason s = s := by
  rw [dutyClose_eq, map_afterClose_of_complete complete, countP_opensAt_of_complete complete, satAdd_zero_right within]

theorem dutyClose_of_opened {before rest : List DutyEntry} {e : DutyEntry} (split : s.acct.duty = before ++ e :: rest)
    (own : e.slot = slot) (opened : e.status = .opened)
    (others : ∀ d ∈ before ++ rest, d.slot = slot → d.status = .complete) (reason : EndReason) :
    dutyClose slot reason s =
      { s with acct :=
        { s.acct with
          duty := before ++ e.completed reason s.now :: rest
          dutyCounters := { s.acct.dutyCounters with completed := bump s.acct.dutyCounters.completed } } } := by
  obtain ⟨first, last⟩ := List.forall_mem_append.mp others
  have closes : e.opensAt slot = true := opensAt_eq_true own opened
  have duty : s.acct.duty.map (DutyEntry.afterClose slot reason s.now) = before ++ e.completed reason s.now :: rest := by
    rw [split, List.map_append, List.map_cons, map_afterClose_of_complete first, map_afterClose_of_complete last,
      DutyEntry.afterClose, if_pos closes]
  have one : s.acct.duty.countP (DutyEntry.opensAt slot) = 1 := by
    rw [split, List.countP_append, List.countP_cons_of_pos closes, countP_opensAt_of_complete first,
      countP_opensAt_of_complete last]
  rw [dutyClose_eq, duty, one]
  rfl

end

/-! ### The obligation -/

/-- Settles O22: an open by the room in the queue, a close by the OPEN entry of its console. -/
theorem dutyEntriesAreOpenedAndClosed : Obligations.DutyEntriesAreOpenedAndClosed := by
  refine ⟨fun slot b channel s => ⟨fun room => ?_, fun full => ?_⟩,
    fun slot reason s => ⟨fun complete within => ?_, fun before e rest split own opened others => ?_⟩⟩
  · exact dutyOpen_room slot b channel room
  · exact (dutyOpen_full slot b channel full).trans (spellUnlogged_eq b s)
  · exact dutyClose_of_complete complete within reason
  · exact dutyClose_of_opened split own opened others reason

end Sys2Proof.Machine

/-! The hall clock and its requests (R163, R167 to R169, R173); mains loss and the seconds of the backup cell (R174, R184,
R188). -/

namespace Sys2Proof.Machine

/-! ### The calendar (R163) -/

/-- From second 59 of minute 59 of hour 23 the clock is at the start of the next day. -/
theorem nextSecond_endOfDay {c : Clock} (second : 59 ≤ c.second) (minute : 59 ≤ c.minute) (hour : 23 ≤ c.hour) :
    nextSecond c = nextDay { c with second := 0, minute := 0, hour := 0 } := by
  rw [nextSecond, if_neg (by omega), if_neg (by omega), if_neg (by omega)]

/-- There is no next day exactly from the last day of the last month of 2099 on. -/
theorem nextDay_eq_none {c : Clock} :
    nextDay c = none ↔ daysIn c.year c.month ≤ c.day ∧ 12 ≤ c.month ∧ 2099 ≤ c.year := by
  unfold nextDay
  split
  · simp; omega
  split
  · simp; omega
  split
  · simp; omega
  · simp; omega

theorem nextSecond_eq_none {c : Clock} :
    nextSecond c = none ↔
      59 ≤ c.second ∧ 59 ≤ c.minute ∧ 23 ≤ c.hour ∧ daysIn c.year c.month ≤ c.day ∧ 12 ≤ c.month ∧ 2099 ≤ c.year := by
  unfold nextSecond
  split
  · simp; omega
  split
  · simp; omega
  split
  · simp; omega
  · rw [nextDay_eq_none]
    dsimp only
    omega

/-- The last second that fits the calendar is the one that has no next. -/
theorem nextSecond_eq_none_of_fits {c : Clock} (fits : clockFits c = true) :
    nextSecond c = none ↔ c = ⟨2099, 12, 31, 23, 59, 59⟩ := by
  refine ⟨fun last => ?_, fun e => e ▸ rfl⟩
  obtain ⟨year, month, day, hour, minute, second⟩ := c
  obtain ⟨second_ge, minute_ge, hour_ge, day_ge, month_ge, year_ge⟩ := nextSecond_eq_none.mp last
  simp only [clockFits, within, Bool.and_eq_true, decide_eq_true_eq] at fits
  obtain ⟨⟨⟨⟨⟨⟨_, year_le⟩, ⟨_, month_le⟩⟩, ⟨_, day_le⟩⟩, hour_le⟩, minute_le⟩, second_le⟩ := fits
  obtain rfl := Nat.le_antisymm year_le year_ge
  obtain rfl := Nat.le_antisymm month_le month_ge
  obtain rfl : day = 31 := Nat.le_antisymm day_le day_ge
  obtain rfl := Nat.le_antisymm hour_le hour_ge
  obtain rfl := Nat.le_antisymm minute_le minute_ge
  obtain rfl := Nat.le_antisymm second_le second_ge
  rfl

theorem nextSecond_carries (year month day hour minute second : Nat) (last : 59 ≤ second) :
    (minute < 59 →
      nextSecond ⟨year, month, day, hour, minute, second⟩ = some ⟨year, month, day, hour, minute + 1, 0⟩) ∧
    (59 ≤ minute → hour < 23 →
      nextSecond ⟨year, month, day, hour, minute, second⟩ = some ⟨year, month, day, hour + 1, 0, 0⟩) ∧
    (59 ≤ minute → 23 ≤ hour → day < daysIn year month →
      nextSecond ⟨year, month, day, hour, minute, second⟩ = some ⟨year, month, day + 1, 0, 0, 0⟩) ∧
    (59 ≤ minute → 23 ≤ hour → daysIn year month ≤ day → month < 12 →
      nextSecond ⟨year, month, day, hour, minute, second⟩ = some ⟨year, month + 1, 1, 0, 0, 0⟩) ∧
    (59 ≤ minute → 23 ≤ hour → daysIn year month ≤ day → 12 ≤ month → year < 2099 →
      nextSecond ⟨year, month, day, hour, minute, second⟩ = some ⟨year + 1, 1, 1, 0, 0, 0⟩) := by
  refine ⟨fun m => ?_, fun m h => ?_, fun m h d => ?_, fun m h d mo => ?_, fun m h d mo y => ?_⟩
  · rw [nextSecond, if_neg (by simpa using last), if_pos m]
  · rw [nextSecond, if_neg (by simpa using last), if_neg (by simpa using m), if_pos h]
  · rw [nextSecond_endOfDay last m h, nextDay, if_pos d]
  · rw [nextSecond_endOfDay last m h, nextDay, if_neg (by simpa using d), if_pos mo]
  · rw [nextSecond_endOfDay last m h, nextDay, if_neg (by simpa using d), if_neg (by simpa using mo), if_pos y]

theorem daysIn_of_thirty {month : Nat} (h : month ∈ [4, 6, 9, 11]) (year : Nat) : daysIn year month = 30 := by
  simp only [List.mem_cons, List.not_mem_nil, or_false] at h
  obtain rfl | rfl | rfl | rfl := h <;> rfl

theorem daysIn_of_thirtyOne {month : Nat} (h : month ∈ [1, 3, 5, 7, 8, 10, 12]) (year : Nat) : daysIn year month = 31 := by
  simp only [List.mem_cons, List.not_mem_nil, or_false] at h
  obtain rfl | rfl | rfl | rfl | rfl | rfl | rfl := h <;> rfl

theorem advanceClock_some {s : State} {c : Clock} (h : nextSecond s.now = some c) :
    advanceClock s = { s with time := { s.time with clock := c } } := by
  have next : nextSecond s.time.clock = some c := h
  simp [advanceClock, State.modTime, next]

theorem advanceClock_none {s : State} (h : nextSecond s.now = none) :
    advanceClock s = { s with time := { s.time with clock := ⟨2000, 1, 1, 0, 0, 0⟩, valid := false } } := by
  have last : nextSecond s.time.clock = none := h
  simp [advanceClock, State.modTime, last, clockEpoch]

/-- The clock shows the next second, or the epoch where there is none. -/
theorem advanceClock_now (s : State) : (advanceClock s).now = (nextSecond s.now).getD clockEpoch := by
  cases h : nextSecond s.now with
  | none => rw [advanceClock_none h]; rfl
  | some c => rw [advanceClock_some h]; rfl

/-! ### SET CLOCK, LOAD of an alarm, CLEAR ALARM (R167 to R169, R173) -/

section
variable {h : Header} {s : State}

theorem exec_setClock (ad : admitted controlOnly h s) (value : Clock) :
    exec (.setClock h value) s = .next (replied h (setClock value (taken s)).2 (setClock value (taken s)).1) :=
  congrArg Host.Outcome.next (serve_of_admitted ad _)

theorem exec_loadAlarm (ad : admitted controlOnly h s) (name : Option AlarmName) (day : Nat) (dayOn : Bool) (hour : Nat)
    (hourOn : Bool) (minute : Nat) (minuteOn : Bool) :
    exec (.loadAlarm h name day dayOn hour hourOn minute minuteOn) s =
      .next (replied h (loadAlarm name day dayOn hour hourOn minute minuteOn (taken s)).2
        (loadAlarm name day dayOn hour hourOn minute minuteOn (taken s)).1) :=
  congrArg Host.Outcome.next (serve_of_admitted ad _)

theorem exec_clearAlarm (ad : admitted controlOnly h s) (name : Option AlarmName) :
    exec (.clearAlarm h name) s = .next (replied h (clearAlarm name (taken s)).2 (clearAlarm name (taken s)).1) :=
  congrArg Host.Outcome.next (serve_of_admitted ad _)

end

theorem setClock_refused {value : Clock} (h : clockFits value = false) (s : State) :
    setClock value s = refuse .range s := by
  simp [setClock, h]

theorem setClock_accepted {value : Clock} (h : clockFits value = true) (s : State) :
    setClock value s =
      accept (clockSetFields (clockSetOf s value))
        (countClock (fun k => { k with sets := bump k.sets })
          (s.modTime fun t => { t with clock := value, valid := true, clockSet := some (clockSetOf s value) })) := by
  simp [setClock, h]

/-- The reply to SET CLOCK: the value before, or that it was INVALID, then the new one and the session minute (R167). -/
theorem clockSetFields_clockSetOf (s : State) (value : Clock) :
    clockSetFields (clockSetOf s value) =
      (if s.time.valid = true then [.kind false, .clock s.now] else [.kind true, .name "INVALID"]) ++
        [.clock value, .num s.time.sessionMinute] := by
  unfold clockSetFields clockSetOf
  cases s.time.valid with
  | true => rfl
  | false => rfl

theorem alarmFits_iff {day hour minute : Nat} :
    alarmFits day hour minute = true ↔ 1 ≤ day ∧ day ≤ 31 ∧ hour ≤ 23 ∧ minute ≤ 59 := by
  simp [alarmFits, within, and_assoc]

theorem loadAlarm_refused {name : Option AlarmName} {day hour minute : Nat}
    (h : name = none ∨ ¬(1 ≤ day ∧ day ≤ 31 ∧ hour ≤ 23 ∧ minute ≤ 59)) (dayOn hourOn minuteOn : Bool) (s : State) :
    loadAlarm name day dayOn hour hourOn minute minuteOn s = refuse .range s := by
  cases name with
  | none => rfl
  | some name =>
    have unfit : ¬(alarmFits day hour minute = true) := by simpa [alarmFits_iff] using h
    simp [loadAlarm, unfit]

theorem loadAlarm_accepted (name : AlarmName) {day hour minute : Nat} (h : alarmFits day hour minute = true)
    (dayOn hourOn minuteOn : Bool) (s : State) :
    loadAlarm (some name) day dayOn hour hourOn minute minuteOn s =
      accept [] (modAlarm name (fun a => ⟨day, dayOn, hour, hourOn, minute, minuteOn, false, none, a.pendingEffect⟩) s) := by
  simp [loadAlarm, h]

/-- Settles O47: the calendar by the carries of a second, then each request by what its owner rules. -/
theorem theClockKeepsTheCalendar : Obligations.TheClockKeepsTheCalendar := by
  refine ⟨⟨fun c d => nextSecond_fits, fun c => nextSecond_eq_none_of_fits, fun c h => if_pos h, nextSecond_carries,
    fun _ => rfl, fun year month h => daysIn_of_thirty h year, fun year month h => daysIn_of_thirtyOne h year,
    fun s c => advanceClock_some, fun s => advanceClock_none⟩, fun h s ad => ⟨fun value bad => ?_,
      fun name day dayOn hour hourOn minute minuteOn bad => ?_, exec_clearAlarm ad none, fun value fits => ?_,
      fun name day dayOn hour hourOn minute minuteOn d d' hr mi => ?_, fun name => exec_clearAlarm ad (some name)⟩⟩
  · rw [exec_setClock ad, setClock_refused bad]
    rfl
  · rw [exec_loadAlarm ad, loadAlarm_refused bad]
    rfl
  · rw [exec_setClock ad, setClock_accepted fits, clockSetFields_clockSetOf]
    simp only [taken_time, taken_now]
    rfl
  · rw [exec_loadAlarm ad, loadAlarm_accepted name (alarmFits_iff.mpr ⟨d, d', hr, mi⟩)]
    rfl

/-! ### Mains loss (R184) -/

/-- A message is lost at the service port, and every other event at its block (R184). -/
theorem exec_mainsLost {c : Instr} {s : State} (lost : s.supply.mainsLost = true) (notSecond : c ≠ .backupSecond)
    (notReturn : ∀ e, c ≠ .mainsReturn e) : exec c s = .next s := by
  cases c with
  | backupSecond => exact absurd rfl notSecond
  | mainsReturn e => exact absurd rfl (notReturn e)
  | messageDropped bytes =>
    show execMessageDropped bytes s = .next s
    rw [execMessageDropped, messageLost_mains lost]
  | blockTick | displayEnd | secondTick | offerExpiry | outOfRange | batchTimeout | minuteTick | turnDue | alarmMatch
  | returnByEffect | sessionCloseEffect | loopReturn | consoleAbsent | loopBroken | floorBlockArrival | receiverReport
  | outboundSend | mainsLoss | backupLowIndication =>
    exact congrArg Host.Outcome.next (whileMains_lost _ lost)
  | _ => exact congrArg Host.Outcome.next (takeMessage_mains _ lost)

/-! ### The backup-low indication (R188) -/

theorem takeBackup_again {s : State} (low : s.supply.backupLow = true) : takeBackup true s = s := by
  simp [takeBackup, low]

theorem takeBackup_new {s : State} (normal : s.supply.backupLow = false) :
    takeBackup true s =
      setFlag .backupLow
        { s with supply :=
          { s.supply with
            backupLow := true
            counters := { s.supply.counters with backupLows := bump s.supply.counters.backupLows } } } := by
  simp [takeBackup, normal, countMode, State.modSupply]

theorem exec_backupLowIndication {s : State} (present : s.supply.mainsLost = false) (low : Bool) :
    exec (.backupLowIndication low) s = .next (takeBackup low s) :=
  congrArg Host.Outcome.next (whileMains_present _ present)

/-- Settles O51: commands while mains is lost by what takes them, the indication by the backup state, a second of the cell by its
equation. -/
theorem mainsLossAndBackup : Obligations.MainsLossAndBackup := by
  refine ⟨fun c s => exec_mainsLost, fun s => ⟨fun present => ⟨?_, exec_backupLowIndication present false, fun low => ?_,
    fun normal => ?_⟩, fun lost => ?_⟩⟩
  · exact congrArg Host.Outcome.next (whileMains_present mainsLoss present)
  · rw [exec_backupLowIndication present, takeBackup_again low]
  · rw [exec_backupLowIndication present, takeBackup_new normal]
  · rw [exec_backupSecond lost, backupSecond_eq, advanceClock_time]
    refine ⟨_, rfl, advanceClock_now s, rfl, fun early => ?_⟩
    have noMinute : decide (59 ≤ s.now.second) = false := decide_eq_false (by omega)
    rw [noMinute]
    exact ⟨rfl, rfl⟩

end Sys2Proof.Machine

/-! The ticks: the takings of a tick in the order that its command names (R162 to R165, R170), and what a block tick does to the
phase, the clock and the session minute. -/

namespace Sys2Proof.Machine

/-! ### Lists without what they repeat -/

section
variable {α : Type} [BEq α] [LawfulBEq α]

theorem find?_eraseDups (p : α → Bool) (l : List α) : l.eraseDups.find? p = l.find? p := by
  match l with
  | [] => rfl
  | a :: l =>
    rw [List.eraseDups_cons, List.find?_cons, List.find?_cons]
    cases ha : p a with
    | true => rfl
    | false =>
      dsimp only
      rw [find?_eraseDups p, List.find?_filter]
      refine List.find?_congr fun b _ => ?_
      cases e : b == a with
      | false => simp
      | true => simp [eq_of_beq e, ha]
termination_by l.length
decreasing_by exact Nat.lt_succ_of_le (List.length_filter_le _ l)

theorem nodup_eraseDups (l : List α) : l.eraseDups.Nodup := by
  match l with
  | [] => exact List.nodup_nil
  | a :: l =>
    rw [List.eraseDups_cons]
    exact List.nodup_cons.mpr ⟨by simp [List.mem_eraseDups], nodup_eraseDups _⟩
termination_by l.length
decreasing_by exact Nat.lt_succ_of_le (List.length_filter_le _ l)

end

/-- The first member of a part of a list is the first entry of the list that is in the part. -/
theorem find?_mem_of_sublist {α : Type} [DecidableEq α] {part l : List α} (sub : part.Sublist l) (nodup : l.Nodup) :
    l.find? (fun x => decide (x ∈ part)) = part.head? := by
  induction sub with
  | slnil => rfl
  | @cons part l a sub ih =>
    obtain ⟨notMem, nodup⟩ := List.nodup_cons.mp nodup
    rw [List.find?_cons_of_neg (by simpa using fun mem => notMem (sub.subset mem)), ih nodup]
  | cons_cons a sub ih => rw [List.find?_cons_of_pos (by simp), List.head?_cons]

/-! ### The order of the takings (log 4) -/

/-- The takings there are, in the order in which those that no order names are taken. -/
def allTakings : List Taking :=
  [.departure, .resolution, .notes, .displayEnds, .clock, .offers, .ranges, .channelMinutes, .turns, .loans, .duties,
    .returnByEffect, .sessionCloseEffect]

theorem mem_allTakings (x : Taking) : x ∈ allTakings := by cases x <;> decide

theorem allTakings_nodup : allTakings.Nodup := by decide

/-- The order that a command names, the takings it leaves out behind. -/
def takingLine (order : List Taking) : List Taking := (order ++ allTakings).eraseDups

theorem mem_takingLine (order : List Taking) (x : Taking) : x ∈ takingLine order :=
  List.mem_eraseDups.mpr (List.mem_append_right _ (mem_allTakings x))

theorem takingLine_nodup (order : List Taking) : (takingLine order).Nodup := nodup_eraseDups _

/-- The next taking is the first of the line that is due. -/
theorem pickTaking_eq {due : List Taking} (sub : due.Sublist allTakings) (order : List Taking) :
    pickTaking order due = (takingLine order).find? fun x => decide (x ∈ due) := by
  unfold pickTaking takingLine
  rw [find?_eraseDups, List.find?_append, find?_mem_of_sublist sub allTakings_nodup]
  simp only [List.contains_eq_mem]
  cases order.find? fun x => decide (x ∈ due) with
  | none => rfl
  | some t => rfl

/-! ### Takings one after another -/

/-- One taking, what it gives rise to left aside. -/
def takeIn (s : State) (x : Taking) : State := (takeOne x s).1

/-- Only the clock hands on further takings. -/
theorem takeOne_issues_none {x : Taking} (h : x ≠ .clock) (s : State) : (takeOne x s).2 = [] := by
  cases x with
  | clock => exact absurd rfl h
  | _ => rfl

/-- The takings of a line that are due. -/
def dueIn (order due : List Taking) : List Taking := (takingLine order).filter fun x => decide (x ∈ due)

theorem mem_dueIn {order due : List Taking} {x : Taking} : x ∈ dueIn order due ↔ x ∈ due := by
  simp [dueIn, mem_takingLine]

theorem dueIn_nodup (order due : List Taking) : (dueIn order due).Nodup := (takingLine_nodup order).filter _

theorem runTakings_step {order due rest : List Taking} {x : Taking} (sub : due.Sublist allTakings)
    (line : dueIn order due = x :: rest) (n : Nat) (s : State) :
    runTakings order (n + 1) due s =
      runTakings order n (due.filter (fun y => y ≠ x) ++ (takeOne x s).2) (takeOne x s).1 := by
  have pick : pickTaking order due = some x := by
    rw [pickTaking_eq sub, ← List.head?_filter]
    exact congrArg List.head? line
  rw [runTakings, pick]

theorem runTakings_done (order : List Taking) (n : Nat) (s : State) : runTakings order n [] s = s := by
  cases n with
  | zero => rfl
  | succ n =>
    have pick : pickTaking order [] = none := by
      rw [pickTaking_eq (List.nil_sublist _)]
      exact List.find?_eq_none.mpr fun x _ => by simp
    rw [runTakings, pick]

theorem dueIn_filter (order due : List Taking) (p : Taking → Bool) : dueIn order (due.filter p) = (dueIn order due).filter p := by
  simp [dueIn, List.filter_filter, Bool.and_comm]

/-- What is left of the line once its first takings have been taken. -/
theorem dueIn_drop {order before rest due : List Taking} (line : dueIn order due = before ++ rest) :
    dueIn order (due.filter fun y => decide (y ∉ before)) = rest := by
  have nodup : (before ++ rest).Nodup := line ▸ dueIn_nodup order due
  obtain ⟨_, _, apart⟩ := List.nodup_append.mp nodup
  have taken : (before.filter fun y => decide (y ∉ before)) = [] :=
    List.filter_eq_nil_iff.mpr fun y mem => by simpa using mem
  have left : (rest.filter fun y => decide (y ∉ before)) = rest :=
    List.filter_eq_self.mpr fun y mem => by simpa using fun old => apart y old y mem rfl
  rw [dueIn_filter, line, List.filter_append, taken, left, List.nil_append]

/-- The takings before the clock are taken as the line has them, and leave the others due. -/
theorem runTakings_before {order before rest due : List Taking} (sub : due.Sublist allTakings)
    (line : dueIn order due = before ++ rest) (noClock : .clock ∉ before) (n : Nat) (s : State) :
    runTakings order (before.length + n) due s =
      runTakings order n (due.filter fun y => decide (y ∉ before)) (before.foldl takeIn s) := by
  induction before generalizing due s with
  | nil => simp
  | cons x before ih =>
    obtain ⟨notClock, noClock⟩ := not_or.mp (mt List.mem_cons.mpr noClock)
    have tail : dueIn order (due.filter fun y => y ≠ x) = before ++ rest := by
      simpa using dueIn_drop (before := [x]) line
    rw [List.length_cons, Nat.add_right_comm, runTakings_step sub line,
      takeOne_issues_none (Ne.symm notClock), List.append_nil,
      ih (List.filter_sublist.trans sub) tail noClock, List.filter_filter]
    simp [takeIn, Bool.and_comm]

/-- No clock among them, the takings that are due are taken as the line has them. -/
theorem runTakings_eq {order due : List Taking} (sub : due.Sublist allTakings) (noClock : .clock ∉ due) {n : Nat}
    (fuel : (dueIn order due).length ≤ n) (s : State) :
    runTakings order n due s = (dueIn order due).foldl takeIn s := by
  obtain ⟨spare, rfl⟩ := Nat.exists_eq_add_of_le fuel
  have none : (due.filter fun y => decide (y ∉ dueIn order due)) = [] :=
    List.filter_eq_nil_iff.mpr fun x mem => by simpa [mem_dueIn] using mem
  rw [runTakings_before sub (List.append_nil _).symm (mt mem_dueIn.mp noClock), none, runTakings_done]

/-- The fuel of a tick is enough for takings that do not repeat. -/
theorem length_le_takingCount {l : List Taking} (nodup : l.Nodup) : l.length ≤ takingCount :=
  (List.subperm_of_subset nodup fun x _ => mem_allTakings x).length_le

/-! ### A minute tick at the time base (R164, R165, R170) -/

/-- The state once RETURN_BY has been evaluated at a minute tick (R170). -/
def returnByEvaluated (s : State) : State := if alarmMatches .returnBy s = true then recordMatch .returnBy s else s

/-- The evaluation of both alarms: RETURN_BY, then SESSION_CLOSE in the state that leaves (R170). -/
theorem evaluateAlarms_eq (s : State) :
    evaluateAlarms s =
      (if alarmMatches .sessionClose (returnByEvaluated s) = true then recordMatch .sessionClose (returnByEvaluated s)
        else returnByEvaluated s,
      (if alarmMatches .returnBy s = true then [.returnByEffect] else []) ++
        (if alarmMatches .sessionClose (returnByEvaluated s) = true then [.sessionCloseEffect] else [])) := by
  have first : evaluateAlarm (s, []) .returnBy =
      (returnByEvaluated s, if alarmMatches .returnBy s = true then [.returnByEffect] else []) := by
    unfold evaluateAlarm returnByEvaluated
    split
    · rfl
    · rfl
  show evaluateAlarm (evaluateAlarm (s, []) .returnBy) .sessionClose = _
  rw [first, evaluateAlarm]
  cases alarmMatches .sessionClose (returnByEvaluated s) with
  | true => rfl
  | false => exact congrArg (Prod.mk _) (List.append_nil _).symm

/-- A minute tick begins: the session minute counter rises (R165). -/
def minuteBegun (s : State) : State :=
  { s with time := { s.time with sessionMinute := (s.time.sessionMinute + 1) % 4294967296 } }

/-- The time base's part of a minute tick, written out (R164, R165, R170). -/
def minuteIssued (s : State) : State × List Taking :=
  let first := returnByEvaluated (minuteBegun s)
  (if alarmMatches .sessionClose first = true then recordMatch .sessionClose first else first,
    minuteTakings ++ (if alarmMatches .returnBy (minuteBegun s) = true then [.returnByEffect] else []) ++
      (if alarmMatches .sessionClose first = true then [.sessionCloseEffect] else []))

theorem issueMinute_eq (s : State) : issueMinute s = minuteIssued s := by
  have begun : (s.modTime fun t => { t with sessionMinute := (t.sessionMinute + 1) % (counterMax + 1) }) = minuteBegun s := rfl
  rw [issueMinute, begun, evaluateAlarms_eq, minuteIssued, List.append_assoc]

theorem takeClock_eq (s : State) :
    takeClock s = if s.now.second < 59 then (advanceClock s, []) else minuteIssued (advanceClock s) := by
  unfold takeClock rollsOver
  rw [issueMinute_eq]
  by_cases early : s.now.second < 59
  · rw [if_pos early, if_neg (by simpa using early)]
  · rw [if_neg early, if_pos (by simpa using early)]

/-- What the time base can hand on: a minute tick with the effects of the alarms that matched (R164, R170). -/
def minuteAndEffects : List Taking := minuteTakings ++ [.returnByEffect] ++ [.sessionCloseEffect]

theorem ite_singleton_sublist {α : Type} (p : Prop) [Decidable p] (x : α) : (if p then [x] else []).Sublist [x] := by
  split
  · exact List.Sublist.refl _
  · exact List.nil_sublist _

theorem minuteIssued_issues (s : State) : (minuteIssued s).2.Sublist minuteAndEffects :=
  ((List.Sublist.refl _).append (ite_singleton_sublist ..)).append (ite_singleton_sublist ..)

theorem takeClock_issues (s : State) : (takeClock s).2.Sublist minuteAndEffects := by
  rw [takeClock_eq]
  split
  · exact List.nil_sublist _
  · exact minuteIssued_issues _

/-! ### A second tick in the line (R162 to R164) -/

/-- The takings handed on that stand before the clock in the line. -/
def takingsBefore (handed order : List Taking) : List Taking :=
  ((takingLine order).takeWhile fun x => decide (x ≠ .clock)).filter fun x => decide (x ∈ handed)

/-- The takings that stand behind the clock, or that it hands on. -/
def takingsAfter (handed order issued : List Taking) : List Taking :=
  (takingLine order).filter fun x =>
    decide ((x ∈ handed ∨ x ∈ issued) ∧ x ≠ .clock ∧ x ∉ takingsBefore handed order)

/-- A tick with the clock in it: the takings before the clock, the clock, the takings behind it and those that it handed on. -/
def secondTaken (handed order : List Taking) (s : State) : State :=
  let clock := takeOne .clock ((takingsBefore handed order).foldl takeIn s)
  (takingsAfter handed order clock.2).foldl takeIn clock.1

theorem clock_notMem_takingsBefore (handed order : List Taking) : .clock ∉ takingsBefore handed order := fun mem => by
  simpa using List.mem_takeWhile_imp (List.mem_of_mem_filter mem)

theorem mem_of_mem_takingsBefore {handed order : List Taking} {x : Taking} (mem : x ∈ takingsBefore handed order) :
    x ∈ handed := by
  simpa using (List.mem_filter.mp mem).2

theorem clock_notMem_takingsAfter (handed order issued : List Taking) : .clock ∉ takingsAfter handed order issued := fun mem => by
  simpa using (List.mem_filter.mp mem).2

theorem dueIn_split (order : List Taking) {handed : List Taking} (clock : .clock ∈ handed) :
    ∃ rest, dueIn order handed = takingsBefore handed order ++ .clock :: rest := by
  obtain ⟨first, last, line, notMem⟩ := List.eq_append_cons_of_mem (mem_takingLine order .clock)
  have before : (takingLine order).takeWhile (fun x => decide (x ≠ .clock)) = first := by
    rw [line, List.takeWhile_append_of_pos fun x mem => by simpa using fun e : x = .clock => notMem (e ▸ mem)]
    simp
  refine ⟨last.filter fun x => decide (x ∈ handed), ?_⟩
  rw [takingsBefore, before, dueIn, line, List.filter_append, List.filter_cons_of_pos (by simpa using clock)]

/-- What is due once the clock has been taken: what it was handed with and has not been taken, and what it issued. -/
def dueAfterClock (handed order issued : List Taking) : List Taking :=
  ((handed.filter fun y => decide (y ∉ takingsBefore handed order)).filter fun y => y ≠ .clock) ++ issued

section
variable {handed issued : List Taking} (sub : (handed ++ minuteAndEffects).Sublist allTakings)
  (issues : issued.Sublist minuteAndEffects)
include sub issues

theorem dueAfterClock_sublist (order : List Taking) : (dueAfterClock handed order issued).Sublist allTakings :=
  ((List.filter_sublist.trans List.filter_sublist).append issues).trans sub

theorem mem_dueAfterClock (order : List Taking) (clock : .clock ∈ handed) (x : Taking) :
    x ∈ dueAfterClock handed order issued ↔
      (x ∈ handed ∨ x ∈ issued) ∧ x ≠ .clock ∧ x ∉ takingsBefore handed order := by
  obtain ⟨_, _, apart⟩ := List.nodup_append.mp (sub.nodup allTakings_nodup)
  have new : x ∈ issued → x ∉ handed := fun mem old => apart x old x (issues.subset mem) rfl
  have notClock : x ∈ issued → x ≠ .clock := fun mem e => new mem (e ▸ clock)
  have notBefore : x ∈ issued → x ∉ takingsBefore handed order := fun mem old => new mem (mem_of_mem_takingsBefore old)
  simp only [dueAfterClock, List.mem_append, List.mem_filter, decide_eq_true_eq]
  tauto

theorem dueIn_dueAfterClock (order : List Taking) (clock : .clock ∈ handed) :
    dueIn order (dueAfterClock handed order issued) = takingsAfter handed order issued :=
  List.filter_congr fun x _ => decide_eq_decide.mpr (mem_dueAfterClock sub issues order clock x)

end

/-- The takings before the clock, the clock and those behind it are different ones: there is fuel for them all. -/
theorem secondTakings_fuel (handed order issued : List Taking) :
    (takingsBefore handed order).length + (takingsAfter handed order issued).length + 1 ≤ takingCount := by
  have nodup : (takingsBefore handed order ++ .clock :: takingsAfter handed order issued).Nodup := by
    have line := takingLine_nodup order
    refine List.nodup_append.mpr ⟨(line.sublist (List.takeWhile_sublist _)).filter _,
      List.nodup_cons.mpr ⟨clock_notMem_takingsAfter _ _ _, line.filter _⟩, ?_⟩
    rintro x inBefore y mem rfl
    obtain rfl | mem := List.mem_cons.mp mem
    · exact clock_notMem_takingsBefore handed order inBefore
    · obtain ⟨_, due⟩ := List.mem_filter.mp mem
      simp [inBefore] at due
  simpa [Nat.add_assoc] using length_le_takingCount nodup

/-- A tick with the clock in it, in the order of its line. -/
theorem runTakings_second {handed : List Taking} (order : List Taking) (sub : (handed ++ minuteAndEffects).Sublist allTakings)
    (clock : .clock ∈ handed) (s : State) : runTakings order takingCount handed s = secondTaken handed order s := by
  obtain ⟨rest, line⟩ := dueIn_split order clock
  have subHanded : handed.Sublist allTakings := (List.sublist_append_left ..).trans sub
  have before := fun n => runTakings_before subHanded line (clock_notMem_takingsBefore handed order) n s
  unfold secondTaken
  generalize (takingsBefore handed order).foldl takeIn s = t at before
  have issues : (takeOne .clock t).2.Sublist minuteAndEffects := takeClock_issues t
  have subAfter := dueAfterClock_sublist sub issues order
  have after := dueIn_dueAfterClock sub issues order clock
  have noClock : .clock ∉ dueAfterClock handed order (takeOne .clock t).2 := fun mem =>
    clock_notMem_takingsAfter handed order _ (after ▸ mem_dueIn.mpr mem)
  obtain ⟨spare, count⟩ := Nat.exists_eq_add_of_le (secondTakings_fuel handed order (takeOne .clock t).2)
  generalize fuel : (takingsAfter handed order (takeOne .clock t).2).length + spare = n at count
  calc runTakings order takingCount handed s
      = runTakings order ((takingsBefore handed order).length + (n + 1)) handed s := by
        rw [show takingCount = (takingsBefore handed order).length + (n + 1) by omega]
    _ = runTakings order (n + 1) (handed.filter fun y => decide (y ∉ takingsBefore handed order)) t := before _
    _ = runTakings order n (dueAfterClock handed order (takeOne .clock t).2) (takeOne .clock t).1 :=
        runTakings_step (List.filter_sublist.trans subHanded) (dueIn_drop line) n t
    _ = (takingsAfter handed order (takeOne .clock t).2).foldl takeIn (takeOne .clock t).1 := by
        rw [runTakings_eq subAfter noClock (by rw [after, ← fuel]; exact Nat.le_add_right ..), after]

/-! ### The three ticks -/

/-- A block tick begins: the phase, and an empty air block set (R162, R16). -/
def tickStarted (phase : Nat) (s : State) : State :=
  { s with time := { s.time with phase := phase }, air := { s.air with port := {} } }

section
variable {s : State} (present : s.supply.mainsLost = false) (order : List Taking)
include present

theorem exec_blockTick_short (short : s.time.phase + 1 < 500) :
    exec (.blockTick order) s = .next ((dueIn order blockTakings).foldl takeIn (tickStarted (s.time.phase + 1) s)) := by
  have goesOn : phaseEnds s = false := decide_eq_false (Nat.not_le.mpr short)
  have started : startTick s = tickStarted (s.time.phase + 1) s := by
    rw [startTick, goesOn]
    rfl
  refine congrArg Host.Outcome.next ((whileMains_present _ present).trans ?_)
  rw [blockTick, goesOn, started]
  exact runTakings_eq (by decide) (by decide) (length_le_takingCount (dueIn_nodup ..)) _

theorem exec_blockTick_500th (last : s.time.phase + 1 = 500) :
    exec (.blockTick order) s = .next (secondTaken (blockTakings ++ secondTakings) order (tickStarted 0 s)) := by
  have ends : phaseEnds s = true := decide_eq_true (Nat.le_of_eq last.symm)
  have started : startTick s = tickStarted 0 s := by
    rw [startTick, ends]
    rfl
  refine congrArg Host.Outcome.next ((whileMains_present _ present).trans ?_)
  rw [blockTick, ends, started]
  exact runTakings_second order (by decide) (by decide) _

theorem exec_secondTick : exec (.secondTick order) s = .next (secondTaken secondTakings order s) := by
  refine congrArg Host.Outcome.next ((whileMains_present _ present).trans ?_)
  exact runTakings_second order (by decide) (by decide) s

theorem exec_minuteTick :
    exec (.minuteTick order) s = .next ((dueIn order (minuteIssued s).2).foldl takeIn (minuteIssued s).1) := by
  have issues := minuteIssued_issues s
  have noClock : .clock ∉ (minuteIssued s).2 := fun mem => absurd (issues.subset mem) (by decide)
  refine congrArg Host.Outcome.next ((whileMains_present _ present).trans ?_)
  rw [minuteTick, issueMinute_eq]
  exact runTakings_eq (issues.trans (by decide)) noClock (length_le_takingCount (dueIn_nodup ..)) _

end

/-- Settles O4: the clock by where its seconds stand; each tick by the line of the takings that it hands on. -/
theorem ticksTakeInTheOrderNamed : Obligations.TicksTakeInTheOrderNamed := by
  refine ⟨fun s => ⟨⟨rfl, rfl, rfl, rfl⟩, ⟨takeClock_eq s, rfl, rfl⟩, ⟨rfl, rfl, rfl, rfl⟩, rfl, rfl⟩,
    fun order s present => ⟨fun short => ?_, fun last => ?_, ?_, ?_⟩⟩
  · exact exec_blockTick_short present order short
  · exact exec_blockTick_500th present order last
  · exact exec_secondTick present order
  · exact exec_minuteTick present order

/-! ### What a block tick does to the time base (R162 to R165) -/

theorem takeIn_time {x : Taking} (h : x ≠ .clock) (s : State) : (takeIn s x).time = s.time := by
  cases x with
  | clock => exact absurd rfl h
  | _ => simp [takeIn, takeOne]

theorem foldl_takeIn_time {l : List Taking} (h : .clock ∉ l) (s : State) : (l.foldl takeIn s).time = s.time := by
  induction l generalizing s with
  | nil => rfl
  | cons x l ih =>
    obtain ⟨notClock, rest⟩ := not_or.mp (mt List.mem_cons.mpr h)
    rw [List.foldl_cons, ih rest, takeIn_time (Ne.symm notClock)]

/-- What the time base counts: block ticks, the clock and the session minutes. -/
def TimeBase.counts (t : TimeBase) : Nat × Clock × Nat := (t.phase, t.clock, t.sessionMinute)

theorem recordMatch_counts (name : AlarmName) (s : State) : (recordMatch name s).time.counts = s.time.counts := by
  have flagged (t : State) : (setFlag (alarmFlag name) t).time = t.time := by simp
  unfold recordMatch countClock
  rw [modTime_time, flagged]
  cases name <;> rfl

theorem minuteIssued_counts (s : State) : (minuteIssued s).1.time.counts = (minuteBegun s).time.counts := by
  have first : (returnByEvaluated (minuteBegun s)).time.counts = (minuteBegun s).time.counts := by
    unfold returnByEvaluated
    split
    · exact recordMatch_counts ..
    · rfl
  unfold minuteIssued
  dsimp only
  split
  · exact (recordMatch_counts ..).trans first
  · exact first

/-- The counts a second later: the clock's next second, and a minute more where the seconds roll over (R163 to R165). -/
def TimeBase.countsNext (t : TimeBase) : Nat × Clock × Nat :=
  (t.phase, (nextSecond t.clock).getD clockEpoch,
    if 59 ≤ t.clock.second then (t.sessionMinute + 1) % 4294967296 else t.sessionMinute)

theorem takeClock_counts (s : State) : (takeClock s).1.time.counts = s.time.countsNext := by
  have clock : s.time.clock = s.now := rfl
  rw [takeClock_eq, TimeBase.countsNext, clock, ← advanceClock_now]
  by_cases early : s.now.second < 59
  · rw [if_pos early, if_neg (Nat.not_le.mpr early), TimeBase.counts, advanceClock_time]
  · rw [if_neg early, if_pos (Nat.not_lt.mp early), minuteIssued_counts, TimeBase.counts, minuteBegun, advanceClock_time]

theorem secondTaken_counts (handed order : List Taking) (s : State) :
    (secondTaken handed order s).time.counts = s.time.countsNext := by
  have before := foldl_takeIn_time (clock_notMem_takingsBefore handed order) s
  rw [secondTaken, foldl_takeIn_time (clock_notMem_takingsAfter _ _ _), takeOne, takeClock_counts, before]

/-- Settles O5: no taking but the clock touches the time base, and the clock is taken once, at the 500th tick. -/
theorem everyFiveHundredthTickIsASecond : Obligations.EveryFiveHundredthTickIsASecond := by
  intro order s present inPhase
  obtain short | last : s.time.phase + 1 < 500 ∨ s.time.phase + 1 = 500 := Nat.lt_or_eq_of_le inPhase
  · have noClock : .clock ∉ dueIn order blockTakings := mt mem_dueIn.mp (by decide)
    have notLast : ¬s.time.phase + 1 = Config.ticksPerSecond := Nat.ne_of_lt short
    refine ⟨_, exec_blockTick_short present order short, ?_⟩
    rw [State.now, foldl_takeIn_time noClock, if_neg notLast, if_neg fun both => notLast both.1]
    exact ⟨(Nat.mod_eq_of_lt short).symm, rfl, rfl⟩
  · refine ⟨_, exec_blockTick_500th present order last, ?_⟩
    obtain ⟨phase, rest⟩ := Prod.ext_iff.mp (secondTaken_counts (blockTakings ++ secondTakings) order (tickStarted 0 s))
    obtain ⟨clock, minute⟩ := Prod.ext_iff.mp rest
    exact ⟨phase.trans (congrArg (· % Config.ticksPerSecond) last).symm, clock.trans (if_pos last).symm,
      minute.trans (if_congr (and_iff_right last).symm rfl rfl)⟩

end Sys2Proof.Machine

/-! The commissioning check (R181): what it means that a record fails an item, the record that an item names, and the item that the
check names. -/

namespace Sys2Proof.Machine

/-! ### The first number of which a property holds -/

/-- A search over the numbers in ascending order answers the first one of which P holds, or none. -/
def FindsFirst (P : Nat → Prop) (found : Option Nat) : Prop := ∀ n, found = some n ↔ P n ∧ ∀ k, k < n → ¬P k

section
variable {P Q : Nat → Prop} {found : Option Nat}

theorem FindsFirst.congr (h : FindsFirst P found) (same : ∀ n, P n ↔ Q n) : FindsFirst Q found :=
  funext (fun n => propext (same n)) ▸ h

theorem FindsFirst.eq_none_iff (h : FindsFirst P found) : found = none ↔ ∀ k, ¬P k := by
  constructor
  · intro nothing k
    induction k using Nat.strongRecOn with
    | ind k before =>
      intro holds
      have named : found = some k := (h k).mpr ⟨holds, before⟩
      exact Option.some_ne_none k (named.symm.trans nothing)
  · intro never
    exact Option.eq_none_iff_forall_ne_some.mpr fun n named => never n ((h n).mp named).1

theorem findsFirst_find?_upTo (last : Nat) (p : Nat → Bool) :
    FindsFirst (fun n => n ∈ upTo last ∧ p n = true) ((upTo last).find? p) := by
  intro n
  rw [upTo, List.find?_range'_eq_some, ← upTo]
  constructor
  · rintro ⟨fits, mem, before⟩
    refine ⟨⟨mem, fits⟩, fun k below ⟨known, holds⟩ => ?_⟩
    simpa [holds] using before k (mem_upTo.mp known).1 below
  · rintro ⟨⟨mem, fits⟩, before⟩
    refine ⟨fits, mem, fun k first below => ?_⟩
    have known : k ∈ upTo last := mem_upTo.mpr ⟨first, (Nat.le_of_lt below).trans (mem_upTo.mp mem).2⟩
    simpa [known] using before k below

theorem findsFirst_min? (l : List Nat) : FindsFirst (· ∈ l) l.min? := by
  intro n
  rw [List.min?_eq_some_iff]
  exact and_congr_right' ⟨fun least k below mem => Nat.not_lt.mpr (least k mem) below,
    fun before k mem => Nat.not_lt.mp fun below => before k below mem⟩

end

/-! ### The item that a search through the items names -/

section
variable {α β : Type} {f : α → Option β} {item : α} {l : List α}

theorem findSome?_tagged_eq_none_iff :
    l.findSome? (fun i => (f i).map fun n => (i, n)) = none ↔ ∀ i ∈ l, f i = none := by
  simp only [List.findSome?_eq_none_iff, Option.map_eq_none_iff]

/-- A search names the item whose record it answers: the item's own, with no record at an item before it. -/
theorem findSome?_tagged_eq_some_iff [DecidableEq α] {n : β} :
    l.findSome? (fun i => (f i).map fun n => (i, n)) = some (item, n) ↔
      item ∈ l ∧ f item = some n ∧ ∀ earlier ∈ l.takeWhile (fun i => i ≠ item), f earlier = none := by
  induction l with
  | nil => simp
  | cons a l ih =>
    by_cases here : a = item
    · subst here
      cases own : f a with
      | none => simp [own, ih]
      | some k => simp [own]
    · have other : item ≠ a := Ne.symm here
      cases own : f a with
      | none => simp [own, ih, here, other]
      | some k => simp [own, here]

end

/-! ### What fails an item (R181) -/

/-- The record with an index fails an item of the commissioning check (R181). -/
def CheckFails (s : State) (item : CheckItem) (n : Nat) : Prop :=
  match item with
  | .consoleBooth => isSlot n = true ∧ (s.console n).configured = true ∧ (s.console n).booth = none
  | .boothChannel =>
    isBooth n = true ∧ (s.boothRec n).aChannel = none ∧
      ∃ k, isSlot k = true ∧ (s.console k).configured = true ∧ (s.console k).booth = some n
  | .sharedA =>
    isBooth n = true ∧ ∃ b c, 1 ≤ b ∧ b < n ∧ (s.boothRec b).aChannel = some c ∧ (s.boothRec n).aChannel = some c
  | .bEqualsA => isBooth n = true ∧ ∃ c, (s.boothRec n).bChannel = some c ∧ (s.boothRec n).aChannel = some c
  | .relayGraph => isBooth n = true ∧ ∀ d, relayDepthOf s.relay n = some d → 3 < d
  | .clockInvalid => n = 0 ∧ s.time.valid = false
  | .tariffUndefined => ∃ e ∈ s.acct.accounts, e.2.number = n ∧ (s.tariff e.2.cls).defined = false

section
variable {s : State} {b : Nat}

theorem staffed_iff :
    staffed s b = true ↔ ∃ k, isSlot k = true ∧ (s.console k).configured = true ∧ (s.console k).booth = some b := by
  simp [staffed, isSlot_iff]

theorem sharesA_iff :
    sharesA s b = true ↔ ∃ a c, 1 ≤ a ∧ a < b ∧ (s.boothRec a).aChannel = some c ∧ (s.boothRec b).aChannel = some c := by
  have below (a : Nat) : a ∈ upTo (b - 1) ↔ 1 ≤ a ∧ a < b := by
    rw [mem_upTo]
    omega
  cases own : (s.boothRec b).aChannel with
  | none => simp [sharesA, own]
  | some c => simp [sharesA, own, below, and_assoc]

theorem bEqualsA_iff :
    ((s.boothRec b).bChannel.isSome && decide ((s.boothRec b).bChannel = (s.boothRec b).aChannel)) = true ↔
      ∃ c, (s.boothRec b).bChannel = some c ∧ (s.boothRec b).aChannel = some c := by
  cases own : (s.boothRec b).bChannel with
  | none => simp
  | some c => simp [eq_comm]

theorem relayDepth_unfit_iff :
    (!(relayDepthOf s.relay b).any fun d => decide (d ≤ Config.relayDepth)) = true ↔
      ∀ d, relayDepthOf s.relay b = some d → 3 < d := by
  cases depth : relayDepthOf s.relay b with
  | none => simp
  | some d => simp

end

theorem findsFirst_undefinedClass (s : State) : FindsFirst (CheckFails s .tariffUndefined) (undefinedClass s) :=
  (findsFirst_min? _).congr fun n => by
    simp only [CheckFails, List.mem_map, List.mem_filter, Bool.not_eq_true']
    constructor
    · rintro ⟨_, ⟨⟨e, mem, rfl⟩, undefined⟩, number⟩
      exact ⟨e, mem, number, undefined⟩
    · rintro ⟨e, mem, number, undefined⟩
      exact ⟨e.2, ⟨⟨e, mem, rfl⟩, undefined⟩, number⟩

/-- Each item names the first record that fails it, in ascending order of the index. -/
theorem checkItem_findsFirst (s : State) (item : CheckItem) : FindsFirst (CheckFails s item) (checkItem s item) := by
  cases item with
  | consoleBooth =>
    exact (findsFirst_find?_upTo _ _).congr fun n => by simp [CheckFails, isSlot_iff]
  | boothChannel =>
    refine (findsFirst_find?_upTo _ _).congr fun n => and_congr isBooth_iff.symm ?_
    rw [Bool.and_eq_true, Option.isNone_iff_eq_none, staffed_iff, and_comm]
  | sharedA => exact (findsFirst_find?_upTo _ _).congr fun n => and_congr isBooth_iff.symm sharesA_iff
  | bEqualsA => exact (findsFirst_find?_upTo _ _).congr fun n => and_congr isBooth_iff.symm bEqualsA_iff
  | relayGraph => exact (findsFirst_find?_upTo _ _).congr fun n => and_congr isBooth_iff.symm relayDepth_unfit_iff
  | clockInvalid =>
    intro n
    cases valid : s.time.valid with
    | true => simp [checkItem, CheckFails, valid]
    | false =>
      have named : checkItem s .clockInvalid = some 0 := by simp [checkItem, valid]
      rw [named, Option.some_inj]
      constructor
      · rintro rfl
        exact ⟨⟨rfl, valid⟩, fun k below => absurd below (Nat.not_lt_zero k)⟩
      · rintro ⟨⟨rfl, -⟩, -⟩
        rfl
  | tariffUndefined => exact findsFirst_undefinedClass s

/-! ### The check -/

theorem itemsFor_eq (m : Mode) :
    itemsFor m =
      if m = .session then
        [.consoleBooth, .boothChannel, .sharedA, .bEqualsA, .relayGraph, .clockInvalid, .tariffUndefined]
      else [.consoleBooth, .boothChannel, .sharedA, .bEqualsA, .relayGraph] := by
  cases m <;> rfl

theorem commissioning_eq_none_iff {s : State} {m : Mode} :
    commissioning s m = none ↔ ∀ item ∈ itemsFor m, ∀ k, ¬CheckFails s item k := by
  simp only [commissioning, findSome?_tagged_eq_none_iff, (checkItem_findsFirst s _).eq_none_iff]

theorem commissioning_eq_some_iff {s : State} {m : Mode} {item : CheckItem} {n : Nat} :
    commissioning s m = some (item, n) ↔
      item ∈ itemsFor m ∧ CheckFails s item n ∧ (∀ k, k < n → ¬CheckFails s item k) ∧
        ∀ earlier ∈ (itemsFor m).takeWhile (fun i => i ≠ item), ∀ k, ¬CheckFails s earlier k := by
  simp only [commissioning, findSome?_tagged_eq_some_iff, checkItem_findsFirst s item n,
    (checkItem_findsFirst s _).eq_none_iff, and_assoc]

/-- The item of the relay graph finds no booth exactly when every booth's depth fits (R41). -/
theorem relayFits_iff_checkItem {s : State} : RelayFits s ↔ checkItem s .relayGraph = none := by
  simp [RelayFits, depthsFit, checkItem]

/-- Settles O49: the check is a search through the items, and each item a search for its first record; the relay graph is an item of
every mode. -/
theorem commissioningCheck : Obligations.CommissioningCheck := by
  constructor
  · intro s fails m _ tested
    have same : tested = itemsFor m := (itemsFor_eq m).symm
    rw [same]
    exact ⟨fun _ _ => commissioning_eq_some_iff, commissioning_eq_none_iff⟩
  · intro s passes
    exact relayFits_iff_checkItem.mpr (findSome?_tagged_eq_none_iff.mp passes .relayGraph (by decide))

end Sys2Proof.Machine

/-! The service port: the tests on a message and on a request, the requests of each role, and the one reply (R189 to
R194). -/

namespace Sys2Proof.Machine

/-! ### The tests on a request (R189, R191) -/

section

variable {h : Header} {may : Role → Bool} {e : Station} {s : State}

theorem whenAdmitted_unknown (unlisted : Table.look s.serv.stations h.station = none) (fits : Bool) (act : State → State) :
    whenAdmitted h may fits act s = sourceUnknown (messageReceived s) := by
  simp [whenAdmitted, unlisted]

theorem whenAdmitted_outside (listed : Table.look s.serv.stations h.station = some e) (outside : may e.role = false)
    (fits : Bool) (act : State → State) : whenAdmitted h may fits act s = refuseRole h (messageReceived s) := by
  simp [whenAdmitted, listed, outside]

theorem whenAdmitted_unfit (listed : Table.look s.serv.stations h.station = some e) (inside : may e.role = true)
    (act : State → State) : whenAdmitted h may false act s = refuseMalformed h (messageReceived s) := by
  simp [whenAdmitted, listed, inside]

/-- A request from a role that may not send it, at the service port. -/
theorem request_outside (present : s.supply.mainsLost = false) (none_lost : s.serv.toLose = 0)
    (listed : Table.look s.serv.stations h.station = some e) (outside : may e.role = false) (fits : Bool)
    (act : State → State) :
    (.next (takeMessage (whenAdmitted h may fits act) s) : Host.Outcome State Fault Refusal) =
      .next (replied h (.refused .role [])
        (countServ (fun k => { k with roleRefusals := bump k.roleRefusals }) (messageReceived s))) := by
  rw [takeMessage_taken _ present none_lost, whenAdmitted_outside listed outside]
  rfl

/-- A rack message from another role (R191, log 12). -/
theorem rack_outside (present : s.supply.mainsLost = false) (none_lost : s.serv.toLose = 0)
    (listed : Table.look s.serv.stations h.station = some e) (outside : e.role ≠ .rack) (act : State → State) :
    (.next (serveRack h act s) : Host.Outcome State Fault Refusal) =
      .next (replied h (.refused .role [])
        (countServ (fun k => { k with roleRefusals := bump k.roleRefusals }) (messageReceived s))) := by
  simp only [serveRack, takeMessage_taken _ present none_lost, listed, if_neg outside]
  rfl

end

/-! ### The requests of each role (R191) -/

theorem controlOnly_of_ne {r : Role} (h : r ≠ .control) : controlOnly r = false := decide_eq_false h

theorem controlMonitor_of_ne {r : Role} (control : r ≠ .control) (monitor : r ≠ .monitor) : controlMonitor r = false := by
  simp [controlMonitor, control, monitor]

theorem controlDesk_of_ne {r : Role} (control : r ≠ .control) (desk : r ≠ .desk) : controlDesk r = false := by
  simp [controlDesk, control, desk]

/-- Settles O30: each command of a group is a request with the roles of that group, and each rack message is one of RACK. -/
theorem requestsOutsideTheRoleAreRefused : Obligations.RequestsOutsideTheRoleAreRefused := by
  intro h e s present none_lost listed turned
  refine ⟨fun control => ?_, fun control monitor => ?_, fun control desk => ?_, fun rack => ?_⟩
  · have refused := request_outside present none_lost listed (controlOnly_of_ne control)
    and_intros <;> intros <;> exact refused _ _
  · have refused := request_outside present none_lost listed (controlMonitor_of_ne control monitor)
    and_intros <;> intros <;> exact refused _ _
  · have refused := request_outside present none_lost listed (controlDesk_of_ne control desk)
    and_intros <;> intros <;> exact refused _ _
  · have refused := rack_outside present none_lost listed rack
    and_intros <;> intros <;> exact refused _

/-! ### Admission, the reply and the outbound queue (R189, R191 to R194, R198) -/

theorem sendHead_of_cons {m : Message} {rest : List Message} {s : State} (queued : s.serv.outbound = m :: rest) :
    sendHead s = { s with serv := { s.serv with outbound := rest, port := some m } } := by
  simp [sendHead, State.modServ, queued]

theorem sendHead_of_nil {s : State} (empty : s.serv.outbound = []) : sendHead s = s := by
  simp [sendHead, State.modServ, empty]

/-- Settles O29: the tests on a request in their order, a lost message, what is counted, the body of the reply, and the outbound queue
with room, full, with a head and empty. -/
theorem requestsAreAdmittedAndAnswered : Obligations.RequestsAreAdmittedAndAnswered := by
  refine ⟨fun h may fits owner s present none_lost => ⟨fun unlisted => ?_, fun e listed => ⟨fun outside => ?_,
      fun inside unfit => ?_, fun inside fit => ?_⟩⟩, fun h may fits owner act n s present waiting => ?_, fun s => ⟨rfl, rfl⟩,
    fun result code figures => ⟨rfl, rfl⟩, rfl, fun h a s room => queueReply_room _ _ _ room,
    fun h a s full => queueReply_full _ _ _ full, fun m rest s present queued => ?_, fun s present empty => ?_⟩
  · rw [serve, takeMessage_taken _ present none_lost]
    exact whenAdmitted_unknown unlisted fits _
  · rw [serve, takeMessage_taken _ present none_lost]
    exact whenAdmitted_outside listed outside fits _
  · rw [unfit, serve, takeMessage_taken _ present none_lost]
    exact whenAdmitted_unfit listed inside _
  · rw [fit]
    exact serve_of_admitted ⟨present, none_lost, by rw [listed]; exact inside⟩ owner
  · exact ⟨takeMessage_waiting _ present waiting, takeMessage_waiting _ present waiting⟩
  · show Host.Outcome.next (whileMains sendHead s) = _
    rw [whileMains_present _ present, sendHead_of_cons queued]
  · show Host.Outcome.next (whileMains sendHead s) = _
    rw [whileMains_present _ present, sendHead_of_nil empty]

/-! ### The tests on a run of bytes (R189) -/

theorem messageSound_iff {l : List Byte} :
    messageSound l = true ↔ numberAt l 5 2 + 9 = l.length ∧ checkAgrees l = true := by
  simp [messageSound]

theorem takeBytes_not_for_part {l : List Byte} (sound : messageSound l = true) (dest : numberAt l 0 1 ≠ 0) (s : State) :
    takeBytes l s = .next (countServ (fun c => { c with notForPart := bump c.notForPart }) (messageReceived s)) := by
  simp [takeBytes, sound, dest]

section

variable {l : List Byte} {s : State} (sound : messageSound l = true) (dest : numberAt l 0 1 = 0)
include sound dest

theorem takeBytes_unknown (unlisted : Table.look s.serv.stations (numberAt l 1 1) = none) :
    takeBytes l s = .next (sourceUnknown (messageReceived s)) := by
  simp [takeBytes, sound, dest, unlisted]

/-- A sound message for the part from a station of the table goes on by its kind. -/
theorem takeBytes_listed {e : Station} (listed : Table.look s.serv.stations (numberAt l 1 1) = some e) :
    takeBytes l s =
      takeKind (numberAt l 2 1) ⟨numberAt l 1 1, numberAt l 3 2⟩ e.role ((l.drop 7).take (numberAt l 5 2)) s := by
  simp [takeBytes, sound, dest, listed]

end

theorem takeKind_wrong {kind : Nat} (wrong : kind = 2 ∨ kind = 3) (h : Header) (role : Role) (body : List Byte) (s : State) :
    takeKind kind h role body s =
      .next (countServ (fun c => { c with wrongKind := bump c.wrongKind }) (messageReceived s)) := by
  obtain rfl | rfl := wrong <;> rfl

/-- Settles O31: the tests on a run of bytes in the order of R189, and a run that is lost. -/
theorem messagesAreDroppedByTheTests : Obligations.MessagesAreDroppedByTheTests := by
  refine ⟨fun l n s present waiting => ?_, fun l s present none_lost => ?_⟩
  · show execMessageDropped l s = _
    rw [execMessageDropped, messageLost_waiting present waiting]
  · have taken : exec (.messageDropped l) s = takeBytes l s := by
      show execMessageDropped l s = _
      rw [execMessageDropped, messageLost_none present none_lost]
    dsimp only
    rw [taken, ← messageSound_iff]
    refine ⟨fun unsound => takeBytes_unsound (Bool.eq_false_iff.mpr unsound) s, fun sound dest =>
      takeBytes_not_for_part sound dest s, fun sound dest unlisted => takeBytes_unknown sound dest unlisted,
      fun sound dest known wrong => ?_⟩
    obtain ⟨e, listed⟩ := Option.isSome_iff_exists.mp known
    rw [takeBytes_listed sound dest listed, takeKind_wrong wrong]
    rfl

end Sys2Proof.Machine

/-! The station table: LOAD of a station entry and SET NOTICE MASK (R190). -/

namespace Sys2Proof.Machine

/-! ### Masks (R190) -/

theorem mem_allFlags (f : NoticeFlag) : f ∈ NoticeFlag.all := by cases f <;> decide

/-- No more than seventeen flags can be named without naming one twice. -/
theorem length_le_of_nodup_flags {mask : List NoticeFlag} (nodup : mask.Nodup) : mask.length ≤ 17 :=
  (nodup.subperm fun f _ => mem_allFlags f).length_le

theorem maskOf_eq (mask : List NoticeFlag) : maskOf mask = NoticeFlag.all.filter fun f => decide (f ∈ mask) := by
  simp [maskOf, flagSet]

/-! ### Entries are placed and removed (R190) -/

theorem otherControl_iff {s : State} {n : Nat} :
    otherControl s n = true ↔ ∃ k e, (k, e) ∈ s.serv.stations ∧ k ≠ n ∧ e.role = .control := by
  simp [otherControl]

section

variable {n : Nat} {s : State}

theorem placeRole_full (full : 32 ≤ s.serv.stations.length) (unlisted : Table.look s.serv.stations n = none) (role : Role)
    (mask : List NoticeFlag) : placeRole n role mask s = (s, .refused .tableFull []) := by
  simp [placeRole, unlisted, full, refuse]

/-- Step 5 of R190 passes where the station is listed or an entry is free. -/
theorem placeRole_room (room : s.serv.stations.length < 32 ∨ (Table.look s.serv.stations n).isSome = true) (role : Role)
    (mask : List NoticeFlag) :
    placeRole n role mask s =
      if decide (role ≠ .control) && !otherControl s n then refuse .limit s
      else accept [] (writeStation n ⟨role, maskOf mask⟩ s) := by
  refine if_neg fun full => ?_
  rw [Bool.and_eq_true, decide_eq_true_eq, Option.isNone_iff_eq_none] at full
  obtain ⟨unlisted, full⟩ := full
  obtain room | listed := room
  · exact Nat.not_le.mpr room full
  · rw [unlisted] at listed
    cases listed

theorem placeRole_control (room : s.serv.stations.length < 32 ∨ (Table.look s.serv.stations n).isSome = true)
    (mask : List NoticeFlag) :
    placeRole n .control mask s = (writeStation n ⟨.control, maskOf mask⟩ s, .accepted []) := placeRole_room room ..

theorem placeRole_accepted (room : s.serv.stations.length < 32 ∨ (Table.look s.serv.stations n).isSome = true)
    (other : otherControl s n = true) (role : Role) (mask : List NoticeFlag) :
    placeRole n role mask s = (writeStation n ⟨role, maskOf mask⟩ s, .accepted []) := by
  rw [placeRole_room room, other, Bool.not_true, Bool.and_false]
  rfl

theorem placeRole_last (room : s.serv.stations.length < 32 ∨ (Table.look s.serv.stations n).isSome = true)
    (last : otherControl s n = false) {role : Role} (ne : role ≠ .control) (mask : List NoticeFlag) :
    placeRole n role mask s = (s, .refused .limit []) := by
  rw [placeRole_room room, last, decide_eq_true ne]
  rfl

theorem removeStation_unlisted (unlisted : Table.look s.serv.stations n = none) :
    removeStation n s = (s, .refused .notFound []) := by
  simp [removeStation, unlisted, refuse]

theorem removeStation_last (listed : (Table.look s.serv.stations n).isSome = true) (last : otherControl s n = false) :
    removeStation n s = (s, .refused .limit []) := by
  obtain ⟨e, listed⟩ := Option.isSome_iff_exists.mp listed
  simp [removeStation, listed, last, refuse]

theorem removeStation_accepted (listed : (Table.look s.serv.stations n).isSome = true) (other : otherControl s n = true) :
    removeStation n s = (dropStation n s, .accepted []) := by
  obtain ⟨e, listed⟩ := Option.isSome_iff_exists.mp listed
  simp [removeStation, listed, other, accept]

/-! ### LOAD of a station entry at its owner (R190) -/

theorem loadStation_key (out : isStation n = false) (entry : StationEntry) (s : State) :
    loadStation n entry s = (s, .refused .range []) := by
  simp [loadStation, out, refuse]

section

variable (fits : isStation n = true) (setup : s.mode = .setup)
include fits setup

theorem loadStation_other : loadStation n .other s = (s, .refused .range []) := by
  simp [loadStation, fits, setup, refuse]

theorem loadStation_none : loadStation n .none s = removeStation n s := by
  simp [loadStation, fits, setup, namedFlags, entryMask, distinct, entryRole]

theorem loadStation_desk : loadStation n .desk s = placeRole n .desk [] s := by
  simp [loadStation, fits, setup, namedFlags, entryMask, distinct, entryRole]

theorem loadStation_rack : loadStation n .rack s = placeRole n .rack [] s := by
  simp [loadStation, fits, setup, namedFlags, entryMask, distinct, entryRole]

theorem loadStation_control {mask : List NoticeFlag} (nodup : mask.Nodup) :
    loadStation n (.control (mask.map some)) s = placeRole n .control mask s := by
  simp [loadStation, fits, setup, namedFlags_some, entryMask, distinct, nodup, entryRole]

theorem loadStation_monitor {mask : List NoticeFlag} (nodup : mask.Nodup) :
    loadStation n (.monitor (mask.map some)) s = placeRole n .monitor mask s := by
  simp [loadStation, fits, setup, namedFlags_some, entryMask, distinct, nodup, entryRole]

theorem loadStation_unnamed {entry : StationEntry} (unnamed : none ∈ entryMask entry) :
    loadStation n entry s = (s, .refused .range []) := by
  cases entry <;> simp [loadStation, fits, setup, namedFlags_none unnamed, refuse]

theorem loadStation_twice {entry : StationEntry} {mask : List NoticeFlag} (named : entryMask entry = mask.map some)
    (twice : ¬mask.Nodup) : loadStation n entry s = (s, .refused .malformed []) := by
  have other : entry ≠ .other := by
    rintro rfl
    rw [List.map_eq_nil_iff.mp named.symm] at twice
    exact twice List.nodup_nil
  cases entry <;> simp_all [loadStation, namedFlags_some, distinct, refuse]

end

/-! ### SET NOTICE MASK at its owner (R190) -/

theorem setNoticeMask_key (out : isStation n = false) (mask : List (Option NoticeFlag)) (s : State) :
    setNoticeMask n mask s = (s, .refused .range []) := by
  simp [setNoticeMask, out, refuse]

section

variable (fits : isStation n = true)
include fits

theorem setNoticeMask_unnamed {mask : List (Option NoticeFlag)} (unnamed : none ∈ mask) (s : State) :
    setNoticeMask n mask s = (s, .refused .range []) := by
  simp [setNoticeMask, fits, namedFlags_none unnamed, refuse]

theorem setNoticeMask_twice {mask : List NoticeFlag} (twice : ¬mask.Nodup) (s : State) :
    setNoticeMask n (mask.map some) s = (s, .refused .malformed []) := by
  simp [setNoticeMask, fits, namedFlags_some, distinct, twice, refuse]

theorem setNoticeMask_unlisted {mask : List NoticeFlag} (nodup : mask.Nodup)
    (unlisted : Table.look s.serv.stations n = none) :
    setNoticeMask n (mask.map some) s = (s, .refused .notFound []) := by
  simp [setNoticeMask, fits, namedFlags_some, distinct, nodup, unlisted, refuse]

theorem setNoticeMask_listed {mask : List NoticeFlag} (nodup : mask.Nodup) {e : Station}
    (listed : Table.look s.serv.stations n = some e) :
    setNoticeMask n (mask.map some) s =
      if controlMonitor e.role then (writeStation n { e with mask := maskOf mask } s, .accepted [])
      else (s, .refused .range []) := by
  simp [setNoticeMask, fits, namedFlags_some, distinct, nodup, listed, accept, refuse]

end

end

/-! ### The two requests at the service port -/

section

variable {h : Header} {n : Nat} {s : State} (ha : admitted controlOnly h s)
include ha

theorem loadStation_request {entry : StationEntry} {t : State} {a : Answer}
    (ruled : loadStation n entry (taken s) = (t, a)) (fits : (entryMask entry).length ≤ 17 := by exact Nat.zero_le _) :
    exec (.loadStation h n entry) s = .next (replied h a t) := by
  show Host.Outcome.next (serve h controlOnly (decide ((entryMask entry).length ≤ Config.maskMax)) _ s) = _
  rw [decide_eq_true fits]
  exact request_of_admitted ha ruled

/-- A mask of more than seventeen names does not fit the format (12_formats.md, Bodies). -/
theorem loadStation_too_long {entry : StationEntry} (long : 17 < (entryMask entry).length) :
    exec (.loadStation h n entry) s = .next (refuseMalformed h (messageReceived s)) := by
  show Host.Outcome.next (serve h controlOnly (decide ((entryMask entry).length ≤ Config.maskMax)) _ s) = _
  rw [decide_eq_false (Nat.not_le.mpr long), serve_unfit ha]

theorem setNoticeMask_request {mask : List (Option NoticeFlag)} {t : State} {a : Answer}
    (ruled : setNoticeMask n mask (taken s) = (t, a)) (fits : mask.length ≤ 17) :
    exec (.setNoticeMask h n mask) s = .next (replied h a t) := by
  show Host.Outcome.next (serve h controlOnly (decide (mask.length ≤ Config.maskMax)) _ s) = _
  rw [decide_eq_true fits]
  exact request_of_admitted ha ruled

theorem setNoticeMask_too_long {mask : List (Option NoticeFlag)} (long : 17 < mask.length) :
    exec (.setNoticeMask h n mask) s = .next (refuseMalformed h (messageReceived s)) := by
  show Host.Outcome.next (serve h controlOnly (decide (mask.length ≤ Config.maskMax)) _ s) = _
  rw [decide_eq_false (Nat.not_le.mpr long), serve_unfit ha]

end

/-- Settles O35: each entry by what its owner makes of it, in the order of R190, then the notice mask, the keys out of range, and the
masks that are too long. -/
theorem stationTable : Obligations.StationTable := by
  refine ⟨fun h n s ha fits => ?_, fun h n s ha out => ⟨fun e short => ?_, fun mask short => ?_⟩,
    fun h n mask s ha long => ?_⟩
  · intro u other listed written refused
    have short {mask : List NoticeFlag} (nodup : mask.Nodup) : (mask.map some).length ≤ 17 := by
      rw [List.length_map]
      exact length_le_of_nodup_flags nodup
    have last : ¬other → otherControl u n = false := fun none_other =>
      Bool.eq_false_iff.mpr fun found => none_other (otherControl_iff.mp found)
    refine ⟨fun (setup : u.mode = .setup) => ⟨fun room => ⟨fun mask nodup => ?_, fun found => ?_, fun none_other => ?_⟩,
      fun full unlisted => ?_, fun known => ⟨fun found => ?_, fun none_other => ?_⟩, fun unlisted => ?_, ?_,
      fun mask fit unnamed => ?_, fun mask fit twice => ?_⟩, fun mask e nodup known role => ?_, fun mask fit unnamed => ?_,
      fun mask fit twice => ?_, fun mask nodup unlisted => ?_, fun mask e nodup known role => ?_⟩
    · rw [loadStation_request ha ((loadStation_control fits setup nodup).trans (placeRole_control (s := u) room mask))
        (short nodup), maskOf_eq]
      rfl
    · have placed := placeRole_accepted (s := u) room (otherControl_iff.mpr found)
      refine ⟨fun mask nodup => ?_, ?_, ?_⟩
      · rw [loadStation_request ha ((loadStation_monitor fits setup nodup).trans (placed ..)) (short nodup), maskOf_eq]
        rfl
      · exact loadStation_request ha ((loadStation_desk fits setup).trans (placed ..))
      · exact loadStation_request ha ((loadStation_rack fits setup).trans (placed ..))
    · have limit := fun role => placeRole_last (s := u) room (last none_other) (role := role)
      exact ⟨fun mask nodup =>
          loadStation_request ha ((loadStation_monitor fits setup nodup).trans (limit .monitor nofun _)) (short nodup),
        loadStation_request ha ((loadStation_desk fits setup).trans (limit .desk nofun _)),
        loadStation_request ha ((loadStation_rack fits setup).trans (limit .rack nofun _))⟩
    · have tableFull := placeRole_full (s := u) full unlisted
      exact ⟨fun mask nodup =>
          ⟨loadStation_request ha ((loadStation_control fits setup nodup).trans (tableFull ..)) (short nodup),
            loadStation_request ha ((loadStation_monitor fits setup nodup).trans (tableFull ..)) (short nodup)⟩,
        loadStation_request ha ((loadStation_desk fits setup).trans (tableFull ..)),
        loadStation_request ha ((loadStation_rack fits setup).trans (tableFull ..))⟩
    · exact loadStation_request ha
        ((loadStation_none fits setup).trans (removeStation_accepted known (otherControl_iff.mpr found)))
    · exact loadStation_request ha
        ((loadStation_none fits setup).trans (removeStation_last known (last none_other)))
    · exact loadStation_request ha ((loadStation_none fits setup).trans (removeStation_unlisted unlisted))
    · exact loadStation_request ha (loadStation_other fits setup)
    · exact ⟨loadStation_request ha (loadStation_unnamed fits setup unnamed) fit,
        loadStation_request ha (loadStation_unnamed fits setup unnamed) fit⟩
    · have fit : (mask.map some).length ≤ 17 := by rwa [List.length_map]
      exact ⟨loadStation_request ha (loadStation_twice fits setup rfl twice) fit,
        loadStation_request ha (loadStation_twice fits setup rfl twice) fit⟩
    · have may : controlMonitor e.role = true := by
        obtain control | monitor := role
        · simp [controlMonitor, control]
        · simp [controlMonitor, monitor]
      rw [setNoticeMask_request ha ((setNoticeMask_listed (s := u) fits nodup known).trans (if_pos may)) (short nodup),
        maskOf_eq]
      rfl
    · exact setNoticeMask_request ha (setNoticeMask_unnamed fits unnamed _) fit
    · exact setNoticeMask_request ha (setNoticeMask_twice fits twice _) (by rwa [List.length_map])
    · exact setNoticeMask_request ha (setNoticeMask_unlisted fits nodup unlisted) (short nodup)
    · have may_not : ¬controlMonitor e.role = true := by
        obtain desk | rack := role
        · simp [controlMonitor, desk]
        · simp [controlMonitor, rack]
      exact setNoticeMask_request ha ((setNoticeMask_listed (s := u) fits nodup known).trans (if_neg may_not)) (short nodup)
  · exact loadStation_request ha (loadStation_key out e _) short
  · exact setNoticeMask_request ha (setNoticeMask_key out mask _) short
  · exact ⟨loadStation_too_long ha long, loadStation_too_long ha long, setNoticeMask_too_long ha long⟩

end Sys2Proof.Machine

/-! A notice flag that is set stays set (R195): what each operation that can set a flag leaves of those that are set, then every command. An
operation of which Laws/Frames.lean says that it leaves the service controller alone needs no rule here. -/

namespace Sys2Proof.Machine

theorem flagged_iff {f : NoticeFlag} {s : State} : s.flagged f = true ↔ f ∈ s.serv.flags := by
  simp [State.flagged]

/-! ### The service port and the flags themselves (R189, R193, R195) -/

@[simp] theorem countServ_flags (g : ServiceCounters → ServiceCounters) (s : State) :
    (countServ g s).serv.flags = s.serv.flags := rfl

@[simp] theorem messageReceived_flags (s : State) : (messageReceived s).serv.flags = s.serv.flags := rfl

@[simp] theorem sourceUnknown_flags (s : State) : (sourceUnknown s).serv.flags = s.serv.flags := rfl

@[simp] theorem refuseRole_flags (h : Header) (s : State) : (refuseRole h s).serv.flags = s.serv.flags :=
  queueReply_flags ..

@[simp] theorem refuseMalformed_flags (h : Header) (s : State) : (refuseMalformed h s).serv.flags = s.serv.flags :=
  queueReply_flags ..

@[simp] theorem sendHead_flags (s : State) : (sendHead s).serv.flags = s.serv.flags := by
  unfold sendHead State.modServ
  dsimp only
  split <;> rfl

/-- An invariant of every step of a fold that carries a value beside the state. -/
theorem foldl_invariant_fst {β δ : Type} (P : State → Prop) (g : State × δ → β → State × δ)
    (h : ∀ t b, P t.1 → P (g t b).1) (l : List β) (s : State × δ) (hs : P s.1) : P (l.foldl g s).1 := by
  induction l generalizing s with
  | nil => exact hs
  | cons b l ih => exact ih _ (h s b hs)

section

variable {f : NoticeFlag} {s : State}

@[simp] theorem setFlag_keepsFlag (g : NoticeFlag) (set : f ∈ s.serv.flags) : f ∈ (setFlag g s).serv.flags := by
  rw [← flagged_iff] at set ⊢
  simp [flagged_setFlag, set]

theorem foldl_keepsFlag {β : Type} {g : State → β → State} (h : ∀ t b, f ∈ t.serv.flags → f ∈ (g t b).serv.flags) (l : List β)
    (set : f ∈ s.serv.flags) : f ∈ (l.foldl g s).serv.flags :=
  foldl_invariant (fun t => f ∈ t.serv.flags) g h l s set

/-! ### Channel switch and duty queue (R7, R152, R158) -/

@[simp] theorem enterFallback_keepsFlag (c : Nat) (set : f ∈ s.serv.flags) : f ∈ (enterFallback c s).serv.flags := by
  unfold enterFallback
  dsimp only
  split <;> simp [set]

@[simp] theorem release_keepsFlag (c b : Nat) (set : f ∈ s.serv.flags) : f ∈ (release c b s).serv.flags := by
  unfold release
  dsimp only
  repeat' split
  all_goals simp [set]

@[simp] theorem spellUnlogged_keepsFlag (b : Nat) (set : f ∈ s.serv.flags) : f ∈ (spellUnlogged b s).serv.flags := by
  simp [spellUnlogged, set]

@[simp] theorem dutyOpen_keepsFlag (slot b c : Nat) (set : f ∈ s.serv.flags) : f ∈ (dutyOpen slot b c s).serv.flags := by
  unfold dutyOpen
  split <;> simp [set]

theorem continueBooth_keepsFlag (acc : State × Nat × List Nat) (b : Nat) (set : f ∈ acc.1.serv.flags) :
    f ∈ (continueBooth acc b).1.serv.flags := by
  unfold continueBooth
  dsimp only
  repeat' split
  all_goals simp [set]

theorem cutDuty_keepsFlag (s : State) (set : f ∈ s.serv.flags) : f ∈ (cutDuty s).1.serv.flags := by
  unfold cutDuty
  dsimp only [accept]
  exact foldl_invariant_fst (fun t => f ∈ t.serv.flags) continueBooth continueBooth_keepsFlag _ _ (by simp [set])

/-! ### Booth control (R29 to R47) -/

@[simp] theorem openSpell_keepsFlag (slot b : Nat) (set : f ∈ s.serv.flags) : f ∈ (openSpell slot b s).serv.flags := by
  unfold openSpell
  split <;> simp [set]

@[simp] theorem goLive_keepsFlag (slot b : Nat) (set : f ∈ s.serv.flags) : f ∈ (goLive slot b s).serv.flags := by
  simp [goLive, set]

@[simp] theorem changeLive_keepsFlag (slot old b : Nat) (r : EndReason) (set : f ∈ s.serv.flags) :
    f ∈ (changeLive slot old b r s).serv.flags := by
  simp [changeLive, set]

@[simp] theorem releaseSelected_keepsFlag (b : Nat) (set : f ∈ s.serv.flags) : f ∈ (releaseSelected b s).serv.flags := by
  unfold releaseSelected
  split <;> simp [set]

@[simp] theorem goSilent_keepsFlag (b : Nat) (r : EndReason) (set : f ∈ s.serv.flags) :
    f ∈ (goSilent b r s).serv.flags := by
  unfold goSilent
  split <;> simp [set]

@[simp] theorem consoleGone_keepsFlag (slot : Nat) (set : f ∈ s.serv.flags) : f ∈ (consoleGone slot s).serv.flags := by
  unfold consoleGone
  dsimp only
  repeat' split
  all_goals simp [set]

@[simp] theorem latchCall_keepsFlag (b : Nat) (set : f ∈ s.serv.flags) : f ∈ (latchCall b s).serv.flags := by
  unfold latchCall
  split <;> simp [set]

@[simp] theorem recordLevels_keepsFlag (slot : Nat) (cough call : Bool) (set : f ∈ s.serv.flags) :
    f ∈ (recordLevels slot cough call s).serv.flags := by
  unfold recordLevels
  dsimp only
  repeat' split
  all_goals simp [set]

@[simp] theorem keyTake_keepsFlag (slot b : Nat) (set : f ∈ s.serv.flags) : f ∈ (keyTake slot b s).serv.flags := by
  unfold keyTake
  repeat' split
  all_goals simp [set]

@[simp] theorem keyMicOn_keepsFlag (slot b : Nat) (set : f ∈ s.serv.flags) : f ∈ (keyMicOn slot b s).serv.flags := by
  unfold keyMicOn
  repeat' split
  all_goals simp [set]

@[simp] theorem keyMicOff_keepsFlag (slot b : Nat) (set : f ∈ s.serv.flags) : f ∈ (keyMicOff slot b s).serv.flags := by
  unfold keyMicOff
  split <;> simp [set]

@[simp] theorem switchOutput_keepsFlag (slot b : Nat) (o : Output) (c : Nat) (set : f ∈ s.serv.flags) :
    f ∈ (switchOutput slot b o c s).serv.flags := by
  simp [switchOutput, set]

@[simp] theorem keyOutput_keepsFlag (slot b : Nat) (o : Output) (set : f ∈ s.serv.flags) :
    f ∈ (keyOutput slot b o s).serv.flags := by
  unfold keyOutput
  repeat' split
  all_goals simp [set]

@[simp] theorem carryOutKey_keepsFlag (slot b : Nat) (key : KeyEvent) (set : f ∈ s.serv.flags) :
    f ∈ (carryOutKey slot b key s).serv.flags := by
  cases key <;> simp [carryOutKey, set]

@[simp] theorem takeKey_keepsFlag (slot : Nat) (key : KeyEvent) (set : f ∈ s.serv.flags) :
    f ∈ (takeKey slot key s).serv.flags := by
  unfold takeKey
  split <;> simp [set]

@[simp] theorem turnMinute_keepsFlag (b : Nat) (set : f ∈ s.serv.flags) : f ∈ (turnMinute b s).serv.flags :=
  flagged_iff.mp (turnMinute_flagged (flagged_iff.mpr set))

@[simp] theorem takeTurns_keepsFlag (set : f ∈ s.serv.flags) : f ∈ (takeTurns s).serv.flags := by
  unfold takeTurns
  exact foldl_keepsFlag (fun _ _ set => by simp [set]) _ set

/-! ### The loop controller (R50 to R62) -/

@[simp] theorem missFrame_keepsFlag (slot : Nat) (set : f ∈ s.serv.flags) : f ∈ (missFrame slot s).serv.flags := by
  unfold missFrame
  dsimp only
  repeat' split
  all_goals simp [goAbsent, set]

@[simp] theorem loseFrame_keepsFlag (set : f ∈ s.serv.flags) : f ∈ (loseFrame s).serv.flags := by
  unfold loseFrame
  exact foldl_keepsFlag (fun _ n => missFrame_keepsFlag n) _ (by simp [set])

@[simp] theorem loseFrames_keepsFlag (n : Nat) (set : f ∈ s.serv.flags) : f ∈ (loseFrames n s).serv.flags := by
  unfold loseFrames
  induction n with
  | zero => exact set
  | succ n ih =>
    rw [Nat.repeat]
    exact loseFrame_keepsFlag ih

@[simp] theorem countDeparture_keepsFlag (set : f ∈ s.serv.flags) : f ∈ (countDeparture s).serv.flags := by
  unfold countDeparture
  dsimp only
  split
  · exact setFlag_keepsFlag _ set
  · exact set

@[simp] theorem takeDeparture_keepsFlag (set : f ∈ s.serv.flags) : f ∈ (takeDeparture s).serv.flags := by
  have given : f ∈ (giveUpOldest s).serv.flags := by
    unfold giveUpOldest
    split
    · exact loseFrame_keepsFlag set
    · exact set
  exact countDeparture_keepsFlag (by simpa using given)

@[simp] theorem readSlot_keepsFlag (slot : Nat) (u : Upstream) (set : f ∈ s.serv.flags) :
    f ∈ (readSlot slot u s).serv.flags := by
  unfold readSlot
  repeat' split
  all_goals simp [set]

@[simp] theorem handKey_keepsFlag (slot : Nat) (bytes : Nat × Nat) (set : f ∈ s.serv.flags) :
    f ∈ (handKey slot s bytes).serv.flags := by
  unfold handKey
  split <;> simp [set]

@[simp] theorem takeLevels_keepsFlag (frame : LoopReturn) (slot : Nat) (set : f ∈ s.serv.flags) :
    f ∈ (takeLevels frame s slot).serv.flags := by
  unfold takeLevels
  split <;> simp [set]

@[simp] theorem takeKeys_keepsFlag (frame : LoopReturn) (slot : Nat) (set : f ∈ s.serv.flags) :
    f ∈ (takeKeys frame s slot).serv.flags := by
  unfold takeKeys
  repeat' split
  · simp [set]
  · exact foldl_keepsFlag (fun _ bytes => handKey_keepsFlag slot bytes) _ set
  · exact set

theorem handOn_keepsFlag (frame : LoopReturn) (set : f ∈ s.serv.flags) : f ∈ (handOn frame s).serv.flags := by
  have read := foldl_keepsFlag (fun _ n => readSlot_keepsFlag n (upstreamOf frame n)) (upTo Config.slots) set
  have levels := foldl_keepsFlag (fun _ n => takeLevels_keepsFlag frame n) (upTo Config.slots) read
  have keys := foldl_keepsFlag (fun _ n => takeKeys_keepsFlag frame n) (upTo Config.slots) levels
  have speech := foldl_keepsFlag (g := fun t b => takeSpeech (upstreamOf frame) b t) (fun _ _ set => by simp [set])
    (upTo Config.booths) keys
  simp only [handOn, countGoodReturn_frame]
  exact speech

theorem loopReturn_keepsFlag (frame : LoopReturn) (s : State) (set : f ∈ s.serv.flags) :
    f ∈ (loopReturn frame s).serv.flags := by
  unfold loopReturn
  repeat' split
  · simp [set]
  · simp [set]
  · exact handOn_keepsFlag frame (loseFrames_keepsFlag _ set)

/-! ### The air controller (R67 to R72, R77) -/

theorem takeReport_keepsFlag (p : AirReport) (s : State) (set : f ∈ s.serv.flags) : f ∈ (takeReport p s).serv.flags := by
  unfold takeReport unknownReport acceptReport
  dsimp only
  repeat' split
  all_goals simp [set]

theorem revokeOne_serv (candidate : Receiver → Bool) (acc : State × Nat) (slot : Nat) :
    (revokeOne candidate acc slot).1.serv = acc.1.serv := by
  unfold revokeOne
  repeat' split
  all_goals simp

@[simp] theorem revocationPass_serv (candidate : Receiver → Bool) (s : State) : (revocationPass candidate s).1.serv = s.serv :=
  foldl_keeps_fst State.serv _ (revokeOne_serv candidate) _ (s, 0)

/-! ### The accounting unit (R142, R106, R145) -/

@[simp] theorem applyStatement_keepsFlag (st : Statement) (set : f ∈ s.serv.flags) :
    f ∈ (applyStatement st s).serv.flags := by
  unfold applyStatement
  dsimp only
  repeat' split
  all_goals simp [set]

@[simp] theorem flagQueue_keepsFlag (set : f ∈ s.serv.flags) : f ∈ (flagQueue s).serv.flags :=
  flagged_iff.mp ((flagQueue_flagged s f).mpr (.inl (flagged_iff.mpr set)))

@[simp] theorem postStatement_keepsFlag (st : Statement) (set : f ∈ s.serv.flags) : f ∈ (postStatement st s).serv.flags :=
  flagQueue_keepsFlag (applyStatement_keepsFlag st set)

@[simp] theorem postPending_keepsFlag (slot : Nat) (set : f ∈ s.serv.flags) : f ∈ (postPending slot s).serv.flags := by
  unfold postPending
  dsimp only
  split
  · exact set
  split
  · simp only [writeReceiver_frame, countAcct_frame]
    exact postStatement_keepsFlag _ set
  · exact set

theorem postPendings_keepsFlag (l : List Nat) (acc : State × Nat) (set : f ∈ acc.1.serv.flags) :
    f ∈ (postPendings l acc).1.serv.flags := by
  induction l generalizing acc with
  | nil => exact set
  | cons slot rest ih =>
    unfold postPendings
    split
    · exact ih _ (postPending_keepsFlag slot set)
    · exact set

theorem releaseStatements_keepsFlag (count : Nat) (head : Option (Option StatementKind × Nat)) (s : State)
    (set : f ∈ s.serv.flags) : f ∈ (releaseStatements count head s).1.serv.flags := by
  unfold releaseStatements
  dsimp only
  repeat' split
  · exact set
  · exact set
  · exact postPendings_keepsFlag _ _ (by simp [set])

/-! ### Receiver hire (R93 to R104) -/

@[simp] theorem settleClosure_keepsFlag (slot : Nat) (r : Receiver) (loan : Loan) (k : StatementKind)
    (set : f ∈ s.serv.flags) : f ∈ (settleClosure slot r loan k s).serv.flags := by
  unfold settleClosure
  split <;> simp [set]

@[simp] theorem closeReturned_keepsFlag (slot : Nat) (r : Receiver) (loan : Loan) (set : f ∈ s.serv.flags) :
    f ∈ (closeReturned slot r loan s).serv.flags := by
  simp [closeReturned, set]

@[simp] theorem closeLost_keepsFlag (slot : Nat) (r : Receiver) (loan : Loan) (set : f ∈ s.serv.flags) :
    f ∈ (closeLost slot r loan s).serv.flags := by
  simp [closeLost, set]

@[simp] theorem recover_keepsFlag (slot : Nat) (r : Receiver) (loan : Loan) (set : f ∈ s.serv.flags) :
    f ∈ (recover slot r loan s).serv.flags := by
  simp [recover, set]

@[simp] theorem dock_keepsFlag (station rackSlot battery slot : Nat) (r : Receiver) (set : f ∈ s.serv.flags) :
    f ∈ (dock station rackSlot battery slot r s).serv.flags := by
  unfold dock
  dsimp only
  repeat' split
  all_goals simp [set]

theorem takeRack_keepsFlag {rule : Nat → Receiver → State → State}
    (h : ∀ slot r s, f ∈ s.serv.flags → f ∈ (rule slot r s).serv.flags) (fits : Bool) (serial : Nat) (s : State)
    (set : f ∈ s.serv.flags) : f ∈ (takeRack fits serial rule s).serv.flags := by
  unfold takeRack
  dsimp only
  repeat' split
  · exact set
  · exact setFlag_keepsFlag _ set
  · exact h _ _ _ set

theorem atSerial_keepsFlag {rule : Nat → Receiver → State → State × Answer}
    (h : ∀ slot r s, f ∈ s.serv.flags → f ∈ (rule slot r s).1.serv.flags) (serial : Nat) (s : State)
    (set : f ∈ s.serv.flags) : f ∈ (atSerial serial rule s).1.serv.flags := by
  unfold atSerial atReceiver
  repeat' split
  · exact set
  · exact set
  · exact h _ _ _ set

theorem returnReceiver_keepsFlag (serial : Nat) (s : State) (set : f ∈ s.serv.flags) :
    f ∈ (returnReceiver serial s).1.serv.flags := by
  refine atSerial_keepsFlag (fun slot r s set => ?_) serial s set
  split
  all_goals simp [refuse, accept, set]

theorem declareLost_keepsFlag (serial : Nat) (s : State) (set : f ∈ s.serv.flags) :
    f ∈ (declareLost serial s).1.serv.flags := by
  refine atSerial_keepsFlag (fun slot r s set => ?_) serial s set
  repeat' split
  all_goals simp [refuse, accept, set]

/-! ### Requests to channels and booths, modes and the supply (R10, R37, R48, R170, R178, R188) -/

theorem disableChannel_keepsFlag (c : Nat) (force : Bool) (s : State) (set : f ∈ s.serv.flags) :
    f ∈ (disableChannel c force s).1.serv.flags := by
  unfold disableChannel atChannel
  split
  · exact set
  dsimp only
  split
  · exact set
  split
  · exact set
  split
  · exact goSilent_keepsFlag _ _ set
  · exact set

theorem forceSilent_keepsFlag (b : Nat) (s : State) (set : f ∈ s.serv.flags) :
    f ∈ (forceSilent b s).1.serv.flags := by
  unfold forceSilent
  split <;> simp [refuse, accept, set]

theorem silenceAll_keepsFlag (set : f ∈ s.serv.flags) : f ∈ (silenceAll s).serv.flags := by
  unfold silenceAll
  exact foldl_keepsFlag (fun _ _ set => by simp [set]) _ set

@[simp] theorem enterSetup_keepsFlag (set : f ∈ s.serv.flags) : f ∈ (enterSetup s).serv.flags := by
  simp only [enterSetup, abandonBatches_frame, emptyFloor_frame]
  exact silenceAll_keepsFlag set

theorem setMode_keepsFlag (mode : Option Mode) (s : State) (set : f ∈ s.serv.flags) :
    f ∈ (setMode mode s).1.serv.flags := by
  unfold setMode
  repeat' split
  all_goals simp [refuse, accept, set]

theorem takeBackup_keepsFlag (low : Bool) (s : State) (set : f ∈ s.serv.flags) : f ∈ (takeBackup low s).serv.flags := by
  unfold takeBackup
  repeat' split
  all_goals simp [set]

@[simp] theorem recordMatch_keepsFlag (name : AlarmName) (set : f ∈ s.serv.flags) : f ∈ (recordMatch name s).serv.flags := by
  simp [recordMatch, set]

/-! ### Ticks (R162 to R165) -/

theorem evaluateAlarm_keepsFlag (acc : State × List Taking) (name : AlarmName) (set : f ∈ acc.1.serv.flags) :
    f ∈ (evaluateAlarm acc name).1.serv.flags := by
  unfold evaluateAlarm
  split <;> simp [set]

@[simp] theorem issueMinute_keepsFlag (set : f ∈ s.serv.flags) : f ∈ (issueMinute s).1.serv.flags :=
  foldl_invariant_fst (fun t => f ∈ t.serv.flags) _ evaluateAlarm_keepsFlag [.returnBy, .sessionClose] (_, []) set

theorem takeOne_keepsFlag (t : Taking) (set : f ∈ s.serv.flags) : f ∈ (takeOne t s).1.serv.flags := by
  cases t
  case clock =>
    show f ∈ (takeClock s).1.serv.flags
    unfold takeClock
    split <;> simp [set]
  all_goals simp [takeOne, set]

theorem runTakings_keepsFlag (order : List Taking) (n : Nat) (due : List Taking) (s : State) (set : f ∈ s.serv.flags) :
    f ∈ (runTakings order n due s).serv.flags := by
  induction n generalizing due s with
  | zero => exact set
  | succ n ih =>
    unfold runTakings
    split
    · exact set
    · exact ih _ _ (takeOne_keepsFlag _ set)

end

/-! ### Owners that leave the service controller alone -/

theorem atChannel_serv {rule : State → State × Answer} (h : ∀ s, (rule s).1.serv = s.serv) (c : Nat) (s : State) :
    (atChannel c rule s).1.serv = s.serv := by
  unfold atChannel
  split
  · rfl
  · exact h s

theorem loadChannel_serv (c : Nat) (l : Label) (r : Bool) (p : Option Fallback) (s : State) :
    (loadChannel c l r p s).1.serv = s.serv := by
  unfold loadChannel
  repeat' split
  all_goals simp [refuse, accept, revokeChannel]

theorem enableChannel_serv (c : Nat) (s : State) : (enableChannel c s).1.serv = s.serv := by
  refine atChannel_serv (fun s => ?_) c s
  split <;> rfl

theorem loadConsole_serv (slot : Nat) (configured : Bool) (booth seat : Option Nat) (s : State) :
    (loadConsole slot configured booth seat s).1.serv = s.serv := by
  unfold loadConsole
  repeat' split
  all_goals simp [refuse, accept]

theorem loadBooth_serv (b : Nat) (a1 b1 : Option Nat) (i : Option Interlock) (limit : Nat) (m : Option CallMode)
    (s : State) : (loadBooth b a1 b1 i limit m s).1.serv = s.serv := by
  unfold loadBooth
  repeat' split
  all_goals rfl

theorem setRelay_serv (b : Nat) (source : RelaySource) (s : State) : (setRelay b source s).1.serv = s.serv := by
  unfold setRelay
  repeat' split
  all_goals rfl

theorem fetchCalls_serv (s : State) : (fetchCalls s).1.serv = s.serv := by
  obtain ⟨booths, e⟩ := fetchCalls_eq s
  rw [e]

theorem atReceiver_serv {rule : Nat → Receiver → State → State × Answer}
    (h : ∀ slot r s, (rule slot r s).1.serv = s.serv) (serial : Nat) (s : State) :
    (atReceiver serial rule s).1.serv = s.serv := by
  unfold atReceiver
  split
  · rfl
  · exact h ..

theorem atSerial_serv {rule : Nat → Receiver → State → State × Answer}
    (h : ∀ slot r s, (rule slot r s).1.serv = s.serv) (serial : Nat) (s : State) :
    (atSerial serial rule s).1.serv = s.serv := by
  unfold atSerial
  split
  · rfl
  · exact atReceiver_serv h serial s

theorem enrol_serv (serial : Nat) (s : State) : (enrol serial s).1.serv = s.serv := by
  unfold enrol
  repeat' split
  all_goals simp [refuse, accept]

theorem withdraw_serv (serial : Nat) (s : State) : (withdraw serial s).1.serv = s.serv := by
  refine atReceiver_serv (fun slot r s => ?_) serial s
  split
  all_goals simp [refuse, accept]

theorem reinstate_serv (serial : Nat) (s : State) : (reinstate serial s).1.serv = s.serv := by
  refine atReceiver_serv (fun slot r s => ?_) serial s
  split
  all_goals simp [refuse, accept]

theorem deleteReceiver_serv (serial : Nat) (s : State) : (deleteReceiver serial s).1.serv = s.serv := by
  refine atReceiver_serv (fun slot r s => ?_) serial s
  split
  all_goals rfl

theorem issue_serv (serial account : Nat) (s : State) : (issue serial account s).1.serv = s.serv := by
  unfold issue
  repeat' split
  all_goals simp [refuseIssue, refuse, accept]

theorem readReceiver_serv (key : RecordKey) (s : State) : (readReceiver key s).1.serv = s.serv := by
  cases key with
  | number n => exact atSerial_serv (fun _ _ _ => rfl) n s
  | slot n =>
    unfold readReceiver
    dsimp only
    repeat' split
    all_goals rfl

theorem closeFailed_serv (station : Nat) (b : Batch) (s : State) : (closeFailed station b s).1.serv = s.serv := by
  simp [closeFailed]

theorem failBatch_serv (station : Nat) (b : Batch) (code : RefusalCode) (final : Bool) (s : State) :
    (failBatch station b code final s).1.serv = s.serv := by
  unfold failBatch
  dsimp only
  split
  · simp [closeFailed_serv]
  · simp

theorem issueItem_serv (account : Nat) (acc : State × List (Nat × Nat)) (serial : Nat) :
    (issueItem account acc serial).1.serv = acc.1.serv := by
  unfold issueItem
  split
  · rfl
  · simp

theorem settleItem_serv (station : Nat) (b : Batch) (final : Bool) (s : State) :
    (settleItem station b final s).1.serv = s.serv := by
  unfold settleItem finalStep
  repeat' split
  · exact failBatch_serv ..
  · simpa using foldl_keeps_fst State.serv _ (issueItem_serv b.account) b.items (s, [])
  · rfl

theorem abortItem_serv (station : Nat) (b : Batch) (serial : Nat) (s : State) :
    (abortItem station b serial s).1.serv = s.serv := by
  unfold abortItem
  dsimp only
  split
  all_goals simp [refuse]

theorem addItem_serv (station : Nat) (b : Batch) (serial : Nat) (final : Bool) (s : State) :
    (addItem station b serial final s).1.serv = s.serv := by
  unfold addItem
  repeat' split
  all_goals simp [settleItem_serv, failBatch_serv, holdItem]

theorem openTakes_serv (station account : Nat) (serial : Option Nat) (more abort : Bool) (b : Batch) (s : State) :
    (openTakes station account serial more abort b s).1.serv = s.serv := by
  unfold openTakes
  repeat' split
  all_goals simp [settleItem_serv, failBatch_serv, abortItem_serv, addItem_serv]

theorem batchTakes_serv (station account : Nat) (serial : Option Nat) (more abort : Bool) (b : Batch) (s : State) :
    (batchTakes station account serial more abort b s).1.serv = s.serv := by
  unfold batchTakes failedTakes
  dsimp only
  repeat' split
  all_goals simp [openTakes_serv, closeFailed_serv]

theorem batchItem_serv (station account : Nat) (serial : Option Nat) (more abort : Bool) (s : State) :
    (batchItem station account serial more abort s).1.serv = s.serv := by
  unfold batchItem openBatch
  repeat' split
  all_goals simp [refuse, batchTakes_serv]

theorem readBatch_serv (station : Nat) (s : State) : (readBatch station s).1.serv = s.serv := by
  unfold readBatch
  repeat' split
  all_goals rfl

theorem loadTariff_serv (cls a b c d e : Nat) (s : State) : (loadTariff cls a b c d e s).1.serv = s.serv := by
  unfold loadTariff
  repeat' split
  all_goals rfl

theorem atAccount_serv {rule : Nat → Account → State → State × Answer}
    (h : ∀ slot a s, (rule slot a s).1.serv = s.serv) (account : Nat) (s : State) :
    (atAccount account rule s).1.serv = s.serv := by
  unfold atAccount
  repeat' split
  · rfl
  · rfl
  · exact h ..

theorem accountLoad_serv (account cls limit : Nat) (access : List Nat) (s : State) :
    (accountLoad account cls limit access s).1.serv = s.serv := by
  unfold accountLoad createAccount changeAccount
  dsimp only
  repeat' split
  all_goals simp [refuse, accept, revokeAccount]

theorem suspendAccount_serv (account : Nat) (s : State) : (suspendAccount account s).1.serv = s.serv := by
  refine atAccount_serv (fun slot a s => ?_) account s
  dsimp only
  split
  all_goals simp [accept, revokeAccount]

theorem closeAccount_serv (account : Nat) (s : State) : (closeAccount account s).1.serv = s.serv := by
  refine atAccount_serv (fun slot a s => ?_) account s
  repeat' split
  all_goals rfl

theorem clearBalance_serv (account expected : Nat) (s : State) : (clearBalance account expected s).1.serv = s.serv := by
  unfold clearBalance
  split
  · rfl
  refine atAccount_serv (fun slot a s => ?_) account s
  split
  all_goals rfl

theorem readAccount_serv (key : RecordKey) (s : State) : (readAccount key s).1.serv = s.serv := by
  cases key with
  | number n => exact atAccount_serv (fun _ _ _ => rfl) n s
  | slot n =>
    unfold readAccount
    dsimp only
    repeat' split
    all_goals rfl

theorem releaseDuty_serv (count : Nat) (s : State) : (releaseDuty count s).1.serv = s.serv := by
  unfold releaseDuty
  dsimp only
  repeat' split
  all_goals rfl

theorem clearDutyTotals_serv (s : State) : (clearDutyTotals s).1.serv = s.serv := by
  simp [clearDutyTotals, accept, foldl_keeps State.serv]

theorem setClock_serv (value : Clock) (s : State) : (setClock value s).1.serv = s.serv := by
  unfold setClock
  split <;> rfl

theorem loadAlarm_serv (alarm : Option AlarmName) (day : Nat) (dayOn : Bool) (hour : Nat) (hourOn : Bool) (minute : Nat)
    (minuteOn : Bool) (s : State) : (loadAlarm alarm day dayOn hour hourOn minute minuteOn s).1.serv = s.serv := by
  unfold loadAlarm
  repeat' split
  all_goals simp [refuse, accept]

theorem clearAlarm_serv (alarm : Option AlarmName) (s : State) : (clearAlarm alarm s).1.serv = s.serv := by
  unfold clearAlarm
  split
  all_goals simp [refuse, accept]

theorem loadParameters_serv (a o l i : Nat) (stampMode : Option StampMode) (high : Nat) (s : State) :
    (loadParameters a o l i stampMode high s).1.serv = s.serv := by
  unfold loadParameters
  repeat' split
  all_goals rfl

/-! ### The service controller's own requests but CLEAR NOTICES (R190, R197) -/

theorem loadStation_flags (station : Nat) (entry : StationEntry) (s : State) :
    (loadStation station entry s).1.serv.flags = s.serv.flags := by
  unfold loadStation removeStation placeRole
  repeat' split
  all_goals rfl

theorem setNoticeMask_flags (station : Nat) (mask : List (Option NoticeFlag)) (s : State) :
    (setNoticeMask station mask s).1.serv.flags = s.serv.flags := by
  unfold setNoticeMask
  repeat' split
  all_goals rfl

theorem zeroGroup_flags (g : CounterGroup) (s : State) : (zeroGroup g s).serv.flags = s.serv.flags := by
  cases g <;> dsimp only [zeroGroup]
  case consoles => rw [foldl_modSlot_eq, modLoop_serv]
  case channels => rw [modSwitch_serv, foldl_modChan_eq, modSwitch_serv]
  case channelMinutes => rw [foldl_modChan_eq, modSwitch_serv]
  all_goals rfl

theorem clearCounters_flags (group : Option CounterGroup) (s : State) :
    (clearCounters group s).1.serv.flags = s.serv.flags := by
  unfold clearCounters
  split
  · rfl
  · exact zeroGroup_flags ..

/-! ### Every command (R195) -/

/-- The outcome is a next state in which the flag is set, if it was set before. -/
def StaysSet (f : NoticeFlag) (s : State) (o : Host.Outcome State Fault Refusal) : Prop :=
  ∃ t, o = .next t ∧ (f ∈ s.serv.flags → f ∈ t.serv.flags)

section

variable {f : NoticeFlag}

theorem StaysSet.next {s t : State} (h : f ∈ s.serv.flags → f ∈ t.serv.flags) : StaysSet f s (.next t) := ⟨t, rfl, h⟩

theorem StaysSet.message {take : State → State} (h : ∀ s, f ∈ s.serv.flags → f ∈ (take s).serv.flags) (s : State) :
    StaysSet f s (.next (takeMessage take s)) := by
  obtain e | ⟨n, e⟩ := takeMessage_cases take s <;> rw [e]
  · exact .next (h s)
  · exact .next id

/-- A request keeps what its owner keeps. -/
theorem StaysSet.serve {owner : State → State × Answer} (ho : ∀ s, f ∈ s.serv.flags → f ∈ (owner s).1.serv.flags)
    (h : Header) (may : Role → Bool) (fits : Bool) (s : State) : StaysSet f s (.next (serve h may fits owner s)) := by
  refine .message (fun s set => ?_) s
  unfold takeRequest whenAdmitted
  repeat' split
  · simp [set]
  · simp [set]
  · simp [set]
  · simp only [handToOwner, queueReply_flags]
    exact ho _ set

/-- A request whose owner leaves the service controller alone. -/
theorem StaysSet.serve_of_serv {owner : State → State × Answer} (ho : ∀ s, (owner s).1.serv = s.serv) (h : Header)
    (may : Role → Bool) (fits : Bool) (s : State) : StaysSet f s (.next (Machine.serve h may fits owner s)) :=
  .serve (fun s set => by rwa [ho]) h may fits s

/-- A request whose owner leaves the flags alone. -/
theorem StaysSet.serve_of_flags {owner : State → State × Answer} (ho : ∀ s, (owner s).1.serv.flags = s.serv.flags)
    (h : Header) (may : Role → Bool) (fits : Bool) (s : State) :
    StaysSet f s (.next (Machine.serve h may fits owner s)) :=
  .serve (fun s set => by rwa [ho]) h may fits s

theorem StaysSet.rack {rule : Nat → Receiver → State → State}
    (hr : ∀ slot r s, f ∈ s.serv.flags → f ∈ (rule slot r s).serv.flags) (fits : Bool) (serial : Nat) (h : Header)
    (s : State) : StaysSet f s (.next (serveRack h (takeRack fits serial rule) s)) := by
  refine .message (fun s set => ?_) s
  repeat' split
  · simp [set]
  · exact takeRack_keepsFlag hr fits serial _ set
  · simp [set]

theorem StaysSet.event {event : State → State} (h : ∀ s, f ∈ s.serv.flags → f ∈ (event s).serv.flags) (s : State) :
    StaysSet f s (.next (whileMains event s)) := by
  unfold whileMains
  split
  · exact .next id
  · exact .next (h s)

/-- An event that comes about only where it is due. -/
theorem StaysSet.due {due : State → Prop} [∀ s, Decidable (due s)] {event : State → State}
    (h : ∀ s, f ∈ s.serv.flags → f ∈ (event s).serv.flags) (s : State) :
    StaysSet f s (.next (whileMains (fun s => if due s then event s else s) s)) := by
  refine .event (fun s set => ?_) s
  split
  · exact h s set
  · exact set

end

/-- Settles O60: every command by what its owner, its event or its takings keep. -/
theorem flagsStaySet : Obligations.FlagsStaySet := by
  intro c s t f next set clear restart mains bytes
  rw [flagged_iff] at set ⊢
  suffices stays : StaysSet f s (exec c s) by
    obtain ⟨u, e, kept⟩ := stays
    cases next.symm.trans e
    exact kept set
  cases c with
  | clearNotices h l => exact absurd rfl (clear h l)
  | restart h => exact absurd rfl (restart h)
  | mainsReturn event => exact absurd rfl (mains event)
  | messageDropped l => exact absurd rfl (bytes l)
  | blockTick order => exact .event (event := blockTick order) (fun s set => runTakings_keepsFlag _ _ _ (startTick s) set) s
  | displayEnd slot => exact .due (fun s set => by simpa using set) s
  | secondTick order => exact .event (fun s set => runTakings_keepsFlag _ _ _ _ set) s
  | offerExpiry booth => exact .due (fun s set => by simpa using set) s
  | outOfRange serial =>
    refine .event (fun s set => ?_) s
    repeat' split
    all_goals simp [set]
  | batchTimeout station =>
    refine .event (fun s set => ?_) s
    repeat' split
    all_goals simp [set]
  | minuteTick order => exact .event (fun s set => runTakings_keepsFlag _ _ _ _ (issueMinute_keepsFlag set)) s
  | turnDue booth => exact .due (fun s set => turnMinute_keepsFlag booth set) s
  | alarmMatch alarm =>
    refine .due (fun s set => ?_) s
    cases alarm <;> simp [takeEffect, set]
  | returnByEffect => exact .event (fun s set => by simpa using set) s
  | sessionCloseEffect => exact .event (fun s set => by simpa using set) s
  | loopReturn frame => exact .event (loopReturn_keepsFlag _) s
  | consoleAbsent slot => exact .due (fun s set => missFrame_keepsFlag slot set) s
  | loopBroken => exact .due (fun s set => countDeparture_keepsFlag set) s
  | floorBlockArrival block => exact .event (fun s set => by simpa using set) s
  | receiverReport report => exact .event (takeReport_keepsFlag _) s
  | docked h serial rackSlot battery => exact .rack (fun slot r s set => dock_keepsFlag _ _ _ slot r set) _ serial h s
  | undocked h serial rackSlot => exact .rack (fun slot r s set => by simpa using set) _ serial h s
  | cell h serial battery => exact .rack (fun slot r s set => by simpa using set) _ serial h s
  | outboundSend => exact .event (fun s set => by simpa using set) s
  | loadConsole h slot configured booth seat => exact .serve_of_serv (loadConsole_serv slot configured booth seat) ..
  | readConsole h slot =>
    refine .serve_of_serv (fun s => ?_) ..
    unfold readConsole
    split <;> rfl
  | loadBooth h booth a b interlock limit mode => exact .serve_of_serv (loadBooth_serv booth a b interlock limit mode) ..
  | readBooth h booth =>
    refine .serve_of_serv (fun s => ?_) ..
    unfold readBooth
    split <;> rfl
  | loadChannel h channel label restricted policy =>
    exact .serve_of_serv (loadChannel_serv channel label restricted policy) ..
  | readChannel h channel =>
    refine .serve_of_serv (fun s => ?_) ..
    unfold readChannel
    split <;> rfl
  | clearStamp h channel => exact .serve_of_serv (atChannel_serv (fun _ => rfl) channel) ..
  | enableChannel h channel => exact .serve_of_serv (enableChannel_serv channel) ..
  | disableChannel h channel force => exact .serve (disableChannel_keepsFlag channel force) ..
  | forceSilent h booth => exact .serve (forceSilent_keepsFlag booth) ..
  | setRelay h booth source => exact .serve_of_serv (setRelay_serv booth source) ..
  | fetchCalls h => exact .serve_of_serv fetchCalls_serv ..
  | readLoop h => exact .serve_of_serv (fun _ => rfl) ..
  | readAir h => exact .serve_of_serv (fun _ => rfl) ..
  | enrol h serial => exact .serve_of_serv (enrol_serv serial) ..
  | withdraw h serial => exact .serve_of_serv (withdraw_serv serial) ..
  | reinstate h serial => exact .serve_of_serv (reinstate_serv serial) ..
  | deleteReceiver h serial => exact .serve_of_serv (deleteReceiver_serv serial) ..
  | issue h serial account => exact .serve_of_serv (issue_serv serial account) ..
  | returnReceiver h serial => exact .serve (returnReceiver_keepsFlag serial) ..
  | declareLost h serial => exact .serve (declareLost_keepsFlag serial) ..
  | find h serial => exact .serve_of_serv (atSerial_serv (fun _ _ _ => rfl) serial) ..
  | readReceiver h key => exact .serve_of_serv (readReceiver_serv key) ..
  | readHire h => exact .serve_of_serv (fun _ => rfl) ..
  | batchItem h account serial more abort => exact .serve_of_serv (batchItem_serv _ account serial more abort) ..
  | readBatch h station => exact .serve_of_serv (readBatch_serv station) ..
  | loadTariff h cls len rate cap overdue lost => exact .serve_of_serv (loadTariff_serv cls len rate cap overdue lost) ..
  | readTariff h cls =>
    refine .serve_of_serv (fun s => ?_) ..
    unfold readTariff
    split <;> rfl
  | accountLoad h account cls limit access => exact .serve_of_serv (accountLoad_serv account cls limit access) ..
  | suspend h account => exact .serve_of_serv (suspendAccount_serv account) ..
  | resume h account => exact .serve_of_serv (atAccount_serv (fun _ _ _ => rfl) account) ..
  | close h account => exact .serve_of_serv (closeAccount_serv account) ..
  | clearBalance h account expected => exact .serve_of_serv (clearBalance_serv account expected) ..
  | readAccount h key => exact .serve_of_serv (readAccount_serv key) ..
  | readStatements h => exact .serve_of_serv (fun _ => rfl) ..
  | releaseStatements h count head => exact .serve (releaseStatements_keepsFlag count head) ..
  | readAccounting h => exact .serve_of_serv (fun _ => rfl) ..
  | readDuty h => exact .serve_of_serv (fun _ => rfl) ..
  | releaseDuty h count => exact .serve_of_serv (releaseDuty_serv count) ..
  | cutDuty h => exact .serve cutDuty_keepsFlag ..
  | clearDutyTotals h => exact .serve_of_serv clearDutyTotals_serv ..
  | setClock h value => exact .serve_of_serv (setClock_serv value) ..
  | loadAlarm h alarm day dayOn hour hourOn minute minuteOn =>
    exact .serve_of_serv (loadAlarm_serv alarm day dayOn hour hourOn minute minuteOn) ..
  | clearAlarm h alarm => exact .serve_of_serv (clearAlarm_serv alarm) ..
  | readClock h => exact .serve_of_serv (fun _ => rfl) ..
  | setMode h mode => exact .serve (setMode_keepsFlag mode) ..
  | loadParameters h absence offer silent threshold stamps high =>
    exact .serve_of_serv (loadParameters_serv absence offer silent threshold stamps high) ..
  | readParameters h => exact .serve_of_serv (fun _ => rfl) ..
  | readSupply h => exact .serve_of_serv (fun _ => rfl) ..
  | loadStation h station entry => exact .serve_of_flags (loadStation_flags station entry) ..
  | setNoticeMask h station mask => exact .serve_of_flags (setNoticeMask_flags station mask) ..
  | readStation h station =>
    refine .serve_of_serv (fun s => ?_) ..
    unfold readStation
    repeat' split
    all_goals rfl
  | readNotices h => exact .serve_of_serv (fun _ => rfl) ..
  | readCounters h group =>
    refine .serve_of_serv (fun s => ?_) ..
    unfold readCounters
    split <;> rfl
  | clearCounters h group => exact .serve_of_flags (clearCounters_flags group) ..
  | mainsLoss => exact .event (event := mainsLoss) (fun _ set => set) s
  | backupSecond =>
    refine .next fun set => ?_
    split
    · simpa using set
    · exact set
  | backupLowIndication low => exact .event (takeBackup_keepsFlag low) s

end Sys2Proof.Machine

/-! The bytes that spell a command (12_formats.md): each field is read back as it was written, so is each body, and the message with it
is taken as the command (R189, R191, R194, R199). -/

namespace Sys2Proof.Machine

/-! ### What a reader takes from the front of a body -/

/-- The reader takes exactly these bytes from the front of a body, as the value; they are no more than a bound. -/
structure Carries {α : Type} (r : Reader α) (bytes : List Byte) (v : α) (bound : Nat) : Prop where
  read : ∀ rest, r (bytes ++ rest) = some (v, rest)
  short : bytes.length ≤ bound

namespace Carries

variable {α β : Type} {r : Reader α} {b c : List Byte} {v : α} {n m : Nat}

theorem pure (v : α) : Carries (Pure.pure v) [] v 0 := ⟨fun _ => rfl, le_rfl⟩

/-- One reading after another. -/
theorem bind {k : α → Reader β} {w : β} (first : Carries r b v n) (then_ : Carries (k v) c w m) :
    Carries (r >>= k) (b ++ c) w (n + m) where
  read rest := by
    show (r (b ++ c ++ rest)).bind (fun p => k p.1 p.2) = some (w, rest)
    rw [List.append_assoc, first.read]
    exact then_.read rest
  short := by
    rw [List.length_append]
    exact Nat.add_le_add first.short then_.short

/-- The last field of a body. -/
theorem last {g : α → β} (carried : Carries r b v n) : Carries (r >>= fun x => Pure.pure (g x)) b (g v) n where
  read rest := by
    show (r (b ++ rest)).bind (fun p => some (g p.1, p.2)) = some (g v, rest)
    rw [carried.read]
    rfl
  short := carried.short

theorem map {g : α → β} (carried : Carries r b v n) : Carries (g <$> r) b (g v) n where
  read rest := by
    show (r (b ++ rest)).bind (fun p => some (g p.1, p.2)) = some (g v, rest)
    rw [carried.read]
    rfl
  short := carried.short

/-- The same bytes, put together another way, and a greater bound. -/
theorem of_eq {b' : List Byte} {n' : Nat} (carried : Carries r b v n)
    (same : b' = b := by simp only [List.append_assoc]) (le : n ≤ n' := by decide) : Carries r b' v n' :=
  ⟨same ▸ carried.read, same ▸ carried.short.trans le⟩

/-- A body that holds no more than what is read of it. -/
theorem whole (carried : Carries r b v n) : readWhole r b = some v := by
  have read := carried.read []
  rw [List.append_nil] at read
  simp [readWhole, read]

end Carries

/-! ### Numbers, flags, names -/

theorem natBytes_one (n : Nat) : natBytes 1 n = [BitVec.ofNat 8 n] := by simp [natBytes]

theorem natBytes_two (n : Nat) : natBytes 2 n = natBytes 1 (n / 256) ++ natBytes 1 n := by
  rw [natBytes_succ, natBytes_one n]

theorem carries_num {n : Nat} (fits : fitsNumber n = true) : Carries readNum (spellNum n) n 4 where
  read rest := by
    have fits : n < 256 ^ 4 := of_decide_eq_true fits
    have enough : ¬(natBytes 4 n ++ rest).length < 4 := by simp
    unfold readNum spellNum
    rw [if_neg enough, List.take_left' (natBytes_length ..), List.drop_left' (natBytes_length ..), bytesNat_natBytes 4 n fits]
  short := Nat.le_of_eq (natBytes_length ..)

/-- A byte is read as the number below 256 that it spells. -/
theorem carries_byte (n : Nat) : Carries readByte (natBytes 1 n) (n % 256) 1 where
  read rest := by
    rw [natBytes_one]
    show some ((BitVec.ofNat 8 n).toNat, rest) = _
    rw [BitVec.toNat_ofNat]
  short := Nat.le_of_eq (natBytes_length ..)

theorem carries_byte_of_lt {n : Nat} (fits : fitsByte n = true) : Carries readByte (natBytes 1 n) n 1 := by
  have read := carries_byte n
  rwa [Nat.mod_eq_of_lt (of_decide_eq_true fits)] at read

theorem carries_flag (b : Bool) : Carries readFlag (spellFlag b) b 1 where
  read rest := by cases b <;> rfl
  short := Nat.le_of_eq (natBytes_length ..)

theorem carries_text {t : String} (short : (textBytes t).length < 256) :
    Carries readText (spellName t) (textBytes t) (1 + (textBytes t).length) where
  read rest := by
    have count : (BitVec.ofNat 8 (textBytes t).length).toNat = (textBytes t).length := by
      rw [BitVec.toNat_ofNat]
      exact Nat.mod_eq_of_lt short
    unfold spellName readText
    rw [natBytes_one, List.append_assoc]
    simp [count]
  short := by simp [spellName]

/-- The names of the values of a kind: each value has one, no two the same, none empty and none above 17 bytes. -/
structure Names {α : Type} (all : List α) (text : α → String) : Prop where
  complete : ∀ a, a ∈ all
  distinct : (all.map fun a => textBytes (text a)).Nodup
  sized : ∀ a ∈ all, (textBytes (text a)).length ∈ List.range' 1 17

theorem Names.injective {α : Type} {all : List α} {text : α → String} (names : Names all text) {a b : α}
    (same : textBytes (text a) = textBytes (text b)) : a = b :=
  List.inj_on_of_nodup_map names.distinct (names.complete a) (names.complete b) same

/-- The value under a name, and none under the empty name. -/
theorem Names.find {α : Type} {all : List α} {text : α → String} (names : Names all text) (v : Option α) :
    all.find? (fun a => decide (textBytes (text a) = textBytes ((v.map text).getD ""))) = v := by
  cases v with
  | none =>
    refine List.find?_eq_none.mpr fun a mem empty => ?_
    have sized := names.sized a mem
    rw [of_decide_eq_true empty] at sized
    exact absurd (show (textBytes "").length ∈ List.range' 1 17 from sized) (by decide)
  | some v =>
    cases found : all.find? (fun a => decide (textBytes (text a) = textBytes (text v))) with
    | none => exact absurd (decide_eq_true rfl) (List.find?_eq_none.mp found v (names.complete v))
    | some a =>
      have same := List.find?_some found
      exact found.trans (congrArg some (names.injective (of_decide_eq_true same)))

theorem Names.length_le {α : Type} {all : List α} {text : α → String} (names : Names all text) (v : Option α) :
    (textBytes ((v.map text).getD "")).length ≤ 17 := by
  cases v with
  | none => exact Nat.zero_le 17
  | some v =>
    have sized := List.mem_range'_1.mp (names.sized v (names.complete v))
    show (textBytes (text v)).length ≤ 17
    omega

theorem carries_value {α : Type} {all : List α} {text : α → String} (names : Names all text) (v : Option α) :
    Carries (readValue all text) (spellValue text v) v 18 := by
  have short := names.length_le v
  have read := (carries_text (t := (v.map text).getD "") (by omega)).last
    (g := fun name => all.find? fun a => decide (textBytes (text a) = name))
  rw [names.find] at read
  exact ⟨read.read, read.short.trans (by omega)⟩

theorem carries_opt {α : Type} {r : Reader α} {spell : α → List Byte} {n : Nat} {o : Option α}
    (each : ∀ v ∈ o, Carries r (spell v) v n) : Carries (readOpt r) (spellOpt spell o) o (1 + n) := by
  cases o with
  | none =>
    have read := (carries_flag false).bind (k := fun b => if b then some <$> r else Pure.pure none) (.pure none)
    rw [List.append_nil] at read
    exact ⟨read.read, Nat.le_add_right_of_le read.short⟩
  | some v => exact (carries_flag true).bind (k := fun b => if b then some <$> r else Pure.pure none) (each v rfl).map

theorem carries_run {α : Type} {r : Reader α} {spell : α → List Byte} {n : Nat} (l : List α)
    (each : ∀ v ∈ l, Carries r (spell v) v n) : Carries (readRun r l.length) (l.flatMap spell) l (n * l.length) := by
  induction l with
  | nil => exact .pure []
  | cons v l ih =>
    obtain ⟨first, rest⟩ := List.forall_mem_cons.mp each
    have read := first.bind (k := fun a => do let rest ← readRun r l.length; Pure.pure (a :: rest)) (ih rest).last
    exact ⟨read.read, read.short.trans (by rw [List.length_cons, Nat.mul_succ, Nat.add_comm])⟩

theorem carries_list {α : Type} {r : Reader α} {spell : α → List Byte} {n : Nat} {l : List α} (fits : fitsCount l = true)
    (each : ∀ v ∈ l, Carries r (spell v) v n) : Carries (readList r) (spellList spell l) l (1 + n * 255) := by
  have count : l.length < 256 := of_decide_eq_true fits
  have read := (carries_byte_of_lt fits).bind (k := readRun r) (carries_run l each)
  exact ⟨read.read, read.short.trans (by have := Nat.mul_le_mul_left n (Nat.le_of_lt_succ count); omega)⟩

/-! ### The names of the values (12_formats.md, Bodies) -/

theorem flag_names : Names NoticeFlag.all NoticeFlag.text :=
  ⟨fun a => by cases a <;> decide, by decide, by decide⟩

theorem interlock_names : Names [.refuse, .takeover] interlockText := ⟨fun a => by cases a <;> decide, by decide, by decide⟩

theorem callMode_names : Names [.edge, .hold] callModeText := ⟨fun a => by cases a <;> decide, by decide, by decide⟩

theorem fallback_names : Names [.floor, .silence] fallbackText := ⟨fun a => by cases a <;> decide, by decide, by decide⟩

theorem stampMode_names : Names [.last, .first] stampModeText := ⟨fun a => by cases a <;> decide, by decide, by decide⟩

theorem mode_names : Names [.setup, .rehearsal, .session] modeText := ⟨fun a => by cases a <;> decide, by decide, by decide⟩

theorem alarm_names : Names [.returnBy, .sessionClose] alarmText := ⟨fun a => by cases a <;> decide, by decide, by decide⟩

theorem statementKind_names : Names [.returned, .lost, .recovered] statementKindText :=
  ⟨fun a => by cases a <;> decide, by decide, by decide⟩

theorem group_names :
    Names [.loop, .consoles, .channels, .channelMinutes, .air, .hire, .batches, .accounts, .duty, .clock, .mode, .service]
      groupText :=
  ⟨fun a => by cases a <;> decide, by decide, by decide⟩

theorem floor_names : Names [()] fun _ => "FLOOR" := ⟨fun _ => List.mem_singleton_self _, by decide, by decide⟩

/-! ### Values of several fields -/

theorem carries_optNum {o : Option Nat} (fits : fitsOption o = true) : Carries (readOpt readNum) (spellOpt spellNum o) o 5 :=
  carries_opt fun v mem => carries_num (by
    obtain rfl := Option.mem_def.mp mem
    exact fits)

theorem carries_label {l : Label} (fits : l.wellFormed = true) : Carries readLabel (labelBytes l) l 3 := by
  simp only [Label.wellFormed, Bool.and_eq_true] at fits
  obtain ⟨⟨first, second⟩, third⟩ := fits
  have same : l = ⟨Char.ofNat l.first.toNat, Char.ofNat l.second.toNat, Char.ofNat l.third.toNat⟩ := by
    simp only [Char.ofNat_toNat]
  conv => arg 3; rw [same]
  exact .of_eq ((carries_byte_of_lt first).bind ((carries_byte_of_lt second).bind (carries_byte_of_lt third).last))
    (by simp only [labelBytes, List.append_assoc])

theorem carries_clock {c : Clock} (fits : c.wellFormed = true) : Carries readClockValue (clockBytes c) c 7 := by
  simp only [Clock.wellFormed, Bool.and_eq_true, decide_eq_true_eq] at fits
  obtain ⟨⟨⟨⟨⟨year, month⟩, day⟩, hour⟩, minute⟩, second⟩ := fits
  have same : c = ⟨256 * (c.year / 256 % 256) + c.year % 256, c.month, c.day, c.hour, c.minute, c.second⟩ := by
    have whole : 256 * (c.year / 256 % 256) + c.year % 256 = c.year := by omega
    rw [whole]
  conv => arg 3; rw [same]
  exact .of_eq ((carries_byte (c.year / 256)).bind ((carries_byte c.year).bind ((carries_byte_of_lt month).bind
    ((carries_byte_of_lt day).bind ((carries_byte_of_lt hour).bind ((carries_byte_of_lt minute).bind
      (carries_byte_of_lt second).last))))))
    (by simp only [clockBytes, natBytes_two, List.append_assoc])

theorem carries_source {source : RelaySource} (fits : source.wellFormed = true) :
    Carries readSource (spellSource source) source 19 := by
  cases source with
  | floor => exact .of_eq ((carries_flag false).bind (carries_value floor_names (some ())).last) rfl
  | booth b => exact .of_eq ((carries_flag true).bind (carries_num fits).last) rfl

theorem carries_key {key : RecordKey} (fits : key.wellFormed = true) : Carries readKeyOf (spellKey key) key 5 := by
  cases key with
  | number n => exact .of_eq ((carries_flag false).bind (carries_num fits).last) rfl
  | slot n => exact .of_eq ((carries_flag true).bind (carries_num fits).last) rfl

theorem carries_mask {mask : List (Option NoticeFlag)} (fits : fitsCount mask = true) :
    Carries (readList readFlagName) (spellMask mask) mask 4591 := carries_list fits fun v _ => carries_value flag_names v

theorem carries_entry {entry : StationEntry} (fits : entry.wellFormed = true) :
    Carries readEntry (spellEntry entry) entry 4599 := by
  cases entry with
  | control mask => exact .of_eq ((carries_text (t := "CONTROL") (by decide)).bind (carries_mask fits).map) rfl
  | monitor mask => exact .of_eq ((carries_text (t := "MONITOR") (by decide)).bind (carries_mask fits).map) rfl
  | desk => exact .of_eq ((carries_text (t := "DESK") (by decide)).bind (.pure _)) (List.append_nil _).symm
  | rack => exact .of_eq ((carries_text (t := "RACK") (by decide)).bind (.pure _)) (List.append_nil _).symm
  | none => exact .of_eq ((carries_text (t := "NONE") (by decide)).bind (.pure _)) (List.append_nil _).symm
  | other => exact .of_eq ((carries_text (t := "") (by decide)).bind (.pure _)) (List.append_nil _).symm

/-! ### Entries under a name -/

/-- A table whose name is found: its name, then its fields. -/
theorem carries_table {tables : List (String × Reader Act)} {name : String} {r : Reader Act} {fields : List Byte} {act : Act}
    {n : Nat} (found : byName tables (textBytes name) = some r) (named : (textBytes name).length < 256)
    (carried : Carries r fields act n) :
    Carries (oneTable tables) (spellName name ++ fields) act (1 + (textBytes name).length + n) := by
  unfold oneTable
  refine (carries_text named).bind ?_
  rw [found]
  exact carried

theorem carries_oneNum {act : Header → Nat → State → Host.Outcome State Fault Refusal} {n : Nat} (fits : fitsNumber n = true) :
    Carries (oneNum act) (spellNum n) (fun h => act h n) 4 := (carries_num fits).last

theorem carries_oneKey {act : Header → RecordKey → State → Host.Outcome State Fault Refusal} {key : RecordKey}
    (fits : key.wellFormed = true) : Carries (oneKey act) (spellKey key) (fun h => act h key) 5 := (carries_key fits).last

/-! ### Requests that their bytes spell -/

/-- The command is the request with this name and these fields in its body, from the source of the header. -/
structure IsRequest (c : Instr) (h : Header) (name : String) (fields : List Byte) : Prop where
  header : h.wellFormed = true
  named : (textBytes name).length < 256
  read : ∃ request act, byName requests (textBytes name) = some request ∧ Carries request.read fields act 60000 ∧
    act h = exec c ∧ ∃ fits take, exec c = fun s => .next (takeMessage (whenAdmitted h request.may fits take) s)

theorem IsRequest.of_carries {c : Instr} {h : Header} {name : String} {fields : List Byte} {request : Request} {act : Act}
    {fits : Bool} {take : State → State} (found : byName requests (textBytes name) = some request)
    (header : h.wellFormed = true) (carried : Carries request.read fields act 60000) (same : act h = exec c := by rfl)
    (admits : exec c = fun s => .next (takeMessage (whenAdmitted h request.may fits take) s) := by rfl)
    (named : (textBytes name).length < 256 := by decide) : IsRequest c h name fields :=
  ⟨header, named, request, act, found, carried, same, fits, take, admits⟩

/-- The requests of the speech path, the duty queue and the part. -/
theorem isRequest_of_spellPart {c : Instr} (fits : c.wellFormed = true) {h : Header} {name : String} {fields : List Byte}
    (spelt : spellPart c = some (h, name, fields)) : IsRequest c h name fields := by
  cases c
  case clearStamp =>
    cases spelt
    obtain ⟨header, n⟩ := Bool.and_eq_true_iff.mp fits
    exact .of_carries rfl header (.of_eq (carries_oneNum n) rfl)
  case enableChannel =>
    cases spelt
    obtain ⟨header, n⟩ := Bool.and_eq_true_iff.mp fits
    exact .of_carries rfl header (.of_eq (carries_oneNum n) rfl)
  case disableChannel _ _ force =>
    cases spelt
    obtain ⟨header, n⟩ := Bool.and_eq_true_iff.mp fits
    exact .of_carries rfl header (.of_eq ((carries_num n).bind (carries_flag force).last) rfl)
  case forceSilent =>
    cases spelt
    obtain ⟨header, n⟩ := Bool.and_eq_true_iff.mp fits
    exact .of_carries rfl header (.of_eq (carries_oneNum n) rfl)
  case setRelay =>
    cases spelt
    simp only [Instr.wellFormed, Bool.and_eq_true] at fits
    obtain ⟨⟨header, n⟩, source⟩ := fits
    exact .of_carries rfl header
      (.of_eq ((carries_num n).bind (carries_source source).last))
  case fetchCalls =>
    cases spelt
    exact .of_carries rfl fits (.of_eq (.pure _) rfl)
  case readDuty =>
    cases spelt
    exact .of_carries rfl fits (.of_eq (.pure _) rfl)
  case releaseDuty =>
    cases spelt
    obtain ⟨header, n⟩ := Bool.and_eq_true_iff.mp fits
    exact .of_carries rfl header (.of_eq (carries_oneNum n) rfl)
  case cutDuty =>
    cases spelt
    exact .of_carries rfl fits (.of_eq (.pure _) rfl)
  case clearDutyTotals =>
    cases spelt
    exact .of_carries rfl fits (.of_eq (.pure _) rfl)
  case setClock =>
    cases spelt
    obtain ⟨header, value⟩ := Bool.and_eq_true_iff.mp fits
    exact .of_carries rfl header (.of_eq (carries_clock value).last rfl)
  case clearAlarm =>
    cases spelt
    exact .of_carries rfl fits (.of_eq (carries_value alarm_names _).last rfl)
  case setMode =>
    cases spelt
    exact .of_carries rfl fits (.of_eq (carries_value mode_names _).last rfl)
  case restart =>
    cases spelt
    exact .of_carries rfl fits (.of_eq (.pure _) rfl)
  case setNoticeMask =>
    cases spelt
    simp only [Instr.wellFormed, Bool.and_eq_true] at fits
    obtain ⟨⟨header, n⟩, mask⟩ := fits
    exact .of_carries rfl header
      (.of_eq ((carries_num n).bind (carries_mask mask).last))
  case readNotices =>
    cases spelt
    exact .of_carries rfl fits (.of_eq (.pure _) rfl)
  case clearNotices =>
    cases spelt
    obtain ⟨header, mask⟩ := Bool.and_eq_true_iff.mp fits
    exact .of_carries rfl header (.of_eq (carries_mask mask).last rfl)
  case readCounters =>
    cases spelt
    exact .of_carries rfl fits (.of_eq (carries_value group_names _).last rfl)
  case clearCounters =>
    cases spelt
    exact .of_carries rfl fits (.of_eq (carries_value group_names _).last rfl)
  all_goals cases spelt

/-- The kind and loan number expected at the head (R145). -/
theorem carries_head {head : Option (Option StatementKind × Nat)} (fits : head.all (fun e => fitsNumber e.2) = true) :
    Carries (readOpt readHeadOf) (spellOpt (fun e => spellValue statementKindText e.1 ++ spellNum e.2) head) head 23 := by
  refine carries_opt (n := 22) (o := head) (r := readHeadOf) fun e mem => ?_
  obtain rfl := Option.mem_def.mp mem
  exact .of_eq ((carries_value statementKind_names e.1).bind (carries_num fits).last) rfl

/-- The requests of the hire controller and the accounting unit. -/
theorem isRequest_of_spellHire {c : Instr} (fits : c.wellFormed = true) {h : Header} {name : String} {fields : List Byte}
    (spelt : spellHire c = some (h, name, fields)) : IsRequest c h name fields := by
  cases c
  case enrol =>
    cases spelt
    obtain ⟨header, n⟩ := Bool.and_eq_true_iff.mp fits
    exact .of_carries rfl header (.of_eq (carries_oneNum n) rfl)
  case withdraw =>
    cases spelt
    obtain ⟨header, n⟩ := Bool.and_eq_true_iff.mp fits
    exact .of_carries rfl header (.of_eq (carries_oneNum n) rfl)
  case reinstate =>
    cases spelt
    obtain ⟨header, n⟩ := Bool.and_eq_true_iff.mp fits
    exact .of_carries rfl header (.of_eq (carries_oneNum n) rfl)
  case deleteReceiver =>
    cases spelt
    obtain ⟨header, n⟩ := Bool.and_eq_true_iff.mp fits
    exact .of_carries rfl header (.of_eq (carries_oneNum n) rfl)
  case issue =>
    cases spelt
    simp only [Instr.wellFormed, Bool.and_eq_true] at fits
    obtain ⟨⟨header, serial⟩, account⟩ := fits
    exact .of_carries rfl header
      (.of_eq ((carries_num serial).bind (carries_num account).last))
  case returnReceiver =>
    cases spelt
    obtain ⟨header, n⟩ := Bool.and_eq_true_iff.mp fits
    exact .of_carries rfl header (.of_eq (carries_oneNum n) rfl)
  case declareLost =>
    cases spelt
    obtain ⟨header, n⟩ := Bool.and_eq_true_iff.mp fits
    exact .of_carries rfl header (.of_eq (carries_oneNum n) rfl)
  case find =>
    cases spelt
    obtain ⟨header, n⟩ := Bool.and_eq_true_iff.mp fits
    exact .of_carries rfl header (.of_eq (carries_oneNum n) rfl)
  case readReceiver =>
    cases spelt
    obtain ⟨header, key⟩ := Bool.and_eq_true_iff.mp fits
    exact .of_carries rfl header (.of_eq (carries_oneKey key) rfl)
  case batchItem _ _ _ more abort =>
    cases spelt
    simp only [Instr.wellFormed, Bool.and_eq_true] at fits
    obtain ⟨⟨header, account⟩, serial⟩ := fits
    exact .of_carries rfl header
      (.of_eq ((carries_num account).bind ((carries_optNum serial).bind ((carries_flag more).bind (carries_flag abort).last))))
  case accountLoad =>
    cases spelt
    simp only [Instr.wellFormed, Bool.and_eq_true] at fits
    obtain ⟨⟨⟨⟨⟨header, account⟩, cls⟩, limit⟩, count⟩, access⟩ := fits
    exact .of_carries rfl header
      (.of_eq ((carries_num account).bind ((carries_num cls).bind ((carries_num limit).bind
        (carries_list count fun v mem => carries_num (List.all_eq_true.mp access v mem)).last))))
  case suspend =>
    cases spelt
    obtain ⟨header, n⟩ := Bool.and_eq_true_iff.mp fits
    exact .of_carries rfl header (.of_eq (carries_oneNum n) rfl)
  case resume =>
    cases spelt
    obtain ⟨header, n⟩ := Bool.and_eq_true_iff.mp fits
    exact .of_carries rfl header (.of_eq (carries_oneNum n) rfl)
  case close =>
    cases spelt
    obtain ⟨header, n⟩ := Bool.and_eq_true_iff.mp fits
    exact .of_carries rfl header (.of_eq (carries_oneNum n) rfl)
  case clearBalance =>
    cases spelt
    simp only [Instr.wellFormed, Bool.and_eq_true] at fits
    obtain ⟨⟨header, account⟩, expected⟩ := fits
    exact .of_carries rfl header
      (.of_eq ((carries_num account).bind (carries_num expected).last))
  case readAccount =>
    cases spelt
    obtain ⟨header, key⟩ := Bool.and_eq_true_iff.mp fits
    exact .of_carries rfl header (.of_eq (carries_oneKey key) rfl)
  case readStatements =>
    cases spelt
    exact .of_carries rfl fits (.of_eq (.pure _) rfl)
  case releaseStatements =>
    cases spelt
    simp only [Instr.wellFormed, Bool.and_eq_true] at fits
    obtain ⟨⟨header, count⟩, head⟩ := fits
    exact .of_carries rfl header
      (.of_eq ((carries_num count).bind (carries_head head).last))
  all_goals cases spelt

end Sys2Proof.Machine

/-! The tables that LOAD and READ name, the rack messages, and the message as a whole (R189, R191, R194). -/

namespace Sys2Proof.Machine

/-! ### LOAD and READ -/

/-- A request whose fields are the name of a table and what is loaded there. -/
theorem IsRequest.of_table {c : Instr} {h : Header} {kind : String} {may : Role → Bool} {tables : List (String × Reader Act)}
    (name : String) {r : Reader Act} {spelt fields : List Byte} {act : Act} {n : Nat} {fits : Bool} {take : State → State}
    (request : byName requests (textBytes kind) = some ⟨may, oneTable tables⟩)
    (found : byName tables (textBytes name) = some r) (header : h.wellFormed = true) (carried : Carries r fields act n)
    (spells : spelt = spellName name ++ fields := by simp only [List.append_assoc])
    (short : 1 + (textBytes name).length + n ≤ 60000 := by decide) (same : act h = exec c := by rfl)
    (admits : exec c = fun s => .next (takeMessage (whenAdmitted h may fits take) s) := by rfl)
    (kind_named : (textBytes kind).length < 256 := by decide) (named : (textBytes name).length < 256 := by decide) :
    IsRequest c h kind spelt :=
  .of_carries request header (.of_eq (carries_table found named carried) spells short) same admits kind_named

/-- The tables that LOAD sets. -/
theorem isRequest_of_spellLoad {c : Instr} (fits : c.wellFormed = true) {h : Header} {fields : List Byte}
    (spelt : spellLoad c = some (h, fields)) : IsRequest c h "LOAD" fields := by
  cases c
  case loadConsole _ slot configured booth seat =>
    cases spelt
    simp only [Instr.wellFormed, Bool.and_eq_true] at fits
    obtain ⟨⟨⟨header, slot⟩, booth⟩, seat⟩ := fits
    exact .of_table "CONSOLE" rfl rfl header ((carries_num slot).bind
      ((carries_flag configured).bind ((carries_optNum booth).bind (carries_optNum seat).last)))
  case loadBooth _ booth a b interlock limit mode =>
    cases spelt
    simp only [Instr.wellFormed, Bool.and_eq_true] at fits
    obtain ⟨⟨⟨⟨header, booth⟩, a⟩, b⟩, limit⟩ := fits
    exact .of_table "BOOTH" rfl rfl header ((carries_num booth).bind ((carries_optNum a).bind
      ((carries_optNum b).bind ((carries_value interlock_names interlock).bind ((carries_num limit).bind
        (carries_value callMode_names mode).last)))))
  case loadChannel _ channel label restricted policy =>
    cases spelt
    simp only [Instr.wellFormed, Bool.and_eq_true] at fits
    obtain ⟨⟨header, channel⟩, label⟩ := fits
    exact .of_table "CHANNEL" rfl rfl header ((carries_num channel).bind
      ((carries_label label).bind ((carries_flag restricted).bind (carries_value fallback_names policy).last)))
  case loadTariff =>
    cases spelt
    simp only [Instr.wellFormed, Bool.and_eq_true] at fits
    obtain ⟨⟨⟨⟨⟨⟨header, cls⟩, len⟩, rate⟩, cap⟩, overdue⟩, lost⟩ := fits
    exact .of_table "TARIFF" rfl rfl header ((carries_num cls).bind ((carries_num len).bind
      ((carries_num rate).bind ((carries_num cap).bind ((carries_num overdue).bind (carries_num lost).last)))))
  case loadAlarm _ alarm _ dayOn _ hourOn _ minuteOn =>
    cases spelt
    simp only [Instr.wellFormed, Bool.and_eq_true] at fits
    obtain ⟨⟨⟨header, day⟩, hour⟩, minute⟩ := fits
    exact .of_table "ALARM" rfl rfl header ((carries_value alarm_names alarm).bind
      ((carries_num day).bind ((carries_flag dayOn).bind ((carries_num hour).bind ((carries_flag hourOn).bind
        ((carries_num minute).bind (carries_flag minuteOn).last))))))
  case loadStation =>
    cases spelt
    simp only [Instr.wellFormed, Bool.and_eq_true] at fits
    obtain ⟨⟨header, station⟩, entry⟩ := fits
    exact .of_table "STATION" rfl rfl header ((carries_num station).bind (carries_entry entry).last)
  case loadParameters _ _ _ _ _ stamps _ =>
    cases spelt
    simp only [Instr.wellFormed, Bool.and_eq_true] at fits
    obtain ⟨⟨⟨⟨⟨header, absence⟩, offer⟩, silent⟩, threshold⟩, high⟩ := fits
    exact .of_table "PARAMETERS" rfl rfl header ((carries_num absence).bind
      ((carries_num offer).bind ((carries_num silent).bind ((carries_num threshold).bind
        ((carries_value stampMode_names stamps).bind (carries_num high).last)))))
  all_goals cases spelt

/-- The tables and entries that READ names. -/
theorem isRequest_of_spellRead {c : Instr} (fits : c.wellFormed = true) {h : Header} {fields : List Byte}
    (spelt : spellRead c = some (h, fields)) : IsRequest c h "READ" fields := by
  cases c
  case readConsole =>
    cases spelt
    obtain ⟨header, n⟩ := Bool.and_eq_true_iff.mp fits
    exact .of_table "CONSOLE" rfl rfl header (carries_oneNum n) rfl
  case readBooth =>
    cases spelt
    obtain ⟨header, n⟩ := Bool.and_eq_true_iff.mp fits
    exact .of_table "BOOTH" rfl rfl header (carries_oneNum n) rfl
  case readChannel =>
    cases spelt
    obtain ⟨header, n⟩ := Bool.and_eq_true_iff.mp fits
    exact .of_table "CHANNEL" rfl rfl header (carries_oneNum n) rfl
  case readTariff =>
    cases spelt
    obtain ⟨header, n⟩ := Bool.and_eq_true_iff.mp fits
    exact .of_table "TARIFF" rfl rfl header (carries_oneNum n) rfl
  case readBatch =>
    cases spelt
    obtain ⟨header, n⟩ := Bool.and_eq_true_iff.mp fits
    exact .of_table "BATCH" rfl rfl header (carries_oneNum n) rfl
  case readStation =>
    cases spelt
    obtain ⟨header, n⟩ := Bool.and_eq_true_iff.mp fits
    exact .of_table "STATION" rfl rfl header (carries_oneNum n) rfl
  case readParameters =>
    cases spelt
    exact .of_table "PARAMETERS" rfl rfl fits (.pure execReadParameters) (List.append_nil _).symm
  case readLoop =>
    cases spelt
    exact .of_table "LOOP" rfl rfl fits (.pure execReadLoop) (List.append_nil _).symm
  case readAir =>
    cases spelt
    exact .of_table "AIR" rfl rfl fits (.pure execReadAir) (List.append_nil _).symm
  case readHire =>
    cases spelt
    exact .of_table "HIRE" rfl rfl fits (.pure execReadHire) (List.append_nil _).symm
  case readAccounting =>
    cases spelt
    exact .of_table "ACCOUNTING" rfl rfl fits (.pure execReadAccounting) (List.append_nil _).symm
  case readClock =>
    cases spelt
    exact .of_table "CLOCK" rfl rfl fits (.pure execReadClock) (List.append_nil _).symm
  case readSupply =>
    cases spelt
    exact .of_table "SUPPLY" rfl rfl fits (.pure execReadSupply) (List.append_nil _).symm
  all_goals cases spelt

/-! ### Rack messages -/

/-- The command is the rack message with this body, from the source of the header (R93). -/
structure IsRack (c : Instr) (h : Header) (body : List Byte) : Prop where
  header : h.wellFormed = true
  read : ∃ act, Carries rackBody body act 60000 ∧ act h = exec c
  served : ∃ owner, exec c = fun s => .next (serveRack h owner s)

theorem isRack_of_spellRack {c : Instr} (fits : c.wellFormed = true) {h : Header} {body : List Byte}
    (spelt : spellRack c = some (h, body)) : IsRack c h body := by
  cases c
  case docked =>
    cases spelt
    simp only [Instr.wellFormed, Bool.and_eq_true] at fits
    obtain ⟨⟨⟨header, serial⟩, rackSlot⟩, battery⟩ := fits
    exact ⟨header, ⟨_, .of_eq ((carries_text (t := "DOCKED") (by decide)).bind ((carries_num serial).bind
      ((carries_num rackSlot).bind (carries_num battery).last))), rfl⟩, _, rfl⟩
  case undocked =>
    cases spelt
    simp only [Instr.wellFormed, Bool.and_eq_true] at fits
    obtain ⟨⟨header, serial⟩, rackSlot⟩ := fits
    exact ⟨header, ⟨_, .of_eq ((carries_text (t := "UNDOCKED") (by decide)).bind ((carries_num serial).bind
      (carries_num rackSlot).last)), rfl⟩, _, rfl⟩
  case cell =>
    cases spelt
    simp only [Instr.wellFormed, Bool.and_eq_true] at fits
    obtain ⟨⟨header, serial⟩, battery⟩ := fits
    exact ⟨header, ⟨_, .of_eq ((carries_text (t := "CELL") (by decide)).bind ((carries_num serial).bind
      (carries_num battery).last)), rfl⟩, _, rfl⟩
  all_goals cases spelt

end Sys2Proof.Machine

/-! The message around a body: its layout is read back as it was written, and the message is taken as the command it spells (R189,
R191, R199). -/

namespace Sys2Proof.Machine

/-! ### The layout of a message (12_formats.md, Service message) -/

/-- A number between two runs of bytes is read where it stands. -/
theorem numberAt_natBytes {front rest l : List Byte} {n k offset : Nat} (stands : l = front ++ (natBytes n k ++ rest))
    (offset_eq : front.length = offset) (fits : k < 256 ^ n) : numberAt l offset n = k := by
  subst stands offset_eq
  rw [numberAt, List.drop_left, List.take_left' (natBytes_length ..), bytesNat_natBytes n k fits]

section

variable {kind : Nat} {h : Header} {body : List Byte}

/-- The fields of a message, one behind the other. -/
theorem messageTo_eq (kind : Nat) (h : Header) (body : List Byte) : ∃ check : List Byte, check.length = 2 ∧
    messageTo kind h body = natBytes 1 0 ++ (natBytes 1 h.station ++ (natBytes 1 kind ++ (natBytes 2 h.tag ++
      (natBytes 2 body.length ++ (body ++ check))))) :=
  ⟨natBytes 2 _, natBytes_length .., by simp only [messageTo, withCheck, List.append_assoc]; rfl⟩

theorem messageTo_dest : numberAt (messageTo kind h body) 0 1 = 0 := by
  obtain ⟨check, -, layout⟩ := messageTo_eq kind h body
  exact numberAt_natBytes (front := []) layout rfl (by decide)

theorem messageTo_source (fits : h.station < 256) : numberAt (messageTo kind h body) 1 1 = h.station := by
  obtain ⟨check, -, layout⟩ := messageTo_eq kind h body
  exact numberAt_natBytes layout rfl fits

theorem messageTo_kind (fits : kind < 256) : numberAt (messageTo kind h body) 2 1 = kind := by
  obtain ⟨check, -, layout⟩ := messageTo_eq kind h body
  rw [← List.append_assoc] at layout
  exact numberAt_natBytes layout rfl fits

theorem messageTo_tag (fits : h.tag < 65536) : numberAt (messageTo kind h body) 3 2 = h.tag := by
  obtain ⟨check, -, layout⟩ := messageTo_eq kind h body
  rw [← List.append_assoc, ← List.append_assoc] at layout
  exact numberAt_natBytes layout rfl fits

theorem messageTo_bodyLength (fits : body.length < 65536) : numberAt (messageTo kind h body) 5 2 = body.length := by
  obtain ⟨check, -, layout⟩ := messageTo_eq kind h body
  rw [← List.append_assoc, ← List.append_assoc, ← List.append_assoc] at layout
  exact numberAt_natBytes layout rfl fits

theorem messageTo_body : ((messageTo kind h body).drop 7).take body.length = body := by
  obtain ⟨check, -, layout⟩ := messageTo_eq kind h body
  rw [← List.append_assoc, ← List.append_assoc, ← List.append_assoc, ← List.append_assoc] at layout
  rw [layout, List.drop_left' (by simp), List.take_left]

theorem messageTo_sound (fits : body.length < 65536) : messageSound (messageTo kind h body) = true := by
  refine messageSound_iff.mpr ⟨?_, checkAgrees_withCheck _⟩
  obtain ⟨check, length, layout⟩ := messageTo_eq kind h body
  rw [messageTo_bodyLength fits, layout]
  simp only [List.length_append, natBytes_length, length]
  omega

/-! ### The message taken as the command -/

theorem takeMessage_of_none {s : State} (taken : messageLost s = none) (take : State → State) : takeMessage take s = take s := by
  simp [takeMessage, taken]

theorem takeMessage_of_lost {s t : State} (lost : messageLost s = some t) (take : State → State) : takeMessage take s = t := by
  simp [takeMessage, lost]

/-- A message to the part does what a command does that loses it, that drops it from an unknown source, and that from a station of the
table does what the taking by kind does. -/
theorem exec_messageTo {c : Instr} {take : State → State} (header : h.wellFormed = true) (kind_fits : kind < 256)
    (body_fits : body.length < 65536) (taking : ∀ s, exec c s = .next (takeMessage take s))
    (unlisted : ∀ s, Table.look s.serv.stations h.station = none → take s = sourceUnknown (messageReceived s))
    (listed : ∀ e s, messageLost s = none → Table.look s.serv.stations h.station = some e →
      takeKind kind h e.role body s = exec c s)
    (s : State) : exec (.messageDropped (messageTo kind h body)) s = exec c s := by
  show execMessageDropped (messageTo kind h body) s = exec c s
  obtain ⟨station, tag⟩ := Bool.and_eq_true_iff.mp header
  have station := messageTo_source (kind := kind) (body := body) (of_decide_eq_true station)
  have sound := messageTo_sound (kind := kind) (h := h) body_fits
  unfold execMessageDropped
  cases lost : messageLost s with
  | some t => rw [taking, takeMessage_of_lost lost]
  | none =>
    cases entry : Table.look s.serv.stations h.station with
    | none =>
      rw [taking, takeMessage_of_none lost, unlisted s entry]
      exact takeBytes_unknown sound messageTo_dest (station.symm ▸ entry)
    | some e =>
      rw [← listed e s lost entry]
      have taken := takeBytes_listed sound messageTo_dest (station.symm ▸ entry)
      rwa [station, messageTo_kind kind_fits, messageTo_tag (of_decide_eq_true tag), messageTo_bodyLength body_fits,
        messageTo_body] at taken

end

theorem IsRequest.exec_messageTo {c : Instr} {h : Header} {name : String} {fields : List Byte}
    (isRequest : IsRequest c h name fields) (s : State) :
    exec (.messageDropped (messageTo 1 h (spellName name ++ fields))) s = exec c s := by
  obtain ⟨header, named, request, act, found, carried, same, fits, take, admits⟩ := isRequest
  have name_read := carries_text named
  have short : (spellName name ++ fields).length < 65536 := by
    rw [List.length_append]
    have := name_read.short
    have := carried.short
    omega
  refine Machine.exec_messageTo header (by decide) short (congrFun admits) (fun s unlisted => whenAdmitted_unknown unlisted fits take)
    (fun e s taken listed => ?_) s
  show takeRequestBody h e.role (spellName name ++ fields) s = exec c s
  unfold takeRequestBody
  rw [name_read.read]
  dsimp only
  rw [found]
  dsimp only
  cases inside : request.may e.role with
  | false =>
    rw [congrFun admits s, takeMessage_of_none taken, whenAdmitted_outside listed inside]
    rfl
  | true =>
    rw [carried.whole, ← same]
    rfl

theorem IsRack.exec_messageTo {c : Instr} {h : Header} {body : List Byte} (isRack : IsRack c h body) (s : State) :
    exec (.messageDropped (messageTo 4 h body)) s = exec c s := by
  obtain ⟨header, ⟨act, carried, same⟩, owner, served⟩ := isRack
  refine Machine.exec_messageTo header (by decide) (carried.short.trans_lt (by decide)) (congrFun served) (fun s unlisted => ?_)
    (fun e s taken listed => ?_) s
  · rw [unlisted]
  · show takeRackBody h body s = exec c s
    rw [takeRackBody, carried.whole, ← same]

/-! ### Every message has its bytes -/

/-- A request or a rack message, and no other command, has bytes that spell it. -/
theorem spell_isSome {c : Instr} (command : ∀ l, c ≠ .messageDropped l) : (spell c).isSome = isMessage c := by
  cases c
  case messageDropped l => exact absurd rfl (command l)
  all_goals rfl

/-- Settles O32: each request and each rack message by the fields of its body, then the layout of the message around them. -/
theorem messagesSpellTheirCommands : Obligations.MessagesSpellTheirCommands := by
  refine ⟨fun c => ?_, fun c bytes s fits spelt => ?_⟩
  · by_cases command : ∀ l, c ≠ .messageDropped l
    · rw [spell_isSome command]
      exact (and_iff_left command).symm
    · obtain ⟨l, rfl⟩ := not_forall_not.mp command
      exact iff_of_false Bool.false_ne_true fun both => both.2 l rfl
  · unfold spell at spelt
    split at spelt
    next load =>
      cases spelt
      exact (isRequest_of_spellLoad fits load).exec_messageTo s
    next read _ =>
      cases spelt
      exact (isRequest_of_spellRead fits read).exec_messageTo s
    next other _ _ =>
      cases spelt
      obtain part | ⟨-, hire⟩ := Option.or_eq_some_iff.mp other
      · exact (isRequest_of_spellPart fits part).exec_messageTo s
      · exact (isRequest_of_spellHire fits hire).exec_messageTo s
    next rack _ _ _ =>
      cases spelt
      exact (isRack_of_spellRack fits rack).exec_messageTo s
    next => cases spelt

end Sys2Proof.Machine

/-! A step of the queue (O1), and the upstream part of a slot: where it stands in a frame and which key events it carries (R61, R200). -/

namespace Sys2Proof.Machine

/-! ### The queue of commands -/

/-- Settles O1: by what the queue holds. -/
theorem stepTakesTheFront : Obligations.StepTakesTheFront :=
  ⟨fun _ _ _ => rfl, fun s idle => by rw [step, idle]⟩

/-! ### The upstream part of a slot in the bytes of a frame (12_formats.md, Loop frame) -/

theorem look_map_of_mem {α : Type} (f : Nat → α) {l : List Nat} {k : Nat} (mem : k ∈ l) :
    Table.look (l.map fun n => (n, f n)) k = some (f k) := by
  induction l with
  | nil => cases mem
  | cons n l ih =>
    rw [List.map_cons, Table.look]
    split
    next same => rw [same]
    next other => exact ih (List.mem_of_ne_of_mem (Ne.symm other) mem)

/-- Each of the 72 slots has its upstream part 68 bytes after its own first byte. -/
theorem upstreamOf_returnOfBytes (frame : List Byte) {n : Nat} (slot : isSlot n = true) :
    upstreamOf (returnOfBytes frame) n = upstreamOfBytes (frame.drop (1 + 137 * (n - 1) + 68)) := by
  have found := look_map_of_mem (fun n => upstreamOfBytes (frame.drop (1 + 137 * (n - 1) + 68))) (isSlot_iff.mp slot)
  exact congrArg (Option.getD · {}) found

/-! ### The key events a slot carries (R61, R200) -/

/-- Six codes make a key event with the argument 0 alone, HANDOVER with one up to 3, RELAY with one up to 24. -/
theorem readKey_isSome_iff (code argument : Nat) :
    (readKey (code, argument)).isSome = true ↔
      ((code = 1 ∨ code = 2 ∨ code = 4 ∨ code = 5 ∨ code = 6 ∨ code = 8) ∧ argument = 0) ∨ (code = 3 ∧ argument ≤ 3) ∨
        (code = 7 ∧ argument ≤ 24) := by
  match code, argument with
  | 1, 0 | 2, 0 | 3, 0 | 4, 0 | 5, 0 | 6, 0 | 7, 0 | 8, 0 => decide
  | 3, n + 1 | 7, n + 1 => simp [readKey]
  | 0, _ | 1, _ + 1 | 2, _ + 1 | 4, _ + 1 | 5, _ + 1 | 6, _ + 1 | 8, _ + 1 | _ + 9, _ => simp [readKey]

theorem readKey_handover {seat : Nat} (first : 1 ≤ seat) (last : seat ≤ 3) :
    readKey (3, seat) = some (.handover (.seat seat)) := by
  obtain ⟨n, rfl⟩ := Nat.exists_eq_add_of_le' first
  exact if_pos last

theorem readKey_relay {b : Nat} (first : 1 ≤ b) (last : b ≤ 24) : readKey (7, b) = some (.relay (.booth b)) := by
  obtain ⟨n, rfl⟩ := Nat.exists_eq_add_of_le' first
  exact if_pos last

section
variable {f : LoopReturn} {n : Nat} {s : State}

theorem takeKeys_unheard (unheard : (s.slotState n).presence = .unconfigured ∨ (upstreamOf f n).seen = false) :
    takeKeys f s n = s := by
  refine if_neg fun heard => ?_
  obtain ⟨configured, seen⟩ := heardSlot_iff.mp heard
  obtain off | unseen := unheard
  · exact configured off
  · exact Bool.false_ne_true (unseen.symm.trans seen)

theorem takeKeys_heard (configured : (s.slotState n).presence ≠ .unconfigured) (seen : (upstreamOf f n).seen = true) :
    takeKeys f s n =
      if 2 < (upstreamOf f n).keyCount then countError n s else (carriedKeys (upstreamOf f n)).foldl (handKey n) s :=
  if_pos (heardSlot_iff.mpr ⟨configured, seen⟩)

end

theorem handKey_of_key {bytes : Nat × Nat} {key : KeyEvent} (reads : readKey bytes = some key) (n : Nat) (s : State) :
    handKey n s bytes = takeKey n key s := by
  rw [handKey, reads]

theorem handKey_of_none {bytes : Nat × Nat} (reads : readKey bytes = none) (n : Nat) (s : State) :
    handKey n s bytes = countError n s := by
  rw [handKey, reads]

/-- Settles O17: the slot's place in the frame, then the codes, then the key events by their count. -/
theorem keyEventsAreReadByCountCodeAndArgument : Obligations.KeyEventsAreReadByCountCodeAndArgument := by
  refine ⟨fun frame n slot => ?_, readKey_isSome_iff,
    ⟨rfl, rfl, rfl, fun _ => readKey_handover, rfl, rfl, rfl, rfl, fun _ => readKey_relay, rfl⟩,
    fun u => ⟨fun count => ?_, fun count => ?_, fun count => ?_⟩,
    fun f n s => ⟨takeKeys_unheard, fun configured seen count => ?_, fun configured seen count => ?_⟩,
    fun n bytes s => ⟨fun _ reads => handKey_of_key reads n s, fun reads => handKey_of_none reads n s⟩⟩
  · simp [upstreamOf_returnOfBytes frame slot, upstreamOfBytes, bitAt, speechOfBytes, numberAt, Nat.add_assoc]
  · simp [carriedKeys, count]
  · simp [carriedKeys, count]
  · simp [carriedKeys, count]
  · exact (takeKeys_heard configured seen).trans (if_neg (Nat.not_lt.mpr count))
  · exact (takeKeys_heard configured seen).trans (if_pos (count ▸ by decide))

end Sys2Proof.Machine

/-! The READ requests and FIND: the entry as it stands, written out field by field, and nothing changed (R4, R23, R25, R63, R83,
R109, R110, R123, R127, R133, R144, R147, R156, R173, R180, R188, R190, R196, R197). -/

namespace Sys2Proof.Machine

/-! ### A request that reads -/

/-- The answer of an owner that reads an entry under a key: RANGE, NOT_FOUND, or the fields of the entry. -/
def entryAnswer {α : Type} (inRange : Bool) (entry : Option α) (fields : α → List Field) (s : State) : State × Answer :=
  match inRange, entry with
  | false, _ => refuse .range s
  | true, none => refuse .notFound s
  | true, some e => accept (fields e) s

section
variable {may : Role → Bool} {h : Header} {s : State} (ha : admitted may h s) {owner : State → State × Answer}
include ha

/-- An admitted request that its owner accepts without a change is answered with the fields, however they are written. -/
theorem reading_of_admitted {fields written : List Field} (reads : owner (taken s) = accept fields (taken s))
    (same : fields = written) :
    (.next (serve h may true owner s) : Host.Outcome State Fault Refusal) =
      .next (replied h (.accepted written) (taken s)) :=
  same ▸ request_of_admitted ha reads

/-! A record that every key in range has: RANGE, or its fields. -/

section
variable {out : Prop} [Decidable out] {fields : List Field}
  (reads : owner (taken s) = if out then refuse .range (taken s) else accept fields (taken s))
include reads

theorem record_range (outside : out) :
    (.next (serve h may true owner s) : Host.Outcome State Fault Refusal) =
      .next (replied h (.refused .range []) (taken s)) :=
  request_of_admitted ha (reads.trans (if_pos outside))

theorem record_read {written : List Field} (inside : ¬out) (same : fields = written) :
    (.next (serve h may true owner s) : Host.Outcome State Fault Refusal) =
      .next (replied h (.accepted written) (taken s)) :=
  reading_of_admitted ha (reads.trans (if_neg inside)) same

end

/-! An entry that may be absent. -/

section
variable {α : Type} {inRange : Bool} {entry : Option α} {fields : α → List Field}
  (reads : owner (taken s) = entryAnswer inRange entry fields (taken s))
include reads

theorem entry_range (out : inRange = false) :
    (.next (serve h may true owner s) : Host.Outcome State Fault Refusal) =
      .next (replied h (.refused .range []) (taken s)) :=
  request_of_admitted ha (by rw [reads, out]; rfl)

theorem entry_notFound (fits : inRange = true) (missing : entry = none) :
    (.next (serve h may true owner s) : Host.Outcome State Fault Refusal) =
      .next (replied h (.refused .notFound []) (taken s)) :=
  request_of_admitted ha (by rw [reads, fits, missing]; rfl)

theorem entry_read {e : α} {written : List Field} (fits : inRange = true) (found : entry = some e)
    (same : fields e = written) :
    (.next (serve h may true owner s) : Host.Outcome State Fault Refusal) =
      .next (replied h (.accepted written) (taken s)) :=
  reading_of_admitted ha (by rw [reads, fits, found]; rfl) same

end

end

/-! ### Which entry each owner reads -/

theorem within_iff {first n last : Nat} : within first n last = true ↔ first ≤ n ∧ n ≤ last := by simp [within]

theorem not_within_iff {first n last : Nat} : within first n last = false ↔ ¬(first ≤ n ∧ n ≤ last) := by
  rw [← within_iff, Bool.not_eq_true]

theorem readStation_eq (station : Nat) (s : State) :
    readStation station s =
      entryAnswer (isStation station) (Table.look s.serv.stations station) (stationFields station) s := by
  unfold readStation
  cases isStation station <;> cases Table.look s.serv.stations station <;> rfl

theorem readBatch_eq (station : Nat) (s : State) :
    readBatch station s =
      entryAnswer (isStation station) (Table.look s.hire.batches station)
        (fun b => [.num station, .num b.account] ++ listFields b.items (fun n => [.num n]) ++
          [.num b.itemCount, .num b.lastItem, .name (batchStateText b.state)] ++
          optFields (b.failure.map (·.1)) (fun code => [.name (refusalText code)]) ++ optNum (b.failure.map (·.2))) s := by
  unfold readBatch
  cases isStation station <;> cases Table.look s.hire.batches station <;> rfl

theorem atSerial_eq (rule : Nat → Receiver → State → List Field) (serial : Nat) (s : State) :
    atSerial serial (fun slot r s => accept (rule slot r s) s) s =
      entryAnswer (isSerial serial) (s.receiverBySerial serial) (fun e => rule e.1 e.2 s) s := by
  unfold atSerial atReceiver
  cases isSerial serial <;> cases s.receiverBySerial serial <;> rfl

theorem findReceiver_eq (serial : Nat) (s : State) :
    findReceiver serial s =
      entryAnswer (isSerial serial) (s.receiverBySerial serial)
        (fun e => [.name (receiverStateText e.2.state)] ++ optFields e.2.loan (fun l => [.num l.account, .num l.number]) ++
          rackFields e.2.rack ++ optNum e.2.lastRadiator ++ optClock e.2.lastHeardClock ++ optNum e.2.battery) s :=
  atSerial_eq (fun _ _ _ => _) serial s

theorem readReceiver_number_eq (serial : Nat) (s : State) :
    readReceiver (.number serial) s =
      entryAnswer (isSerial serial) (s.receiverBySerial serial) (fun e => receiverFields s e.1 e.2) s :=
  atSerial_eq (fun slot r s => receiverFields s slot r) serial s

theorem readReceiver_slot_eq (slot : Nat) (s : State) :
    readReceiver (.slot slot) s =
      entryAnswer (within 1 slot 2048) (Table.look s.hire.receivers slot) (receiverFields s slot) s := by
  show (if !within 1 slot 2048 then _ else _) = _
  cases within 1 slot 2048 <;> cases Table.look s.hire.receivers slot <;> rfl

theorem readAccount_number_eq (number : Nat) (s : State) :
    readAccount (.number number) s =
      entryAnswer (isAccount number) (s.accountByNumber number) (fun e => accountFields s e.1 e.2) s := by
  show atAccount number _ s = _
  unfold atAccount
  cases isAccount number <;> cases s.accountByNumber number <;> rfl

theorem readAccount_slot_eq (slot : Nat) (s : State) :
    readAccount (.slot slot) s =
      entryAnswer (within 1 slot 256) (Table.look s.acct.accounts slot) (accountFields s slot) s := by
  show (if !within 1 slot 256 then _ else _) = _
  cases within 1 slot 256 <;> cases Table.look s.acct.accounts slot <;> rfl

/-! ### READ BOOTH: relay depth and relay fallback (R25, R41, R44) -/

/-- The relay depth is the number of steps after which following the sources first stands at FLOOR. -/
theorem relayDepthOf_eq_some {relay : Nat → RelaySource} {feeds : RelaySource → RelaySource} {b depth : Nat}
    (follows : feeds = relayStep relay) (le : depth ≤ 24) (arrives : Nat.repeat feeds depth (relay b) = .floor)
    (first : ∀ k, k < depth → Nat.repeat feeds k (relay b) ≠ .floor) : relayDepthOf relay b = some depth := by
  subst follows
  have arrives_iff {m : Nat} (fits : m ≤ 24) := chainLength_le_iff relay fits (relay b)
  unfold relayDepthOf
  cases chain : chainLength relay 24 (relay b) with
  | none => simpa [chain] using (arrives_iff le).mpr arrives
  | some d =>
    have most : d ≤ depth := by simpa [chain] using (arrives_iff le).mpr arrives
    have least : depth ≤ d := Nat.not_lt.mp fun short => first d short ((arrives_iff (by omega)).mp (by simp [chain]))
    rw [Nat.le_antisymm most least]

theorem feedOf_fallback_of_booth {s : State} {b k : Nat} (source : (s.boothRec b).relay = .booth k) :
    (feedOf s b).2 = decide ((s.boothRec k).floor = .silent) := by
  by_cases silent : (s.boothRec k).floor = .silent
  · simp [feedOf_silent source silent, silent]
  · simp [feedOf_onAir source silent, silent]

/-- A booth record with its relay source and its floor state each written as it stands. -/
theorem boothFields_eq (b : Nat) {x : Booth} {source floor : List Field} (source_eq : sourceFields x.relay = source)
    (floor_eq : .name (floorText x.floor) :: (optNum (FloorState.console x.floor) ++
      (optFields (FloorState.target x.floor) targetFields ++ optNum (FloorState.expiry x.floor))) = floor) :
    boothFields b x =
      .num b :: (optNum x.aChannel ++ optNum x.bChannel ++
          [.name (interlockText x.interlock), .num x.turnLimit, .name (callModeText x.callMode)] ++ source) ++
        (.name (outputText x.output) :: floor) ++ optNum x.turn ++ [.flag x.callLatch, .num x.liveMinutes, .flag x.unlogged] := by
  subst source_eq floor_eq
  simp [boothFields]

/-! ### Accounts: the receivers that one owes (R133) -/

theorem loan_any_account (l : Option Loan) (account : Nat) :
    (l.any fun x => decide (x.account = account)) = decide (l.map (·.account) = some account) := by
  cases l <;> simp

theorem pendingFor_eq (s : State) (account : Nat) :
    pendingFor s account =
      s.hire.receivers.countP fun e => decide (e.2.state = .returnPending ∧ e.2.loan.map (·.account) = some account) := by
  simp [pendingFor, loan_any_account]

theorem lostFor_eq (s : State) (account : Nat) :
    lostFor s account =
      s.hire.receivers.countP fun e => decide (e.2.state = .lost ∧ e.2.loan.map (·.account) = some account) := by
  simp [lostFor, loan_any_account]

/-! ### READ DUTY: the head entry (R156) -/

theorem headOpenFields_of_open {duty rest : List DutyEntry} {e : DutyEntry} (head : duty = e :: rest)
    (opened : e.status = .opened) :
    headOpenFields duty = [.present true, .name "HEAD_OPEN", .num e.slot, .num e.booth, .clock e.start] := by
  simp [headOpenFields, optFields, head, Option.filter, DutyEntry.isOpen, opened]

theorem headOpenFields_of_complete {duty : List DutyEntry} (complete : ∀ e rest, duty = e :: rest → e.status ≠ .opened) :
    headOpenFields duty = [.present false] := by
  cases duty with
  | nil => rfl
  | cons e rest => simp [headOpenFields, optFields, Option.filter, DutyEntry.isOpen, complete e rest rfl]

/-! ### READ STATION: the mask of a station (R190) -/

theorem stationFields_masked {e : Station} (masked : e.role = .control ∨ e.role = .monitor) (n : Nat) :
    stationFields n e = [.num n, .name (roleText e.role)] ++ listFields e.mask fun f => [.name f.text] := by
  simp [stationFields, controlMonitor, masked]

theorem stationFields_bare {e : Station} (bare : e.role = .desk ∨ e.role = .rack) (n : Nat) :
    stationFields n e = [.num n, .name (roleText e.role)] := by
  obtain desk | rack := bare
  · simp [stationFields, controlMonitor, desk]
  · simp [stationFields, controlMonitor, rack]

/-! ### The readings -/

/-- Settles O33: each owner's own answer, its fields brought into the order of the statement; READ BOOTH by its source and floor
state, READ COUNTERS by the group. -/
theorem readsChangeNothing : Obligations.ReadsChangeNothing := by
  refine ⟨⟨fun α f v l => ⟨rfl, rfl, rfl⟩, fun n c => ⟨⟨rfl, rfl⟩, rfl, rfl⟩,
      ⟨rfl, rfl, rfl, rfl, rfl, rfl, rfl, rfl, rfl, rfl⟩, rfl, rfl, rfl, rfl, rfl, rfl, rfl, rfl⟩,
    fun h n s ha => ?channelsToDuty, fun h n s => ?airToFind, fun h n s => ?refusals, fun h n g s ha => ?clockToCounters⟩
  case channelsToDuty =>
    refine ⟨fun fits => ?channel, fun depth booth le arrives first => ?booth, fun slot => ?console, ?loop,
      fun e rest head opened => ?headOpen, fun complete => ?headComplete⟩
    case channel => exact record_read ha rfl (Nat.not_lt.mpr fits) (by simp [channelFields, floorFields])
    case booth =>
      have depth_eq : relayDepthOf s.relay n = some depth :=
        relayDepthOf_eq_some (by funext r; cases r <;> rfl) le arrives first
      refine record_read ha rfl (by simp [booth]) ?_
      show boothFields n (s.boothRec n) ++ [.num ((relayDepthOf s.relay n).getD 0), .flag (feedOf s n).2] = _
      rw [depth_eq]
      refine congrArg₂ (· ++ ·) (boothFields_eq n ?sources ?stands) (congrArg (fun x => [Field.num depth, .flag x]) ?fallback)
      case sources => cases (s.boothRec n).relay <;> rfl
      case stands =>
        cases (s.boothRec n).floor with
        | silent => rfl
        | live c => rfl
        | offered c target expiry => cases target <;> rfl
      case fallback =>
        cases source : (s.boothRec n).relay with
        | floor => rw [feedOf_floor source]
        | booth k => exact feedOf_fallback_of_booth source
    case console =>
      exact record_read ha rfl (by simp [slot]) (by simp only [List.append_assoc, List.cons_append, List.nil_append]; rfl)
    case loop => exact reading_of_admitted ha rfl (by simp only [List.append_assoc, List.cons_append, List.nil_append]; rfl)
    case headOpen =>
      exact reading_of_admitted ha rfl (by rw [taken_acct, completeRun_eq, headOpenFields_of_open head opened]; rfl)
    case headComplete =>
      exact reading_of_admitted ha rfl (by rw [taken_acct, completeRun_eq, headOpenFields_of_complete complete]; rfl)
  case airToFind =>
    refine ⟨fun ha => ⟨?air, ?hire, ?accounting, ?statements,
      ⟨fun slot r serial found => ?receiver, fun r first last found => ?slot⟩,
      ⟨fun a first last found => ?accountSlot, fun slot a number found => ?account⟩, fun b station found => ?batch,
      fun cls => ?tariff⟩, fun ha slot r serial found => ?find⟩
    case air => exact reading_of_admitted ha rfl (by simp [airCounterFields, inRangeStatus])
    case hire => exact reading_of_admitted ha rfl (by simp [hireCounterFields, receiversIn, Config.receivers])
    case accounting => exact reading_of_admitted ha rfl (by simp [acctCounterFields, dutyCounterFields]; rfl)
    case statements => exact reading_of_admitted ha rfl rfl
    case receiver =>
      exact entry_read ha (readReceiver_number_eq n _) serial found (by simp [receiverFields, rackFields, placeInList]; rfl)
    case slot =>
      exact entry_read ha (readReceiver_slot_eq n _) (within_iff.mpr ⟨first, last⟩) found
        (by simp [receiverFields, rackFields, placeInList]; rfl)
    case accountSlot =>
      exact entry_read ha (readAccount_slot_eq n _) (within_iff.mpr ⟨first, last⟩) found
        (by simp [accountFields, pendingFor_eq, lostFor_eq, batchFor])
    case account =>
      exact entry_read ha (readAccount_number_eq n _) number found
        (by simp [accountFields, pendingFor_eq, lostFor_eq, batchFor])
    case batch => exact entry_read ha (readBatch_eq n _) station found (by simp)
    case tariff => exact record_read ha rfl (by simp [isClass, cls]) rfl
    case find => exact entry_read ha (findReceiver_eq n _) serial found (by simp [rackFields])
  case refusals =>
    exact ⟨fun ha =>
      ⟨record_range ha rfl, fun out => record_range ha rfl (by simp [out]), fun out => record_range ha rfl (by simp [out]),
        fun out => record_range ha rfl (by simp [isClass, out]),
        fun out => ⟨entry_range ha (readStation_eq n _) out, entry_range ha (readBatch_eq n _) out⟩,
        entry_notFound ha (readStation_eq n _), entry_notFound ha (readBatch_eq n _),
        entry_range ha (readReceiver_number_eq n _), entry_notFound ha (readReceiver_number_eq n _),
        fun out => entry_range ha (readReceiver_slot_eq n _) (not_within_iff.mpr out),
        fun first last => entry_notFound ha (readReceiver_slot_eq n _) (within_iff.mpr ⟨first, last⟩),
        entry_range ha (readAccount_number_eq n _), entry_notFound ha (readAccount_number_eq n _),
        fun out => entry_range ha (readAccount_slot_eq n _) (not_within_iff.mpr out),
        fun first last => entry_notFound ha (readAccount_slot_eq n _) (within_iff.mpr ⟨first, last⟩),
        request_of_admitted ha rfl⟩,
      fun ha => ⟨entry_range ha (findReceiver_eq n _), entry_notFound ha (findReceiver_eq n _)⟩⟩
  case clockToCounters =>
    refine ⟨?clock, ?supply, reading_of_admitted ha rfl rfl, fun e station found =>
      ⟨fun masked => entry_read ha (readStation_eq n _) station found (stationFields_masked masked n),
        fun bare => entry_read ha (readStation_eq n _) station found (stationFields_bare bare n)⟩,
      reading_of_admitted ha rfl rfl, reading_of_admitted ha rfl ?counters⟩
    case clock =>
      exact reading_of_admitted ha rfl
        (by simp only [alarmFields, List.append_assoc, List.cons_append, List.nil_append]; rfl)
    case supply => exact reading_of_admitted ha rfl (by simp only [List.append_assoc, List.cons_append, List.nil_append]; rfl)
    case counters =>
      cases g with
      | consoles | channels | channelMinutes => simp only [List.map_append, List.map_flatten, List.map_map]; rfl
      | air => simp [counterFields, airCounterFields]
      | _ => rfl

end Sys2Proof.Machine
